-- ==== Sys2Proof/Word.lean ====
section
/-! DEFINITION. The word of the line link: one character value, and the sets that travel as bits. -/

namespace Sys2Proof

/-- The value of one character on the line link, 0 to 255 (R177). -/
abbrev Byte := BitVec 8

/-- A set of zones: bit z stands for zone z + 1 (R195: zones 1 to 4 use bits 0 to 3). -/
abbrev ZoneSet := BitVec 4

/-- A set of event classes: bit k stands for class k (R195, section 10.7). -/
abbrev EventSet := BitVec 14

/-- A set of trip causes: bit k stands for the cause numbered k, 1 to 9 (R195, R198). -/
abbrev CauseSet := BitVec 10

end Sys2Proof
end

