-- ==== Sys2Proof/Config.lean ====
section
/-! DEFINITION. What the manual leaves open, as constants with no body (free values). -/

namespace Sys2Proof

/-- Which of two events that meet at one web count is taken second-listed first: R29, R72, R89 and R172 allow
either order and give different outcomes. The step applies it to a counter of State (log entry 4). -/
opaque Config.laterFirst : Nat → Bool

/-- What a reply field of the given width carries for a value its width cannot hold: R195 says only that such
a number cannot be carried (log entry 11). -/
opaque Config.wideField : Nat → Nat → Nat

end Sys2Proof
end

