-- ==== Sys2Proof/Syntax.lean ====
section
/-! DEFINITION. The commands of the block: one constructor of Instr for each row of spec/opcode_table.json, and the
fields that requests carry, as numbers before any range check. -/

namespace Sys2Proof

/-- The two encoders (R1). -/
inductive Encoder where
  | web | belt
  deriving DecidableEq, Repr

/-- The two step generators (R111). -/
inductive StepOutput where
  | infeed | belt
  deriving DecidableEq, Repr

/-- The two unwind stands (R152). -/
inductive UnwindId where
  | A | B
  deriving DecidableEq, Repr

/-- The channel pair of an encoder (R1). -/
structure ChannelPair where
  a : Bool
  b : Bool
  deriving DecidableEq, Repr

/-- How a request reached the part: addressed to its station with a tag to echo, or broadcast (R181, R182). -/
inductive Source where
  | addressed (tag : Byte)
  | broadcast
  deriving DecidableEq, Repr

/-- What a power-on or RESET-pin reset reads: the straps (R177) and the first samples of the inputs and
encoders (R1, R74, R75, R98, R105, R173). -/
structure PowerOnSamples where
  stationStraps : Fin 32
  baudStraps : Fin 4
  eStop : Bool
  webBreak : Bool
  takeOffHold : Bool
  bladeHome : Bool
  mark : Bool
  pasteConfirm : Bool
  cutConfirm : Bool
  webPair : ChannelPair
  beltPair : ChannelPair
  deriving DecidableEq, Repr

/-- The 38 fields of SET-GEOMETRY in number order, as carried (R9). -/
structure GeometryFields where
  s : Nat
  sb : Nat
  webSense : Nat
  beltSense : Nat
  ms : Nat
  h : Nat
  reverseLimit : Nat
  commitHorizon : Nat
  minPitch : Nat
  bladeSlow : Nat
  bladeTimeout : Nat
  minBar : Nat
  wideThreshold : Nat
  groupGap : Nat
  rampStep : Nat
  tripRampStep : Nat
  infeedSteps : Nat
  beltSteps : Nat
  starveThreshold : Nat
  starveHysteresis : Nat
  ce : Nat
  zs1 : Nat
  ze1 : Nat
  zs2 : Nat
  ze2 : Nat
  zs3 : Nat
  ze3 : Nat
  zs4 : Nat
  ze4 : Nat
  cx : Nat
  takeOff : Nat
  dArm : Nat
  dLast : Nat
  dCore : Nat
  seamMargin : Nat
  armLead : Nat
  pasteTimeout : Nat
  cutTimeout : Nat
  deriving DecidableEq, Repr

/-- Fields 1 to 15 of a LOAD-PANEL in number order, as carried (R17). -/
structure PanelFields where
  garment : Nat
  first : Nat
  last : Nat
  kind : Nat
  pleats : Nat
  f0 : Nat
  d0 : Nat
  df : Int
  dd : Int
  gap : Nat
  direction : Nat
  registered : Nat
  entry : Nat
  offset : Nat
  window : Nat
  deriving DecidableEq, Repr

/-- Fields 1 to 11 of a SET-RECIPE in number order, as carried (R132). -/
structure RecipeFields where
  index : Nat
  setpoint1 : Nat
  setpoint2 : Nat
  setpoint3 : Nat
  setpoint4 : Nat
  band : Nat
  standby : Nat
  dmin : Nat
  dmax : Nat
  minPressure : Nat
  settle : Nat
  deriving DecidableEq, Repr

/-- The 29 requests of section 10.6 with the fields their payloads carry. -/
inductive Request where
  | identify
  | readLink (clear : Nat)
  | setLimits (maxTemp maxSpeed minDwell : Nat)
  | setGeometry (g : GeometryFields)
  | setRecipe (r : RecipeFields)
  | setZoneTuning (zone kp ki : Nat)
  | setMarkCode (entry enabled count code mask : Nat)
  | setEventMask (mask classes : Nat)
  | loadPanel (slot : Nat) (p : PanelFields)
  | cancelPanel (slot : Nat)
  | releasePanel (slot : Nat)
  | readPanel (slot : Nat)
  | readRing
  | start
  | stop
  | setSpeed (speed : Nat)
  | trip
  | clearTrip
  | lineReset
  | readLine
  | heatOn
  | heatOff
  | readHeat (recipe : Nat)
  | rollReady (unwind diameter recipe threaded : Nat)
  | rollRemoved (unwind : Nat)
  | readRolls
  | readTracking (index : Nat)
  | readEvents (index : Nat)
  | ackEvents (classes : Nat)
  deriving DecidableEq, Repr

/-- The commands of the block, one for each row of spec/opcode_table.json. -/
inductive Instr where
  | powerOnReset (p : PowerOnSamples)
  | encoderChange (e : Encoder) (pair : ChannelPair)
  | commit
  | searchSetup
  | strokeGenerate
  | markEdge (active : Bool)
  | bladeHomeChange (active : Bool)
  | bladeSlowTime
  | bladeTimeout
  | eStop
  | webBreak
  | takeOffHoldChange (active : Bool)
  | revolutionMarkerEdge (u : UnwindId) (elapsedUs : Nat)
  | pasteConfirm
  | cutConfirm
  | pasteTimeout
  | cutTimeout
  | rampTimer
  | stepPeriodEnd (g : StepOutput)
  | scan (t1 t2 t3 t4 pressure : Fin 4096)
  | settleComplete (z : Fin 4)
  | stopTimerFire
  | controlStep
  | valveBoundary
  | valveOnTimeEnd (z : Fin 4)
  | addressCharacter (v : Byte)
  | dataCharacter (v : Byte)
  | framingError
  | gapTimeout
  | replySent
  | identify (src : Source)
  | readLink (src : Source) (clear : Nat)
  | setLimits (src : Source) (maxTemp maxSpeed minDwell : Nat)
  | setGeometry (src : Source) (g : GeometryFields)
  | setRecipe (src : Source) (r : RecipeFields)
  | setZoneTuning (src : Source) (zone kp ki : Nat)
  | setMarkCode (src : Source) (entry enabled count code mask : Nat)
  | setEventMask (src : Source) (mask classes : Nat)
  | loadPanel (src : Source) (slot : Nat) (p : PanelFields)
  | cancelPanel (src : Source) (slot : Nat)
  | releasePanel (src : Source) (slot : Nat)
  | readPanel (src : Source) (slot : Nat)
  | readRing (src : Source)
  | start (src : Source)
  | stop (src : Source)
  | setSpeed (src : Source) (speed : Nat)
  | trip (src : Source)
  | clearTrip (src : Source)
  | lineReset (src : Source)
  | readLine (src : Source)
  | heatOn (src : Source)
  | heatOff (src : Source)
  | readHeat (src : Source) (recipe : Nat)
  | rollReady (src : Source) (unwind diameter recipe threaded : Nat)
  | rollRemoved (src : Source) (unwind : Nat)
  | readRolls (src : Source)
  | readTracking (src : Source) (index : Nat)
  | readEvents (src : Source) (index : Nat)
  | ackEvents (src : Source) (classes : Nat)
  | eStopReleased
  | webBreakReleased
  | pasteConfirmInactive
  | cutConfirmInactive
  deriving DecidableEq, Repr

end Sys2Proof
end

