-- ==== Sys2Proof/Machine/State.lean ====
section
/-! DEFINITION. The state of the block as plain data, block by block (00 Blocks), and its value right after reset. -/

namespace Sys2Proof.Machine

/-- The panel kinds (R17). -/
inductive PanelKind where
  | knife | box | flat
  deriving DecidableEq, Repr

/-- The blade directions (R17). -/
inductive Direction where
  | left | right
  deriving DecidableEq, Repr

/-- The slot states (R19). -/
inductive SlotState where
  | free | queued | committed | active | setting | done
  deriving DecidableEq, Repr

/-- The registration result of a slot status record; absence is `none` (R21). -/
inductive Registered where
  | notRequired
  | searching
  | registered (m : Nat)
  | lost
  deriving DecidableEq, Repr

/-- The part of a pleat a stroke gathers (R39, R49). -/
inductive StrokePart where
  | whole | firstHalf | secondHalf
  deriving DecidableEq, Repr

/-- The blade states (R57). -/
inductive BladeState where
  | home | away | fired | returning
  deriving DecidableEq, Repr

/-- The line states (R92). -/
inductive LineState where
  | unconfigured | stopped | running | stopping | tripped
  deriving DecidableEq, Repr

/-- The nine trip causes (R105). -/
inductive Cause where
  | eStop | webBreak | encoder | reverse | stroke | heat | rollOut | spliceFail | link
  deriving DecidableEq, Repr

/-- The zone states (R134). -/
inductive ZoneState where
  | off | warming | inBand | outOfBand | standby | fault
  deriving DecidableEq, Repr

/-- The fault causes of a zone (R139). -/
inductive FaultCause where
  | openSensor | overTemperature
  deriving DecidableEq, Repr

/-- The states of an unwind record (R152). -/
inductive UnwindState where
  | empty | loaded | spinning | matched | pasting | running | low | cutting | spent
  deriving DecidableEq, Repr

/-- The kind of a splice (R166). -/
inductive SpliceKind where
  | planned | forced
  deriving DecidableEq, Repr

/-- The phase of a splice (R166). -/
inductive SplicePhase where
  | paste | cut
  deriving DecidableEq, Repr

/-- The fourteen event classes (section 10.7). -/
inductive EventClass where
  | panelDone | garmentDone | patternLow | patternEmpty | markFault | regLost | strokeFault
  | zone | dwell | rollLow | spliceDone | spliceFail | trip | link
  deriving DecidableEq, Repr

/-- The reasons of a REFUSED reply (R184). -/
inductive Reason where
  | state | slot | range | geometry | noGeom | noLimits | locked | heat | roll | blade | inUse
  deriving DecidableEq, Repr

/-- What the owner of a request gives LI: the status and the reply payload (R181, R184). The payload of a
refusal is the reason and its detail (R198). -/
inductive Answer where
  | done (payload : List Byte)
  | doneMore (payload : List Byte)
  | unknown
  | refused (reason : Reason) (detail : List Nat)
  deriving DecidableEq, Repr

/-- PC: the position counters and the last channel pair seen on each encoder (R1, R3, R4, R6). -/
structure PositionCounters where
  webPosition : Nat
  beltPosition : Nat
  highWater : Nat
  webPair : ChannelPair
  beltPair : ChannelPair
  deriving DecidableEq, Repr

/-- The geometry record: valid or invalid, and its fields as given (R8, R9). The counts of R10 are functions of
the fields. -/
structure GeometryRecord where
  valid : Bool
  given : GeometryFields
  deriving DecidableEq, Repr

/-- The commissioning limits (R14). -/
structure Limits where
  isSet : Bool
  maxTemp : Nat
  maxSpeed : Nat
  minDwell : Nat
  deriving DecidableEq, Repr

/-- The registration part of a panel record (R18). -/
structure RegistrationPart where
  entry : Fin 6
  offset : Nat
  window : Nat
  deriving DecidableEq, Repr

/-- A panel record (R17). -/
structure PanelRecord where
  garment : Nat
  first : Bool
  last : Bool
  kind : PanelKind
  pleats : Nat
  f0 : Nat
  d0 : Nat
  df : Int
  dd : Int
  gap : Nat
  direction : Direction
  registration : Option RegistrationPart
  deriving DecidableEq, Repr

/-- A slot status record (R21). The planned count is gap counts plus panel counts. -/
structure SlotStatus where
  state : SlotState
  gapCounts : Nat
  panelCounts : Nat
  start : Option Nat
  endPos : Option Nat
  registration : Option Registered
  marksSkipped : Nat
  fired : Nat
  missed : Nat
  beltHead : Option Nat
  beltTail : Option Nat
  underSet : ZoneSet
  overDwell : Bool
  splice : Bool
  garmentBreak : Bool
  deriving DecidableEq, Repr

/-- A slot of the panel ring (R16). -/
structure Slot where
  panel : PanelRecord
  status : SlotStatus
  deriving DecidableEq, Repr

/-- A stroke record (R49). -/
structure StrokeRecord where
  position : Nat
  direction : Direction
  slot : Fin 32
  pleat : Nat
  part : StrokePart
  last : Bool
  q : Nat
  deriving DecidableEq, Repr

/-- The generator while it works on a panel (R51). -/
structure Generator where
  slot : Fin 32
  pleat : Nat
  secondHalf : Bool
  residue : Nat
  position : Nat
  deriving DecidableEq, Repr

/-- The search record of a registered panel, with the base it keeps (R85, R47). -/
structure SearchRecord where
  slot : Fin 32
  entry : Fin 6
  offset : Nat
  window : Nat
  base : Nat
  earliest : Nat
  loss : Nat
  deriving DecidableEq, Repr

/-- PS: commit pointer, last committed end, open-garment state, generator, stroke queue and search (R56, R31). -/
structure Sequencer where
  commitPointer : Fin 32
  lastEnd : Option Nat
  openGarment : Option Nat
  generator : Option Generator
  strokes : List StrokeRecord
  search : Option SearchRecord
  deriving DecidableEq, Repr

/-- The stroke-in-flight record (R57). -/
structure StrokeInFlight where
  slot : Fin 32
  pleat : Nat
  part : StrokePart
  direction : Direction
  position : Nat
  time : Nat
  slowTime : Nat
  timeout : Nat
  notified : Bool
  deriving DecidableEq, Repr

/-- BU: blade state, stroke in flight, consecutive misses (R57, R64); `bladeOut` and `strokeCommands` show the
BLADE-OUT output (log entry 13). -/
structure Blade where
  state : BladeState
  inFlight : Option StrokeInFlight
  misses : Nat
  bladeOut : Option Direction
  strokeCommands : Nat
  deriving DecidableEq, Repr

/-- An open bar group (R75). -/
structure Group where
  first : Nat
  lastTrailing : Nat
  count : Nat
  bits : Nat
  overlong : Bool
  deriving DecidableEq, Repr

/-- The bar measurement state with what each state holds (R75). -/
inductive BarState where
  | idle
  | inBar (lead : Nat) (group : Option Group)
  | inSpace (group : Group)
  | waitLight
  deriving DecidableEq, Repr

/-- An entry of the mark code table (section 5.3). -/
structure CodeEntry where
  enabled : Bool
  count : Nat
  code : Nat
  mask : Nat
  deriving DecidableEq, Repr

/-- A mark record (R81). -/
structure Mark where
  entry : Fin 6
  m : Nat
  deriving DecidableEq, Repr

/-- RU: bar measurement, code table, mark queue, last mark position (R91). -/
structure Registrar where
  bar : BarState
  codes : Vector CodeEntry 6
  marks : List Mark
  lastMark : Option Nat
  deriving DecidableEq, Repr

/-- LG: line state, host speed, reference, reasons, freeze, trip record and step generators (R92, R114). A step
generator is idle (`none`) or has its period under way; the step counts show the step outputs (log entry 13). -/
structure Governor where
  lineState : LineState
  hostSpeed : Nat
  reference : Nat
  hold : Bool
  starve : Bool
  freeze : Option Nat
  deferredStop : Bool
  primary : Option Cause
  further : CauseSet
  infeedPeriod : Option Nat
  beltPeriod : Option Nat
  infeedSteps : Nat
  beltSteps : Nat
  deriving DecidableEq, Repr

/-- A record of the tracking queue (R115). A PANEL record is open while its tail is absent. -/
inductive TrackRecord where
  | panel (slot : Fin 32) (head : Nat) (tail : Option Nat)
  | seam (b : Nat) (recipe : Fin 8) (switched : ZoneSet)
  deriving DecidableEq, Repr

/-- TU: the tracking queue, oldest first, and the count of forced retirements (R129). -/
structure Tracker where
  records : List TrackRecord
  forced : Nat
  deriving DecidableEq, Repr

/-- The last four values converted on a channel, oldest first (R131). -/
structure Filter where
  w : Nat
  x : Nat
  y : Nat
  z : Nat
  deriving DecidableEq, Repr

/-- A temperature channel: its filter, empty until the first conversion, and its open condition (R130, R131). -/
structure TempChannel where
  filter : Option Filter
  openCondition : Bool
  deriving DecidableEq, Repr

/-- A recipe (R132). -/
structure Recipe where
  setpoints : Vector Nat 4
  band : Nat
  standby : Nat
  dmin : Nat
  dmax : Nat
  minPressure : Nat
  settle : Nat
  deriving DecidableEq, Repr

/-- A zone record with its valve and its tuning (R134, R141, R142). -/
structure Zone where
  state : ZoneState
  recipe : Option (Fin 8)
  settle : Option Nat
  integral : Nat
  duty : Nat
  onTime : Nat
  valveOpen : Bool
  fault : Option FaultCause
  kp : Nat
  ki : Nat
  deriving DecidableEq, Repr

/-- HU: channels, recipe table, zones, heat switch and stop timer (R151). -/
structure HeatUnit where
  temps : Vector TempChannel 4
  pressure : Option Filter
  recipes : Vector Recipe 8
  zones : Vector Zone 4
  heatOn : Bool
  stopElapsed : Nat
  stopFired : Bool
  deriving DecidableEq, Repr

/-- An unwind record (R152). The last capture is a web position for a feeding roll and a time for a spinning one. -/
structure Unwind where
  state : UnwindState
  recipe : Fin 8
  diameter : Nat
  lastCapture : Option Nat
  lastRev : Option Nat
  matchCount : Nat
  deriving DecidableEq, Repr

/-- The splice plan (R161). -/
structure SplicePlan where
  slot : Fin 32
  slotAfter : Fin 32
  target : Nat
  fire : Nat
  deriving DecidableEq, Repr

/-- The splice record (R166). The old unwind is the other one. -/
structure SpliceRecord where
  new : UnwindId
  kind : SpliceKind
  position : Nat
  phase : SplicePhase
  time : Nat
  timeout : Nat
  overdue : Bool
  deriving DecidableEq, Repr

/-- The seam-in-flight record (R174). -/
structure SeamInFlight where
  position : Nat
  recipe : Fin 8
  deriving DecidableEq, Repr

/-- UU: unwind records, splice plan, splice record, seam in flight and the microsecond timer (R176). -/
structure Rolls where
  a : Unwind
  b : Unwind
  plan : Option SplicePlan
  splice : Option SpliceRecord
  seam : Option SeamInFlight
  microTimer : Nat
  deriving DecidableEq, Repr

/-- The receiver of LI (R178); RECEIVING holds the frame buffer (the data characters taken) and whether the
frame is a broadcast. -/
inductive Receiver where
  | listen
  | receiving (broadcast : Bool) (buffer : List Byte)
  | replying
  deriving DecidableEq, Repr

/-- The pending reply (R182). -/
structure PendingReply where
  tag : Byte
  kind : Byte
  answer : Answer
  deriving DecidableEq, Repr

/-- The seven link counters (R185). -/
structure LinkCounters where
  accepted : Nat
  framing : Nat
  gap : Nat
  check : Nat
  length : Nat
  abandoned : Nat
  overrun : Nat
  deriving DecidableEq, Repr

/-- LI: receiver, pending reply, counters and the straps read at the last reset (R177, R194). -/
structure LinkInterface where
  receiver : Receiver
  pendingReply : Option PendingReply
  counters : LinkCounters
  stationStraps : Fin 32
  baudStraps : Fin 4
  deriving DecidableEq, Repr

/-- EU: the count of each class and the two masks; a class is pending while its count is at least 1 (R188, R189). -/
structure EventUnit where
  counts : Vector Nat 14
  mask1 : EventSet
  mask2 : EventSet
  deriving DecidableEq, Repr

/-- The levels of the field inputs as last seen; true is active. -/
structure Inputs where
  eStop : Bool
  webBreak : Bool
  takeOffHold : Bool
  bladeHome : Bool
  mark : Bool
  pasteConfirm : Bool
  cutConfirm : Bool
  deriving DecidableEq, Repr

/-- The whole block. `pending` is the queue of waiting commands; `races` counts the free choices of order read so
far (log entry 4). -/
structure State where
  pc : PositionCounters
  geometry : GeometryRecord
  limits : Limits
  slots : Vector Slot 32
  ps : Sequencer
  blade : Blade
  ru : Registrar
  lg : Governor
  tu : Tracker
  heat : HeatUnit
  rolls : Rolls
  link : LinkInterface
  events : EventUnit
  inputs : Inputs
  pending : List Instr
  races : Nat
  deriving DecidableEq, Repr

/-- The machine stops with no fault: trips, zone faults and link errors are effects on the state (INVENTORY,
Faults), so no meaning raises one. -/
inductive Fault
  deriving DecidableEq, Repr

/-- Why a command has no outcome. -/
inductive Refusal where
  /-- Raised by an arm of exec for a command with no meaning yet; safe. No arm raises it. -/
  | notModelled (mnemonic : String)
  deriving DecidableEq, Repr

/-- Every geometry field 0 (R8). -/
def zeroGeometry : GeometryFields :=
  { s := 0, sb := 0, webSense := 0, beltSense := 0, ms := 0, h := 0, reverseLimit := 0, commitHorizon := 0,
    minPitch := 0, bladeSlow := 0, bladeTimeout := 0, minBar := 0, wideThreshold := 0, groupGap := 0,
    rampStep := 0, tripRampStep := 0, infeedSteps := 0, beltSteps := 0, starveThreshold := 0,
    starveHysteresis := 0, ce := 0, zs1 := 0, ze1 := 0, zs2 := 0, ze2 := 0, zs3 := 0, ze3 := 0, zs4 := 0,
    ze4 := 0, cx := 0, takeOff := 0, dArm := 0, dLast := 0, dCore := 0, seamMargin := 0, armLead := 0,
    pasteTimeout := 0, cutTimeout := 0 }

/-- A panel record cleared by a reset (R34). -/
def clearedPanel : PanelRecord :=
  { garment := 0, first := false, last := false, kind := .knife, pleats := 0, f0 := 0, d0 := 0, df := 0,
    dd := 0, gap := 0, direction := .left, registration := none }

/-- A slot status record cleared into FREE (R22). -/
def clearedStatus : SlotStatus :=
  { state := .free, gapCounts := 0, panelCounts := 0, start := none, endPos := none, registration := none,
    marksSkipped := 0, fired := 0, missed := 0, beltHead := none, beltTail := none, underSet := 0,
    overDwell := false, splice := false, garmentBreak := false }

/-- A slot as a reset leaves it (R34, R35). -/
def clearedSlot : Slot := { panel := clearedPanel, status := clearedStatus }

/-- PS as a reset leaves it (R56, R31). -/
def clearedSequencer : Sequencer :=
  { commitPointer := 0, lastEnd := none, openGarment := none, generator := none, strokes := [], search := none }

/-- A recipe as a power-on reset leaves it: every field 0 (R132). -/
def zeroRecipe : Recipe :=
  { setpoints := Vector.replicate 4 0, band := 0, standby := 0, dmin := 0, dmax := 0, minPressure := 0,
    settle := 0 }

/-- A zone as a power-on reset leaves it (R151, R142). -/
def resetZone : Zone :=
  { state := .off, recipe := none, settle := none, integral := 0, duty := 0, onTime := 0, valveOpen := false,
    fault := none, kp := 20, ki := 2 }

/-- An EMPTY unwind (R154, R176). -/
def emptyUnwind : Unwind :=
  { state := .empty, recipe := 0, diameter := 0, lastCapture := none, lastRev := none, matchCount := 0 }

/-- Every link counter 0 (R185). -/
def zeroCounters : LinkCounters :=
  { accepted := 0, framing := 0, gap := 0, check := 0, length := 0, abandoned := 0, overrun := 0 }

/-- The samples State.reset takes: station strap 1, baud strap 0, every input inactive but BLADE-HOME, both
channel pairs (0, 0). DESIGN CHOICE, unsafe (log entry 9): the spec leaves the levels outside to the field. -/
def quietSamples : PowerOnSamples :=
  { stationStraps := 1, baudStraps := 0, eStop := false, webBreak := false, takeOffHold := false,
    bladeHome := true, mark := false, pasteConfirm := false, cutConfirm := false,
    webPair := { a := false, b := false }, beltPair := { a := false, b := false } }

/-- The block right after a power-on reset that took the samples `p`, before any trip an active E-STOP or
WEB-BREAK sample gives (R7, R8, R14, R34, R56, R74, R91, R114, R129, R151, R176, R194). -/
def coldState (p : PowerOnSamples) : State :=
  { pc := { webPosition := 0, beltPosition := 0, highWater := 0, webPair := p.webPair, beltPair := p.beltPair }
    geometry := { valid := false, given := zeroGeometry }
    limits := { isSet := false, maxTemp := 0, maxSpeed := 0, minDwell := 0 }
    slots := Vector.replicate 32 clearedSlot
    ps := clearedSequencer
    blade := { state := if p.bladeHome then .home else .away, inFlight := none, misses := 0, bladeOut := none,
               strokeCommands := 0 }
    ru := { bar := if p.mark then .waitLight else .idle,
            codes := Vector.replicate 6 { enabled := false, count := 1, code := 0, mask := 0 },
            marks := [], lastMark := none }
    lg := { lineState := .unconfigured, hostSpeed := 0, reference := 0, hold := p.takeOffHold, starve := true,
            freeze := none, deferredStop := false, primary := none, further := 0, infeedPeriod := none,
            beltPeriod := none, infeedSteps := 0, beltSteps := 0 }
    tu := { records := [], forced := 0 }
    heat := { temps := Vector.replicate 4 { filter := none, openCondition := false }, pressure := none,
              recipes := Vector.replicate 8 zeroRecipe, zones := Vector.replicate 4 resetZone, heatOn := false,
              stopElapsed := 0, stopFired := false }
    rolls := { a := emptyUnwind, b := emptyUnwind, plan := none, splice := none, seam := none, microTimer := 0 }
    link := { receiver := .listen, pendingReply := none, counters := zeroCounters,
              stationStraps := p.stationStraps, baudStraps := p.baudStraps }
    events := { counts := Vector.replicate 14 0, mask1 := 0, mask2 := 0 }
    inputs := { eStop := p.eStop, webBreak := p.webBreak, takeOffHold := p.takeOffHold, bladeHome := p.bladeHome,
                mark := p.mark, pasteConfirm := p.pasteConfirm, cutConfirm := p.cutConfirm }
    pending := []
    races := 0 }

/-- The machine right after reset (R194 and the reset tables of every chapter). -/
def State.reset : State := coldState quietSamples

end Sys2Proof.Machine
end

