-- ==== Sys2Proof/Machine/Ops.lean ====
section
/-! DEFINITION. The shared operations: rounding and conversions, events, access to slots and zones, quality marks. -/

namespace Sys2Proof.Machine

/-! ### Arithmetic (00 Conventions) -/

/-- Round half up: half the divisor, rounded down, is added to the dividend, and the remainder of the division
is dropped (00 Round half up). -/
def roundHalfUp (n d : Nat) : Nat := (n + d / 2) / d

/-- A counter that holds at its maximum (00 Saturating counters). -/
def countUp (cap n : Nat) : Nat := min cap (n + 1)

/-- The top of both position ranges (R3, R6). -/
def topPosition : Nat := 140737488355327

/-- Millimetres to counts at `scale` counts per metre (00 Conversions, R10). -/
def countsOfMm (x scale : Nat) : Nat := roundHalfUp (x * scale) 1000

/-- Hundredths of a millimetre to counts at `scale` counts per metre (00 Conversions, R10). -/
def countsOfHundredths (x scale : Nat) : Nat := roundHalfUp (x * scale) 100000

/-- The zones 1 to 4, numbered 0 to 3. -/
def allZones : List (Fin 4) := [0, 1, 2, 3]

/-- The slots in ring order from slot `k`, each once (R16). -/
def ringFrom (k : Fin 32) : List (Fin 32) := (List.finRange 32).map fun i => k + i

/-- Zone z as a one-member set (R195). -/
def zoneBit (z : Fin 4) : ZoneSet := BitVec.twoPow 4 z.val

/-- The number a set travels as: member k stands for 2 to the power k (R195). -/
def numberOfBits (bs : List Bool) : Nat :=
  bs.foldr (fun b acc => 2 * acc + b.toNat) 0

/-! ### The counts of the geometry (R10) -/

/-- Ms in web counts. -/
def msCounts (g : GeometryFields) : Nat := countsOfMm g.ms g.s
/-- H in web counts. -/
def hCounts (g : GeometryFields) : Nat := countsOfMm g.h g.s
/-- The reverse limit in web counts. -/
def reverseLimitCounts (g : GeometryFields) : Nat := countsOfMm g.reverseLimit g.s
/-- The commit horizon in web counts. -/
def horizonCounts (g : GeometryFields) : Nat := countsOfMm g.commitHorizon g.s
/-- The starve threshold in web counts. -/
def starveCounts (g : GeometryFields) : Nat := countsOfMm g.starveThreshold g.s
/-- The starve hysteresis in web counts. -/
def hysteresisCounts (g : GeometryFields) : Nat := countsOfMm g.starveHysteresis g.s
/-- The arm lead in web counts. -/
def armLeadCounts (g : GeometryFields) : Nat := countsOfMm g.armLead g.s
/-- The minimum stroke pitch in web counts. -/
def pitchCounts (g : GeometryFields) : Nat := countsOfHundredths g.minPitch g.s
/-- The minimum bar width in web counts. -/
def minBarCounts (g : GeometryFields) : Nat := countsOfHundredths g.minBar g.s
/-- The wide threshold in web counts. -/
def wideCounts (g : GeometryFields) : Nat := countsOfHundredths g.wideThreshold g.s
/-- The group gap in web counts. -/
def groupGapCounts (g : GeometryFields) : Nat := countsOfHundredths g.groupGap g.s
/-- The seam margin in web counts. -/
def seamMarginCounts (g : GeometryFields) : Nat := countsOfHundredths g.seamMargin g.s
/-- Ce in belt counts. -/
def ceCounts (g : GeometryFields) : Nat := countsOfMm g.ce g.sb
/-- Cx in belt counts. -/
def cxCounts (g : GeometryFields) : Nat := countsOfMm g.cx g.sb
/-- To in belt counts. -/
def toCounts (g : GeometryFields) : Nat := countsOfMm g.takeOff g.sb
/-- Zs_z in belt counts. -/
def zsCounts (g : GeometryFields) (z : Fin 4) : Nat :=
  countsOfMm (match z with | 0 => g.zs1 | 1 => g.zs2 | 2 => g.zs3 | 3 => g.zs4) g.sb
/-- Ze_z in belt counts. -/
def zeCounts (g : GeometryFields) (z : Fin 4) : Nat :=
  countsOfMm (match z with | 0 => g.ze1 | 1 => g.ze2 | 2 => g.ze3 | 3 => g.ze4) g.sb
/-- The midpoint of zone z in belt counts (R124). -/
def midpoint (g : GeometryFields) (z : Fin 4) : Nat := (zsCounts g z + zeCounts g z) / 2
/-- The chamber length C in millimetres (R10). -/
def chamberLength (g : GeometryFields) : Nat := g.cx - g.ce

/-! ### Events (R188) -/

/-- The number of a class (section 10.7). -/
def EventClass.index : EventClass → Fin 14
  | .panelDone => 0
  | .garmentDone => 1
  | .patternLow => 2
  | .patternEmpty => 3
  | .markFault => 4
  | .regLost => 5
  | .strokeFault => 6
  | .zone => 7
  | .dwell => 8
  | .rollLow => 9
  | .spliceDone => 10
  | .spliceFail => 11
  | .trip => 12
  | .link => 13

/-- How many times a class has been raised since it was last cleared (R188). -/
def State.eventCount (s : State) (c : EventClass) : Nat := s.events.counts[c.index.val]'c.index.isLt

/-- A block raises a class: its count rises, holding at 255, which makes it pending (R188). -/
def raise (c : EventClass) (s : State) : State :=
  { s with events := { s.events with
      counts := s.events.counts.set c.index.val (countUp 255 (s.eventCount c)) c.index.isLt } }

/-- The members of the pending set, class 0 first (R188). -/
def State.pendingBits (s : State) : List Bool :=
  s.events.counts.toList.map fun n => decide (0 < n)

/-- An attention output: asserted exactly when a pending class is enabled in its mask (R189). -/
def attention (mask : EventSet) (s : State) : Bool :=
  (List.finRange 14).any fun i => mask.getLsbD i.val && decide (0 < s.events.counts[i.val]'i.isLt)

/-! ### Slots, zones and unwinds -/

/-- Slot k. -/
def State.slot (s : State) (k : Fin 32) : Slot := s.slots[k.val]'k.isLt

/-- The panel record of slot k. -/
def State.panelOf (s : State) (k : Fin 32) : PanelRecord := (s.slot k).panel

/-- The slot status record of slot k. -/
def State.status (s : State) (k : Fin 32) : SlotStatus := (s.slot k).status

/-- Slot k replaced. -/
def setSlot (k : Fin 32) (x : Slot) (s : State) : State :=
  { s with slots := s.slots.set k.val x k.isLt }

/-- The status record of slot k changed by `f`. -/
def modifyStatus (k : Fin 32) (f : SlotStatus → SlotStatus) (s : State) : State :=
  setSlot k { panel := s.panelOf k, status := f (s.status k) } s

/-- Zone z. -/
def State.zone (s : State) (z : Fin 4) : Zone := s.heat.zones[z.val]'z.isLt

/-- Zone z changed by `f`. -/
def modifyZone (z : Fin 4) (f : Zone → Zone) (s : State) : State :=
  { s with heat := { s.heat with zones := s.heat.zones.set z.val (f (s.zone z)) z.isLt } }

/-- Recipe r of the table. -/
def State.recipe (s : State) (r : Fin 8) : Recipe := s.heat.recipes[r.val]'r.isLt

/-- The recipe's setpoint for zone z. -/
def Recipe.setpoint (r : Recipe) (z : Fin 4) : Nat := r.setpoints[z.val]'z.isLt

/-- The other stand. -/
def otherStand : UnwindId → UnwindId
  | .A => .B
  | .B => .A

/-- The unwind record of a stand. -/
def State.unwind (s : State) : UnwindId → Unwind
  | .A => s.rolls.a
  | .B => s.rolls.b

/-- The unwind record of a stand changed by `f`. -/
def modifyUnwind (u : UnwindId) (f : Unwind → Unwind) (s : State) : State :=
  match u with
  | .A => { s with rolls := { s.rolls with a := f s.rolls.a } }
  | .B => { s with rolls := { s.rolls with b := f s.rolls.b } }

/-! ### Quality marks (R29) -/

/-- A quality mark aimed at slot k: applied while the slot is ACTIVE or SETTING, dropped otherwise (R29). -/
def aim (mark : SlotStatus → SlotStatus) (k : Fin 32) (s : State) : State :=
  match (s.status k).state with
  | .active | .setting => modifyStatus k mark s
  | .free | .queued | .committed | .done => s

/-- UNDER-SET(z) aimed at slot k (R29). -/
def aimUnderSet (z : Fin 4) (k : Fin 32) (s : State) : State :=
  aim (fun st => { st with underSet := st.underSet ||| zoneBit z }) k s

/-- OVER-DWELL aimed at slot k (R29). -/
def aimOverDwell (k : Fin 32) (s : State) : State :=
  aim (fun st => { st with overDwell := true }) k s

/-- SPLICE aimed at slot k (R29). -/
def aimSplice (k : Fin 32) (s : State) : State :=
  aim (fun st => { st with splice := true }) k s

/-! ### Free choice of order -/

/-- A free choice of order has been read: the next one is a new value (log entry 4). -/
def noteRace (s : State) : State := { s with races := s.races + 1 }

end Sys2Proof.Machine
end

