-- ==== Sys2Proof/Machine/Flags.lean ====
section
/-! DEFINITION. What the blocks work out from the state and hand to each other: limits, reasons, target, speeds,
periods, reserve, ratio, distances. Each is worked out again whenever a term changes by being a function of the
state (log entry 12). -/

namespace Sys2Proof.Machine

/-! ### The feeding roll and the recipes -/

/-- Whether an unwind feeds: RUNNING or LOW (R152). -/
def Unwind.feeds (u : Unwind) : Bool :=
  match u.state with
  | .running | .low => true
  | .empty | .loaded | .spinning | .matched | .pasting | .cutting | .spent => false

/-- The feeding roll, or none (R152). -/
def State.feeding (s : State) : Option UnwindId :=
  if s.rolls.a.feeds then some .A else if s.rolls.b.feeds then some .B else none

/-- The feeding roll's recipe, or none (R152). -/
def State.feedingRecipe (s : State) : Option (Fin 8) :=
  s.feeding.map fun u => (s.unwind u).recipe

/-- Whether recipe r uses zone z (R132). -/
def State.recipeUses (s : State) (r : Fin 8) (z : Fin 4) : Bool := (s.recipe r).setpoint z != 0

/-- Whether zone z's own recipe uses it. -/
def State.zoneUsed (s : State) (z : Fin 4) : Bool :=
  match (s.zone z).recipe with
  | some r => s.recipeUses r z
  | none => false

/-- The recipes assigned to the four zones (R145). -/
def State.zoneRecipes (s : State) : List (Fin 8) := allZones.filterMap fun z => (s.zone z).recipe

/-- A zone in WARMING, IN-BAND, OUT-OF-BAND or STANDBY (R134). -/
def Zone.controlled (zn : Zone) : Bool :=
  match zn.state with
  | .warming | .inBand | .outOfBand | .standby => true
  | .off | .fault => false

/-- The effective setpoint: the standby setpoint in STANDBY, the zone setpoint in the other controlled states, 0 without
a recipe (R134, section 11.5). A zone in OFF or FAULT with a recipe has none in the spec; its recipe's zone setpoint
stands for it: DESIGN CHOICE (log entry 20). -/
def State.effectiveSetpoint (s : State) (z : Fin 4) : Nat :=
  match (s.zone z).recipe with
  | some r => if (s.zone z).state = .standby then (s.recipe r).standby else (s.recipe r).setpoint z
  | none => 0

/-- The moving average of a filled filter (R131). -/
def Filter.value (f : Filter) : Nat := roundHalfUp (f.w + f.x + f.y + f.z) 4

/-- The temperature channel of zone z. -/
def State.channel (s : State) (z : Fin 4) : TempChannel := s.heat.temps[z.val]'z.isLt

/-- The zone temperature T, absent while its filter is empty (R131). -/
def State.temperature (s : State) (z : Fin 4) : Option Nat := (s.channel z).filter.map Filter.value

/-- The header pressure, absent while its filter is empty (R131). -/
def State.headerPressure (s : State) : Option Nat := s.heat.pressure.map Filter.value

/-- The fault cause present on zone z's channel: OPEN before OVER-TEMPERATURE (R139, R131). -/
def State.faultCause (s : State) (z : Fin 4) : Option FaultCause :=
  match (s.channel z).openCondition, s.temperature z with
  | true, _ => some .openSensor
  | false, none => some .openSensor
  | false, some t => if s.limits.isSet ∧ s.limits.maxTemp ≤ t then some .overTemperature else none

/-- Whether any zone is in FAULT (R139). -/
def State.anyFault (s : State) : Bool := allZones.any fun z => (s.zone z).state == .fault

/-- Whether every zone is OFF (R145). -/
def State.allOff (s : State) : Bool := allZones.all fun z => (s.zone z).state == .off

/-- The largest of a list of numbers, 0 for none. -/
def largest (ns : List Nat) : Nat := ns.foldl max 0

/-- The largest Dmin among the recipes of the zones and of the feeding roll (R144). -/
def State.largestDmin (s : State) : Nat :=
  largest ((s.zoneRecipes ++ s.feedingRecipe.toList).map fun r => (s.recipe r).dmin)

/-- The dwell limit, or none (R144). -/
def State.dwellLimit (s : State) : Option Nat :=
  if s.geometry.valid = false ∨ s.largestDmin = 0 then none
  else some (chamberLength s.geometry.given * 100 / s.largestDmin)

/-- The stop timer's limit in seconds; 0 stands for no limit (R145). -/
def State.stopLimit (s : State) : Nat :=
  largest (s.zoneRecipes.map fun r => (s.recipe r).dmax)

/-- Whether the stop timer is due to fire (R145). -/
def State.stopTimerDue (s : State) : Bool :=
  !s.heat.stopFired && decide (0 < s.stopLimit) && decide (s.stopLimit * 1000 ≤ s.heat.stopElapsed)

/-! ### The governor (R97 to R100) -/

/-- The ceiling: the smallest of HOST, LIMIT and DWELL (R97). -/
def State.ceiling (s : State) : Nat :=
  match s.dwellLimit with
  | some d => min (min s.lg.hostSpeed s.limits.maxSpeed) d
  | none => min s.lg.hostSpeed s.limits.maxSpeed

/-- The HEAT reason: a zone its recipe uses is WARMING or STANDBY (R98, R143). -/
def State.heatReason (s : State) : Bool :=
  allZones.any fun z =>
    ((s.zone z).state == .warming || (s.zone z).state == .standby) && s.zoneUsed z

/-- The oldest COMMITTED slot: the first met in ring order from the commit pointer (R67, R127). -/
def State.oldestCommitted (s : State) : Option (Fin 32) :=
  (ringFrom s.ps.commitPointer).find? fun k => (s.status k).state == .committed

/-- The start of the oldest COMMITTED slot. -/
def State.oldestStart (s : State) : Option Nat :=
  s.oldestCommitted.bind fun k => (s.status k).start

/-- How many records the tracking queue holds (R115). -/
def trackCapacity : Nat := 24

/-- The TRACK-FULL reason (R98, R127). -/
def State.trackFull (s : State) : Bool :=
  decide (trackCapacity ≤ s.tu.records.length) &&
    match s.oldestStart with
    | some start => decide (start ≤ s.pc.webPosition + horizonCounts s.geometry.given)
    | none => false

/-- A zero-limit reason other than HEAT is in force (R98, R147). -/
def State.otherZeroReason (s : State) : Bool := s.lg.hold || s.trackFull || s.lg.starve

/-- A zero-limit reason is in force (R98). -/
def State.zeroReason (s : State) : Bool := s.otherZeroReason || s.heatReason

/-- The target (R100). -/
def State.target (s : State) : Nat :=
  match s.lg.lineState, s.lg.freeze with
  | .running, some f => f
  | .stopping, some f => f
  | .running, none => if s.zeroReason then 0 else s.ceiling
  | .stopping, none => 0
  | .unconfigured, _ => 0
  | .stopped, _ => 0
  | .tripped, _ => 0

/-- The binding reasons as bits HOST, LIMIT, DWELL, HOLD, TRACK-FULL, HEAT, STARVE (R100, R198); they are those
that set the target in RUNNING without a freeze. -/
def State.bindingReasons (s : State) : List Bool :=
  match s.lg.lineState, s.lg.freeze with
  | .running, none =>
    [s.lg.hostSpeed == s.target, s.limits.maxSpeed == s.target, s.dwellLimit == some s.target,
      s.lg.hold, s.trackFull, s.heatReason, s.lg.starve]
  | _, _ => [false, false, false, false, false, false, false]

/-- The zero-limit reasons in force, as the same bits (R98, R198). -/
def State.zeroReasonBits (s : State) : List Bool :=
  [false, false, false, s.lg.hold, s.trackFull, s.heatReason, s.lg.starve]

/-- The number of a trip cause (R198). -/
def Cause.number : Cause → Nat
  | .eStop => 1
  | .webBreak => 2
  | .encoder => 3
  | .reverse => 4
  | .stroke => 5
  | .heat => 6
  | .rollOut => 7
  | .spliceFail => 8
  | .link => 9

/-- The immediate causes (R105). -/
def Cause.immediate : Cause → Bool
  | .eStop | .webBreak | .encoder => true
  | .reverse | .stroke | .heat | .rollOut | .spliceFail | .link => false

/-- Whether the trip record holds a cause, as primary or as a further cause (R106). -/
def State.holdsCause (s : State) (c : Cause) : Bool :=
  s.lg.primary == some c || s.lg.further.getLsbD c.number

/-- Whether the trip record holds an immediate cause (R66, R103). -/
def State.immediateTrip (s : State) : Bool :=
  s.holdsCause .eStop || s.holdsCause .webBreak || s.holdsCause .encoder

/-! ### The ratio and the feed (R71, R110 to R112) -/

/-- The take-up ratio BU hands LG, in thousandths (R71). -/
def State.ratio (s : State) : Nat :=
  match s.ps.strokes with
  | [] => 1000
  | head :: _ =>
    match (s.status head.slot).start with
    | some start => if start ≤ s.pc.webPosition then head.q else 1000
    | none => 1000

/-- The infeed speed u (R110). -/
def State.infeedSpeed (s : State) : Nat := roundHalfUp (s.lg.reference * s.ratio) 1000

/-- The step period for a speed and a number of steps per metre, in microseconds; none is idle (R111). -/
def stepPeriod (speed perMetre : Nat) : Option Nat :=
  if speed * perMetre < 160000 then none
  else some (min 65535 (max 20 (roundHalfUp 10000000000 (speed * perMetre))))

/-- The period the infeed generator would take now (R111, R8). -/
def State.infeedStepPeriod (s : State) : Option Nat :=
  if s.geometry.valid then stepPeriod s.infeedSpeed s.geometry.given.infeedSteps else none

/-- The period the belt generator would take now (R111, R8). -/
def State.beltStepPeriod (s : State) : Option Nat :=
  if s.geometry.valid then stepPeriod s.lg.reference s.geometry.given.beltSteps else none

/-! ### The pattern reserve (R54) -/

/-- The planned count of a slot (R42). -/
def SlotStatus.planned (st : SlotStatus) : Nat := st.gapCounts + st.panelCounts

/-- The committed pattern ahead of the web position (R44, R54 step 1). -/
def State.committedAhead (s : State) : Nat :=
  match s.ps.lastEnd with
  | some e => e - s.pc.webPosition
  | none => 0

/-- The pattern reserve in web counts (R54). -/
def State.reserve (s : State) : Nat :=
  s.committedAhead +
    (((ringFrom s.ps.commitPointer).takeWhile fun k => (s.status k).state == .queued).map
      fun k => (s.status k).planned).sum

/-! ### Belt distances (R116) -/

/-- The head distance of a PANEL record, or the distance of a SEAM record (R116). -/
def headDistance (belt : Nat) : TrackRecord → Int
  | .panel _ head _ => (belt : Int) - head
  | .seam b _ _ => (belt : Int) - b

/-- The tail distance of a PANEL record, 0 while it is open and for a SEAM (R116, section 11.5). -/
def tailDistance (belt : Nat) : TrackRecord → Int
  | .panel _ _ (some tail) => (belt : Int) - tail
  | .panel _ _ none => 0
  | .seam _ _ _ => 0

/-- Whether a record overlaps the belt distances from `lo` to `hi`; a SEAM overlaps nothing (R116, R115). -/
def overlaps (belt lo hi : Nat) (r : TrackRecord) : Bool :=
  match r with
  | .panel _ _ _ => decide ((lo : Int) ≤ headDistance belt r) && decide (tailDistance belt r ≤ (hi : Int))
  | .seam _ _ _ => false

/-- Whether a record overlaps zone z (R116). -/
def State.overlapsZone (s : State) (z : Fin 4) (r : TrackRecord) : Bool :=
  overlaps s.pc.beltPosition (zsCounts s.geometry.given z) (zeCounts s.geometry.given z) r

/-- Whether a record overlaps the chamber (R116). -/
def State.overlapsChamber (s : State) (r : TrackRecord) : Bool :=
  overlaps s.pc.beltPosition (ceCounts s.geometry.given) (cxCounts s.geometry.given) r

/-- The slot a PANEL record names. -/
def TrackRecord.slot? : TrackRecord → Option (Fin 32)
  | .panel k _ _ => some k
  | .seam _ _ _ => none

/-- The slots of the PANEL records that satisfy `p`, oldest first. -/
def State.panelSlots (s : State) (p : TrackRecord → Bool) : List (Fin 32) :=
  s.tu.records.filterMap fun r => if p r then r.slot? else none

/-! ### Outputs (R152, R166, R167) -/

/-- The SPIN output of a stand (R152). -/
def Unwind.spin (u : Unwind) : Bool :=
  match u.state with
  | .spinning | .matched | .pasting => true
  | .empty | .loaded | .running | .low | .cutting | .spent => false

/-- The SPLICE output: active from the fire to the end of phase PASTE (R166, R167, R168). -/
def State.spliceOutput (s : State) : Bool :=
  match s.rolls.splice with
  | some r => r.phase == .paste
  | none => false

/-- The CUT output: active in phase CUT (R167, R170, R171). -/
def State.cutOutput (s : State) : Bool :=
  match s.rolls.splice with
  | some r => r.phase == .cut
  | none => false

/-- A stroke is in flight (R57). -/
def State.strokeInFlight (s : State) : Bool := s.blade.inFlight.isSome

/-- A splice is in flight: the record is present and CUT-OVERDUE clear (R166). -/
def State.spliceInFlight (s : State) : Bool :=
  match s.rolls.splice with
  | some r => !r.overdue
  | none => false

/-- The station address, none when the straps read 0 or 31 (R177). -/
def State.station (s : State) : Option Byte :=
  if s.link.stationStraps = 0 ∨ s.link.stationStraps = 31 then none
  else some (BitVec.ofNat 8 s.link.stationStraps.val)

end Sys2Proof.Machine
end

