-- ==== Sys2Proof/Machine/Zones.lean ====
section
/-! DEFINITION. HU's shared operations on zones: leaving IN-BAND, standby and resumption, the stop timer, the recipe
switch and the ceiling it moves (R104, R138, R145 to R148). -/

namespace Sys2Proof.Machine

/-- TU aims UNDER-SET(z) at every PANEL record overlapping zone z (R121). -/
def markZonePanels (z : Fin 4) (s : State) : State :=
  (s.panelSlots (s.overlapsZone z)).foldl (fun s k => aimUnderSet z k s) s

/-- TU aims OVER-DWELL at every PANEL record overlapping the chamber (R121). -/
def markChamberPanels (s : State) : State :=
  (s.panelSlots s.overlapsChamber).foldl (fun s k => aimOverDwell k s) s

/-- Zone z leaves IN-BAND: its panels are marked and ZONE is raised (R138). -/
def leaveInBand (z : Fin 4) (s : State) : State := raise .zone (markZonePanels z s)

/-- Leaving IN-BAND where the zone was IN-BAND before the event, nothing otherwise (R138). -/
def leaveIfInBand (before : ZoneState) (z : Fin 4) (s : State) : State :=
  if before = .inBand then leaveInBand z s else s

/-- A STANDBY zone back in WARMING with its settle timer stopped (R147). -/
def resumedZone (zn : Zone) : Zone :=
  match zn.state with
  | .standby => { zn with state := .warming, settle := none }
  | .off | .warming | .inBand | .outOfBand | .fault => zn

/-- Every STANDBY zone becomes WARMING (R147, R94). -/
def resumeZones (s : State) : State :=
  allZones.foldl (fun s z => modifyZone z resumedZone s) s

/-- The resume test: the line RUNNING and no zero-limit reason other than HEAT in force (R147). -/
def resumeTest (s : State) : State :=
  if s.lg.lineState = .running ∧ s.otherZeroReason = false then resumeZones s else s

/-- Zone z goes to STANDBY as the stop timer fires (R146 step 2). -/
def standZone (s : State) (z : Fin 4) : State :=
  match (s.zone z).state with
  | .warming | .inBand | .outOfBand =>
    leaveIfInBand (s.zone z).state z (modifyZone z (fun zn => { zn with state := .standby, settle := none }) s)
  | .off | .standby | .fault => s

/-- The stop timer fires (R146). -/
def fireStopTimer (s : State) : State :=
  let s1 := { s with heat := { s.heat with stopFired := true } }
  resumeTest (raise .dwell (markChamberPanels (allZones.foldl standZone s1)))

/-- The stop timer is at 0 with its flag clear while the reference is not 0 or every zone is OFF (R145). -/
def restStopTimer (s : State) : State :=
  if s.lg.reference ≠ 0 ∨ s.allOff then
    { s with heat := { s.heat with stopElapsed := 0, stopFired := false } }
  else s

/-- The stop timer's limit has been worked out again: it fires if its time stands at or above it (R145). -/
def checkStopTimer (s : State) : State :=
  if (restStopTimer s).stopTimerDue then fireStopTimer (restStopTimer s) else restStopTimer s

/-- A zone taken to OFF: duty 0, valve closed at once, I 0, settle timer stopped (R148, R136). -/
def offZone (zn : Zone) : Zone :=
  { zn with state := .off, settle := none, integral := 0, duty := 0, onTime := 0, valveOpen := false }

/-- The zone record after a recipe switch to `r`, which uses the zone or leaves it unused (R148's table). -/
def switchedZone (used : Bool) (r : Fin 8) (zn : Zone) : Zone :=
  match zn.state, used with
  | .off, true => { zn with recipe := some r, state := .warming, settle := none, integral := 0, duty := 0 }
  | .off, false => { zn with recipe := some r }
  | .warming, true => { zn with recipe := some r, settle := none }
  | .outOfBand, true => { zn with recipe := some r, settle := none }
  | .inBand, true => { zn with recipe := some r, state := .outOfBand, settle := none }
  | .standby, true => { zn with recipe := some r }
  | .warming, false => offZone { zn with recipe := some r }
  | .outOfBand, false => offZone { zn with recipe := some r }
  | .inBand, false => offZone { zn with recipe := some r }
  | .standby, false => offZone { zn with recipe := some r }
  | .fault, _ => { zn with recipe := some r }

/-- The reference held under the ceiling, except during a freeze; a line in STOPPING whose reference becomes 0 is
STOPPED (R104, R103). -/
def clampReference (s : State) : State :=
  if s.lg.freeze = none ∧ s.ceiling < s.lg.reference then
    { s with lg := { s.lg with
        reference := s.ceiling
        lineState := if s.lg.lineState = .stopping ∧ s.ceiling = 0 then .stopped else s.lg.lineState } }
  else s

/-- Zone z's record switched to recipe r, its panels marked where it leaves IN-BAND (R148's table). -/
def switchRecord (z : Fin 4) (r : Fin 8) (s : State) : State :=
  leaveIfInBand (s.zone z).state z (modifyZone z (switchedZone (s.recipeUses r z) r) s)

/-- A recipe switch of zone z to recipe r (R148): LG takes the new dwell limit at once (R104), and the stop timer is
tested against its new limit (R145). -/
def switchZone (z : Fin 4) (r : Fin 8) (s : State) : State :=
  if s.heat.heatOn = false ∨ (s.zone z).recipe = some r then s
  else checkStopTimer (clampReference (switchRecord z r s))

/-- The four zones switched to recipe r by one event that switches them all (R148, R193): the stop timer is tested once,
against the limit the four leave. DESIGN CHOICE (log entry 21). -/
def switchAllZones (r : Fin 8) (s : State) : State :=
  if s.heat.heatOn = false ∨ ∀ z : Fin 4, (s.zone z).recipe = some r then s
  else
    checkStopTimer (clampReference (allZones.foldl
      (fun s z => if (s.zone z).recipe = some r then s else switchRecord z r s) s))

end Sys2Proof.Machine
end

