-- ==== Sys2Proof/Machine/Splice.lean ====
section
/-! DEFINITION. UU's shared operations: planning, firing and abandoning a splice (R161 to R169). -/

namespace Sys2Proof.Machine

/-- The unwind that is MATCHED, if one is (R152: at most one). -/
def State.matchedRoll (s : State) : Option UnwindId :=
  if s.rolls.a.state = .matched then some .A else if s.rolls.b.state = .matched then some .B else none

/-- The LOW roll and the other roll in MATCHED: the pair that may splice (R161). -/
def State.splicePair (s : State) : Bool :=
  (s.rolls.a.state == .low && s.rolls.b.state == .matched) ||
    (s.rolls.b.state == .low && s.rolls.a.state == .matched)

/-- The conditions of an evaluation (R161). -/
def State.mayPlan (s : State) : Bool :=
  s.geometry.valid && s.lg.lineState != .tripped && s.splicePair && s.rolls.plan.isNone &&
    s.rolls.splice.isNone && s.rolls.seam.isNone

/-- The plan R162 makes from the newest committed panel, where it makes one. Slot k is the one before the commit
pointer, and its end is the last committed end (R44). -/
def State.planFor (s : State) : Option SplicePlan :=
  match s.ps.lastEnd with
  | none => none
  | some e =>
    let after := s.ps.commitPointer
    let g := s.geometry.given
    let gap := (s.status after).gapCounts
    let target := e + gap / 2
    if s.pc.webPosition < e ∧ (s.status after).state = .queued ∧ 2 * seamMarginCounts g ≤ gap ∧
        hCounts g ≤ target ∧ s.pc.webPosition + armLeadCounts g ≤ target - hCounts g then
      some { slot := after - 1, slotAfter := after, target := target, fire := target - hCounts g }
    else none

/-- Planning is evaluated (R161, R162). -/
def evaluatePlanning (s : State) : State :=
  if s.mayPlan then { s with rolls := { s.rolls with plan := s.planFor } } else s

/-- The splice plan is dropped (R163). -/
def dropPlan (s : State) : State := { s with rolls := { s.rolls with plan := none } }

/-- UU reports a fire to LG: the freeze record holds the reference, unless the line is TRIPPED or a record is
present already (R101). -/
def freezeSpeed (s : State) : State :=
  match s.lg.lineState, s.lg.freeze with
  | .tripped, _ => s
  | _, some _ => s
  | _, none => { s with lg := { s.lg with freeze := some s.lg.reference } }

/-- A splice fires with the given MATCHED roll as the new roll (R166). -/
def fireSplice (kind : SpliceKind) (new : UnwindId) (s : State) : State :=
  let s1 := modifyUnwind new (fun u => { u with state := .pasting, matchCount := 0 }) s
  freezeSpeed { s1 with rolls := { s1.rolls with
    plan := none
    splice := some { new := new, kind := kind, position := s.pc.webPosition, phase := .paste, time := 0,
                     timeout := s.geometry.given.pasteTimeout, overdue := false } } }

/-- A roll whose paste failed: LOADED, last capture absent, match count 0 (R168 step 2). -/
def failedRoll (u : Unwind) : Unwind := { u with state := .loaded, lastCapture := none, matchCount := 0 }

/-- Steps 1 to 5 of R168 for the splice record `r`: the new roll LOADED, the record removed, SPLICE-FAIL raised. -/
def failPaste (r : SpliceRecord) (s : State) : State :=
  let s1 := modifyUnwind r.new failedRoll s
  raise .spliceFail { s1 with rolls := { s1.rolls with splice := none } }

/-- LG has entered TRIPPED: the plan is dropped and a splice in phase PASTE is abandoned; one in phase CUT goes
on (R163, R169). -/
def tripSplice (s : State) : State :=
  match s.rolls.splice with
  | some r =>
    match r.phase with
    | .paste => failPaste r (dropPlan s)
    | .cut => dropPlan s
  | none => dropPlan s

/-- The new roll at the end of a splice: RUNNING, captures absent, match count 0 (R170 step 3). -/
def splicedRoll (u : Unwind) : Unwind :=
  { u with state := .running, lastCapture := none, lastRev := none, matchCount := 0 }

/-- Steps 1 to 4 of R170 for the splice record `r`. -/
def endCut (r : SpliceRecord) (s : State) : State :=
  let s1 := modifyUnwind r.new splicedRoll
    (modifyUnwind (otherStand r.new) (fun u => { u with state := .spent }) s)
  { s1 with rolls := { s1.rolls with splice := none } }

end Sys2Proof.Machine
end

