-- ==== Sys2Proof/Machine/Tracking.lean ====
section
/-! DEFINITION. TU's operations on the tracking queue (R115 to R126). -/

namespace Sys2Proof.Machine

/-- The tracking queue replaced. -/
def setRecords (rs : List TrackRecord) (s : State) : State := { s with tu := { s.tu with records := rs } }

/-- The zone entry test of zone z on a record's slot: UNDER-SET unless the zone is IN-BAND (R122). -/
def entryTest (k : Fin 32) (s : State) (z : Fin 4) : State :=
  if (s.zone z).state = .inBand then s else aimUnderSet z k s

/-- Slot k becomes DONE: PANEL-DONE, and GARMENT-DONE when its panel has LAST set (R120, R33). -/
def retireSlot (k : Fin 32) (s : State) : State :=
  let s1 := raise .panelDone (modifyStatus k (fun st => { st with state := .done }) s)
  if (s.panelOf k).last then raise .garmentDone s1 else s1

/-- The position or tail that a PANEL record gives the floor of the queue (R117). -/
def panelFloor : TrackRecord → Option Nat
  | .panel _ _ (some tail) => some tail
  | .panel _ head none => some head
  | .seam _ _ _ => none

/-- The floor of the queue (R117). -/
def queueFloor (rs : List TrackRecord) : Nat :=
  match rs.getLast? with
  | none => 0
  | some (.panel _ _ (some tail)) => tail
  | some (.panel _ head none) => head
  | some (.seam b _ _) => max b (((rs.filterMap panelFloor).getLast?).getD 0)

/-- The zones a SEAM record has not switched yet whose midpoint its distance has reached (R124). -/
def dueSwitches (s : State) : TrackRecord → List (Fin 4)
  | .seam b _ switched =>
    allZones.filter fun z =>
      !switched.getLsbD z.val && decide ((midpoint s.geometry.given z : Int) ≤ (s.pc.beltPosition : Int) - b)
  | .panel _ _ _ => []

/-- A SEAM record with the given zones added to its zones switched (R124). -/
def addSwitched (zs : List (Fin 4)) : TrackRecord → TrackRecord
  | .seam b r switched => .seam b r (zs.foldl (fun acc z => acc ||| zoneBit z) switched)
  | .panel k head tail => .panel k head tail

/-- HU switches the given zones to a record's new recipe (R124, R119), each zone a switch of its own with its own test of
the stop timer. The order of zones that switch at one moment is the list's, zone 1 first: DESIGN CHOICE (log entry
21). -/
def switchFor (r : TrackRecord) (zs : List (Fin 4)) (s : State) : State :=
  match r with
  | .seam _ recipe _ => zs.foldl (fun s z => switchZone z recipe s) s
  | .panel _ _ _ => s

/-- The effect of forced retirement of the oldest record on the rest of the part (R119). A SEAM record's remaining zones
are switched in the order zone 1 to zone 4, which R119 leaves open: DESIGN CHOICE (log entry 21). -/
def forceOut (r : TrackRecord) (s : State) : State :=
  match r with
  | .panel k _ _ =>
    retireSlot k ((allZones.filter fun z =>
      decide (tailDistance s.pc.beltPosition r ≤ (zeCounts s.geometry.given z : Int))).foldl
        (fun s z => aimUnderSet z k s) s)
  | .seam _ _ switched => switchFor r (allZones.filter fun z => !switched.getLsbD z.val) s

/-- Room for one record: a full queue loses its oldest record by forced retirement (R119). -/
def makeRoom (s : State) : State :=
  match s.tu.records with
  | [] => s
  | oldest :: rest =>
    if trackCapacity ≤ (oldest :: rest).length then
      let s1 := forceOut oldest s
      { s1 with tu := { records := rest, forced := countUp 255 s1.tu.forced } }
    else s

/-- TU opens a PANEL record for slot k at the belt position and makes the entry tests of its opening (R117). -/
def openRecord (k : Fin 32) (s : State) : State :=
  let s1 := makeRoom s
  let r := TrackRecord.panel k (max s1.pc.beltPosition (queueFloor s1.tu.records)) none
  (allZones.filter fun z =>
    decide ((zsCounts s1.geometry.given z : Int) ≤ headDistance s1.pc.beltPosition r)).foldl
      (entryTest k) (setRecords (s1.tu.records ++ [r]) s1)

/-- A record closed at belt position `belt` if it is the open record of slot k (R118). -/
def closedAt (k : Fin 32) (belt : Nat) : TrackRecord → TrackRecord
  | .panel j head none => if j = k then .panel j head (some (max belt head)) else .panel j head none
  | .panel j head (some tail) => .panel j head (some tail)
  | .seam b r switched => .seam b r switched

/-- TU closes slot k's open PANEL record at the belt position (R118). -/
def closeRecord (k : Fin 32) (s : State) : State :=
  setRecords (s.tu.records.map (closedAt k s.pc.beltPosition)) s

/-- TU takes a SEAM record from UU and makes the midpoint tests of its adding (R123). -/
def addSeam (recipe : Fin 8) (s : State) : State :=
  let s1 := makeRoom s
  let r := TrackRecord.seam (max s1.pc.beltPosition (queueFloor s1.tu.records)) recipe 0
  let zs := dueSwitches s1 r
  switchFor r zs (setRecords (s1.tu.records ++ [addSwitched zs r]) s1)

/-- The entry tests a forward belt count makes on one record: each zone whose start its head distance has just
reached (R122). -/
def entriesForward (s : State) (r : TrackRecord) : State :=
  match r with
  | .panel k _ _ =>
    (allZones.filter fun z =>
      decide (headDistance s.pc.beltPosition r = (zsCounts s.geometry.given z : Int))).foldl (entryTest k) s
  | .seam _ _ _ => s

/-- The entry tests a reverse belt count makes on one record: each zone whose end a closed record's tail distance
has just come down to (R122, R126). -/
def entriesReverse (s : State) (r : TrackRecord) : State :=
  match r with
  | .panel k _ (some _) =>
    (allZones.filter fun z =>
      decide (tailDistance s.pc.beltPosition r = (zeCounts s.geometry.given z : Int))).foldl (entryTest k) s
  | .panel _ _ none => s
  | .seam _ _ _ => s

/-- Whether a record has reached the take-off: a closed PANEL record by its tail, a SEAM by its distance
(R120, R125). -/
def atTakeOff (s : State) (r : TrackRecord) : Bool :=
  match r with
  | .panel _ _ (some _) => decide ((toCounts s.geometry.given : Int) ≤ tailDistance s.pc.beltPosition r)
  | .panel _ _ none => false
  | .seam _ _ _ => decide ((toCounts s.geometry.given : Int) ≤ headDistance s.pc.beltPosition r)

/-- A record leaves at the take-off: a panel's slot is retired, a seam raises nothing (R120, R125). -/
def leaveAtTakeOff (s : State) (r : TrackRecord) : State :=
  match r with
  | .panel k _ _ => retireSlot k s
  | .seam _ _ _ => s

/-- TU's seams switch the zones whose midpoints they have reached (R124). -/
def switchSeams (s : State) : State :=
  let s1 := s.tu.records.foldl (fun t r => switchFor r (dueSwitches s r) t) s
  setRecords (s.tu.records.map fun r => addSwitched (dueSwitches s r) r) s1

/-- TU retires what has reached the take-off, oldest first (R120, R125). -/
def retireAtTakeOff (s : State) : State :=
  let s1 := (s.tu.records.filter (atTakeOff s)).foldl leaveAtTakeOff s
  setRecords (s.tu.records.filter fun r => !atTakeOff s r) s1

/-- TU advances its records after a forward belt count (R6, R120, R122, R124, R125). -/
def trackForward (s : State) : State :=
  retireAtTakeOff (switchSeams (s.tu.records.foldl entriesForward s))

/-- TU follows a reverse belt count (R126). -/
def trackReverse (s : State) : State := s.tu.records.foldl entriesReverse s

end Sys2Proof.Machine
end

