-- ==== Sys2Proof/Machine/Line.lean ====
section
/-! DEFINITION. LG's shared operations: STARVE, the end of a freeze, trips and the step generators (R99, R102, R105 to
R107, R112). -/

namespace Sys2Proof.Machine

/-- STARVE tested against the pattern reserve (R99): entry, with PATTERN-LOW, is deferred during a freeze. -/
def starveTest (s : State) : State :=
  let g := s.geometry.given
  if s.geometry.valid = false then s
  else if s.lg.starve then
    if starveCounts g + hysteresisCounts g ≤ s.reserve then { s with lg := { s.lg with starve := false } } else s
  else if s.reserve < starveCounts g ∧ s.lg.freeze = none then
    raise .patternLow { s with lg := { s.lg with starve := true } }
  else s

/-- The freeze record removed, HOLD and STARVE set as steps 1 to 3 of R102 say. -/
def liftFreeze (s : State) : State :=
  starveTest { s with lg := { s.lg with freeze := none, hold := s.inputs.takeOffHold } }

/-- STOP outside a freeze: STOPPING, or STOPPED at once at reference 0 (R95). -/
def stopLine (s : State) : State :=
  { s with lg := { s.lg with lineState := if s.lg.reference = 0 then .stopped else .stopping } }

/-- A deferred STOP acts in RUNNING as the freeze ends (R102 step 4). -/
def takeDeferredStop (s : State) : State :=
  if s.lg.deferredStop ∧ s.lg.lineState = .running then
    stopLine { s with lg := { s.lg with deferredStop := false } }
  else s

/-- UU reports that the splice is over: the freeze ends, a deferred STOP acts, and so does the ceiling (R102). -/
def spliceOver (s : State) : State :=
  match s.lg.freeze with
  | none => s
  | some _ => clampReference (takeDeferredStop (liftFreeze s))

/-- The freeze ends as LG enters TRIPPED, and with it the freeze's hold on the ceiling (R102, R104). -/
def tripFreeze (s : State) : State :=
  match s.lg.freeze with
  | none => { s with lg := { s.lg with deferredStop := false } }
  | some _ => clampReference (liftFreeze { s with lg := { s.lg with deferredStop := false } })

/-- LG enters TRIPPED on a primary cause: TRIP is raised, the freeze and deferred STOP end, and UU drops its plan
and abandons a paste (R106, R102, R163, R169). -/
def enterTripped (c : Cause) (s : State) : State :=
  let s1 := { s with lg := { s.lg with lineState := .tripped, primary := some c, further := 0 } }
  tripSplice (tripFreeze (raise .trip s1))

/-- An immediate cause sets the reference to 0 and idles both step generators (R107). -/
def stopAtOnce (s : State) : State :=
  { s with lg := { s.lg with reference := 0, infeedPeriod := none, beltPeriod := none } }

/-- A cause taken into the trip record (R106). -/
def takeCause (c : Cause) (s : State) : State :=
  if s.lg.lineState = .tripped then
    if s.holdsCause c then s
    else { s with lg := { s.lg with further := s.lg.further ||| BitVec.twoPow 10 c.number } }
  else enterTripped c s

/-- Whether LG takes a reported cause: HEAT is not taken in UNCONFIGURED or STOPPED (R105). -/
def State.takesCause (s : State) (c : Cause) : Bool :=
  match c, s.lg.lineState with
  | .heat, .unconfigured => false
  | .heat, .stopped => false
  | _, _ => true

/-- A trip cause reported to LG (R105 to R107). -/
def reportCause (c : Cause) (s : State) : State :=
  if s.takesCause c then
    if c.immediate then stopAtOnce (takeCause c s) else takeCause c s
  else s

/-- An idle generator whose speed has left idle begins its first period at once (R112). -/
def startGenerators (s : State) : State :=
  { s with lg := { s.lg with
      infeedPeriod := match s.lg.infeedPeriod with | some p => some p | none => s.infeedStepPeriod
      beltPeriod := match s.lg.beltPeriod with | some p => some p | none => s.beltStepPeriod } }

end Sys2Proof.Machine
end

