-- ==== Sys2Proof/Machine/Blade.lean ====
section
/-! DEFINITION. BU: panel boundaries and strokes reached (R59 to R72). -/

namespace Sys2Proof.Machine

/-! ### Panel boundaries (R67, R68) -/

/-- Slot k becomes ACTIVE at the blade line: belt head written, PANEL record opened (R67). -/
def toActive (k : Fin 32) (s : State) : State :=
  openRecord k (modifyStatus k (fun st => { st with state := .active, beltHead := some s.pc.beltPosition }) s)

/-- Slot k's gathering ends: SETTING, belt tail written, PANEL record closed (R68). -/
def toSetting (k : Fin 32) (s : State) : State :=
  closeRecord k (modifyStatus k (fun st => { st with state := .setting, beltTail := some s.pc.beltPosition }) s)

/-! ### A stroke reached (R59 to R66) -/

/-- BU fires a stroke (R60). -/
def fireStroke (r : StrokeRecord) (s : State) : State :=
  let s1 := modifyStatus r.slot (fun st => { st with fired := st.fired + 1 }) s
  { s1 with blade :=
      { state := .fired
        inFlight := some { slot := r.slot, pleat := r.pleat, part := r.part, direction := r.direction,
                           position := r.position, time := 0, slowTime := s.geometry.given.bladeSlow,
                           timeout := s.geometry.given.bladeTimeout, notified := false }
        misses := 0
        bladeOut := some r.direction
        strokeCommands := s.blade.strokeCommands + 1 } }

/-- A stroke counted missed against its slot (R63, R66). -/
def countMissed (r : StrokeRecord) (s : State) : State :=
  modifyStatus r.slot (fun st => { st with missed := st.missed + 1 }) s

/-- The consecutive-miss count after a skip, which reports STROKE at 2 (R64). -/
def missOne (s : State) : State :=
  if s.blade.misses = 0 then { s with blade := { s.blade with misses := 1 } }
  else reportCause .stroke { s with blade := { s.blade with misses := 2 } }

/-- BU skips a stroke (R63). -/
def skipStroke (r : StrokeRecord) (s : State) : State := missOne (raise .strokeFault (countMissed r s))

/-- BU deals with a stroke that has been reached: withheld, fired or skipped (R59, R66, R60, R63). -/
def dealStroke (r : StrokeRecord) (s : State) : State :=
  if s.immediateTrip then countMissed r s
  else if s.blade.state = .home then fireStroke r s
  else skipStroke r s

/-- The head record leaves the queue and is dealt with; a LAST-OF-PANEL stroke takes its slot to SETTING
(R59, R68). -/
def strokeReached (r : StrokeRecord) (rest : List StrokeRecord) (s : State) : State :=
  let s1 := dealStroke r { s with ps := { s.ps with strokes := rest } }
  if r.last then toSetting r.slot s1 else s1

/-- The stroke at the head of the queue, if the web position has reached it (R59). -/
def reachStroke (s : State) : State :=
  match s.ps.strokes with
  | [] => s
  | r :: rest => if r.position ≤ s.pc.webPosition then strokeReached r rest s else s

/-- The oldest ACTIVE FLAT slot whose end the web position has reached (R68). -/
def State.flatEnded (s : State) : Option (Fin 32) :=
  (ringFrom s.ps.commitPointer).find? fun k =>
    (s.status k).state == .active && (s.panelOf k).kind == .flat &&
      match (s.status k).endPos with
      | some e => decide (e ≤ s.pc.webPosition)
      | none => false

/-- A FLAT panel's end reached (R68). -/
def reachFlatEnd (s : State) : State :=
  match s.flatEnded with
  | some k => toSetting k s
  | none => s

/-- Whether the start of the oldest COMMITTED slot has been reached (R67). -/
def State.startReached (s : State) : Bool :=
  match s.oldestStart with
  | some start => decide (start ≤ s.pc.webPosition)
  | none => false

/-- The oldest COMMITTED slot's start reached (R67). -/
def reachStart (s : State) : State :=
  match s.oldestCommitted with
  | some k => if s.startReached then toActive k s else s
  | none => s

/-- PATTERN-EMPTY when a rise of the high-water mark has reached the last committed end with no slot COMMITTED
(R72). -/
def reachLastEnd (rising : Bool) (s : State) : State :=
  if rising ∧ s.ps.lastEnd = some s.pc.highWater ∧ s.oldestCommitted = none then raise .patternEmpty s else s

end Sys2Proof.Machine
end

