-- ==== Sys2Proof/Machine/Schedule.lean ====
section
/-! DEFINITION. PS: pleat arithmetic, the generator, the commit and the search (chapter 3, section 5.5), and `refresh`, which
takes what an event makes due between the blocks. -/

namespace Sys2Proof.Machine

/-! ### Pleat arithmetic (R36 to R41) -/

/-- The face width of pleat i, in hundredths (R36). -/
def faceWidth (p : PanelRecord) (i : Nat) : Int := (p.f0 : Int) + i * p.df

/-- The fold depth of pleat i, in hundredths (R36). -/
def foldDepth (p : PanelRecord) (i : Nat) : Int := (p.d0 : Int) + i * p.dd

/-- The fabric length of pleat i, in hundredths (R36). -/
def fabricLength (p : PanelRecord) (i : Nat) : Int :=
  match p.kind with
  | .knife => faceWidth p i + 2 * foldDepth p i
  | .box => faceWidth p i + 4 * foldDepth p i
  | .flat => faceWidth p i

/-- The take-up ratio of pleat i, in thousandths (R37). -/
def takeUpRatio (p : PanelRecord) (i : Nat) : Nat :=
  roundHalfUp (1000 * (fabricLength p i).toNat) (faceWidth p i).toNat

/-- The length of a stroke of pleat i, in hundredths (R39); for a FLAT panel the pleat's own length. -/
def strokeLength (p : PanelRecord) (i : Nat) (secondHalf : Bool) : Nat :=
  let l := (fabricLength p i).toNat
  match p.kind, secondHalf with
  | .box, false => l / 2
  | .box, true => l - l / 2
  | .knife, _ => l
  | .flat, _ => l

/-- The panel counts: round half up of the whole fabric length in web counts (R41). -/
def panelCountsOf (p : PanelRecord) (scale : Nat) : Nat :=
  (p.pleats * ((fabricLength p 0).toNat + (fabricLength p (p.pleats - 1)).toNat) / 2 * scale + 50000) / 100000

/-- How many strokes a panel has (R39). -/
def strokeCount (p : PanelRecord) : Nat :=
  match p.kind with
  | .knife => p.pleats
  | .box => 2 * p.pleats
  | .flat => 0

/-- The opposite direction (R39). -/
def opposite : Direction → Direction
  | .left => .right
  | .right => .left

/-! ### The generator (R51, R52) -/

/-- How many records the stroke queue holds (R50). -/
def strokeCapacity : Nat := 64

/-- Whether the generator's next stroke is its panel's last (R39). -/
def lastStroke (p : PanelRecord) (g : Generator) : Bool :=
  match p.kind with
  | .box => g.secondHalf && g.pleat + 1 == p.pleats
  | .knife => g.pleat + 1 == p.pleats
  | .flat => g.pleat + 1 == p.pleats

/-- One step of the accumulator for the generator's next stroke: length times scale plus the residue (R40). -/
def accumulated (p : PanelRecord) (scale : Nat) (g : Generator) : Nat :=
  strokeLength p g.pleat g.secondHalf * scale + g.residue

/-- The stroke record the generator produces next (R39, R40, R49). -/
def nextStroke (p : PanelRecord) (scale : Nat) (g : Generator) : StrokeRecord :=
  { position := g.position + accumulated p scale g / 100000
    direction := if p.kind = .box ∧ g.secondHalf then opposite p.direction else p.direction
    slot := g.slot
    pleat := g.pleat
    part := if p.kind = .box then (if g.secondHalf then .secondHalf else .firstHalf) else .whole
    last := lastStroke p g
    q := takeUpRatio p g.pleat }

/-- The generator after producing a stroke that is not its panel's last (R51). -/
def advanced (p : PanelRecord) (scale : Nat) (g : Generator) : Generator :=
  { slot := g.slot
    pleat := if p.kind = .box ∧ g.secondHalf = false then g.pleat else g.pleat + 1
    secondHalf := decide (p.kind = .box) && !g.secondHalf
    residue := accumulated p scale g % 100000
    position := g.position + accumulated p scale g / 100000 }

/-- The generator state in which the first panel with strokes is taken up, from slot k on in commit order: a FLAT
panel is finished at once, and the slot before the commit pointer is the newest committed (R51). -/
def takeUp : Nat → Fin 32 → State → Option Generator
  | 0, _, _ => none
  | n + 1, k, s =>
    if (s.panelOf k).kind = .flat then
      if k + 1 = s.ps.commitPointer then none else takeUp n (k + 1) s
    else some { slot := k, pleat := 0, secondHalf := false, residue := 50000,
                position := (s.status k).start.getD 0 }

/-- The generator state after the stroke `g` is about to produce: the panel goes on, or the next panel in commit
order is taken up (R51). -/
def generatorAfter (g : Generator) (s : State) : Option Generator :=
  if lastStroke (s.panelOf g.slot) g then
    if g.slot + 1 = s.ps.commitPointer then none else takeUp 32 (g.slot + 1) s
  else some (advanced (s.panelOf g.slot) s.geometry.given.s g)

/-- Whether the generator has a stroke to append and the queue has room (R52). -/
def State.canAppend (s : State) : Bool :=
  s.ps.generator.isSome && decide (s.ps.strokes.length < strokeCapacity)

/-- The generator appends its next stroke record while the queue has room (R52). -/
def appendStroke (s : State) : State :=
  match s.ps.generator with
  | none => s
  | some g =>
    if s.ps.strokes.length < strokeCapacity then
      { s with ps := { s.ps with
          strokes := s.ps.strokes ++ [nextStroke (s.panelOf g.slot) s.geometry.given.s g]
          generator := generatorAfter g s } }
    else s

/-- The generator appends until it is idle or the queue is full (R52). -/
def generate : Nat → State → State
  | 0, s => s
  | n + 1, s => if s.canAppend then generate n (appendStroke s) else s

/-! ### The commit (R45 to R47) -/

/-- The garment check: whether GARMENT-BREAK is set, and the open-garment state after it (R32). -/
def garmentCheck (p : PanelRecord) (opened : Option Nat) : Bool × Option Nat :=
  let brk := match p.first, opened with
    | true, none => false
    | true, some _ => true
    | false, none => true
    | false, some g => g != p.garment
  (brk, if p.last then none else some p.garment)

/-- The garment check made on slot k (R32). -/
def checkGarment (k : Fin 32) (s : State) : State :=
  let r := garmentCheck (s.panelOf k) s.ps.openGarment
  modifyStatus k (fun st => { st with garmentBreak := r.1 })
    { s with ps := { s.ps with openGarment := r.2 } }

/-- The base of a commit: the larger of the last committed end and the high-water mark (R46 step 1). -/
def State.base (s : State) : Nat := max (s.ps.lastEnd.getD 0) s.pc.highWater

/-- Whether PS takes the slot at the commit pointer for commit (R45). -/
def State.commitReady (s : State) : Bool :=
  let st := s.status s.ps.commitPointer
  st.state == .queued && st.registration != some .searching &&
    decide (s.committedAhead ≤ horizonCounts s.geometry.given)

/-- Slot k COMMITTED from `start`, with its end, the last committed end and the pointer moved on; an idle generator
takes the panel up (R46 steps 4 and 5, R47, R51). -/
def placePanel (k : Fin 32) (start : Nat) (reg : Registered) (s : State) : State :=
  let stop := start + (s.status k).panelCounts
  let s1 := modifyStatus k (fun st =>
    { st with state := .committed, start := some start, endPos := some stop, registration := some reg }) s
  let s2 := { s1 with ps := { s1.ps with lastEnd := some stop, commitPointer := k + 1, search := none } }
  { s2 with ps := { s2.ps with generator := match s2.ps.generator with
      | some g => some g
      | none => takeUp 32 k s2 } }

/-- The end of a commit: LG tests the new reserve, a start already reached takes the slot to ACTIVE at once, and UU
evaluates planning (R46, R55, R20, R161). -/
def finishCommit (k : Fin 32) (start : Nat) (reg : Registered) (s : State) : State :=
  let s1 := starveTest (placePanel k start reg s)
  evaluatePlanning (if start ≤ s1.pc.webPosition then toActive k s1 else s1)

/-- PS takes an unregistered slot k for commit (R46). -/
def commitSlot (k : Fin 32) (s : State) : State :=
  finishCommit k (s.base + (s.status k).gapCounts) .notRequired (checkGarment k s)

/-! ### The search (R47, R85 to R88) -/

/-- The start a mark gives: m + Ms + offset (R85). -/
def registeredStart (s : State) (r : SearchRecord) (mk : Mark) : Nat :=
  mk.m + msCounts s.geometry.given + r.offset

/-- The walk of the mark queue: the marks that stay, how many are skipped, and the mark accepted (R86). -/
def walkMarks (e : Fin 6) (far : Mark → Bool) : List Mark → List Mark × Nat × Option Mark
  | [] => ([], 0, none)
  | mk :: rest =>
    if mk.entry ≠ e then
      let r := walkMarks e far rest
      (mk :: r.1, r.2.1, r.2.2)
    else if far mk then (rest, 0, some mk)
    else
      let r := walkMarks e far rest
      (r.1, r.2.1 + 1, r.2.2)

/-- `n` marks skipped by the search on slot k, holding at 255 (R86). -/
def countSkipped (k : Fin 32) (n : Nat) (s : State) : State :=
  modifyStatus k (fun st => { st with marksSkipped := min 255 (st.marksSkipped + n) }) s

/-- A search ends registered by a mark (R86). -/
def acceptMark (r : SearchRecord) (mk : Mark) (s : State) : State :=
  finishCommit r.slot (registeredStart s r mk) (.registered mk.m) s

/-- The search record PS sets up for slot k with registration part `part` (R85). -/
def searchFor (k : Fin 32) (part : RegistrationPart) (s : State) : SearchRecord :=
  let g := s.geometry.given
  let window := countsOfHundredths part.window g.s
  let earliest := s.base + (s.status k).gapCounts
  { slot := k, entry := part.entry, offset := countsOfHundredths part.offset g.s, window := window,
    base := s.base, earliest := earliest, loss := earliest + window }

/-- PS takes the registered slot k for commit: the garment check, SEARCHING, the search record and the walk of the
mark queue (R47, R85, R86). -/
def setUpSearch (k : Fin 32) (part : RegistrationPart) (s : State) : State :=
  let r := searchFor k part s
  let s1 := modifyStatus k (fun st => { st with registration := some .searching }) (checkGarment k s)
  let s2 := { s1 with ps := { s1.ps with search := some r } }
  let w := walkMarks r.entry (fun mk => decide (r.earliest ≤ registeredStart s2 r mk)) s2.ru.marks
  let s3 := countSkipped k w.2.1 { s2 with ru := { s2.ru with marks := w.1 } }
  match w.2.2 with
  | some mk => acceptMark r mk s3
  | none => s3

/-- PS takes the slot at the commit pointer for commit (R46, R47). -/
def takeSlot (s : State) : State :=
  match (s.panelOf s.ps.commitPointer).registration with
  | none => commitSlot s.ps.commitPointer s
  | some part => setUpSearch s.ps.commitPointer part s

/-- Registration is lost: LOST at the loss position, REG-LOST raised (R88). -/
def loseSearch (r : SearchRecord) (s : State) : State :=
  finishCommit r.slot r.loss .lost (raise .regLost s)

/-- A running search whose loss position the web position has reached (R88). -/
def reachLoss (s : State) : State :=
  match s.ps.search with
  | some r => if r.loss ≤ s.pc.webPosition then loseSearch r s else s
  | none => s

/-! ### What comes at once with what makes it due (R45, R52; log entries 3 and 12) -/

/-- PS takes every slot that is ready, one after the other: after each commit R45 is tested again (R46, R86). -/
def takeReady : Nat → State → State
  | 0, s => s
  | n + 1, s => if s.commitReady then takeReady n (takeSlot s) else s

/-- PS takes each slot at the first event at which R45's conditions hold, and the generator appends while the queue has
room (R45, R52). At most 32 slots are QUEUED and at most 64 strokes have room. -/
def settlePS (s : State) : State := generate strokeCapacity (takeReady 32 s)

/-- What an event makes due between the blocks, taken as its end: STARVE at the new reserve (R99), the slots R45 lets PS
take and their strokes (R45, R52), the resume test (R147), the ceiling (R104), the stop timer at rest (R145) and the
generators (R112). -/
def refresh (s : State) : State :=
  startGenerators (restStopTimer (clampReference (resumeTest (settlePS (starveTest s)))))

/-! ### The commands -/

/-- COMMIT (R46): PS takes an unregistered slot that R45 lets it take and that still waits (log entry 3), and tests R45
again for the next; otherwise PS commits nothing (R48). -/
def execCommit (s : State) : Host.Outcome State Fault Refusal :=
  match s.commitReady, (s.panelOf s.ps.commitPointer).registration with
  | true, none => .next (refresh (commitSlot s.ps.commitPointer s))
  | true, some _ => .next s
  | false, _ => .next s

/-- SEARCH_SETUP (R47): PS takes a registered slot that R45 lets it take and that still waits (log entry 3); otherwise
nothing. -/
def execSearchSetup (s : State) : Host.Outcome State Fault Refusal :=
  match s.commitReady, (s.panelOf s.ps.commitPointer).registration with
  | true, some part => .next (refresh (setUpSearch s.ps.commitPointer part s))
  | true, none => .next s
  | false, _ => .next s

/-- STROKE_GENERATE (R52): the generator appends what still waits while the queue has room (log entry 3). -/
def execStrokeGenerate (s : State) : Host.Outcome State Fault Refusal := .next (refresh (appendStroke s))

end Sys2Proof.Machine
end

