-- ==== Sys2Proof/Machine/BladeCommands.lean ====
section
/-! DEFINITION. BU: the commands of the blade and its two timers (R58, R61). -/

namespace Sys2Proof.Machine

/-- BLADE-HOME becomes inactive (R58). -/
def bladeLeaves (s : State) : State :=
  match s.blade.state with
  | .home => raise .strokeFault { s with blade := { s.blade with state := .away } }
  | .fired => { s with blade := { s.blade with state := .returning } }
  | .away => s
  | .returning => s

/-- BLADE-HOME becomes active (R58). -/
def bladeReturns (s : State) : State :=
  match s.blade.state with
  | .away => { s with blade := { s.blade with state := .home } }
  | .returning => { s with blade := { s.blade with state := .home, inFlight := none } }
  | .home => s
  | .fired => s

/-- BLADE_HOME_CHANGE (R58): a level the input already has is no change (log entry 10). -/
def execBladeHomeChange (active : Bool) (s : State) : Host.Outcome State Fault Refusal :=
  if active = s.inputs.bladeHome then .next s
  else
    let s1 := { s with inputs := { s.inputs with bladeHome := active } }
    .next (if active then bladeReturns s1 else bladeLeaves s1)

/-- BLADE_SLOW_TIME (R61): STROKE-FAULT once for each stroke in flight. -/
def execBladeSlowTime (s : State) : Host.Outcome State Fault Refusal :=
  match s.blade.inFlight with
  | none => .next s
  | some r =>
    if r.notified then .next s
    else .next (raise .strokeFault { s with blade := { s.blade with
      inFlight := some { r with notified := true, time := max r.time r.slowTime } } })

/-- BLADE_TIMEOUT (R61): the stroke in flight is abandoned and STROKE reported. -/
def execBladeTimeout (s : State) : Host.Outcome State Fault Refusal :=
  match s.blade.inFlight with
  | none => .next s
  | some _ =>
    .next (refresh (reportCause .stroke { s with blade := { s.blade with
      inFlight := none, state := if s.inputs.bladeHome then .home else .away } }))

end Sys2Proof.Machine
end

