-- ==== Sys2Proof/Machine/Operands.lean ====
section
/-! DEFINITION. The checks on the fields that requests carry: ranges, minimum counts, orderings, pleat geometry. -/

namespace Sys2Proof.Machine

/-- The number of the first failing field of a list of field numbers with their checks, in order (R9, R17). -/
def firstFailing : List (Nat × Bool) → Option Nat
  | [] => none
  | (n, ok) :: rest => if ok then firstFailing rest else some n

/-- A number within a range, both ends included. -/
def within (lo hi n : Nat) : Bool := decide (lo ≤ n) && decide (n ≤ hi)

/-! ### SET-GEOMETRY (R9 to R11) -/

/-- The range checks of R9 in field order. -/
def geometryRanges (g : GeometryFields) : List (Nat × Bool) :=
  [(1, within 4000 131072 g.s), (2, within 4000 131072 g.sb), (3, within 0 1 g.webSense),
    (4, within 0 1 g.beltSense), (5, within 100 20000 g.ms), (6, within 200 60000 g.h),
    (7, within 1 1000 g.reverseLimit), (8, within 100 100000 g.commitHorizon), (9, within 50 5000 g.minPitch),
    (10, within 10 2000 g.bladeSlow), (11, within 20 5000 g.bladeTimeout), (12, within 10 5000 g.minBar),
    (13, within 20 10000 g.wideThreshold), (14, within 50 50000 g.groupGap), (15, within 1 200 g.rampStep),
    (16, within 1 500 g.tripRampStep), (17, within 1000 400000 g.infeedSteps),
    (18, within 1000 400000 g.beltSteps), (19, within 100 100000 g.starveThreshold),
    (20, within 0 50000 g.starveHysteresis), (21, within 0 60000 g.ce), (22, within 0 60000 g.zs1),
    (23, within 0 60000 g.ze1), (24, within 0 60000 g.zs2), (25, within 0 60000 g.ze2),
    (26, within 0 60000 g.zs3), (27, within 0 60000 g.ze3), (28, within 0 60000 g.zs4),
    (29, within 0 60000 g.ze4), (30, within 1 60000 g.cx), (31, within 1 100000 g.takeOff),
    (32, within 500 15000 g.dArm), (33, within 400 15000 g.dLast), (34, within 300 15000 g.dCore),
    (35, within 0 100000 g.seamMargin), (36, within 0 100000 g.armLead), (37, within 100 30000 g.pasteTimeout),
    (38, within 100 30000 g.cutTimeout)]

/-- The three conversions that must give at least 1 count (R10). -/
def geometryMinimums (g : GeometryFields) : List (Nat × Bool) :=
  [(7, decide (1 ≤ reverseLimitCounts g)), (9, decide (1 ≤ pitchCounts g)), (12, decide (1 ≤ minBarCounts g))]

/-- The orderings of R11 in table order, with the field named on failure. -/
def geometryOrderings (g : GeometryFields) : List (Nat × Bool) :=
  [(11, decide (g.bladeSlow < g.bladeTimeout)), (13, decide (minBarCounts g < wideCounts g)),
    (14, decide (wideCounts g < groupGapCounts g)), (6, decide (msCounts g < hCounts g)),
    (22, decide (g.ce ≤ g.zs1)), (23, decide (g.zs1 ≤ g.ze1)), (24, decide (g.ze1 ≤ g.zs2)),
    (25, decide (g.zs2 ≤ g.ze2)), (26, decide (g.ze2 ≤ g.zs3)), (27, decide (g.zs3 ≤ g.ze3)),
    (28, decide (g.ze3 ≤ g.zs4)), (29, decide (g.zs4 ≤ g.ze4)), (30, decide (g.ze4 ≤ g.cx)),
    (30, decide (g.ce < g.cx)), (31, decide (cxCounts g < toCounts g)), (33, decide (g.dCore < g.dLast)),
    (32, decide (g.dLast < g.dArm))]

/-- The field a SET-GEOMETRY is refused RANGE for, if any (R12 checks 2 to 4). -/
def geometryRefusal (g : GeometryFields) : Option Nat :=
  firstFailing (geometryRanges g ++ geometryMinimums g ++ geometryOrderings g)

/-! ### LOAD-PANEL (R17, R18, R38) -/

/-- The range checks of R17 and R18 in field order, with their exemptions. -/
def panelRanges (p : PanelFields) : List (Nat × Bool) :=
  let flat := p.kind == 2
  let part := p.registered == 1
  [(1, within 0 65535 p.garment), (2, within 0 1 p.first), (3, within 0 1 p.last), (4, within 0 2 p.kind),
    (5, within 1 255 p.pleats), (6, within 200 10000 p.f0), (7, flat || within 100 6000 p.d0),
    (8, decide (-500 ≤ p.df) && decide (p.df ≤ 500)),
    (9, flat || (decide (-500 ≤ p.dd) && decide (p.dd ≤ 500))), (10, within 0 200000 p.gap),
    (11, within 0 1 p.direction), (12, within 0 1 p.registered), (13, !part || within 0 5 p.entry),
    (14, !part || within 0 500000 p.offset), (15, !part || within 1000 1000000 p.window)]

/-- The panel kind a number names (R198). -/
def kindOfNumber : Nat → PanelKind
  | 0 => .knife
  | 1 => .box
  | _ => .flat

/-- The panel record LOAD-PANEL stores: fields 7 and 9 are 0 for FLAT, and the registration part is absent while
field 12 is clear (R17, R18). -/
def panelOfFields (p : PanelFields) : PanelRecord :=
  let flat := p.kind == 2
  { garment := p.garment, first := p.first == 1, last := p.last == 1, kind := kindOfNumber p.kind,
    pleats := p.pleats, f0 := p.f0, d0 := if flat then 0 else p.d0, df := p.df,
    dd := if flat then 0 else p.dd, gap := p.gap, direction := if p.direction = 1 then .right else .left,
    registration := if p.registered = 1 then
      some { entry := Fin.ofNat 6 p.entry, offset := p.offset, window := p.window } else none }

/-- The pleat geometry checks on pleat i: the number of the first that fails (R38). -/
def pleatFailure (p : PanelRecord) (g : GeometryFields) (i : Nat) : Option Nat :=
  let flat := p.kind == .flat
  let f := faceWidth p i
  let d := foldDepth p i
  firstFailing
    [(1, decide (200 ≤ f) && decide (f ≤ 10000)), (2, flat || (decide (100 ≤ d) && decide (d ≤ 6000))),
      (3, decide (takeUpRatio p i ≤ 6000)),
      (4, flat || decide (pitchCounts g ≤ strokeLength p i false * g.s / 100000))]

/-- The check and pleat a LOAD-PANEL is refused GEOMETRY for, if any: pleat 0, then pleat n − 1 (R38). -/
def pleatRefusal (p : PanelRecord) (g : GeometryFields) : Option (Nat × Nat) :=
  match pleatFailure p g 0 with
  | some c => some (c, 0)
  | none => (pleatFailure p g (p.pleats - 1)).map fun c => (c, p.pleats - 1)

/-! ### SET-RECIPE (R132, R133) -/

/-- The range checks of fields 2 to 11 in field order (R132). -/
def recipeRanges (r : RecipeFields) : List (Nat × Bool) :=
  [(2, within 0 2500 r.setpoint1), (3, within 0 2500 r.setpoint2), (4, within 0 2500 r.setpoint3),
    (5, within 0 2500 r.setpoint4), (6, within 5 200 r.band), (7, within 0 2500 r.standby),
    (8, within 10 6000 r.dmin), (9, within 10 3600 r.dmax), (10, within 0 1000 r.minPressure),
    (11, within 1 120 r.settle)]

/-- Whether a class set names only the classes 0 to 13 (section 11.4). -/
def classesExist (n : Nat) : Bool := decide (n < 2 ^ 14)

end Sys2Proof.Machine
end

