-- ==== Sys2Proof/WellFormed.lean ====
section
/-! DEFINITION. Which commands can be spelled: every field a request carries fits the width chapter 11 gives it. -/

namespace Sys2Proof

/-- A number that a field of `w` characters can carry (R195). -/
abbrev fits (w n : Nat) : Prop := n < 256 ^ w

/-- A number that a signed field of two characters can carry (R195). -/
abbrev fitsSigned2 (x : Int) : Prop := -32768 ≤ x ∧ x < 32768

/-- The fields of a SET-GEOMETRY fit their widths (section 11.4). -/
abbrev GeometryFields.WellFormed (g : GeometryFields) : Prop :=
  (fits 3 g.s ∧ fits 3 g.sb ∧ fits 1 g.webSense ∧ fits 1 g.beltSense ∧ fits 2 g.ms ∧ fits 2 g.h ∧
    fits 2 g.reverseLimit ∧ fits 3 g.commitHorizon) ∧
  (fits 2 g.minPitch ∧ fits 2 g.bladeSlow ∧ fits 2 g.bladeTimeout ∧ fits 2 g.minBar ∧
    fits 2 g.wideThreshold ∧ fits 2 g.groupGap ∧ fits 1 g.rampStep ∧ fits 2 g.tripRampStep) ∧
  (fits 3 g.infeedSteps ∧ fits 3 g.beltSteps ∧ fits 3 g.starveThreshold ∧ fits 2 g.starveHysteresis) ∧
  (fits 2 g.ce ∧ fits 2 g.zs1 ∧ fits 2 g.ze1 ∧ fits 2 g.zs2 ∧ fits 2 g.ze2 ∧ fits 2 g.zs3 ∧ fits 2 g.ze3 ∧
    fits 2 g.zs4 ∧ fits 2 g.ze4 ∧ fits 2 g.cx ∧ fits 3 g.takeOff) ∧
  (fits 2 g.dArm ∧ fits 2 g.dLast ∧ fits 2 g.dCore ∧ fits 3 g.seamMargin ∧ fits 3 g.armLead ∧
    fits 2 g.pasteTimeout ∧ fits 2 g.cutTimeout)

/-- The fields of a LOAD-PANEL fit their widths (section 11.4). -/
abbrev PanelFields.WellFormed (p : PanelFields) : Prop :=
  (fits 2 p.garment ∧ fits 1 p.first ∧ fits 1 p.last ∧ fits 1 p.kind ∧ fits 1 p.pleats) ∧
  (fits 2 p.f0 ∧ fits 2 p.d0 ∧ fitsSigned2 p.df ∧ fitsSigned2 p.dd ∧ fits 3 p.gap) ∧
  (fits 1 p.direction ∧ fits 1 p.registered ∧ fits 1 p.entry ∧ fits 3 p.offset ∧ fits 3 p.window)

/-- The fields of a SET-RECIPE fit their widths (section 11.4). -/
abbrev RecipeFields.WellFormed (r : RecipeFields) : Prop :=
  (fits 1 r.index ∧ fits 2 r.setpoint1 ∧ fits 2 r.setpoint2 ∧ fits 2 r.setpoint3 ∧ fits 2 r.setpoint4) ∧
  (fits 1 r.band ∧ fits 2 r.standby ∧ fits 2 r.dmin ∧ fits 2 r.dmax ∧ fits 2 r.minPressure ∧ fits 1 r.settle)

/-- A request whose fields fit the widths of its payload (section 11.4). -/
abbrev Request.WellFormed : Request → Prop
  | .identify => True
  | .readLink clear => fits 1 clear
  | .setLimits t v d => fits 2 t ∧ fits 2 v ∧ fits 2 d
  | .setGeometry g => g.WellFormed
  | .setRecipe r => r.WellFormed
  | .setZoneTuning z kp ki => fits 1 z ∧ fits 2 kp ∧ fits 1 ki
  | .setMarkCode e n c k m => fits 1 e ∧ fits 1 n ∧ fits 1 c ∧ fits 1 k ∧ fits 1 m
  | .setEventMask m c => fits 1 m ∧ fits 2 c
  | .loadPanel k p => fits 1 k ∧ p.WellFormed
  | .cancelPanel k => fits 1 k
  | .releasePanel k => fits 1 k
  | .readPanel k => fits 1 k
  | .readRing => True
  | .start => True
  | .stop => True
  | .setSpeed v => fits 2 v
  | .trip => True
  | .clearTrip => True
  | .lineReset => True
  | .readLine => True
  | .heatOn => True
  | .heatOff => True
  | .readHeat r => fits 1 r
  | .rollReady u d r t => fits 1 u ∧ fits 2 d ∧ fits 1 r ∧ fits 1 t
  | .rollRemoved u => fits 1 u
  | .readRolls => True
  | .readTracking i => fits 1 i
  | .readEvents i => fits 1 i
  | .ackEvents c => fits 2 c

/-- The request a command carries, where it is one of the 29 request commands. -/
def Instr.request : Instr → Option Request
  | .identify _ => some .identify
  | .readLink _ c => some (.readLink c)
  | .setLimits _ t v d => some (.setLimits t v d)
  | .setGeometry _ g => some (.setGeometry g)
  | .setRecipe _ r => some (.setRecipe r)
  | .setZoneTuning _ z kp ki => some (.setZoneTuning z kp ki)
  | .setMarkCode _ e n c k m => some (.setMarkCode e n c k m)
  | .setEventMask _ m c => some (.setEventMask m c)
  | .loadPanel _ k p => some (.loadPanel k p)
  | .cancelPanel _ k => some (.cancelPanel k)
  | .releasePanel _ k => some (.releasePanel k)
  | .readPanel _ k => some (.readPanel k)
  | .readRing _ => some .readRing
  | .start _ => some .start
  | .stop _ => some .stop
  | .setSpeed _ v => some (.setSpeed v)
  | .trip _ => some .trip
  | .clearTrip _ => some .clearTrip
  | .lineReset _ => some .lineReset
  | .readLine _ => some .readLine
  | .heatOn _ => some .heatOn
  | .heatOff _ => some .heatOff
  | .readHeat _ r => some (.readHeat r)
  | .rollReady _ u d r t => some (.rollReady u d r t)
  | .rollRemoved _ u => some (.rollRemoved u)
  | .readRolls _ => some .readRolls
  | .readTracking _ i => some (.readTracking i)
  | .readEvents _ i => some (.readEvents i)
  | .ackEvents _ c => some (.ackEvents c)
  | .powerOnReset _ | .encoderChange _ _ | .commit | .searchSetup | .strokeGenerate | .markEdge _
  | .bladeHomeChange _ | .bladeSlowTime | .bladeTimeout | .eStop | .webBreak | .takeOffHoldChange _
  | .revolutionMarkerEdge _ _ | .pasteConfirm | .cutConfirm | .pasteTimeout | .cutTimeout | .rampTimer
  | .stepPeriodEnd _ | .scan _ _ _ _ _ | .settleComplete _ | .stopTimerFire | .controlStep
  | .valveBoundary | .valveOnTimeEnd _ | .addressCharacter _ | .dataCharacter _ | .framingError
  | .gapTimeout | .replySent | .eStopReleased | .webBreakReleased | .pasteConfirmInactive
  | .cutConfirmInactive => none

/-- The command that carries a request, addressed or broadcast as `src` says. -/
def Request.command (src : Source) : Request → Instr
  | .identify => .identify src
  | .readLink c => .readLink src c
  | .setLimits t v d => .setLimits src t v d
  | .setGeometry g => .setGeometry src g
  | .setRecipe r => .setRecipe src r
  | .setZoneTuning z kp ki => .setZoneTuning src z kp ki
  | .setMarkCode e n c k m => .setMarkCode src e n c k m
  | .setEventMask m c => .setEventMask src m c
  | .loadPanel k p => .loadPanel src k p
  | .cancelPanel k => .cancelPanel src k
  | .releasePanel k => .releasePanel src k
  | .readPanel k => .readPanel src k
  | .readRing => .readRing src
  | .start => .start src
  | .stop => .stop src
  | .setSpeed v => .setSpeed src v
  | .trip => .trip src
  | .clearTrip => .clearTrip src
  | .lineReset => .lineReset src
  | .readLine => .readLine src
  | .heatOn => .heatOn src
  | .heatOff => .heatOff src
  | .readHeat r => .readHeat src r
  | .rollReady u d r t => .rollReady src u d r t
  | .rollRemoved u => .rollRemoved src u
  | .readRolls => .readRolls src
  | .readTracking i => .readTracking src i
  | .readEvents i => .readEvents src i
  | .ackEvents c => .ackEvents src c

/-- A command that can be spelled: a request command's fields fit their widths; the other commands carry
operands that their types already bound. -/
def Instr.WellFormed (i : Instr) : Prop :=
  match i.request with
  | some r => r.WellFormed
  | none => True

end Sys2Proof
end

