-- ==== Sys2Proof/Decode.lean ====
section
/-! DEFINITION. Reading the link's payloads into requests and writing them back (chapter 11), and
decodeTableWord, which has no row to read since the table gives no bits. -/

namespace Sys2Proof

/-- The `w` characters that carry `n`, the first most significant (R195). -/
def bytesOf : Nat → Nat → List Byte
  | 0, _ => []
  | w + 1, n => BitVec.ofNat 8 (n / 256 ^ w) :: bytesOf w n

/-- The number a run of characters carries, the first most significant (R195). -/
def natOf (bs : List Byte) : Nat :=
  bs.foldl (fun acc b => acc * 256 + b.toNat) 0

/-- Fields of the given widths read one after the other, with no gaps (section 11.1). -/
def readFields : List Nat → List Byte → List Nat
  | [], _ => []
  | w :: ws, bs => natOf (bs.take w) :: readFields ws (bs.drop w)

/-- Fields of the given widths written one after the other, with no gaps (section 11.1). -/
def writeFields : List (Nat × Nat) → List Byte
  | [] => []
  | (w, n) :: rest => bytesOf w n ++ writeFields rest

/-- A signed number as the two's complement number of a field of `w` characters (R195). -/
def twosOf (w : Nat) (x : Int) : Nat :=
  (x % (256 ^ w : Nat)).toNat

/-- The signed number a field of `w` characters carries (R195). -/
def signedOf (w n : Nat) : Int :=
  if 2 * n < 256 ^ w then n else (n : Int) - (256 ^ w : Nat)

/-- The kind numbers of R197. -/
def Request.kind : Request → Nat
  | .identify => 1
  | .readLink _ => 2
  | .setLimits _ _ _ => 16
  | .setGeometry _ => 17
  | .setRecipe _ => 18
  | .setZoneTuning _ _ _ => 19
  | .setMarkCode _ _ _ _ _ => 20
  | .setEventMask _ _ => 21
  | .loadPanel _ _ => 32
  | .cancelPanel _ => 33
  | .releasePanel _ => 34
  | .readPanel _ => 35
  | .readRing => 36
  | .start => 48
  | .stop => 49
  | .setSpeed _ => 50
  | .trip => 51
  | .clearTrip => 52
  | .lineReset => 53
  | .readLine => 54
  | .heatOn => 64
  | .heatOff => 65
  | .readHeat _ => 66
  | .rollReady _ _ _ _ => 80
  | .rollRemoved _ => 81
  | .readRolls => 82
  | .readTracking _ => 96
  | .readEvents _ => 112
  | .ackEvents _ => 113

/-- The field widths of a LOAD-PANEL's panel record, 26 characters (section 11.4). -/
def panelWidths : List Nat := [2, 1, 1, 1, 1, 2, 2, 2, 2, 3, 1, 1, 1, 3, 3]

/-- The field widths of a SET-GEOMETRY, 82 characters (section 11.4). -/
def geometryWidths : List Nat :=
  [3, 3, 1, 1, 2, 2, 2, 3, 2, 2, 2, 2, 2, 2, 1, 2, 3, 3, 3, 2, 2, 2, 2, 2, 2, 2, 2, 2, 2, 2, 3, 2, 2, 2, 3, 3, 2, 2]

/-- The field widths of a SET-RECIPE, 19 characters (section 11.4). -/
def recipeWidths : List Nat := [1, 2, 2, 2, 2, 1, 2, 2, 2, 2, 1]

/-- The field widths of each kind's request payload; none for a number that names no kind (R197, section 11.4). -/
def requestLayout : Nat → Option (List Nat)
  | 1 => some []
  | 2 => some [1]
  | 16 => some [2, 2, 2]
  | 17 => some geometryWidths
  | 18 => some recipeWidths
  | 19 => some [1, 2, 1]
  | 20 => some [1, 1, 1, 1, 1]
  | 21 => some [1, 2]
  | 32 => some (1 :: panelWidths)
  | 33 => some [1]
  | 34 => some [1]
  | 35 => some [1]
  | 36 => some []
  | 48 => some []
  | 49 => some []
  | 50 => some [2]
  | 51 => some []
  | 52 => some []
  | 53 => some []
  | 54 => some []
  | 64 => some []
  | 65 => some []
  | 66 => some [1]
  | 80 => some [1, 2, 1, 1]
  | 81 => some [1]
  | 82 => some []
  | 96 => some [1]
  | 112 => some [1]
  | 113 => some [2]
  | _ => none

/-- The numbers of a panel record's fields 1 to 15 as they travel (R195: the two grades are signed). -/
def PanelFields.numbers (p : PanelFields) : List Nat :=
  [p.garment, p.first, p.last, p.kind, p.pleats, p.f0, p.d0, twosOf 2 p.df, twosOf 2 p.dd, p.gap,
    p.direction, p.registered, p.entry, p.offset, p.window]

/-- The numbers of a geometry's fields 1 to 38. -/
def GeometryFields.numbers (g : GeometryFields) : List Nat :=
  [g.s, g.sb, g.webSense, g.beltSense, g.ms, g.h, g.reverseLimit, g.commitHorizon, g.minPitch, g.bladeSlow,
    g.bladeTimeout, g.minBar, g.wideThreshold, g.groupGap, g.rampStep, g.tripRampStep, g.infeedSteps,
    g.beltSteps, g.starveThreshold, g.starveHysteresis, g.ce, g.zs1, g.ze1, g.zs2, g.ze2, g.zs3, g.ze3, g.zs4,
    g.ze4, g.cx, g.takeOff, g.dArm, g.dLast, g.dCore, g.seamMargin, g.armLead, g.pasteTimeout, g.cutTimeout]

/-- The numbers of a recipe's fields 1 to 11. -/
def RecipeFields.numbers (r : RecipeFields) : List Nat :=
  [r.index, r.setpoint1, r.setpoint2, r.setpoint3, r.setpoint4, r.band, r.standby, r.dmin, r.dmax,
    r.minPressure, r.settle]

/-- The numbers of a request's payload fields in order (section 11.4). -/
def Request.numbers : Request → List Nat
  | .identify => []
  | .readLink c => [c]
  | .setLimits t v d => [t, v, d]
  | .setGeometry g => g.numbers
  | .setRecipe r => r.numbers
  | .setZoneTuning z kp ki => [z, kp, ki]
  | .setMarkCode e n c k m => [e, n, c, k, m]
  | .setEventMask m c => [m, c]
  | .loadPanel k p => k :: p.numbers
  | .cancelPanel k => [k]
  | .releasePanel k => [k]
  | .readPanel k => [k]
  | .readRing => []
  | .start => []
  | .stop => []
  | .setSpeed v => [v]
  | .trip => []
  | .clearTrip => []
  | .lineReset => []
  | .readLine => []
  | .heatOn => []
  | .heatOff => []
  | .readHeat r => [r]
  | .rollReady u d r t => [u, d, r, t]
  | .rollRemoved u => [u]
  | .readRolls => []
  | .readTracking i => [i]
  | .readEvents i => [i]
  | .ackEvents c => [c]

/-- The panel record whose fields 1 to 15 carry the given numbers. -/
def panelOfNumbers : List Nat → Option PanelFields
  | [garment, first, last, kind, pleats, f0, d0, df, dd, gap, direction, registered, entry, offset, window] =>
    some { garment, first, last, kind, pleats, f0, d0, df := signedOf 2 df, dd := signedOf 2 dd, gap,
           direction, registered, entry, offset, window }
  | _ => none

/-- The geometry whose fields 1 to 38 carry the given numbers. -/
def geometryOfNumbers : List Nat → Option GeometryFields
  | s :: sb :: webSense :: beltSense :: ms :: h :: reverseLimit :: commitHorizon :: minPitch ::
    bladeSlow :: bladeTimeout :: minBar :: wideThreshold :: groupGap :: rampStep :: tripRampStep ::
    infeedSteps :: beltSteps :: starveThreshold :: starveHysteresis :: ce :: zs1 :: ze1 :: zs2 :: ze2 ::
    zs3 :: ze3 :: zs4 :: ze4 :: cx :: takeOff :: dArm :: dLast :: dCore :: seamMargin :: armLead ::
    pasteTimeout :: cutTimeout :: [] =>
    some { s, sb, webSense, beltSense, ms, h, reverseLimit, commitHorizon, minPitch, bladeSlow, bladeTimeout,
           minBar, wideThreshold, groupGap, rampStep, tripRampStep, infeedSteps, beltSteps, starveThreshold,
           starveHysteresis, ce, zs1, ze1, zs2, ze2, zs3, ze3, zs4, ze4, cx, takeOff, dArm, dLast, dCore,
           seamMargin, armLead, pasteTimeout, cutTimeout }
  | _ => none

/-- The recipe whose fields 1 to 11 carry the given numbers. -/
def recipeOfNumbers : List Nat → Option RecipeFields
  | [index, setpoint1, setpoint2, setpoint3, setpoint4, band, standby, dmin, dmax, minPressure, settle] =>
    some { index, setpoint1, setpoint2, setpoint3, setpoint4, band, standby, dmin, dmax, minPressure, settle }
  | _ => none

/-- The request of a kind whose payload fields carry the given numbers (section 11.4). -/
def requestOfNumbers (kind : Nat) (ns : List Nat) : Option Request :=
  match kind, ns with
  | 1, [] => some .identify
  | 2, [c] => some (.readLink c)
  | 16, [t, v, d] => some (.setLimits t v d)
  | 17, ns => (geometryOfNumbers ns).map .setGeometry
  | 18, ns => (recipeOfNumbers ns).map .setRecipe
  | 19, [z, kp, ki] => some (.setZoneTuning z kp ki)
  | 20, [e, n, c, k, m] => some (.setMarkCode e n c k m)
  | 21, [m, c] => some (.setEventMask m c)
  | 32, k :: ns => (panelOfNumbers ns).map (.loadPanel k)
  | 33, [k] => some (.cancelPanel k)
  | 34, [k] => some (.releasePanel k)
  | 35, [k] => some (.readPanel k)
  | 36, [] => some .readRing
  | 48, [] => some .start
  | 49, [] => some .stop
  | 50, [v] => some (.setSpeed v)
  | 51, [] => some .trip
  | 52, [] => some .clearTrip
  | 53, [] => some .lineReset
  | 54, [] => some .readLine
  | 64, [] => some .heatOn
  | 65, [] => some .heatOff
  | 66, [r] => some (.readHeat r)
  | 80, [u, d, r, t] => some (.rollReady u d r t)
  | 81, [u] => some (.rollRemoved u)
  | 82, [] => some .readRolls
  | 96, [i] => some (.readTracking i)
  | 112, [i] => some (.readEvents i)
  | 113, [c] => some (.ackEvents c)
  | _, _ => none

/-- The request a kind number and a payload spell; none for a kind number not in R197's table and for a length
other than the kind's (R181, R197). -/
def parseRequest (kind : Nat) (payload : List Byte) : Option Request :=
  match requestLayout kind with
  | none => none
  | some widths =>
    if payload.length = widths.sum then requestOfNumbers kind (readFields widths payload) else none

/-- The payload that carries a request (section 11.4). -/
def Request.payload (r : Request) : List Byte :=
  writeFields (((requestLayout r.kind).getD []).zip r.numbers)

/-- The check of a run of characters: their sum modulo 65,536 (R196). -/
def checkSum (bs : List Byte) : Nat :=
  (bs.foldl (fun acc b => acc + b.toNat) 0) % 65536

/-- The data characters of the request frame that carries `r` under a tag: length, tag, kind, payload and two
check characters (section 11.2, R196). -/
def Request.frame (tag : Byte) (r : Request) : List Byte :=
  let body := BitVec.ofNat 8 (r.payload.length + 2) :: tag :: BitVec.ofNat 8 r.kind :: r.payload
  body ++ bytesOf 2 (checkSum body)

/-- The command a word spells by the table's bits. No row of spec/opcode_table.json gives bits, so no word spells
a command (log entry 14). -/
def decodeTableWord (_nbits _w : Nat) : Option Instr := none

end Sys2Proof
end

