-- ==== Sys2Proof/Machine/Layouts.lean ====
section
/-! DEFINITION. The numbers and the reply payloads of chapter 11. -/

namespace Sys2Proof.Machine

/-! ### Fields (R195) -/

/-- A number in a reply field of `w` characters; a number too large for the field is a free value (log entry 11). -/
def replyField (w n : Nat) : List Byte :=
  bytesOf w (if n < 256 ^ w then n else Config.wideField w n)

/-- Reply fields one after the other. -/
def replyFields (fs : List (Nat × Nat)) : List Byte := fs.flatMap fun f => replyField f.1 f.2

/-- The marker of an absent value in a field of `w` characters: every character 255 (R195). -/
def marker (w : Nat) : Nat := 256 ^ w - 1

/-- A value that may be absent, as the number its field carries (R195). -/
def orMarker (w : Nat) (x : Option Nat) : Nat := x.getD (marker w)

/-- A dwell limit as it travels: 65,535 for none, and 65,534 for 65,535 or more (R195). -/
def dwellNumber : Option Nat → Nat
  | some d => min d 65534
  | none => 65535

/-! ### Enumerations (R198) -/

/-- Panel kind. -/
def PanelKind.number : PanelKind → Nat
  | .knife => 0
  | .box => 1
  | .flat => 2
/-- Direction. -/
def Direction.number : Direction → Nat
  | .left => 0
  | .right => 1
/-- Slot state. -/
def SlotState.number : SlotState → Nat
  | .free => 0
  | .queued => 1
  | .committed => 2
  | .active => 3
  | .setting => 4
  | .done => 5
/-- Registration result; absence is 0. -/
def registeredNumber : Option Registered → Nat
  | none => 0
  | some .notRequired => 1
  | some .searching => 2
  | some (.registered _) => 3
  | some .lost => 4
/-- Stroke part. -/
def StrokePart.number : StrokePart → Nat
  | .whole => 0
  | .firstHalf => 1
  | .secondHalf => 2
/-- Line state. -/
def LineState.number : LineState → Nat
  | .unconfigured => 0
  | .stopped => 1
  | .running => 2
  | .stopping => 3
  | .tripped => 4
/-- Blade state. -/
def BladeState.number : BladeState → Nat
  | .home => 0
  | .away => 1
  | .fired => 2
  | .returning => 3
/-- Bar measurement state. -/
def BarState.number : BarState → Nat
  | .idle => 0
  | .inBar _ _ => 1
  | .inSpace _ => 2
  | .waitLight => 3
/-- Zone state. -/
def ZoneState.number : ZoneState → Nat
  | .off => 0
  | .warming => 1
  | .inBand => 2
  | .outOfBand => 3
  | .standby => 4
  | .fault => 5
/-- Fault cause; absence is 0. -/
def faultNumber : Option FaultCause → Nat
  | none => 0
  | some .openSensor => 1
  | some .overTemperature => 2
/-- Unwind. -/
def unwindNumber : UnwindId → Nat
  | .A => 0
  | .B => 1
/-- Unwind state. -/
def UnwindState.number : UnwindState → Nat
  | .empty => 0
  | .loaded => 1
  | .spinning => 2
  | .matched => 3
  | .pasting => 4
  | .running => 5
  | .low => 6
  | .cutting => 7
  | .spent => 8
/-- Splice kind. -/
def SpliceKind.number : SpliceKind → Nat
  | .planned => 0
  | .forced => 1
/-- Splice phase. -/
def SplicePhase.number : SplicePhase → Nat
  | .paste => 0
  | .cut => 1
/-- Refusal reason. -/
def Reason.number : Reason → Nat
  | .state => 1
  | .slot => 2
  | .range => 3
  | .geometry => 4
  | .noGeom => 5
  | .noLimits => 6
  | .locked => 7
  | .heat => 8
  | .roll => 9
  | .blade => 10
  | .inUse => 11

/-! ### Status and reply frame (R196, R198) -/

/-- The status number of an answer (R198). -/
def Answer.statusNumber : Answer → Nat
  | .done _ => 0
  | .doneMore _ => 1
  | .unknown => 2
  | .refused _ _ => 3

/-- The reply payload of an answer (R198, R184). -/
def Answer.payload : Answer → List Byte
  | .done p => p
  | .doneMore p => p
  | .unknown => []
  | .refused reason detail => BitVec.ofNat 8 reason.number :: detail.map (BitVec.ofNat 8)

/-- The data characters of a reply frame: length, tag, kind, status, payload and check (section 11.2, R196). -/
def PendingReply.frame (r : PendingReply) : List Byte :=
  let body := BitVec.ofNat 8 (3 + r.answer.payload.length) :: r.tag :: r.kind ::
    BitVec.ofNat 8 r.answer.statusNumber :: r.answer.payload
  body ++ bytesOf 2 (checkSum body)

/-- The address character of the part's replies: 128 plus the station address (R182). -/
def State.replyAddress (s : State) : Option Byte := s.station.map fun a => 128#8 + a

/-! ### Payloads of the replies (section 11.5) -/

/-- A panel record in the 26 characters of LOAD-PANEL. -/
def panelPayload (p : PanelRecord) : List Byte :=
  replyFields [(2, p.garment), (1, p.first.toNat), (1, p.last.toNat), (1, p.kind.number), (1, p.pleats),
    (2, p.f0), (2, p.d0), (2, twosOf 2 p.df), (2, twosOf 2 p.dd), (3, p.gap), (1, p.direction.number)] ++
  match p.registration with
  | some r => replyFields [(1, 1), (1, r.entry.val), (3, r.offset), (3, r.window)]
  | none => replyFields [(1, 0), (1, 0), (3, 0), (3, 0)]

/-- The mark position of a registration result, REGISTERED only. -/
def markPosition : Option Registered → Option Nat
  | some (.registered m) => some m
  | some .notRequired => none
  | some .searching => none
  | some .lost => none
  | none => none

/-- A slot status record in 50 characters. -/
def statusPayload (st : SlotStatus) : List Byte :=
  replyFields [(1, st.state.number), (3, st.gapCounts), (3, st.panelCounts), (3, st.planned),
    (6, orMarker 6 st.start), (6, orMarker 6 st.endPos), (1, registeredNumber st.registration),
    (6, orMarker 6 (markPosition st.registration)), (1, st.marksSkipped), (2, st.fired), (2, st.missed),
    (6, orMarker 6 st.beltHead), (6, orMarker 6 st.beltTail), (1, st.underSet.toNat), (1, st.overDwell.toNat),
    (1, st.splice.toNat), (1, st.garmentBreak.toNat)]

/-- The READ-PANEL reply, 77 characters. -/
def readPanelPayload (k : Fin 32) (s : State) : List Byte :=
  replyFields [(1, k.val)] ++ panelPayload (s.panelOf k) ++ statusPayload (s.status k)

/-- The READ-RING reply, 33 characters: each slot's state, plus 128 while SEARCHING, and the commit pointer. -/
def readRingPayload (s : State) : List Byte :=
  replyFields ((List.finRange 32).map fun k =>
    (1, (s.status k).state.number + if (s.status k).registration = some .searching then 128 else 0)) ++
  replyFields [(1, s.ps.commitPointer.val)]

/-- The head record of the stroke queue in 13 characters (R195 for an empty queue). -/
def headPayload : List StrokeRecord → List Byte
  | r :: _ => replyFields [(6, r.position), (1, r.direction.number), (1, r.slot.val), (1, r.pleat),
      (1, r.part.number), (1, r.last.toNat), (2, r.q)]
  | [] => replyFields [(6, marker 6), (1, 0), (1, 255), (1, 0), (1, 0), (1, 0), (2, 0)]

/-- The stroke in flight in 12 characters (R195 when absent). -/
def inFlightPayload : Option StrokeInFlight → List Byte
  | some r => replyFields [(6, r.position), (1, r.slot.val), (1, r.pleat), (1, r.part.number),
      (1, r.direction.number), (2, r.time)]
  | none => replyFields [(6, marker 6), (1, 255), (1, 0), (1, 0), (1, 0), (2, 0)]

/-- The open group of a bar measurement state. -/
def BarState.group : BarState → Option Group
  | .inBar _ g => g
  | .inSpace g => some g
  | .idle => none
  | .waitLight => none

/-- Eight mark records of 7 characters, head first, unused records 0. -/
def marksPayload (ms : List Mark) : List Byte :=
  (List.range 8).flatMap fun i =>
    match ms[i]? with
    | some mk => replyFields [(1, mk.entry.val), (6, mk.m)]
    | none => replyFields [(1, 0), (6, 0)]

/-- The search in 14 characters (R195 when absent). -/
def searchPayload : Option SearchRecord → List Byte
  | some r => replyFields [(1, r.slot.val), (1, r.entry.val), (6, r.earliest), (6, r.loss)]
  | none => replyFields [(1, 255), (1, 0), (6, marker 6), (6, marker 6)]

/-- The READ-LINE reply, 164 characters (R113, R73, R90, section 11.5). The open garment id with no garment open and the
group bar count with no group open travel as 0: DESIGN CHOICE (log entry 20). -/
def readLinePayload (s : State) : List Byte :=
  replyFields [(1, s.lg.lineState.number), (1, s.limits.isSet.toNat),
    (1, match s.lg.primary with | some c => c.number | none => 0), (2, s.lg.further.toNat)] ++
  replyFields [(2, s.lg.hostSpeed), (2, s.limits.maxSpeed), (2, dwellNumber s.dwellLimit),
    (1, numberOfBits s.zeroReasonBits), (1, numberOfBits s.bindingReasons), (2, s.target),
    (2, s.lg.reference)] ++
  replyFields [(2, orMarker 2 s.lg.freeze), (1, s.lg.deferredStop.toNat)] ++
  replyFields [(2, s.ratio), (2, s.infeedSpeed), (2, s.lg.infeedPeriod.getD 0), (2, s.lg.beltPeriod.getD 0)] ++
  replyFields [(1, numberOfBits [s.inputs.eStop, s.inputs.webBreak, s.inputs.takeOffHold, s.inputs.bladeHome])] ++
  replyFields [(6, s.pc.webPosition), (6, s.pc.beltPosition), (6, s.pc.highWater)] ++
  replyFields [(1, s.ps.openGarment.isSome.toNat), (2, s.ps.openGarment.getD 0)] ++
  replyFields [(1, s.ps.strokes.length)] ++ headPayload s.ps.strokes ++
  replyFields [(6, s.reserve)] ++
  replyFields [(1, s.blade.state.number)] ++ inFlightPayload s.blade.inFlight ++
  replyFields [(1, s.blade.misses)] ++
  replyFields [(1, s.ru.bar.number), (1, s.ru.bar.group.isSome.toNat),
    (1, match s.ru.bar.group with | some g => g.count | none => 0), (1, s.ru.marks.length)] ++
  marksPayload s.ru.marks ++ replyFields [(6, orMarker 6 s.ru.lastMark)] ++
  searchPayload s.ps.search

/-- A recipe in the 19 characters of SET-RECIPE. -/
def recipePayload (i : Nat) (r : Recipe) : List Byte :=
  replyFields [(1, i), (2, r.setpoint 0), (2, r.setpoint 1), (2, r.setpoint 2), (2, r.setpoint 3), (1, r.band),
    (2, r.standby), (2, r.dmin), (2, r.dmax), (2, r.minPressure), (1, r.settle)]

/-- A zone record in 20 characters. -/
def zonePayload (s : State) (z : Fin 4) : List Byte :=
  let zn := s.zone z
  replyFields [(1, zn.state.number), (1, orMarker 1 (zn.recipe.map Fin.val)), (2, orMarker 2 (s.temperature z)),
    (1, (s.channel z).openCondition.toNat), (2, s.effectiveSetpoint z), (2, zn.duty), (2, zn.integral),
    (3, orMarker 3 zn.settle), (2, zn.onTime), (1, faultNumber zn.fault), (2, zn.kp), (1, zn.ki)]

/-- The READ-HEAT reply, 116 characters (R150). -/
def readHeatPayload (r : Fin 8) (s : State) : List Byte :=
  replyFields [(1, s.heat.heatOn.toNat), (2, orMarker 2 s.headerPressure), (1, s.limits.isSet.toNat),
    (2, s.limits.maxTemp), (2, s.limits.maxSpeed), (2, s.limits.minDwell), (2, dwellNumber s.dwellLimit),
    (1, s.heatReason.toNat), (3, s.heat.stopElapsed), (1, s.heat.stopFired.toNat)] ++
  allZones.flatMap (zonePayload s) ++ recipePayload r.val (s.recipe r)

/-- An unwind record in 9 characters. -/
def unwindPayload (u : Unwind) : List Byte :=
  replyFields [(1, u.state.number), (1, u.recipe.val), (2, u.diameter), (4, orMarker 4 u.lastRev),
    (1, u.matchCount)]

/-- The splice plan in 14 characters (R195 when absent). -/
def planPayload : Option SplicePlan → List Byte
  | some p => replyFields [(1, p.slot.val), (1, p.slotAfter.val), (6, p.target), (6, p.fire)]
  | none => replyFields [(1, 255), (1, 255), (6, marker 6), (6, marker 6)]

/-- The splice record in 15 characters (R195 when absent). -/
def splicePayload : Option SpliceRecord → List Byte
  | some r => replyFields [(1, unwindNumber r.new), (1, unwindNumber (otherStand r.new)), (1, r.kind.number),
      (6, r.position), (1, r.phase.number), (2, r.time), (2, r.timeout), (1, r.overdue.toNat)]
  | none => replyFields [(1, 255), (1, 255), (1, 0), (6, marker 6), (1, 0), (2, 0), (2, 0), (1, 0)]

/-- The seam-in-flight record in 7 characters (R195 when absent). -/
def seamPayload : Option SeamInFlight → List Byte
  | some m => replyFields [(6, m.position), (1, m.recipe.val)]
  | none => replyFields [(6, marker 6), (1, 255)]

/-- The READ-ROLLS reply, 56 characters (R175). -/
def readRollsPayload (s : State) : List Byte :=
  unwindPayload s.rolls.a ++ unwindPayload s.rolls.b ++
  replyFields [(1, orMarker 1 (s.feeding.map unwindNumber))] ++
  planPayload s.rolls.plan ++ splicePayload s.rolls.splice ++ seamPayload s.rolls.seam ++
  replyFields [(1, numberOfBits [s.rolls.a.spin, s.rolls.b.spin, s.spliceOutput, s.cutOutput,
    s.inputs.pasteConfirm, s.inputs.cutConfirm])]

/-- The zones a record overlaps, as a set. -/
def State.zonesOverlapped (s : State) (r : TrackRecord) : Nat :=
  numberOfBits (allZones.map fun z => s.overlapsZone z r)

/-- A tracking record in 27 characters. -/
def trackPayload (s : State) (r : TrackRecord) : List Byte :=
  match r with
  | .panel k head tail =>
    replyFields [(1, 0), (1, k.val), (6, head), (6, orMarker 6 tail),
      (6, twosOf 6 (headDistance s.pc.beltPosition r)), (6, twosOf 6 (tailDistance s.pc.beltPosition r)),
      (1, s.zonesOverlapped r)]
  | .seam b recipe switched =>
    replyFields [(1, 1), (1, recipe.val), (6, b), (6, marker 6),
      (6, twosOf 6 (headDistance s.pc.beltPosition r)), (6, 0), (1, switched.toNat)]

/-- The READ-TRACKING reply from index `i`: 9 characters and up to 8 records (R128). -/
def readTrackingPayload (i : Nat) (s : State) : List Byte :=
  replyFields [(6, s.pc.beltPosition), (1, s.tu.records.length), (1, s.trackFull.toNat), (1, s.tu.forced)] ++
  ((s.tu.records.drop i).take 8).flatMap (trackPayload s)

/-- The READ-EVENTS reply from index `i`: 7 characters and up to 8 class records (R190). -/
def readEventsPayload (i : Nat) (s : State) : List Byte :=
  replyFields [(2, numberOfBits s.pendingBits), (2, s.events.mask1.toNat), (2, s.events.mask2.toNat),
    (1, numberOfBits [attention s.events.mask1 s, attention s.events.mask2 s])] ++
  (((List.finRange 14).drop i).take 8).flatMap fun c =>
    replyFields [(1, c.val), (1, s.events.counts[c.val]'c.isLt)]

/-- The IDENTIFY reply, 8 characters (R187, R199). -/
def identifyPayload (s : State) : List Byte :=
  replyFields [(2, 420), (1, 1), (1, match s.station with | some a => a.toNat | none => 0),
    (1, s.link.baudStraps.val), (1, s.geometry.valid.toNat), (1, s.limits.isSet.toNat),
    (1, s.lg.lineState.number)]

/-- The READ-LINK reply, 16 characters (R186). -/
def readLinkPayload (s : State) : List Byte :=
  let c := s.link.counters
  replyFields [(2, c.accepted), (2, c.framing), (2, c.gap), (2, c.check), (2, c.length), (2, c.abandoned),
    (2, c.overrun), (1, match s.station with | some a => a.toNat | none => 0), (1, s.link.baudStraps.val)]

/-- The SET-GEOMETRY reply, 71 characters: the converted values (R12, section 11.5). -/
def geometryPayload (g : GeometryFields) : List Byte :=
  replyFields [(3, msCounts g), (3, hCounts g), (3, reverseLimitCounts g), (3, horizonCounts g),
    (3, starveCounts g), (3, hysteresisCounts g), (3, armLeadCounts g), (3, pitchCounts g), (3, minBarCounts g),
    (3, wideCounts g), (3, groupGapCounts g), (3, seamMarginCounts g)] ++
  replyFields [(3, ceCounts g), (3, zsCounts g 0), (3, zeCounts g 0), (3, zsCounts g 1), (3, zeCounts g 1),
    (3, zsCounts g 2), (3, zeCounts g 2), (3, zsCounts g 3), (3, zeCounts g 3), (3, cxCounts g),
    (3, toCounts g)] ++
  replyFields [(2, chamberLength g)]

end Sys2Proof.Machine
end

