-- ==== Sys2Proof/Machine/Replies.lean ====
section
/-! DEFINITION. LI's shared operations: the link counters, refusals, and taking an accepted request and its reply
(R181, R182, R184, R185). -/

namespace Sys2Proof.Machine

/-- The refusal of a request: no state changes (R184). -/
def refuse (reason : Reason) (detail : Nat) (s : State) : State × Answer := (s, .refused reason [detail])

/-- A link counter after one more event, holding at 65,535 (R185). -/
def countLink (n : Nat) : Nat := countUp 65535 n

/-- The link counters changed by `f`. -/
def modifyCounters (f : LinkCounters → LinkCounters) (s : State) : State :=
  { s with link := { s.link with counters := f s.link.counters } }

/-- The receiver moved to another state. -/
def setReceiver (r : Receiver) (s : State) : State := { s with link := { s.link with receiver := r } }

/-- An accepted frame counted (R179, R185). -/
def countAccepted (s : State) : State :=
  modifyCounters (fun c => { c with accepted := countLink c.accepted }) s

/-- A link error: its counter rises and LINK is raised, once (R185). -/
def linkError (f : LinkCounters → LinkCounters) (s : State) : State := raise .link (modifyCounters f s)

/-- A request has been answered by its owner: an addressed one is replied to, and the receiver is REPLYING; a
broadcast gets no reply, and the receiver goes to LISTEN (R181, R182). A part with no station address is addressed by
no frame and never replies (R177, log entry 2). -/
def deliver (src : Source) (kind : Nat) (r : State × Answer) : State :=
  match src, r.1.station with
  | .addressed tag, some _ =>
    { r.1 with link := { r.1.link with
        receiver := .replying
        pendingReply := some { tag := tag, kind := BitVec.ofNat 8 kind, answer := r.2 } } }
  | .addressed _, none => { r.1 with link := { r.1.link with receiver := .listen, pendingReply := none } }
  | .broadcast, _ => { r.1 with link := { r.1.link with receiver := .listen, pendingReply := none } }

/-- An accepted frame whose request is `req`: it is counted, its owner carries it out or refuses it by `serve`, and
the answer is delivered (R179, R181, R182; log entry 1). -/
def acceptRequest (src : Source) (req : Request) (serve : State → State × Answer) (s : State) : State :=
  deliver src req.kind (serve (countAccepted s))

end Sys2Proof.Machine
end

