-- ==== Sys2Proof/Machine/Registration.lean ====
section
/-! DEFINITION. RU: bars, groups, marks and the mark queue (chapter 5). -/

namespace Sys2Proof.Machine

/-- The bar measurement state replaced. -/
def setBar (b : BarState) (s : State) : State := { s with ru := { s.ru with bar := b } }

/-- How many records the mark queue holds (R83). -/
def markCapacity : Nat := 8

/-- A search judges a mark of its entry: accepted if its start lies far enough ahead, skipped otherwise (R87). -/
def judgeMark (r : SearchRecord) (mk : Mark) (s : State) : State :=
  if r.earliest ≤ registeredStart s r mk then acceptMark r mk s else countSkipped r.slot 1 s

/-- A mark appended to the mark queue, or dropped with MARK-FAULT from a full one (R83). -/
def queueMark (mk : Mark) (s : State) : State :=
  if markCapacity ≤ s.ru.marks.length then raise .markFault s
  else { s with ru := { s.ru with marks := s.ru.marks ++ [mk] } }

/-- A screened mark offered to a running search of its entry, or to the mark queue (R83). -/
def offerMark (mk : Mark) (s : State) : State :=
  match s.ps.search with
  | some r => if mk.entry = r.entry then judgeMark r mk s else queueMark mk s
  | none => queueMark mk s

/-- A new mark screened: re-read marks are dropped silently, late ones with MARK-FAULT (R82). -/
def screenMark (mk : Mark) (s : State) : State :=
  if (match s.ru.lastMark with | some l => decide (mk.m ≤ l) | none => false) then s
  else
    let s1 := { s with ru := { s.ru with lastMark := some mk.m } }
    if mk.m + msCounts s.geometry.given ≤ s.pc.highWater then raise .markFault s1 else offerMark mk s1

/-- Whether a group matches a code table entry (R81). -/
def entryMatches (g : Group) (e : CodeEntry) : Bool :=
  e.enabled && e.count == g.count && Nat.land (Nat.xor g.bits e.code) e.mask == 0

/-- The lowest-index entry a group matches (R81). -/
def State.matchingEntry (s : State) (g : Group) : Option (Fin 6) :=
  (List.finRange 6).find? fun i => entryMatches g (s.ru.codes[i.val]'i.isLt)

/-- An ended group is judged (R81). -/
def judgeGroup (g : Group) (s : State) : State :=
  if g.overlong then raise .markFault s
  else
    match s.matchingEntry g with
    | some e => screenMark { entry := e, m := g.first } s
    | none => s

/-- A kept bar joins the open group or opens one (R77). -/
def keepBar (lead trail : Nat) (bit : Bool) : Option Group → Group
  | none => { first := lead, lastTrailing := trail, count := 1, bits := bit.toNat, overlong := false }
  | some g =>
    if g.count < 8 then
      { g with lastTrailing := trail, count := g.count + 1, bits := 2 * g.bits + bit.toNat }
    else { g with lastTrailing := trail, overlong := true }

/-- A trailing edge in IN-BAR: the bar is judged noise or kept (R76, R77, R78). -/
def endBar (lead : Nat) (group : Option Group) (s : State) : State :=
  let g := s.geometry.given
  let here := s.pc.webPosition
  if here - lead < minBarCounts g then
    match group with
    | none => setBar .idle s
    | some grp =>
      if grp.lastTrailing + groupGapCounts g < here then judgeGroup grp (setBar .idle s)
      else setBar (.inSpace grp) s
  else setBar (.inSpace (keepBar lead here (decide (wideCounts g ≤ here - lead)) group)) s

/-- A leading edge of MARK with the geometry valid (R76). -/
def leadingEdge (s : State) : State :=
  let here := s.pc.webPosition
  match s.ru.bar with
  | .idle => setBar (.inBar here none) s
  | .inSpace grp =>
    if groupGapCounts s.geometry.given < here - grp.lastTrailing then
      judgeGroup grp (setBar (.inBar here none) s)
    else setBar (.inBar here (some grp)) s
  | .inBar _ _ => s
  | .waitLight => s

/-- A trailing edge of MARK with the geometry valid (R76). -/
def trailingEdge (s : State) : State :=
  match s.ru.bar with
  | .inBar lead group => endBar lead group s
  | .waitLight => setBar .idle s
  | .idle => s
  | .inSpace _ => s

/-- The bar state that the level of MARK gives when nothing is measured (R75, R91). -/
def restingBar (mark : Bool) : BarState := if mark then .waitLight else .idle

/-- RU discards what it is measuring at a reverse count (R79). -/
def discardGroup (s : State) : State :=
  match s.ru.bar with
  | .inBar _ _ => setBar .waitLight s
  | .inSpace _ => setBar .idle s
  | .idle => s
  | .waitLight => s

/-- Whether the open group ends at the web position, the space since its last kept bar exceeding the gap (R78). -/
def State.groupEnds (s : State) : Bool :=
  match s.ru.bar with
  | .inSpace grp => decide (grp.lastTrailing + groupGapCounts s.geometry.given + 1 ≤ s.pc.webPosition)
  | .idle => false
  | .inBar _ _ => false
  | .waitLight => false

/-- The open group ends where the web position has reached its end (R78). -/
def reachGroupEnd (s : State) : State :=
  match s.ru.bar with
  | .inSpace grp => if s.groupEnds then judgeGroup grp (setBar .idle s) else s
  | .idle => s
  | .inBar _ _ => s
  | .waitLight => s

/-- Whether a mark record expires at the web position (R84). -/
def State.expired (s : State) (mk : Mark) : Bool :=
  decide (mk.m + msCounts s.geometry.given ≤ s.pc.webPosition)

/-- The mark records whose m + Ms the web position has reached leave the queue (R84). -/
def expireMarks (s : State) : State :=
  { s with ru := { s.ru with marks := s.ru.marks.filter fun mk => !s.expired mk } }

/-- MARK_EDGE (R76, R75): a level the input already has is no edge (log entry 10). -/
def execMarkEdge (active : Bool) (s : State) : Host.Outcome State Fault Refusal :=
  if active = s.inputs.mark then .next s
  else
    let s1 := { s with inputs := { s.inputs with mark := active } }
    .next (refresh (
      if s1.geometry.valid = false then setBar (restingBar active) s1
      else if active then leadingEdge s1
      else trailingEdge s1))

/-- SET-MARK-CODE carried out or refused by RU (R80). -/
def serveSetMarkCode (entry enabled count code mask : Nat) (s : State) : State × Answer :=
  if h : entry < 6 then
    if 1 < enabled then refuse .range 2 s
    else if count < 1 ∨ 8 < count then refuse .range 3 s
    else if 2 ^ count ≤ code then refuse .range 4 s
    else if 2 ^ count ≤ mask then refuse .range 5 s
    else
      ({ s with ru := { s.ru with
          codes := s.ru.codes.set entry { enabled := enabled == 1, count := count, code := code, mask := mask } h } },
        .done [BitVec.ofNat 8 entry, BitVec.ofNat 8 enabled, BitVec.ofNat 8 count, BitVec.ofNat 8 code,
          BitVec.ofNat 8 mask])
  else refuse .range 1 s

/-- SET_MARK_CODE (R80). -/
def execSetMarkCode (src : Source) (entry enabled count code mask : Nat) (s : State) :
    Host.Outcome State Fault Refusal :=
  .next (acceptRequest src (.setMarkCode entry enabled count code mask)
    (serveSetMarkCode entry enabled count code mask) s)

end Sys2Proof.Machine
end

