-- ==== Sys2Proof/Machine/Configuration.lean ====
section
/-! DEFINITION. The configuration requests: limits, geometry, recipes, zone tuning, event masks. -/

namespace Sys2Proof.Machine

/-! ### SET-LIMITS (R14) -/

/-- The range checks of SET-LIMITS (R14). -/
def limitsRanges (maxTemp maxSpeed minDwell : Nat) : List (Nat × Bool) :=
  [(1, within 500 2500 maxTemp), (2, within 100 6000 maxSpeed), (3, within 10 6000 minDwell)]

/-- SET-LIMITS carried out or refused by HU (R14). -/
def serveSetLimits (maxTemp maxSpeed minDwell : Nat) (s : State) : State × Answer :=
  if s.limits.isSet then refuse .locked 0 s
  else
    match firstFailing (limitsRanges maxTemp maxSpeed minDwell) with
    | some n => refuse .range n s
    | none =>
      (refresh { s with limits :=
          { isSet := true, maxTemp := maxTemp, maxSpeed := maxSpeed, minDwell := minDwell } },
        .done (replyFields [(2, maxTemp), (2, maxSpeed), (2, minDwell)]))

/-! ### SET-GEOMETRY (R12, R13) -/

/-- Whether a slot state stands in the way of SET-GEOMETRY (R12). -/
def SlotState.busy : SlotState → Bool
  | .queued | .committed | .active | .setting => true
  | .free | .done => false

/-- The state check of SET-GEOMETRY (R12 check 1). -/
def State.admitsGeometry (s : State) : Bool :=
  (match s.lg.lineState with
    | .unconfigured | .stopped => true
    | .tripped => s.lg.reference == 0
    | .running | .stopping => false) &&
  ((List.finRange 32).all fun k => !(s.status k).state.busy) && s.tu.records.isEmpty

/-- What an accepted SET-GEOMETRY does to RU and UU: the mark queue, the bar in progress, the last mark position, the
last revolution counts and the plan go (R13, R75, R82, R163). -/
def clearOldCounts (s : State) : State :=
  { s with
    ru := { s.ru with bar := restingBar s.inputs.mark, marks := [], lastMark := none }
    rolls := { s.rolls with
      a := { s.rolls.a with lastRev := none }, b := { s.rolls.b with lastRev := none }, plan := none } }

/-- The geometry record replaced whole and valid, with the line state of R12. -/
def storeGeometry (g : GeometryFields) (s : State) : State :=
  { s with
    geometry := { valid := true, given := g }
    lg := { s.lg with
      lineState := if s.lg.lineState = .unconfigured then .stopped else s.lg.lineState } }

/-- REVERSE reported at once where the deficit is already greater than the new reverse limit (R5). -/
def restartReverseCheck (s : State) : State :=
  if reverseLimitCounts s.geometry.given < s.pc.highWater - s.pc.webPosition then reportCause .reverse s else s

/-- SET-GEOMETRY carried out or refused by LG (R12, R13). -/
def serveSetGeometry (g : GeometryFields) (s : State) : State × Answer :=
  if s.admitsGeometry = false then refuse .state 0 s
  else
    match geometryRefusal g with
    | some n => refuse .range n s
    | none =>
      (refresh (restartReverseCheck (clearOldCounts (storeGeometry g s))), .done (geometryPayload g))

/-! ### SET-RECIPE (R133) -/

/-- Whether a tracking record is a SEAM that names recipe r. -/
def seamNames (r : Fin 8) : TrackRecord → Bool
  | .panel _ _ _ => false
  | .seam _ recipe _ => recipe == r

/-- Whether recipe r is in use (R133 check 3). -/
def State.recipeInUse (s : State) (r : Fin 8) : Bool :=
  (s.zoneRecipes.contains r) ||
  ((s.rolls.a.state != .empty) && s.rolls.a.recipe == r) ||
  ((s.rolls.b.state != .empty) && s.rolls.b.recipe == r) ||
  (match s.rolls.seam with | some m => m.recipe == r | none => false) ||
  s.tu.records.any (seamNames r)

/-- The recipe SET-RECIPE stores: setpoints clamped to the maximum zone temperature, Dmin raised to the minimum
dwell (R133). -/
def adjustedRecipe (r : RecipeFields) (lim : Limits) : Recipe :=
  { setpoints := #v[min r.setpoint1 lim.maxTemp, min r.setpoint2 lim.maxTemp, min r.setpoint3 lim.maxTemp,
      min r.setpoint4 lim.maxTemp]
    band := r.band
    standby := min r.standby lim.maxTemp
    dmin := max r.dmin lim.minDwell
    dmax := r.dmax
    minPressure := r.minPressure
    settle := r.settle }

/-- The adjustments SET-RECIPE reports: the clamps of fields 2 to 7, and Dmin raised (section 11.5). -/
def adjustmentBits (r : RecipeFields) (lim : Limits) : List Bool :=
  [decide (lim.maxTemp < r.setpoint1), decide (lim.maxTemp < r.setpoint2), decide (lim.maxTemp < r.setpoint3),
    decide (lim.maxTemp < r.setpoint4), false, decide (lim.maxTemp < r.standby),
    decide (r.dmin < lim.minDwell)]

/-- Recipe i of the table replaced. -/
def setRecipe (i : Fin 8) (r : Recipe) (s : State) : State :=
  { s with heat := { s.heat with recipes := s.heat.recipes.set i.val r i.isLt } }

/-- SET-RECIPE carried out or refused by HU (R133). -/
def serveSetRecipe (r : RecipeFields) (s : State) : State × Answer :=
  if s.limits.isSet = false then refuse .noLimits 0 s
  else if h : r.index < 8 then
    if s.recipeInUse ⟨r.index, h⟩ then refuse .inUse 0 s
    else
      match firstFailing (recipeRanges r) with
      | some n => refuse .range n s
      | none =>
        let stored := adjustedRecipe r s.limits
        if stored.dmax * 10 < stored.dmin then refuse .range 9 s
        else
          (refresh (setRecipe ⟨r.index, h⟩ stored s),
            .done (recipePayload r.index stored ++ replyFields [(1, numberOfBits (adjustmentBits r s.limits))]))
  else refuse .range 1 s

/-! ### SET-ZONE-TUNING, SET-EVENT-MASK -/

/-- SET-ZONE-TUNING carried out or refused by HU (R142). -/
def serveSetZoneTuning (zone kp ki : Nat) (s : State) : State × Answer :=
  match firstFailing [(1, within 1 4 zone), (2, within 0 1000 kp), (3, within 0 100 ki)] with
  | some n => refuse .range n s
  | none =>
    (modifyZone (Fin.ofNat 4 (zone - 1)) (fun zn => { zn with kp := kp, ki := ki }) s,
      .done (replyFields [(1, zone), (2, kp), (1, ki)]))

/-- SET-EVENT-MASK carried out or refused by EU (R189). -/
def serveSetEventMask (mask classes : Nat) (s : State) : State × Answer :=
  match firstFailing [(1, within 1 2 mask), (2, classesExist classes)] with
  | some n => refuse .range n s
  | none =>
    let e := if mask = 1 then { s.events with mask1 := BitVec.ofNat 14 classes }
      else { s.events with mask2 := BitVec.ofNat 14 classes }
    ({ s with events := e }, .done (replyFields [(2, e.mask1.toNat), (2, e.mask2.toNat)]))

/-! ### The commands -/

/-- SET_LIMITS (R14). -/
def execSetLimits (src : Source) (maxTemp maxSpeed minDwell : Nat) (s : State) :
    Host.Outcome State Fault Refusal :=
  .next (acceptRequest src (.setLimits maxTemp maxSpeed minDwell) (serveSetLimits maxTemp maxSpeed minDwell) s)

/-- SET_GEOMETRY (R12). -/
def execSetGeometry (src : Source) (g : GeometryFields) (s : State) : Host.Outcome State Fault Refusal :=
  .next (acceptRequest src (.setGeometry g) (serveSetGeometry g) s)

/-- SET_RECIPE (R133). -/
def execSetRecipe (src : Source) (r : RecipeFields) (s : State) : Host.Outcome State Fault Refusal :=
  .next (acceptRequest src (.setRecipe r) (serveSetRecipe r) s)

/-- SET_ZONE_TUNING (R142). -/
def execSetZoneTuning (src : Source) (zone kp ki : Nat) (s : State) : Host.Outcome State Fault Refusal :=
  .next (acceptRequest src (.setZoneTuning zone kp ki) (serveSetZoneTuning zone kp ki) s)

/-- SET_EVENT_MASK (R189). -/
def execSetEventMask (src : Source) (mask classes : Nat) (s : State) : Host.Outcome State Fault Refusal :=
  .next (acceptRequest src (.setEventMask mask classes) (serveSetEventMask mask classes) s)

end Sys2Proof.Machine
end

