-- ==== Sys2Proof/Machine/Driving.lean ====
section
/-! DEFINITION. The line: the three safety and line inputs, the ramp and step timers, and the requests that drive
and read it (chapter 6). -/

namespace Sys2Proof.Machine

/-! ### The inputs (R98, R102, R105, R109) -/

/-- E_STOP (R105): the input becomes active and E-STOP is reported; an input already active reports nothing
(log entry 10). -/
def execEStop (s : State) : Host.Outcome State Fault Refusal :=
  if s.inputs.eStop then .next s
  else .next (refresh (reportCause .eStop { s with inputs := { s.inputs with eStop := true } }))

/-- WEB_BREAK (R105): the input becomes active and WEB-BREAK is reported. -/
def execWebBreak (s : State) : Host.Outcome State Fault Refusal :=
  if s.inputs.webBreak then .next s
  else .next (refresh (reportCause .webBreak { s with inputs := { s.inputs with webBreak := true } }))

/-- E_STOP_RELEASED (R109): the input becomes inactive; the trip record is kept. -/
def execEStopReleased (s : State) : Host.Outcome State Fault Refusal :=
  .next { s with inputs := { s.inputs with eStop := false } }

/-- WEB_BREAK_RELEASED (R109): the input becomes inactive; the trip record is kept. -/
def execWebBreakReleased (s : State) : Host.Outcome State Fault Refusal :=
  .next { s with inputs := { s.inputs with webBreak := false } }

/-- HOLD after a change of TAKE-OFF HOLD: out of force with the input inactive, in force with it active except
during a freeze, when the entry is deferred (R98, R101). -/
def holdAfter (active : Bool) (g : Governor) : Bool :=
  match active, g.freeze with
  | false, _ => false
  | true, none => true
  | true, some _ => g.hold

/-- TAKE_OFF_HOLD_CHANGE (R98). -/
def execTakeOffHoldChange (active : Bool) (s : State) : Host.Outcome State Fault Refusal :=
  .next (refresh { s with
    inputs := { s.inputs with takeOffHold := active }
    lg := { s.lg with hold := holdAfter active s.lg } })

/-! ### The ramp timer (R103) -/

/-- A number moved toward a target by at most one step (R103). -/
def moveToward (target step v : Nat) : Nat :=
  if v ≤ target then min target (v + step) else max target (v - step)

/-- The step the reference may take at this expiry, by line state (R103). -/
def State.rampStepNow (s : State) : Nat :=
  match s.lg.lineState with
  | .running => s.geometry.given.rampStep
  | .stopping => s.geometry.given.rampStep
  | .tripped => if s.immediateTrip then 0 else s.geometry.given.tripRampStep
  | .unconfigured => 0
  | .stopped => 0

/-- The reference moved one step; STOPPING becomes STOPPED when it becomes 0 (R103). -/
def ramp (s : State) : State :=
  let v := moveToward s.target s.rampStepNow s.lg.reference
  { s with lg := { s.lg with
      reference := v
      lineState := if s.lg.lineState = .stopping ∧ v = 0 then .stopped else s.lg.lineState } }

/-- RAMP_TIMER (R103). -/
def execRampTimer (s : State) : Host.Outcome State Fault Refusal := .next (refresh (ramp s))

/-! ### The step generators (R112) -/

/-- STEP_PERIOD_END (R112): a running generator gives one step and takes the period of the speed in force, or goes
idle; an idle one has no period to end. -/
def execStepPeriodEnd (g : StepOutput) (s : State) : Host.Outcome State Fault Refusal :=
  match g with
  | .infeed =>
    match s.lg.infeedPeriod with
    | none => .next s
    | some _ => .next { s with lg := { s.lg with
        infeedSteps := s.lg.infeedSteps + 1, infeedPeriod := s.infeedStepPeriod } }
  | .belt =>
    match s.lg.beltPeriod with
    | none => .next s
    | some _ => .next { s with lg := { s.lg with
        beltSteps := s.lg.beltSteps + 1, beltPeriod := s.beltStepPeriod } }

/-! ### START, STOP, SET-SPEED (R93 to R96) -/

/-- An accepted START (R94). -/
def startLine (s : State) : State :=
  resumeZones { s with lg := { s.lg with lineState := .running, deferredStop := false } }

/-- START carried out or refused by LG, in the check order of R93; with the geometry invalid the second check refuses
NOGEOM in TRIPPED too, as R8 says (DEDUCED, log entry 19). -/
def serveStart (s : State) : State × Answer :=
  if s.limits.isSet = false then refuse .noLimits 0 s
  else if s.geometry.valid = false then refuse .noGeom 0 s
  else
    match s.lg.lineState with
    | .unconfigured => refuse .noGeom 0 s
    | .tripped => refuse .state 0 s
    | .running => (refresh (startLine s), .done [])
    | .stopped | .stopping =>
      if s.feeding = none then refuse .roll 0 s
      else if s.heat.heatOn = false ∨ s.anyFault then refuse .heat 0 s
      else if s.inputs.bladeHome = false then refuse .blade 0 s
      else (refresh (startLine s), .done [])

/-- What STOP does in each line state (R95). -/
def stopEffect (s : State) : State :=
  match s.lg.lineState, s.lg.freeze with
  | .running, none => refresh (stopLine s)
  | .running, some _ => { s with lg := { s.lg with deferredStop := true } }
  | .stopping, _ => s
  | .stopped, _ => s
  | .unconfigured, _ => s
  | .tripped, _ => s

/-- STOP carried out by LG; it is never refused (R95). -/
def serveStop (s : State) : State × Answer := (stopEffect s, .done [])

/-- SET-SPEED carried out or refused by LG (R96). -/
def serveSetSpeed (speed : Nat) (s : State) : State × Answer :=
  if s.limits.isSet = false then refuse .noLimits 0 s
  else
    let v := min speed s.limits.maxSpeed
    (refresh { s with lg := { s.lg with hostSpeed := v } }, .done (replyFields [(2, v)]))

/-! ### TRIP, CLEAR-TRIP, READ-LINE (R108, R109, R113) -/

/-- TRIP carried out by LG (R108). -/
def serveTrip (s : State) : State × Answer := (refresh (reportCause .link s), .done [])

/-- The conditions of CLEAR-TRIP (R109). -/
def State.mayClearTrip (s : State) : Bool :=
  s.lg.lineState == .tripped && s.lg.reference == 0 && !s.inputs.eStop && !s.inputs.webBreak && !s.anyFault

/-- An accepted CLEAR-TRIP; UU evaluates planning as LG leaves TRIPPED (R109, R62, R161). -/
def clearTrip (s : State) : State :=
  evaluatePlanning { s with
    lg := { s.lg with
      primary := none, further := 0, lineState := if s.geometry.valid then .stopped else .unconfigured }
    blade := { s.blade with misses := 0 } }

/-- CLEAR-TRIP carried out or refused by LG (R109). -/
def serveClearTrip (s : State) : State × Answer :=
  if s.mayClearTrip then (refresh (clearTrip s), .done []) else refuse .state 0 s

/-- READ-LINE answered by LG (R113). -/
def serveReadLine (s : State) : State × Answer := (s, .done (readLinePayload s))

/-! ### The commands -/

/-- START (R93). -/
def execStart (src : Source) (s : State) : Host.Outcome State Fault Refusal :=
  .next (acceptRequest src .start serveStart s)

/-- STOP (R95). -/
def execStop (src : Source) (s : State) : Host.Outcome State Fault Refusal :=
  .next (acceptRequest src .stop serveStop s)

/-- SET_SPEED (R96). -/
def execSetSpeed (src : Source) (speed : Nat) (s : State) : Host.Outcome State Fault Refusal :=
  .next (acceptRequest src (.setSpeed speed) (serveSetSpeed speed) s)

/-- TRIP (R108). -/
def execTrip (src : Source) (s : State) : Host.Outcome State Fault Refusal :=
  .next (acceptRequest src .trip serveTrip s)

/-- CLEAR_TRIP (R109). -/
def execClearTrip (src : Source) (s : State) : Host.Outcome State Fault Refusal :=
  .next (acceptRequest src .clearTrip serveClearTrip s)

/-- READ_LINE (R113). -/
def execReadLine (src : Source) (s : State) : Host.Outcome State Fault Refusal :=
  .next (acceptRequest src .readLine serveReadLine s)

end Sys2Proof.Machine
end

