-- ==== Sys2Proof/Machine/Events.lean ====
section
/-! DEFINITION. The requests that read the tracking queue and the events, and ACK-EVENTS (R128, R190, R191). -/

namespace Sys2Proof.Machine

/-- READ-TRACKING answered by TU: DONE-MORE while records remain beyond the page (R128). -/
def serveReadTracking (index : Nat) (s : State) : State × Answer :=
  if 23 < index then refuse .range 1 s
  else if index + 8 < s.tu.records.length then (s, .doneMore (readTrackingPayload index s))
  else (s, .done (readTrackingPayload index s))

/-- READ-EVENTS answered by EU: DONE-MORE while a class remains beyond the page (R190). -/
def serveReadEvents (index : Nat) (s : State) : State × Answer :=
  if 13 < index then refuse .range 1 s
  else if index + 8 < 14 then (s, .doneMore (readEventsPayload index s))
  else (s, .done (readEventsPayload index s))

/-- The counts with the classes of a set cleared (R191). -/
def clearCounts (classes : EventSet) (counts : Vector Nat 14) : Vector Nat 14 :=
  counts.mapIdx fun i n => if classes.getLsbD i then 0 else n

/-- The classes of a set cleared, each with count 0 (R191). -/
def acknowledge (classes : EventSet) (s : State) : State :=
  { s with events := { s.events with counts := clearCounts classes s.events.counts } }

/-- ACK-EVENTS carried out or refused by EU (R191). -/
def serveAckEvents (classes : Nat) (s : State) : State × Answer :=
  if classesExist classes then
    (acknowledge (BitVec.ofNat 14 classes) s,
      .done (replyFields [(2, numberOfBits (acknowledge (BitVec.ofNat 14 classes) s).pendingBits)]))
  else refuse .range 1 s

/-- READ_TRACKING (R128). -/
def execReadTracking (src : Source) (index : Nat) (s : State) : Host.Outcome State Fault Refusal :=
  .next (acceptRequest src (.readTracking index) (serveReadTracking index) s)

/-- READ_EVENTS (R190). -/
def execReadEvents (src : Source) (index : Nat) (s : State) : Host.Outcome State Fault Refusal :=
  .next (acceptRequest src (.readEvents index) (serveReadEvents index) s)

/-- ACK_EVENTS (R191). -/
def execAckEvents (src : Source) (classes : Nat) (s : State) : Host.Outcome State Fault Refusal :=
  .next (acceptRequest src (.ackEvents classes) (serveAckEvents classes) s)

end Sys2Proof.Machine
end

