-- ==== Sys2Proof/Machine/Heat.lean ====
section
/-! DEFINITION. HU: the scan, the control loop, the valves and the heat requests (chapter 8). -/

namespace Sys2Proof.Machine

/-! ### Conversions and filters (R130, R131) -/

/-- A temperature code in tenths of a degree (R130). -/
def convertTemp (raw : Nat) : Nat := roundHalfUp (raw * 3000) 4095

/-- A pressure code in kPa (R130). -/
def convertPressure (raw : Nat) : Nat := roundHalfUp (raw * 1000) 4095

/-- A conversion entered in a filter: the first fills it, a later one displaces the oldest (R131). -/
def enterFilter (v : Nat) : Option Filter → Filter
  | none => { w := v, x := v, y := v, z := v }
  | some f => { w := f.x, x := f.y, y := f.z, z := v }

/-- A temperature channel after a conversion; raw 4,095 is an open reading (R130, R131). -/
def scanChannel (raw : Fin 4096) (c : TempChannel) : TempChannel :=
  if raw = 4095 then { c with openCondition := true }
  else { filter := some (enterFilter (convertTemp raw.val) c.filter), openCondition := false }

/-- The five channels converted and their filters updated (R130, R131). -/
def scanChannels (t1 t2 t3 t4 pressure : Fin 4096) (s : State) : State :=
  { s with heat := { s.heat with
      temps := #v[scanChannel t1 (s.channel 0), scanChannel t2 (s.channel 1), scanChannel t3 (s.channel 2),
        scanChannel t4 (s.channel 3)]
      pressure := some (enterFilter (convertPressure pressure.val) s.heat.pressure) } }

/-! ### The fault test and the band test (R137, R139) -/

/-- The zone record in FAULT (R139 steps 2 and 3). -/
def faultedZone (cause : FaultCause) (zn : Zone) : Zone :=
  { zn with state := .fault, settle := none, integral := 0, duty := 0, onTime := 0, valveOpen := false,
            fault := some cause }

/-- Zone z enters FAULT: leaving IN-BAND raises ZONE, otherwise step 5 does, and HEAT is reported (R139). -/
def enterFault (z : Fin 4) (cause : FaultCause) (s : State) : State :=
  let s1 := modifyZone z (faultedZone cause) s
  reportCause .heat (if (s.zone z).state = .inBand then leaveInBand z s1 else raise .zone s1)

/-- The fault test of a scan on zone z (R139). -/
def faultTest (z : Fin 4) (s : State) : State :=
  if (s.zone z).controlled then
    match s.faultCause z with
    | some cause => enterFault z cause s
    | none => s
  else s

/-- The band condition of zone z; without a recipe or a value it fails (R137, log entry 16). -/
def State.inBand (s : State) (z : Fin 4) : Bool :=
  match (s.zone z).recipe, s.temperature z, s.headerPressure with
  | some r, some t, some p =>
    decide (((t : Int) - (s.recipe r).setpoint z).natAbs ≤ (s.recipe r).band) &&
      decide ((s.recipe r).minPressure ≤ p)
  | _, _, _ => false

/-- The settle time of zone z's recipe, in ms (R137). -/
def State.settleLimit (s : State) (z : Fin 4) : Nat :=
  match (s.zone z).recipe with
  | some r => (s.recipe r).settle * 1000
  | none => 0

/-- The zone record after a scan with the band condition holding, in WARMING or OUT-OF-BAND (R137). -/
def settledZone (limit : Nat) (zn : Zone) : Zone :=
  match zn.settle with
  | none => { zn with settle := some 0 }
  | some t =>
    if limit ≤ t + 100 then { zn with state := .inBand, settle := none } else { zn with settle := some (t + 100) }

/-- The band test of a scan on zone z (R137). -/
def bandTest (z : Fin 4) (s : State) : State :=
  match (s.zone z).state, s.inBand z with
  | .warming, true => modifyZone z (settledZone (s.settleLimit z)) s
  | .outOfBand, true => modifyZone z (settledZone (s.settleLimit z)) s
  | .warming, false => modifyZone z (fun zn => { zn with settle := none }) s
  | .outOfBand, false => modifyZone z (fun zn => { zn with settle := none }) s
  | .inBand, false => leaveInBand z (modifyZone z (fun zn => { zn with state := .outOfBand }) s)
  | .inBand, true => s
  | .off, _ => s
  | .standby, _ => s
  | .fault, _ => s

/-- The fault test and then the band test on zone z (R130). -/
def testZone (s : State) (z : Fin 4) : State := bandTest z (faultTest z s)

/-! ### The stop timer (R145) -/

/-- Whether the stop timer runs: reference 0, some zone not OFF, fired flag clear (R145). -/
def State.stopTimerRuns (s : State) : Bool := s.lg.reference == 0 && !s.allOff && !s.heat.stopFired

/-- The stop timer step of a scan (R145, R146). -/
def stepStopTimer (s : State) : State :=
  if s.stopTimerRuns then
    let s1 := { s with heat := { s.heat with stopElapsed := s.heat.stopElapsed + 100 } }
    if s1.stopTimerDue then fireStopTimer s1 else s1
  else s

/-- SCAN (R130): convert, test each zone in turn, step the stop timer. -/
def execScan (t1 t2 t3 t4 pressure : Fin 4096) (s : State) : Host.Outcome State Fault Refusal :=
  .next (refresh (stepStopTimer (allZones.foldl testZone (scanChannels t1 t2 t3 t4 pressure s))))

/-- Whether the settle timer of zone z has reached the settle time (R137). -/
def State.settleDue (s : State) (z : Fin 4) : Bool :=
  match (s.zone z).state, (s.zone z).settle with
  | .warming, some t => decide (s.settleLimit z ≤ t)
  | .outOfBand, some t => decide (s.settleLimit z ≤ t)
  | _, _ => false

/-- SETTLE_COMPLETE (R137): a settle timer that has reached the settle time makes its zone IN-BAND (log entry 15). -/
def execSettleComplete (z : Fin 4) (s : State) : Host.Outcome State Fault Refusal :=
  if s.settleDue z then
    .next (refresh (modifyZone z (fun zn => { zn with state := .inBand, settle := none }) s))
  else .next s

/-- STOP_TIMER_FIRE (R146): the stop timer fires if it is due (log entry 15). -/
def execStopTimerFire (s : State) : Host.Outcome State Fault Refusal :=
  if s.stopTimerRuns ∧ s.stopTimerDue then .next (refresh (fireStopTimer s)) else .next s

/-! ### The control loop and the valves (R140, R141) -/

/-- A number held between 0 and 1,000 (R140). -/
def perMille (x : Int) : Nat := (max 0 (min 1000 x)).toNat

/-- The error e (R140 step 1). -/
def controlError (setpoint t : Nat) : Int := max (-2000) (min 2000 ((setpoint : Int) - t))

/-- The proportional part P (R140 step 2). -/
def proportional (e : Int) (kp : Nat) : Int := (e * kp).tdiv 10

/-- Whether I is integrated, for U = P + I (R140 step 3). -/
def integrates (u e : Int) : Bool :=
  (decide (0 ≤ u) && decide (u ≤ 1000)) || (decide (1000 < u) && decide (e < 0)) ||
    (decide (u < 0) && decide (0 < e))

/-- The zone record after a control step with error e (R140 steps 2 to 4). -/
def controlledZone (e : Int) (zn : Zone) : Zone :=
  let p := proportional e zn.kp
  let i := if integrates (p + zn.integral) e then perMille (zn.integral + (e * zn.ki).tdiv 20) else zn.integral
  { zn with integral := i, duty := perMille (p + i) }

/-- One control step on zone z, if it is controlled (R140, log entry 16). -/
def controlZone (s : State) (z : Fin 4) : State :=
  if (s.zone z).controlled then
    match s.temperature z with
    | some t => modifyZone z (controlledZone (controlError (s.effectiveSetpoint z) t)) s
    | none => s
  else s

/-- CONTROL_STEP (R140). -/
def execControlStep (s : State) : Host.Outcome State Fault Refusal := .next (allZones.foldl controlZone s)

/-- The zone record after a valve boundary: the duty taken as the on-time (R141). -/
def boundaryZone (zn : Zone) : Zone := { zn with onTime := zn.duty * 2, valveOpen := decide (0 < zn.duty) }

/-- VALVE_BOUNDARY (R141). -/
def execValveBoundary (s : State) : Host.Outcome State Fault Refusal :=
  .next (allZones.foldl (fun s z => modifyZone z boundaryZone s) s)

/-- The zone record when the on-time has run out: the valve closes, but an on-time of 2,000 ms lasts the whole
period (R141). -/
def onTimeOver (zn : Zone) : Zone := { zn with valveOpen := zn.valveOpen && decide (2000 ≤ zn.onTime) }

/-- VALVE_ON_TIME_END (R141). -/
def execValveOnTimeEnd (z : Fin 4) (s : State) : Host.Outcome State Fault Refusal :=
  .next (modifyZone z onTimeOver s)

/-! ### HEAT-ON, HEAT-OFF, READ-HEAT (R135, R136, R150) -/

/-- The zone record after HEAT-ON with recipe r (R135 steps 2 and 3). -/
def heatedZone (used : Bool) (r : Fin 8) (zn : Zone) : Zone :=
  if used then { zn with recipe := some r, state := .warming, settle := none, integral := 0, duty := 0 }
  else { zn with recipe := some r }

/-- An accepted HEAT-ON (R135). -/
def heatOn (r : Fin 8) (s : State) : State :=
  allZones.foldl (fun s z => modifyZone z (heatedZone (s.recipeUses r z) r) s)
    { s with heat := { s.heat with heatOn := true } }

/-- The zones that are WARMING, as a set (section 11.5). -/
def State.warmingBits (s : State) : List Bool := allZones.map fun z => (s.zone z).state == .warming

/-- HEAT-ON carried out or refused by HU (R135, R199). -/
def serveHeatOn (s : State) : State × Answer :=
  match s.feedingRecipe with
  | none => refuse .roll 0 s
  | some r =>
    if allZones.any fun z => (s.faultCause z).isSome then refuse .state 0 s
    else if s.heat.heatOn then (s, .done (replyFields [(1, 255), (1, 0)]))
    else
      (refresh (heatOn r s),
        .done (replyFields [(1, r.val), (1, numberOfBits (heatOn r s).warmingBits)]))

/-- The zone record after HEAT-OFF (R136 step 2). -/
def heatlessZone (zn : Zone) : Zone := { offZone zn with fault := none, recipe := none }

/-- An accepted HEAT-OFF with the heat switch on (R136). -/
def heatOff (s : State) : State :=
  let s1 := allZones.foldl (fun s z => leaveIfInBand (s.zone z).state z s) s
  let s2 := allZones.foldl (fun s z => modifyZone z heatlessZone s) s1
  { s2 with heat := { s2.heat with heatOn := false, stopElapsed := 0, stopFired := false } }

/-- HEAT-OFF carried out by HU; it is never refused (R136). -/
def serveHeatOff (s : State) : State × Answer :=
  (if s.heat.heatOn then refresh (heatOff s) else s, .done [])

/-- READ-HEAT answered by HU (R150). -/
def serveReadHeat (recipe : Nat) (s : State) : State × Answer :=
  if h : recipe < 8 then (s, .done (readHeatPayload ⟨recipe, h⟩ s)) else refuse .range 1 s

/-- HEAT_ON (R135). -/
def execHeatOn (src : Source) (s : State) : Host.Outcome State Fault Refusal :=
  .next (acceptRequest src .heatOn serveHeatOn s)

/-- HEAT_OFF (R136). -/
def execHeatOff (src : Source) (s : State) : Host.Outcome State Fault Refusal :=
  .next (acceptRequest src .heatOff serveHeatOff s)

/-- READ_HEAT (R150). -/
def execReadHeat (src : Source) (recipe : Nat) (s : State) : Host.Outcome State Fault Refusal :=
  .next (acceptRequest src (.readHeat recipe) (serveReadHeat recipe) s)

end Sys2Proof.Machine
end

