-- ==== Sys2Proof/Machine/Panels.lean ====
section
/-! DEFINITION. The requests on the panel ring (section 2.4). -/

namespace Sys2Proof.Machine

/-- The slot status record of a panel that has just been loaded: cleared into QUEUED with the counts of R42 (R22). -/
def queuedStatus (p : PanelRecord) (scale : Nat) : SlotStatus :=
  { clearedStatus with
    state := .queued
    gapCounts := countsOfHundredths p.gap scale
    panelCounts := panelCountsOf p scale
    registration := match p.registration with | none => some .notRequired | some _ => none }

/-- A checked panel record put into slot k, which becomes QUEUED; at the commit pointer UU evaluates planning
(R23, R161). -/
def loadSlot (k : Fin 32) (p : PanelRecord) (s : State) : State :=
  let s1 := setSlot k { panel := p, status := queuedStatus p s.geometry.given.s } s
  if k = s.ps.commitPointer then evaluatePlanning s1 else s1

/-- The reply of an accepted LOAD-PANEL: gap counts, panel counts and planned count (R23). -/
def loadReply (st : SlotStatus) : List Byte :=
  replyFields [(3, st.gapCounts), (3, st.panelCounts), (3, st.planned)]

/-- LOAD-PANEL carried out or refused by PR, in the check order of R23. -/
def serveLoadPanel (slot : Nat) (p : PanelFields) (s : State) : State × Answer :=
  if s.geometry.valid = false then refuse .noGeom 0 s
  else if h : slot < 32 then
    if (s.status ⟨slot, h⟩).state ≠ .free then refuse .slot 0 s
    else
      match firstFailing (panelRanges p) with
      | some n => refuse .range n s
      | none =>
        match pleatRefusal (panelOfFields p) s.geometry.given with
        | some (check, pleat) => (s, .refused .geometry [check, pleat])
        | none =>
          (refresh (loadSlot ⟨slot, h⟩ (panelOfFields p) s),
            .done (loadReply (queuedStatus (panelOfFields p) s.geometry.given.s)))
  else refuse .range 0 s

/-- A slot becomes FREE with its status record cleared and its panel record kept (R22). -/
def freeSlot (k : Fin 32) (s : State) : State := modifyStatus k (fun _ => clearedStatus) s

/-- CANCEL-PANEL carried out or refused by PR (R24). -/
def serveCancelPanel (slot : Nat) (s : State) : State × Answer :=
  if h : slot < 32 then
    if (s.status ⟨slot, h⟩).state = .queued ∧ (s.status ⟨slot, h⟩).registration ≠ some .searching then
      (refresh (freeSlot ⟨slot, h⟩ s), .done [])
    else refuse .slot 0 s
  else refuse .range 0 s

/-- RELEASE-PANEL carried out or refused by PR (R26). -/
def serveReleasePanel (slot : Nat) (s : State) : State × Answer :=
  if h : slot < 32 then
    if (s.status ⟨slot, h⟩).state = .done then (refresh (freeSlot ⟨slot, h⟩ s), .done [])
    else refuse .slot 0 s
  else refuse .range 0 s

/-- READ-PANEL answered by PR (R27). -/
def serveReadPanel (slot : Nat) (s : State) : State × Answer :=
  if h : slot < 32 then (s, .done (readPanelPayload ⟨slot, h⟩ s)) else refuse .range 0 s

/-- READ-RING answered by PR (R28). -/
def serveReadRing (s : State) : State × Answer := (s, .done (readRingPayload s))

/-- LOAD_PANEL (R23). -/
def execLoadPanel (src : Source) (slot : Nat) (p : PanelFields) (s : State) : Host.Outcome State Fault Refusal :=
  .next (acceptRequest src (.loadPanel slot p) (serveLoadPanel slot p) s)

/-- CANCEL_PANEL (R24). -/
def execCancelPanel (src : Source) (slot : Nat) (s : State) : Host.Outcome State Fault Refusal :=
  .next (acceptRequest src (.cancelPanel slot) (serveCancelPanel slot) s)

/-- RELEASE_PANEL (R26). -/
def execReleasePanel (src : Source) (slot : Nat) (s : State) : Host.Outcome State Fault Refusal :=
  .next (acceptRequest src (.releasePanel slot) (serveReleasePanel slot) s)

/-- READ_PANEL (R27). -/
def execReadPanel (src : Source) (slot : Nat) (s : State) : Host.Outcome State Fault Refusal :=
  .next (acceptRequest src (.readPanel slot) (serveReadPanel slot) s)

/-- READ_RING (R28). -/
def execReadRing (src : Source) (s : State) : Host.Outcome State Fault Refusal :=
  .next (acceptRequest src .readRing serveReadRing s)

end Sys2Proof.Machine
end

