-- ==== Sys2Proof/Machine/Resets.lean ====
section
/-! DEFINITION. The two resets (R192 to R194) and the idle step. -/

namespace Sys2Proof.Machine

/-! ### Power-on and RESET pin (R194) -/

/-- The trip an active first sample of E-STOP or WEB-BREAK gives: E-STOP first (R114). -/
def firstSampleTrips (p : PowerOnSamples) (s : State) : State :=
  let s1 := if p.eStop then reportCause .eStop s else s
  if p.webBreak then reportCause .webBreak s1 else s1

/-- POWER_ON_RESET (R194, R114): every block at its reset values with the given samples. The queue of commands is not
the part's, and is kept. -/
def execPowerOnReset (p : PowerOnSamples) (s : State) : Host.Outcome State Fault Refusal :=
  .next (firstSampleTrips p { coldState p with pending := s.pending, races := s.races })

/-! ### LINE-RESET (R192, R193) -/

/-- The conditions of LINE-RESET (R192). -/
def State.mayLineReset (s : State) : Bool :=
  s.lg.reference == 0 && !s.strokeInFlight && !s.spliceInFlight

/-- What LINE-RESET does to PC, PR, PS, BU, RU, LG and TU (R193). -/
def clearProduction (s : State) : State :=
  { s with
    pc := { s.pc with webPosition := 0, beltPosition := 0, highWater := 0 }
    slots := Vector.replicate 32 clearedSlot
    ps := clearedSequencer
    blade := { s.blade with misses := 0 }
    ru := { s.ru with bar := restingBar s.inputs.mark, marks := [], lastMark := none }
    lg := { s.lg with
      reference := 0, starve := true, freeze := none, deferredStop := false, infeedPeriod := none,
      beltPeriod := none }
    tu := { s.tu with records := [] } }

/-- An overdue cut ended by LINE-RESET (R171, R193). -/
def endOverdueCut (s : State) : State :=
  match s.rolls.splice with
  | some r => endCut r s
  | none => s

/-- A feeding roll's last capture cleared (R176). -/
def uncaptured (u : Unwind) : Unwind := if u.feeds then { u with lastCapture := none } else u

/-- What LINE-RESET does to UU (R193, R176). -/
def clearRolls (s : State) : State :=
  let s1 := endOverdueCut s
  { s1 with rolls := { s1.rolls with
      a := uncaptured s1.rolls.a, b := uncaptured s1.rolls.b, plan := none, seam := none } }

/-- Every zone's recipe switched to the feeding roll's recipe, as one event (R148, R193, log entry 21). -/
def switchToFeeding (s : State) : State :=
  match s.feedingRecipe with
  | some r => switchAllZones r s
  | none => s

/-- An accepted LINE-RESET (R193). -/
def lineReset (s : State) : State := switchToFeeding (clearRolls (clearProduction s))

/-- LINE-RESET carried out or refused (R192, R193). -/
def serveLineReset (s : State) : State × Answer :=
  if s.mayLineReset then (refresh (lineReset s), .done []) else refuse .state 0 s

/-- LINE_RESET (R193). -/
def execLineReset (src : Source) (s : State) : Host.Outcome State Fault Refusal :=
  .next (acceptRequest src .lineReset serveLineReset s)

/-! ### The idle step (log entry 6) -/

/-- The stroke in flight one millisecond later: its time waits at the slow time until that expiry has been taken, and
at the timeout (R61, log entry 7). -/
def strokeTick (r : StrokeInFlight) : StrokeInFlight :=
  if r.timeout ≤ r.time ∨ (r.notified = false ∧ r.slowTime ≤ r.time) then r else { r with time := r.time + 1 }

/-- The splice record one millisecond later: its time waits at the timeout, and stops there once the cut is overdue
(R166, R171, log entry 7). -/
def spliceTick (r : SpliceRecord) : SpliceRecord := if r.timeout ≤ r.time then r else { r with time := r.time + 1 }

/-- One millisecond passes with no command waiting (log entry 6). -/
def tick (s : State) : State :=
  { s with
    blade := { s.blade with inFlight := s.blade.inFlight.map strokeTick }
    rolls := { s.rolls with splice := s.rolls.splice.map spliceTick, microTimer := s.rolls.microTimer + 1000 } }

end Sys2Proof.Machine
end

