-- ==== Sys2Proof/Machine/Positions.lean ====
section
/-! DEFINITION. PC: the encoders, and everything that a web or belt count makes the blocks do (chapter 1). -/

namespace Sys2Proof.Machine

/-! ### What waits for a web position -/

/-- UU fires the plan whose fire position the web position has reached if a roll is MATCHED, and drops it otherwise
(R164). It is looked at as a forward count is taken, so a plan made with its fire position at the present web position
(R162 with arm lead 0) fires at the next forward count, or, where a search's end or a seam's clearing at a count makes
it, at that same count: DESIGN CHOICE (log entry 22). -/
def reachFire (s : State) : State :=
  match s.rolls.plan with
  | none => s
  | some p =>
    if p.fire ≤ s.pc.webPosition then
      match s.matchedRoll with
      | some new => fireSplice .planned new s
      | none => dropPlan s
    else s

/-- Whether the seam in flight has reached the blade line (R174). -/
def State.seamReached (s : State) : Bool :=
  match s.rolls.seam with
  | some m => decide (m.position ≤ s.pc.webPosition)
  | none => false

/-- UU aims SPLICE at every ACTIVE slot (R174 step 1). -/
def markSeamPanels (s : State) : State :=
  ((List.finRange 32).filter fun k => (s.status k).state == .active).foldl (fun s k => aimSplice k s) s

/-- The seam in flight reaches the blade line (R174). -/
def reachSeam (s : State) : State :=
  match s.rolls.seam with
  | none => s
  | some m =>
    if m.position ≤ s.pc.webPosition then
      let s1 := addSeam m.recipe (markSeamPanels s)
      evaluatePlanning { s1 with rolls := { s1.rolls with seam := none } }
    else s

/-- Panel boundaries: gathering ends before starts (R69 gives one outcome for either order). -/
def reachBoundaries (s : State) : State := reachStart (reachFlatEnd (reachStroke s))

/-! ### Events that meet at one count (log entries 4 and 5) -/

/-- Whether the head stroke has been reached. -/
def State.strokeReachedNow (s : State) : Bool :=
  match s.ps.strokes with
  | r :: _ => decide (r.position ≤ s.pc.webPosition)
  | [] => false

/-- Whether the search's loss position has been reached. -/
def State.lossReached (s : State) : Bool :=
  match s.ps.search with
  | some r => decide (r.loss ≤ s.pc.webPosition)
  | none => false

/-- Whether the plan's fire position has been reached. -/
def State.fireReached (s : State) : Bool :=
  match s.rolls.plan with
  | some p => decide (p.fire ≤ s.pc.webPosition)
  | none => false

/-- Two events `first` and `second` taken in an order that is free where `meet` says they meet (log entry 4). -/
def inEitherOrder (meet : Bool) (first second : State → State) (s : State) : State :=
  if meet && Config.laterFirst s.races then noteRace (first (second s))
  else if meet then noteRace (second (first s))
  else second (first s)

/-- Whether a mark expires at this count. -/
def State.anyExpired (s : State) : Bool := s.ru.marks.any s.expired

/-- Whether the slot at the commit pointer is a registered one that R45 lets PS take now. -/
def State.searchReady (s : State) : Bool :=
  s.commitReady && (s.panelOf s.ps.commitPointer).registration.isSome

/-- PS sets up the search of a registered slot it may take. -/
def setUpReady (s : State) : State := if s.searchReady then takeSlot s else s

/-- The expiry of marks; where a search may be set up at the same count, either comes first (R84, R89). -/
def reachExpiry (s : State) : State :=
  if s.anyExpired && s.searchReady then
    if Config.laterFirst s.races then expireMarks (setUpReady (noteRace s)) else expireMarks (noteRace s)
  else expireMarks s

/-- What a mark meeting this count can meet: expiry, the loss of the search and the last committed end. -/
def reachMarkWaiters (rising : Bool) (s : State) : State :=
  reachLastEnd rising (reachLoss (reachExpiry s))

/-- Whether the end of a bar group meets an expiry, a loss or the last committed end (R89, R72, R83). -/
def State.groupMeets (s : State) (rising : Bool) : Bool :=
  s.groupEnds && (s.anyExpired || s.lossReached || (rising && s.ps.lastEnd == some s.pc.highWater))

/-- What waits for the web position after a forward count has raised it; `rising` says that the high-water mark
rose (R3). -/
def reachWebPosition (rising : Bool) (s : State) : State :=
  let s1 := inEitherOrder (s.groupMeets rising) reachGroupEnd (reachMarkWaiters rising) s
  inEitherOrder (s1.strokeReachedNow && s1.fireReached)
    (fun s => inEitherOrder (s.seamReached &&
        (s.strokeReachedNow || s.flatEnded.isSome || s.startReached)) reachBoundaries reachSeam s)
    reachFire s1

/-- A forward web count (R3, R4): LG tests the reserve at the new web position before what waits for it acts (R55, log
entry 5). -/
def webForward (s : State) : State :=
  if topPosition ≤ s.pc.webPosition then s
  else
    let w := s.pc.webPosition + 1
    reachWebPosition (decide (s.pc.highWater < w))
      (starveTest { s with pc := { s.pc with webPosition := w, highWater := max s.pc.highWater w } })

/-- The reverse deficit (R5). -/
def State.deficit (s : State) : Nat := s.pc.highWater - s.pc.webPosition

/-- A reverse web count (R3, R5, R79). -/
def webReverse (s : State) : State :=
  if s.pc.webPosition = 0 then s
  else
    let s1 := discardGroup { s with pc := { s.pc with webPosition := s.pc.webPosition - 1 } }
    let limit := reverseLimitCounts s.geometry.given
    if s.geometry.valid ∧ s.deficit ≤ limit ∧ limit < s1.deficit then reportCause .reverse s1 else s1

/-- A forward belt count (R6). -/
def beltForward (s : State) : State :=
  if topPosition ≤ s.pc.beltPosition then s
  else trackForward { s with pc := { s.pc with beltPosition := s.pc.beltPosition + 1 } }

/-- A reverse belt count (R6). -/
def beltReverse (s : State) : State :=
  if s.pc.beltPosition = 0 then s
  else trackReverse { s with pc := { s.pc with beltPosition := s.pc.beltPosition - 1 } }

/-! ### The encoders (R1, R2) -/

/-- The pair a forward step leads to with sense NORMAL (R1's table). -/
def forwardStep (p : ChannelPair) : ChannelPair :=
  match p.a, p.b with
  | false, false => { a := false, b := true }
  | false, true => { a := true, b := true }
  | true, true => { a := true, b := false }
  | true, false => { a := false, b := false }

/-- The last pair seen on an encoder. -/
def State.lastPair (s : State) : Encoder → ChannelPair
  | .web => s.pc.webPair
  | .belt => s.pc.beltPair

/-- The last pair seen on an encoder replaced. -/
def setPair (e : Encoder) (p : ChannelPair) (s : State) : State :=
  match e with
  | .web => { s with pc := { s.pc with webPair := p } }
  | .belt => { s with pc := { s.pc with beltPair := p } }

/-- Whether an encoder's sense is INVERTED; NORMAL while the geometry is invalid (R1). -/
def State.inverted (s : State) (e : Encoder) : Bool :=
  s.geometry.valid && match e with
    | .web => s.geometry.given.webSense == 1
    | .belt => s.geometry.given.beltSense == 1

/-- A count of an encoder in its direction (R1). -/
def countEncoder (e : Encoder) (forward : Bool) (s : State) : State :=
  match e, forward with
  | .web, true => webForward s
  | .web, false => webReverse s
  | .belt, true => beltForward s
  | .belt, false => beltReverse s

/-- ENCODER_CHANGE (R1, R2): no change, a double change, or one count. -/
def execEncoderChange (e : Encoder) (p : ChannelPair) (s : State) : Host.Outcome State Fault Refusal :=
  let last := s.lastPair e
  if p = last then .next s
  else
    let s1 := setPair e p s
    if p.a ≠ last.a ∧ p.b ≠ last.b then .next (refresh (reportCause .encoder s1))
    else .next (refresh (countEncoder e ((p == forwardStep last) != s.inverted e) s1))

end Sys2Proof.Machine
end

