-- ==== Sys2Proof/Machine/Rolls.lean ====
section
/-! DEFINITION. UU: the revolution markers, the splice's confirmations and timeouts, and the roll requests
(chapter 9). -/

namespace Sys2Proof.Machine

/-! ### The feeding roll (R155 to R158, R165) -/

/-- The diameter estimate from a revolution count, with π as 355/113 (R156). -/
def diameterOf (nRev scale : Nat) : Nat := roundHalfUp (nRev * 1130000) (355 * scale)

/-- A roll beside one that has become LOW: LOADED becomes SPINNING (R157 step 3). -/
def spunUp (u : Unwind) : Unwind :=
  if u.state = .loaded then { u with state := .spinning, lastCapture := none, matchCount := 0 } else u

/-- The splice window opens on stand u (R157). -/
def openWindow (u : UnwindId) (s : State) : State :=
  let s1 := raise .rollLow (modifyUnwind u (fun w => { w with state := .low }) s)
  evaluatePlanning (modifyUnwind (otherStand u) spunUp s1)

/-- A roll beside one that has run out: SPINNING or MATCHED becomes LOADED (R158). -/
def spunDown (u : Unwind) : Unwind :=
  match u.state with
  | .spinning | .matched => { u with state := .loaded, matchCount := 0 }
  | .empty | .loaded | .pasting | .running | .low | .cutting | .spent => u

/-- The feeding roll on stand u runs out at D_core (R158). -/
def runOut (u : UnwindId) (s : State) : State :=
  let s1 := modifyUnwind u (fun w => { w with state := .spent }) s
  reportCause .rollOut (dropPlan (modifyUnwind (otherStand u) spunDown s1))

/-- A forced splice called for by the feeding roll on stand u is decided (R165). -/
def forcedSplice (u : UnwindId) (s : State) : State :=
  if s.rolls.splice.isSome then s
  else if s.lg.lineState = .tripped then reportCause .rollOut s
  else if s.rolls.seam.isSome then reportCause .rollOut s
  else if (s.unwind (otherStand u)).state = .matched then fireSplice .forced (otherStand u) s
  else reportCause .rollOut s

/-- The comparison of an accepted estimate with D_last and D_core, after R157 (R158). -/
def compareDiameter (u : UnwindId) (before estimate : Nat) (s : State) : State :=
  let g := s.geometry.given
  if estimate ≤ g.dCore then runOut u s
  else if (s.unwind u).state = .low ∧ g.dLast < before ∧ estimate ≤ g.dLast then forcedSplice u s
  else s

/-- An accepted revolution count of the feeding roll on stand u (R156 to R158). -/
def acceptCount (u : UnwindId) (nRev : Nat) (s : State) : State :=
  let before := (s.unwind u).diameter
  let estimate := diameterOf nRev s.geometry.given.s
  let s1 := modifyUnwind u (fun w => { w with lastRev := some nRev, diameter := min estimate 15000 }) s
  compareDiameter u before estimate
    (if (s.unwind u).state = .running ∧ estimate ≤ s.geometry.given.dArm then openWindow u s1 else s1)

/-- Whether a revolution count is rejected against the last one (R156). -/
def rejectsCount (last : Option Nat) (nRev : Nat) : Bool :=
  match last with
  | some l => decide (l * 33 < nRev * 32)
  | none => false

/-- A revolution marker edge of the feeding roll on stand u (R155). -/
def feedEdge (u : UnwindId) (s : State) : State :=
  let here := s.pc.webPosition
  let s1 := modifyUnwind u (fun w => { w with lastCapture := some here }) s
  match (s.unwind u).lastCapture with
  | none => s1
  | some c =>
    if here ≤ c then s1
    else if rejectsCount (s.unwind u).lastRev (here - c) then s1
    else acceptCount u (here - c) s1

/-! ### The spinning roll (R159, R160) -/

/-- The surface speed of a roll of a diameter that turned in `tRev` microseconds (R160). -/
def surfaceSpeed (diameter tRev : Nat) : Nat := roundHalfUp (diameter * 355 * 1000000) (113 * tRev)

/-- Whether a revolution passes against the infeed speed `u` (R160). -/
def revolutionPasses (speed u : Nat) : Bool :=
  decide (u ≠ 0) && decide (((speed : Int) - u).natAbs * 100 ≤ u)

/-- The unwind record after a judged revolution (R160). -/
def judgedRoll (pass : Bool) (u : Unwind) : Unwind :=
  match u.state, pass with
  | .spinning, true =>
    if u.matchCount + 1 = 3 then { u with state := .matched, matchCount := 0 }
    else { u with matchCount := u.matchCount + 1 }
  | .spinning, false => { u with matchCount := 0 }
  | .matched, false =>
    if u.matchCount + 1 = 3 then { u with state := .spinning, matchCount := 0 }
    else { u with matchCount := u.matchCount + 1 }
  | .matched, true => { u with matchCount := 0 }
  | _, _ => u

/-- A revolution of the spinning roll on stand u judged; planning is evaluated as it becomes MATCHED (R160, R161). -/
def judgeRevolution (u : UnwindId) (tRev : Nat) (s : State) : State :=
  let pass := revolutionPasses (surfaceSpeed (s.unwind u).diameter tRev) s.infeedSpeed
  let s1 := modifyUnwind u (judgedRoll pass) s
  if (s.unwind u).state = .spinning ∧ (s1.unwind u).state = .matched then evaluatePlanning s1 else s1

/-- A revolution marker edge of the spinning roll on stand u (R159); the timer never runs back, so a time that is not
later than the last capture is the same time. -/
def spinEdge (u : UnwindId) (s : State) : State :=
  let now := s.rolls.microTimer
  let s1 := modifyUnwind u (fun w => { w with lastCapture := some now }) s
  match (s.unwind u).lastCapture with
  | none => s1
  | some c => if now ≤ c then s else judgeRevolution u (now - c) s1

/-- A revolution marker edge of stand u, by the stand's state; none acts while the geometry is invalid
(R155, R159). -/
def markerEdge (u : UnwindId) (s : State) : State :=
  if s.geometry.valid = false then s
  else
    match (s.unwind u).state with
    | .running | .low => feedEdge u s
    | .spinning | .matched => spinEdge u s
    | .empty | .loaded | .pasting | .cutting | .spent => s

/-- REVOLUTION_MARKER_EDGE (R155, R159), `elapsed` microseconds after the timer was last read (log entry 8). -/
def execRevolutionMarkerEdge (u : UnwindId) (elapsed : Nat) (s : State) : Host.Outcome State Fault Refusal :=
  let s1 := { s with rolls := { s.rolls with microTimer := s.rolls.microTimer + elapsed } }
  .next (refresh (markerEdge u s1))

/-! ### Paste and cut (R167 to R173) -/

/-- The paste of splice record `r` completes (R167). -/
def completePaste (r : SpliceRecord) (s : State) : State :=
  let s1 := modifyUnwind (otherStand r.new) (fun u => { u with state := .cutting }) s
  { s1 with rolls := { s1.rolls with
      seam := some { position := s.pc.webPosition + hCounts s.geometry.given, recipe := (s.unwind r.new).recipe }
      splice := some { r with phase := .cut, time := 0, timeout := s.geometry.given.cutTimeout } } }

/-- The splice record while it is in the given phase. -/
def State.spliceIn (s : State) (p : SplicePhase) : Option SpliceRecord :=
  s.rolls.splice.filter fun r => r.phase == p

/-- PASTE_CONFIRM (R167, R173): an input already active completes nothing. -/
def execPasteConfirm (s : State) : Host.Outcome State Fault Refusal :=
  if s.inputs.pasteConfirm then .next s
  else
    let s1 := { s with inputs := { s.inputs with pasteConfirm := true } }
    match s.spliceIn .paste with
    | some r => .next (refresh (completePaste r s1))
    | none => .next s1

/-- The cut of splice record `r` is confirmed: in time it completes the splice, overdue it only ends it
(R170, R171). -/
def confirmCut (r : SpliceRecord) (s : State) : State :=
  if r.overdue then endCut r s else raise .spliceDone (spliceOver (endCut r s))

/-- CUT_CONFIRM (R170, R171, R173). -/
def execCutConfirm (s : State) : Host.Outcome State Fault Refusal :=
  if s.inputs.cutConfirm then .next s
  else
    let s1 := { s with inputs := { s.inputs with cutConfirm := true } }
    match s.spliceIn .cut with
    | some r => .next (refresh (confirmCut r s1))
    | none => .next s1

/-- PASTE_CONFIRM_INACTIVE (R173). -/
def execPasteConfirmInactive (s : State) : Host.Outcome State Fault Refusal :=
  .next { s with inputs := { s.inputs with pasteConfirm := false } }

/-- CUT_CONFIRM_INACTIVE (R173). -/
def execCutConfirmInactive (s : State) : Host.Outcome State Fault Refusal :=
  .next { s with inputs := { s.inputs with cutConfirm := false } }

/-- PASTE_TIMEOUT (R168); with no paste under way there is no timeout (log entry 10). -/
def execPasteTimeout (s : State) : Host.Outcome State Fault Refusal :=
  match s.spliceIn .paste with
  | some r => .next (refresh (reportCause .spliceFail (spliceOver (failPaste r s))))
  | none => .next s

/-- The cut of splice record `r` is overdue (R171). -/
def overdueCut (r : SpliceRecord) (s : State) : State :=
  reportCause .spliceFail (raise .spliceFail { s with rolls := { s.rolls with
    splice := some { r with overdue := true, time := r.timeout } } })

/-- CUT_TIMEOUT (R171); a cut already overdue has no second timeout. -/
def execCutTimeout (s : State) : Host.Outcome State Fault Refusal :=
  match s.spliceIn .cut with
  | some r => if r.overdue then .next s else .next (refresh (overdueCut r s))
  | none => .next s

/-! ### ROLL-READY, ROLL-REMOVED, READ-ROLLS (R153, R154, R175) -/

/-- The unwind a number names (R198). -/
def unwindOfNumber : Nat → Option UnwindId
  | 0 => some .A
  | 1 => some .B
  | _ => none

/-- The state an accepted ROLL-READY gives (R153). -/
def readyState (threaded : Nat) (other : UnwindState) : UnwindState :=
  if threaded = 1 then .running else if other = .low then .spinning else .loaded

/-- An accepted ROLL-READY (R153): planning is evaluated for a threaded one (R161). -/
def mountRoll (u : UnwindId) (diameter : Nat) (recipe : Fin 8) (threaded : Nat) (s : State) : State :=
  let s1 := modifyUnwind u (fun _ =>
    { state := readyState threaded (s.unwind (otherStand u)).state, recipe := recipe, diameter := diameter,
      lastCapture := none, lastRev := none, matchCount := 0 }) s
  if threaded = 1 then evaluatePlanning s1 else s1

/-- ROLL-READY carried out or refused by UU, in the check order of R153. -/
def serveRollReady (unwind diameter recipe threaded : Nat) (s : State) : State × Answer :=
  match unwindOfNumber unwind with
  | none => refuse .range 1 s
  | some u =>
    if (s.unwind u).state ≠ .empty then refuse .roll 0 s
    else
      match firstFailing [(2, within 500 15000 diameter), (3, within 0 7 recipe), (4, within 0 1 threaded)] with
      | some n => refuse .range n s
      | none =>
        if threaded = 1 ∧ (s.unwind (otherStand u)).feeds then refuse .roll 0 s
        else if threaded = 1 ∧ s.lg.lineState = .running then refuse .state 0 s
        else
          (refresh (mountRoll u diameter (Fin.ofNat 8 recipe) threaded s),
            .done (replyFields [(1, (readyState threaded (s.unwind (otherStand u)).state).number)]))

/-- A stand that has been cleared (R154). -/
def removedRoll (u : Unwind) : Unwind :=
  { u with state := .empty, recipe := 0, diameter := 0, lastCapture := none, lastRev := none }

/-- ROLL-REMOVED carried out or refused by UU (R154). -/
def serveRollRemoved (unwind : Nat) (s : State) : State × Answer :=
  match unwindOfNumber unwind with
  | none => refuse .range 1 s
  | some u =>
    match (s.unwind u).state with
    | .loaded | .spent => (modifyUnwind u removedRoll s, .done [])
    | .empty | .spinning | .matched | .pasting | .running | .low | .cutting => refuse .roll 0 s

/-- READ-ROLLS answered by UU (R175). -/
def serveReadRolls (s : State) : State × Answer := (s, .done (readRollsPayload s))

/-- ROLL_READY (R153). -/
def execRollReady (src : Source) (unwind diameter recipe threaded : Nat) (s : State) :
    Host.Outcome State Fault Refusal :=
  .next (acceptRequest src (.rollReady unwind diameter recipe threaded)
    (serveRollReady unwind diameter recipe threaded) s)

/-- ROLL_REMOVED (R154). -/
def execRollRemoved (src : Source) (unwind : Nat) (s : State) : Host.Outcome State Fault Refusal :=
  .next (acceptRequest src (.rollRemoved unwind) (serveRollRemoved unwind) s)

/-- READ_ROLLS (R175). -/
def execReadRolls (src : Source) (s : State) : Host.Outcome State Fault Refusal :=
  .next (acceptRequest src .readRolls serveReadRolls s)

end Sys2Proof.Machine
end

