-- ==== Sys2Proof/Machine/Link.lean ====
section
/-! DEFINITION. LI: the receiver, the frames and the requests it owns (chapter 10). -/

namespace Sys2Proof.Machine

/-! ### The requests LI owns (R186, R187) -/

/-- IDENTIFY answered by LI (R187). -/
def serveIdentify (s : State) : State × Answer := (s, .done (identifyPayload s))

/-- READ-LINK answered by LI; the clear flag zeroes the counters after they are placed in the reply (R186). -/
def serveReadLink (clear : Nat) (s : State) : State × Answer :=
  if 1 < clear then refuse .range 1 s
  else (if clear = 1 then modifyCounters (fun _ => zeroCounters) s else s, .done (readLinkPayload s))

/-! ### Taking a request (R181) -/

/-- The block that owns a request carries it out or refuses it (R181, section 10.6). -/
def serve : Request → State → State × Answer
  | .identify => serveIdentify
  | .readLink clear => serveReadLink clear
  | .setLimits t v d => serveSetLimits t v d
  | .setGeometry g => serveSetGeometry g
  | .setRecipe r => serveSetRecipe r
  | .setZoneTuning z kp ki => serveSetZoneTuning z kp ki
  | .setMarkCode e n c k m => serveSetMarkCode e n c k m
  | .setEventMask m c => serveSetEventMask m c
  | .loadPanel k p => serveLoadPanel k p
  | .cancelPanel k => serveCancelPanel k
  | .releasePanel k => serveReleasePanel k
  | .readPanel k => serveReadPanel k
  | .readRing => serveReadRing
  | .start => serveStart
  | .stop => serveStop
  | .setSpeed v => serveSetSpeed v
  | .trip => serveTrip
  | .clearTrip => serveClearTrip
  | .lineReset => serveLineReset
  | .readLine => serveReadLine
  | .heatOn => serveHeatOn
  | .heatOff => serveHeatOff
  | .readHeat r => serveReadHeat r
  | .rollReady u d r t => serveRollReady u d r t
  | .rollRemoved u => serveRollRemoved u
  | .readRolls => serveReadRolls
  | .readTracking i => serveReadTracking i
  | .readEvents i => serveReadEvents i
  | .ackEvents c => serveAckEvents c

/-- An accepted frame whose length, tag, kind and payload are `body`: its request is taken, or answered UNKNOWN
(R181). -/
def takeFrame (broadcast : Bool) (body : List Byte) (s : State) : State :=
  match body with
  | _ :: tag :: kind :: payload =>
    let src := if broadcast then Source.broadcast else Source.addressed tag
    match parseRequest kind.toNat payload with
    | some req => acceptRequest src req (serve req) s
    | none => deliver src kind.toNat (countAccepted s, .unknown)
  | _ => s

/-- The length field of a frame buffer, its first character (R179). -/
def lengthOf : List Byte → Nat
  | [] => 0
  | l :: _ => l.toNat

/-- A whole frame, check characters included, is compared with its check: accepted, or discarded (R179, R196). -/
def checkFrame (broadcast : Bool) (frame : List Byte) (s : State) : State :=
  let body := frame.take (lengthOf frame + 1)
  if natOf (frame.drop (lengthOf frame + 1)) = checkSum body then takeFrame broadcast body s
  else setReceiver .listen (linkError (fun c => { c with check := countLink c.check }) s)

/-- The frame buffer, never empty, after a data character has been put at its end (R179): an impossible length discards
the frame, and the second check character ends it. -/
def advanceFrame (broadcast : Bool) (frame : List Byte) (s : State) : State :=
  if lengthOf frame < 2 ∨ 242 < lengthOf frame then
    setReceiver .listen (linkError (fun c => { c with length := countLink c.length }) s)
  else if frame.length = lengthOf frame + 3 then checkFrame broadcast frame s
  else setReceiver (.receiving broadcast frame) s

/-! ### The characters (R178 to R183) -/

/-- Whether an address character names this part: its station address, or 0 (R178). -/
def State.addresses (s : State) (v : Byte) : Bool := v == 0#8 || s.station == some v

/-- The receiver an address character leads to outside REPLYING (R178). -/
def State.receiverFor (s : State) (v : Byte) : Receiver :=
  if s.addresses v then .receiving (v == 0#8) [] else .listen

/-- ADDRESS_CHARACTER (R178, R183). -/
def execAddressCharacter (v : Byte) (s : State) : Host.Outcome State Fault Refusal :=
  match s.link.receiver with
  | .listen => .next (setReceiver (s.receiverFor v) s)
  | .receiving _ _ =>
    .next (setReceiver (s.receiverFor v) (linkError (fun c => { c with abandoned := countLink c.abandoned }) s))
  | .replying =>
    if s.addresses v then .next (linkError (fun c => { c with overrun := countLink c.overrun }) s) else .next s

/-- DATA_CHARACTER (R179, R181; R178 and R183 for the states that ignore it). -/
def execDataCharacter (v : Byte) (s : State) : Host.Outcome State Fault Refusal :=
  match s.link.receiver with
  | .listen => .next s
  | .receiving broadcast buffer => .next (advanceFrame broadcast (buffer ++ [v]) s)
  | .replying => .next s

/-- FRAMING_ERROR (R180). -/
def execFramingError (s : State) : Host.Outcome State Fault Refusal :=
  match s.link.receiver with
  | .listen => .next s
  | .receiving _ _ =>
    .next (setReceiver .listen (linkError (fun c => { c with framing := countLink c.framing }) s))
  | .replying => .next s

/-- GAP_TIMEOUT (R180): only a receiver in RECEIVING times the silence (log entry 10). -/
def execGapTimeout (s : State) : Host.Outcome State Fault Refusal :=
  match s.link.receiver with
  | .listen => .next s
  | .receiving _ _ => .next (setReceiver .listen (linkError (fun c => { c with gap := countLink c.gap }) s))
  | .replying => .next s

/-- REPLY_SENT (R182): the pending reply is discarded and the receiver goes to LISTEN; outside REPLYING there is no
reply to end (log entry 10). -/
def execReplySent (s : State) : Host.Outcome State Fault Refusal :=
  match s.link.receiver with
  | .listen => .next s
  | .receiving _ _ => .next s
  | .replying => .next { s with link := { s.link with receiver := .listen, pendingReply := none } }

/-! ### The request commands -/

/-- IDENTIFY (R187). -/
def execIdentify (src : Source) (s : State) : Host.Outcome State Fault Refusal :=
  .next (acceptRequest src .identify serveIdentify s)

/-- READ_LINK (R186). -/
def execReadLink (src : Source) (clear : Nat) (s : State) : Host.Outcome State Fault Refusal :=
  .next (acceptRequest src (.readLink clear) (serveReadLink clear) s)

end Sys2Proof.Machine
end

