-- ==== Sys2Proof/Machine/Dispatch.lean ====
section
/-! DEFINITION. exec: one arm per command, each a direct call of its meaning. -/

namespace Sys2Proof.Machine

/-- The effect of a command on everything but the queue of waiting commands. -/
def exec (i : Instr) (s : State) : Host.Outcome State Fault Refusal :=
  match i with
  | .powerOnReset p => Sys2Proof.Machine.execPowerOnReset p s
  | .encoderChange e pair => Sys2Proof.Machine.execEncoderChange e pair s
  | .commit => Sys2Proof.Machine.execCommit s
  | .searchSetup => Sys2Proof.Machine.execSearchSetup s
  | .strokeGenerate => Sys2Proof.Machine.execStrokeGenerate s
  | .markEdge active => Sys2Proof.Machine.execMarkEdge active s
  | .bladeHomeChange active => Sys2Proof.Machine.execBladeHomeChange active s
  | .bladeSlowTime => Sys2Proof.Machine.execBladeSlowTime s
  | .bladeTimeout => Sys2Proof.Machine.execBladeTimeout s
  | .eStop => Sys2Proof.Machine.execEStop s
  | .webBreak => Sys2Proof.Machine.execWebBreak s
  | .takeOffHoldChange active => Sys2Proof.Machine.execTakeOffHoldChange active s
  | .revolutionMarkerEdge u elapsedUs => Sys2Proof.Machine.execRevolutionMarkerEdge u elapsedUs s
  | .pasteConfirm => Sys2Proof.Machine.execPasteConfirm s
  | .cutConfirm => Sys2Proof.Machine.execCutConfirm s
  | .pasteTimeout => Sys2Proof.Machine.execPasteTimeout s
  | .cutTimeout => Sys2Proof.Machine.execCutTimeout s
  | .rampTimer => Sys2Proof.Machine.execRampTimer s
  | .stepPeriodEnd g => Sys2Proof.Machine.execStepPeriodEnd g s
  | .scan t1 t2 t3 t4 pressure => Sys2Proof.Machine.execScan t1 t2 t3 t4 pressure s
  | .settleComplete z => Sys2Proof.Machine.execSettleComplete z s
  | .stopTimerFire => Sys2Proof.Machine.execStopTimerFire s
  | .controlStep => Sys2Proof.Machine.execControlStep s
  | .valveBoundary => Sys2Proof.Machine.execValveBoundary s
  | .valveOnTimeEnd z => Sys2Proof.Machine.execValveOnTimeEnd z s
  | .addressCharacter v => Sys2Proof.Machine.execAddressCharacter v s
  | .dataCharacter v => Sys2Proof.Machine.execDataCharacter v s
  | .framingError => Sys2Proof.Machine.execFramingError s
  | .gapTimeout => Sys2Proof.Machine.execGapTimeout s
  | .replySent => Sys2Proof.Machine.execReplySent s
  | .identify src => Sys2Proof.Machine.execIdentify src s
  | .readLink src clear => Sys2Proof.Machine.execReadLink src clear s
  | .setLimits src maxTemp maxSpeed minDwell => Sys2Proof.Machine.execSetLimits src maxTemp maxSpeed minDwell s
  | .setGeometry src g => Sys2Proof.Machine.execSetGeometry src g s
  | .setRecipe src r => Sys2Proof.Machine.execSetRecipe src r s
  | .setZoneTuning src zone kp ki => Sys2Proof.Machine.execSetZoneTuning src zone kp ki s
  | .setMarkCode src entry enabled count code mask => Sys2Proof.Machine.execSetMarkCode src entry enabled count code mask s
  | .setEventMask src mask classes => Sys2Proof.Machine.execSetEventMask src mask classes s
  | .loadPanel src slot p => Sys2Proof.Machine.execLoadPanel src slot p s
  | .cancelPanel src slot => Sys2Proof.Machine.execCancelPanel src slot s
  | .releasePanel src slot => Sys2Proof.Machine.execReleasePanel src slot s
  | .readPanel src slot => Sys2Proof.Machine.execReadPanel src slot s
  | .readRing src => Sys2Proof.Machine.execReadRing src s
  | .start src => Sys2Proof.Machine.execStart src s
  | .stop src => Sys2Proof.Machine.execStop src s
  | .setSpeed src speed => Sys2Proof.Machine.execSetSpeed src speed s
  | .trip src => Sys2Proof.Machine.execTrip src s
  | .clearTrip src => Sys2Proof.Machine.execClearTrip src s
  | .lineReset src => Sys2Proof.Machine.execLineReset src s
  | .readLine src => Sys2Proof.Machine.execReadLine src s
  | .heatOn src => Sys2Proof.Machine.execHeatOn src s
  | .heatOff src => Sys2Proof.Machine.execHeatOff src s
  | .readHeat src recipe => Sys2Proof.Machine.execReadHeat src recipe s
  | .rollReady src unwind diameter recipe threaded => Sys2Proof.Machine.execRollReady src unwind diameter recipe threaded s
  | .rollRemoved src unwind => Sys2Proof.Machine.execRollRemoved src unwind s
  | .readRolls src => Sys2Proof.Machine.execReadRolls src s
  | .readTracking src index => Sys2Proof.Machine.execReadTracking src index s
  | .readEvents src index => Sys2Proof.Machine.execReadEvents src index s
  | .ackEvents src classes => Sys2Proof.Machine.execAckEvents src classes s
  | .eStopReleased => Sys2Proof.Machine.execEStopReleased s
  | .webBreakReleased => Sys2Proof.Machine.execWebBreakReleased s
  | .pasteConfirmInactive => Sys2Proof.Machine.execPasteConfirmInactive s
  | .cutConfirmInactive => Sys2Proof.Machine.execCutConfirmInactive s

end Sys2Proof.Machine
end

