-- ==== Sys2Proof/Safety.lean ====
section
/-! DEFINITION. What a safe run keeps, in the terms the statements use: the invariants the spec's rules state about
the whole part, and the small vocabulary of runs and of states at rest. -/

namespace Sys2Proof.Safety

open Sys2Proof.Machine

/-! ### Runs -/

/-- Commands carried out one after the other, stopping at the first that has no next state. -/
def execAll : List Instr → State → Host.Outcome State Fault Refusal
  | [], s => .next s
  | c :: cs, s =>
    match exec c s with
    | .next t => execAll cs t
    | .fault f => .fault f
    | .refused r => .refused r

/-! ### What a command answers -/

/-- A command completes in a next state that has the property `P`. -/
abbrev Completes (o : Host.Outcome State Fault Refusal) (P : State → Prop) : Prop := ∃ t, o = .next t ∧ P t

/-- The reply that waits to be sent after a request: none for a broadcast, and none from a part with no station address
(R177, R181, R182, log entry 2). -/
def replyTo (src : Source) (r : Request) (a : Answer) (s : State) : Option PendingReply :=
  match src, s.station with
  | .addressed tag, some _ => some { tag := tag, kind := BitVec.ofNat 8 r.kind, answer := a }
  | .addressed _, none => none
  | .broadcast, _ => none

/-- The state `t`, in which nothing has happened on the link yet, once the frame that carried the request `r` has been
counted and answered `a` (R179, R181, R182, R185). -/
def answered (src : Source) (r : Request) (a : Answer) (t : State) : State :=
  { t with link := { t.link with
      counters := { t.link.counters with accepted := min 65535 (t.link.counters.accepted + 1) }
      receiver := if (replyTo src r a t).isSome then .replying else .listen
      pendingReply := replyTo src r a t } }

/-- A refusal with a detail of one character (R184, R198). -/
abbrev no (reason : Reason) (detail : Nat) : Answer := .refused reason [detail]

/-! ### States at rest -/

/-- Every value the blocks report to each other is up to date, and PS has nothing due: STARVE, the slots and strokes, the
resume test, the ceiling, the stop timer at rest and the generators (R99, R45, R52, R147, R104, R145, R112). -/
abbrev Settled (s : State) : Prop := refresh s = s

/-- PS has nothing to take and nothing to append (R45, R52). -/
abbrev QuietPS (s : State) : Prop := s.commitReady = false ∧ s.canAppend = false

/-- Nothing waits for the web position `w` or for one below it: no stroke, start, FLAT end, loss position, fire position,
seam, mark expiry or end of a bar group lies there, and the last committed end is not `w` (R3). -/
abbrev NothingAt (w : Nat) (s : State) : Prop :=
  (∀ r ∈ s.ps.strokes.head?, w < r.position) ∧ (∀ e ∈ s.oldestStart, w < e) ∧
  (∀ k : Fin 32, (s.status k).state = .active → (s.panelOf k).kind = .flat →
    ∀ e ∈ (s.status k).endPos, w < e) ∧
  (∀ r ∈ s.ps.search, w < r.loss) ∧ (∀ p ∈ s.rolls.plan, w < p.fire) ∧ (∀ m ∈ s.rolls.seam, w < m.position) ∧
  (∀ mk ∈ s.ru.marks, w < mk.m + msCounts s.geometry.given) ∧
  (match s.ru.bar with
    | .inSpace g => w ≤ g.lastTrailing + groupGapCounts s.geometry.given
    | .inBar _ _ => True
    | .idle => True
    | .waitLight => True) ∧
  s.ps.lastEnd ≠ some w

/-- The bar measurement after a reverse count (R79). -/
def afterReverse : BarState → BarState
  | .inBar _ _ => .waitLight
  | .inSpace _ => .idle
  | .idle => .idle
  | .waitLight => .waitLight

/-- The pair one count away from the last pair seen on an encoder, forward or reverse, with the sense in force (R1). -/
abbrev isCount (s : State) (e : Encoder) (forward : Bool) (p : ChannelPair) : Prop :=
  if forward = s.inverted e then forwardStep p = s.lastPair e else p = forwardStep (s.lastPair e)

/-- The oldest record of a full tracking queue does not name slot `k`, so that room made for slot `k`'s own record leaves
slot `k` itself alone: a slot has no record before its panel is ACTIVE (R115, R119). -/
abbrev Spared (k : Fin 32) (s : State) : Prop :=
  s.tu.records.length < trackCapacity ∨ s.tu.records.head?.bind TrackRecord.slot? ≠ some k

/-! ### The strokes of one panel (R39, R40, R51) -/

/-- The first `n` strokes the generator produces from `g` on for the panel `p`, each from one step of the accumulator. -/
def strokesFrom (p : PanelRecord) (scale : Nat) : Nat → Generator → List StrokeRecord
  | 0, _ => []
  | n + 1, g => nextStroke p scale g :: strokesFrom p scale n (advanced p scale g)

/-- The generator as it takes up a panel of slot `k` that starts at `start` (R51). -/
abbrev takenUp (k : Fin 32) (start : Nat) : Generator :=
  { slot := k, pleat := 0, secondHalf := false, residue := 50000, position := start }

/-! ### The invariants -/

/-- The position counters (R3, R4, R6): both positions in range, the web position never above its high-water mark. -/
abbrev PositionsInv (s : State) : Prop :=
  s.pc.webPosition ≤ s.pc.highWater ∧ s.pc.highWater ≤ topPosition ∧ s.pc.beltPosition ≤ topPosition

/-- The belt speed reference never exceeds the ceiling except during a splice freeze (R104). -/
abbrev CeilingInv (s : State) : Prop := s.lg.freeze = none → s.lg.reference ≤ s.ceiling

/-- The zones (R134): no duty, integral or open valve in OFF and FAULT, duty and I within 0 to 1,000 thousandths, and
no stored setpoint above the commissioning maximum temperature, which is 0 while unset. -/
abbrev HeatInv (s : State) : Prop :=
  (∀ z : Fin 4, ((s.zone z).state = .off ∨ (s.zone z).state = .fault →
      (s.zone z).duty = 0 ∧ (s.zone z).integral = 0 ∧ (s.zone z).onTime = 0 ∧ (s.zone z).valveOpen = false) ∧
    (s.zone z).duty ≤ 1000 ∧ (s.zone z).integral ≤ 1000) ∧
  (∀ r : Fin 8, (∀ z : Fin 4, (s.recipe r).setpoint z ≤ s.limits.maxTemp) ∧
    (s.recipe r).standby ≤ s.limits.maxTemp) ∧
  (s.limits.isSet = false → s.limits.maxTemp = 0)

/-- The queues and counters within their sizes (R50, R83, R115, R119, R188, R185, R64). -/
abbrev CapacityInv (s : State) : Prop :=
  s.ps.strokes.length ≤ strokeCapacity ∧ s.ru.marks.length ≤ markCapacity ∧
  s.tu.records.length ≤ trackCapacity ∧ s.tu.forced ≤ 255 ∧ (∀ c : EventClass, s.eventCount c ≤ 255) ∧
  s.blade.misses ≤ 2 ∧
  (s.link.counters.accepted ≤ 65535 ∧ s.link.counters.framing ≤ 65535 ∧ s.link.counters.gap ≤ 65535 ∧
    s.link.counters.check ≤ 65535 ∧ s.link.counters.length ≤ 65535 ∧ s.link.counters.abandoned ≤ 65535 ∧
    s.link.counters.overrun ≤ 65535)

/-- A roll that carries the old web: RUNNING, LOW or CUTTING (R152). -/
abbrev onWeb (u : Unwind) : Prop := u.state = .running ∨ u.state = .low ∨ u.state = .cutting

/-- A roll that is brought up to join it: SPINNING, MATCHED or PASTING (R152). -/
abbrev joining (u : Unwind) : Prop := u.state = .spinning ∨ u.state = .matched ∨ u.state = .pasting

/-- The unwinds of a splice record: in PASTE the new roll PASTING beside a LOW one on a line that is not TRIPPED, in CUT
the new roll PASTING beside a CUTTING one (R166, R167, R169, R171). -/
abbrev spliceFits (s : State) (r : SpliceRecord) : Prop :=
  (s.unwind r.new).state = .pasting ∧
  (r.phase = .paste → (s.unwind (otherStand r.new)).state = .low ∧ r.overdue = false ∧
    s.lg.lineState ≠ .tripped) ∧
  (r.phase = .cut → (s.unwind (otherStand r.new)).state = .cutting)

/-- The unwinds and the splice (R152, R161, R166, R174): at most one roll on the web and at most one joining it, a
spinning roll only beside a LOW one, PASTING and CUTTING rolls only in a splice record, and a plan only with no splice,
no seam in flight and a line that is not TRIPPED. -/
abbrev RollInv (s : State) : Prop :=
  ¬ (onWeb s.rolls.a ∧ onWeb s.rolls.b) ∧ ¬ (joining s.rolls.a ∧ joining s.rolls.b) ∧
  (∀ u : UnwindId, (s.unwind u).state = .spinning ∨ (s.unwind u).state = .matched →
    (s.unwind (otherStand u)).state = .low) ∧
  (s.rolls.splice = none →
    ∀ u : UnwindId, (s.unwind u).state ≠ .pasting ∧ (s.unwind u).state ≠ .cutting) ∧
  (∀ r ∈ s.rolls.splice, spliceFits s r) ∧
  (s.rolls.plan ≠ none → s.rolls.splice = none ∧ s.rolls.seam = none ∧ s.lg.lineState ≠ .tripped)

/-- The receiver and its reply (R179, R182): a reply is pending exactly in REPLYING, only a part with a station address
replies, and the frame buffer holds an unfinished frame of a possible length. -/
abbrev LinkInv (s : State) : Prop :=
  (s.link.receiver = .replying ↔ s.link.pendingReply ≠ none) ∧
  (s.link.receiver = .replying → s.station ≠ none) ∧
  (match s.link.receiver with
    | .receiving _ buffer => buffer = [] ∨
        (2 ≤ lengthOf buffer ∧ lengthOf buffer ≤ 242 ∧ buffer.length < lengthOf buffer + 3)
    | .listen => True
    | .replying => True)

/-- The trip record (R106): a primary cause exactly in TRIPPED, no further cause outside it, and the primary cause not
among the further ones. -/
abbrev TripInv (s : State) : Prop :=
  (s.lg.lineState = .tripped ↔ s.lg.primary ≠ none) ∧ (s.lg.primary = none → s.lg.further = 0) ∧
  (∀ c ∈ s.lg.primary, s.lg.further.getLsbD c.number = false)

/-- A freeze only outside TRIPPED, a deferred STOP only in RUNNING during a freeze (R95, R102). -/
abbrev FreezeInv (s : State) : Prop :=
  (s.lg.lineState = .tripped → s.lg.freeze = none) ∧
  (s.lg.deferredStop = true → s.lg.lineState = .running ∧ s.lg.freeze ≠ none)

/-- The line states that need a valid geometry (R8, R92). -/
abbrev ConfiguredInv (s : State) : Prop :=
  (s.geometry.valid = true → s.lg.lineState ≠ .unconfigured) ∧
  (s.lg.lineState = .stopped ∨ s.lg.lineState = .running ∨ s.lg.lineState = .stopping →
    s.geometry.valid = true)

/-! ### The invariant of the marks (R83) -/

/-- The mark queue (R82, R83): in order of m with no two marks alike, every mark at or below the last mark position, and
its fabric still ahead of every position the web has reached. -/
abbrev MarksInv (s : State) : Prop :=
  s.ru.marks.Pairwise (fun a b => a.m < b.m) ∧
  ∀ mk ∈ s.ru.marks, s.pc.highWater < mk.m + msCounts s.geometry.given ∧ ∃ l ∈ s.ru.lastMark, mk.m ≤ l

/-- The reference is 0 in UNCONFIGURED and STOPPED, and while an immediate cause is recorded (R92, R103, R107). -/
abbrev RestInv (s : State) : Prop :=
  s.lg.lineState = .unconfigured ∨ s.lg.lineState = .stopped ∨ s.holdsCause .eStop = true ∨
    s.holdsCause .webBreak = true ∨ s.holdsCause .encoder = true → s.lg.reference = 0

/-! ### The invariant of the pattern (R42 to R53, R65, R115) -/

/-- Where a slot in the part's hands stands between the commit and the take-off: SETTING before ACTIVE before COMMITTED
(R20); none for a slot that is not there. -/
def stage : SlotState → Option Nat
  | .setting => some 0
  | .active => some 1
  | .committed => some 2
  | .free => none
  | .queued => none
  | .done => none

/-- The slots COMMITTED, ACTIVE or SETTING, oldest first (R16, R46). -/
def handed (s : State) : List (Fin 32) :=
  (ringFrom s.ps.commitPointer).filter fun k => (stage (s.status k).state).isSome

/-- The slots COMMITTED or ACTIVE, whose gathering has not ended, oldest first (R68). -/
def gathering (s : State) : List (Fin 32) := (handed s).filter fun k => (s.status k).state != .setting

/-- The strokes of slot k's panel from its start, as the accumulator gives them (R39, R40). -/
def panelStrokes (s : State) (k : Fin 32) : List StrokeRecord :=
  strokesFrom (s.panelOf k) s.geometry.given.s (strokeCount (s.panelOf k)) (takenUp k ((s.status k).start.getD 0))

/-- The strokes that have not been dealt with, in the order they fall due: of each slot whose gathering has not ended,
all but as many as its two counts say (R65). -/
def dueStrokes (s : State) : List StrokeRecord :=
  (gathering s).flatMap fun k => (panelStrokes s k).drop ((s.status k).fired + (s.status k).missed)

/-- How many strokes of its panel the generator has produced (R39, R51). -/
def producedBy (p : PanelRecord) (g : Generator) : Nat :=
  if p.kind = .box then 2 * g.pleat + g.secondHalf.toNat else g.pleat

/-- The strokes the generator has yet to produce: the rest of its panel and all of the panels after it (R51, R52). -/
def strokesToCome (s : State) : List StrokeRecord :=
  match s.ps.generator with
  | none => []
  | some g =>
    strokesFrom (s.panelOf g.slot) s.geometry.given.s
      (strokeCount (s.panelOf g.slot) - producedBy (s.panelOf g.slot) g) g ++
    ((gathering s).dropWhile fun k => k != g.slot).tail.flatMap (panelStrokes s)

/-- The belt positions a PANEL record lies between, an open one ending at its head (R115, R117). -/
def span : TrackRecord → Option (Nat × Nat)
  | .panel _ head tail => some (head, tail.getD head)
  | .seam _ _ _ => none

/-- The slot of a PANEL record, and whether the record is closed (R115). -/
def followed : TrackRecord → Option (Fin 32 × Bool)
  | .panel k _ tail => some (k, tail.isSome)
  | .seam _ _ _ => none

/-- The panel a slot holds passed the checks of LOAD-PANEL under the geometry in force (R36, R38, R41, R42): every length
of fabric is at least 0, every stroke advances at least one count, the panel and a search window are at least one count
long, and the panel counts are the panel's. -/
abbrev PanelFits (s : State) (k : Fin 32) : Prop :=
  let p := s.panelOf k
  (s.status k).panelCounts = panelCountsOf p s.geometry.given.s ∧ 1 ≤ (s.status k).panelCounts ∧ 1 ≤ p.pleats ∧
  (∀ i < p.pleats, 0 ≤ fabricLength p i ∧ (p.kind ≠ .flat →
    100000 ≤ strokeLength p i false * s.geometry.given.s ∧ 100000 ≤ strokeLength p i true * s.geometry.given.s)) ∧
  ∀ part ∈ p.registration, 1 ≤ countsOfHundredths part.window s.geometry.given.s

/-- Slot k of the slots in hand: placed with its end its panel counts beyond its start; COMMITTED with its start ahead of
the web and no stroke dealt with; ACTIVE with its start reached, its end ahead and, but for FLAT, a stroke to come;
SETTING with every stroke dealt with (R46, R65, R67, R68). -/
abbrev HandedFits (s : State) (k : Fin 32) : Prop :=
  let st := s.status k
  let dealt := st.fired + st.missed
  PanelFits s k ∧ st.endPos = st.start.map (· + st.panelCounts) ∧
  (∀ start ∈ st.start,
    (st.state = .committed → s.pc.webPosition < start ∧ s.pc.highWater ≤ start ∧ dealt = 0) ∧
    (st.state = .active → start ≤ s.pc.highWater ∧ s.pc.highWater < start + st.panelCounts ∧
      (if (s.panelOf k).kind = .flat then dealt = 0 else dealt < strokeCount (s.panelOf k)))) ∧
  (st.state = .setting → dealt = strokeCount (s.panelOf k)) ∧ st.start ≠ none

/-- A running search (R47, R85): on the slot at the commit pointer, which is QUEUED and SEARCHING with a registered panel;
its earliest start at or beyond the last committed end, its loss position beyond that and beyond the high-water mark. -/
abbrev SearchFits (s : State) (r : SearchRecord) : Prop :=
  r.slot = s.ps.commitPointer ∧ (s.status r.slot).state = .queued ∧
  (s.status r.slot).registration = some .searching ∧
  s.ps.lastEnd.getD 0 ≤ r.earliest ∧ r.earliest < r.loss ∧ s.pc.highWater < r.loss

/-- The ring (R16, R20, R46, R65): the slots in hand lie together behind the commit pointer, oldest first, in the order
SETTING, ACTIVE, COMMITTED, each ending at or before the next starts, the last at the last committed end; a QUEUED slot
has no stroke dealt with, and a DONE one every stroke. -/
abbrev RingInv (s : State) : Prop :=
  (ringFrom s.ps.commitPointer).drop (32 - (handed s).length) = handed s ∧
  (handed s).Pairwise (fun j k => (stage (s.status j).state).getD 0 ≤ (stage (s.status k).state).getD 0 ∧
    ∀ e ∈ (s.status j).endPos, ∀ b ∈ (s.status k).start, e ≤ b) ∧
  (∀ k ∈ handed s, HandedFits s k) ∧ (∀ k ∈ (handed s).getLast?, s.ps.lastEnd = (s.status k).endPos) ∧
  ∀ k : Fin 32, ((s.status k).state = .queued → PanelFits s k ∧ (s.status k).fired + (s.status k).missed = 0) ∧
    ((s.status k).state = .done → (s.status k).fired + (s.status k).missed = strokeCount (s.panelOf k))

/-- The PANEL records (R115, R117, R118): they follow exactly the slots ACTIVE, with an open record, and SETTING, with a
closed one, oldest first, and lie one behind the other on the belt. -/
abbrev TrackInv (s : State) : Prop :=
  s.tu.records.filterMap followed =
    ((handed s).filter fun k => (s.status k).state != .committed).map
      (fun k => (k, (s.status k).state == .setting)) ∧
  (s.tu.records.filterMap span).Pairwise (fun a b => a.2 ≤ b.1) ∧ ∀ a ∈ s.tu.records.filterMap span, a.1 ≤ a.2

/-- The strokes (R50, R51, R52): the queue, with what the generator has yet to produce, is every stroke not dealt with;
its positions rise and lie above the high-water mark; and a generator at work waits for room. -/
abbrev StrokesInv (s : State) : Prop :=
  s.ps.strokes ++ strokesToCome s = dueStrokes s ∧ s.ps.strokes.Pairwise (fun a b => a.position < b.position) ∧
  (∀ r ∈ s.ps.strokes, s.pc.highWater < r.position) ∧
  ∀ g ∈ s.ps.generator, g.slot ∈ gathering s ∧ (s.panelOf g.slot).kind ≠ .flat ∧
    producedBy (s.panelOf g.slot) g < strokeCount (s.panelOf g.slot) ∧ s.ps.strokes.length = strokeCapacity

/-- The pattern: positions, marks, a geometry in force that passed its checks, and the ring, the PANEL records, the
search and the strokes, which fit each other (R43 to R53, R65, R83, R85, R115). -/
abbrev PatternInv (s : State) : Prop :=
  PositionsInv s ∧ MarksInv s ∧ (s.geometry.valid = true → geometryRefusal s.geometry.given = none) ∧
  RingInv s ∧ TrackInv s ∧ (∀ r ∈ s.ps.search, SearchFits s r) ∧ StrokesInv s

/-- The oldest record of a full tracking queue is no open PANEL record: R119 says so of every run, and the invariant does
not carry it (log entry 23). -/
abbrev OldestClosed (s : State) : Prop :=
  s.tu.records.length < trackCapacity ∨
    ∀ r ∈ s.tu.records.head?, ∀ k : Fin 32, followed r ≠ some (k, false)

/-- A run is safe while every one of these holds. -/
abbrev Safe (s : State) : Prop :=
  PositionsInv s ∧ CeilingInv s ∧ HeatInv s ∧ CapacityInv s ∧ RollInv s ∧ LinkInv s ∧ TripInv s ∧
  FreezeInv s ∧ ConfiguredInv s

end Sys2Proof.Safety
end

