-- ==== Sys2Proof/Certificates/Slice0/Obligations.lean ====
section
/-! DEFINITION. The statements for the provers, from the numbered rules of spec/. -/

open Sys2Proof Sys2Proof.Machine Sys2Proof.Safety

/-! ### The whole machine -/

/-- The command at the front of the queue is the one a step carries out, on the state whose queue is the rest. The
queue is the model's choice, log entry 6. -/
def Obligations.StepRunsFrontCommand : Prop :=
  ∀ (c : Instr) (rest : List Instr) (s : State), s.pending = c :: rest → step s = exec c { s with pending := rest }

/-- On an empty queue a step lets one millisecond pass: the time of a stroke in flight and of a splice record rise by
one (each waits at a limit until that expiry is taken), the microsecond timer by 1,000, and nothing else changes. The
model's choice, log entries 6 and 7. -/
def Obligations.EmptyQueueLetsOneMillisecondPass : Prop :=
  ∀ s : State, s.pending = [] →
    step s = .next { s with
      blade := { s.blade with inFlight := s.blade.inFlight.map fun r =>
        if r.time < r.timeout ∧ (r.notified = true ∨ r.time < r.slowTime) then { r with time := r.time + 1 } else r }
      rolls := { s.rolls with
        splice := s.rolls.splice.map fun r => if r.time < r.timeout then { r with time := r.time + 1 } else r
        microTimer := s.rolls.microTimer + 1000 } }

/-- Every command completes in every state, with no fault and no refusal, and leaves the queue of waiting commands as
it is. That the queue is kept, and that a command may come in any state, is the model's choice, log entries 1, 6, 7
and 10. -/
def Obligations.EveryCommandCompletes : Prop :=
  ∀ (c : Instr) (s : State), Completes (exec c s) fun t => t.pending = s.pending

/-- A power-on or RESET-pin reset gives every block its reset values from the samples it takes; an active first sample
of E-STOP or WEB-BREAK trips the line, E-STOP first, with TRIP raised once. -/
def Obligations.PowerOnResetGivesResetValues : Prop :=
  ∀ (p : PowerOnSamples) (s : State), Completes (exec (.powerOnReset p) s) fun t =>
    t.pc = { webPosition := 0, beltPosition := 0, highWater := 0, webPair := p.webPair, beltPair := p.beltPair } ∧
    t.geometry = { valid := false, given := zeroGeometry } ∧
    t.limits = { isSet := false, maxTemp := 0, maxSpeed := 0, minDwell := 0 } ∧
    (∀ k : Fin 32, t.slot k = { panel := clearedPanel, status := clearedStatus }) ∧
    t.ps = { commitPointer := 0, lastEnd := none, openGarment := none, generator := none, strokes := [], search := none } ∧
    t.blade.state = (if p.bladeHome then .home else .away) ∧ t.blade.inFlight = none ∧ t.blade.misses = 0 ∧
    t.ru.bar = (if p.mark then .waitLight else .idle) ∧ t.ru.marks = [] ∧ t.ru.lastMark = none ∧
    (∀ i : Fin 6, t.ru.codes[i.val]'i.isLt = { enabled := false, count := 1, code := 0, mask := 0 }) ∧
    t.lg.lineState = (if p.eStop = true ∨ p.webBreak = true then .tripped else .unconfigured) ∧
    t.lg.primary = (if p.eStop then some .eStop else if p.webBreak then some .webBreak else none) ∧
    t.lg.further = (if p.eStop = true ∧ p.webBreak = true then BitVec.twoPow 10 2 else 0) ∧
    t.lg.hostSpeed = 0 ∧ t.lg.reference = 0 ∧ t.lg.hold = p.takeOffHold ∧ t.lg.starve = true ∧ t.lg.freeze = none ∧
    t.lg.deferredStop = false ∧ t.lg.infeedPeriod = none ∧ t.lg.beltPeriod = none ∧
    t.tu = { records := [], forced := 0 } ∧
    (∀ z : Fin 4, t.zone z =
      { state := .off, recipe := none, settle := none, integral := 0, duty := 0, onTime := 0,
        valveOpen := false, fault := none, kp := 20, ki := 2 }) ∧
    (∀ z : Fin 4, t.channel z = { filter := none, openCondition := false }) ∧ t.heat.pressure = none ∧
    (∀ r : Fin 8, t.recipe r = zeroRecipe) ∧ t.heat.heatOn = false ∧ t.heat.stopElapsed = 0 ∧
    t.heat.stopFired = false ∧
    t.rolls = { a := emptyUnwind, b := emptyUnwind, plan := none, splice := none, seam := none, microTimer := 0 } ∧
    t.link =
      { receiver := .listen, pendingReply := none, counters := zeroCounters, stationStraps := p.stationStraps,
        baudStraps := p.baudStraps } ∧
    (∀ c : EventClass, t.eventCount c = if c = .trip ∧ (p.eStop = true ∨ p.webBreak = true) then 1 else 0) ∧
    t.events.mask1 = 0 ∧ t.events.mask2 = 0 ∧ t.pending = s.pending ∧
    t.inputs =
      { eStop := p.eStop, webBreak := p.webBreak, takeOffHold := p.takeOffHold, bladeHome := p.bladeHome,
        mark := p.mark, pasteConfirm := p.pasteConfirm, cutConfirm := p.cutConfirm }

/-- The machine right after reset keeps every invariant, the marks, the rest and the pattern among them, is settled,
and has no command waiting. The straps and first samples in that state are the model's choice, log entry 9. -/
def Obligations.ResetStateIsSafe : Prop :=
  Safe State.reset ∧ PatternInv State.reset ∧ RestInv State.reset ∧ OldestClosed State.reset ∧ Settled State.reset ∧
  QuietPS State.reset ∧ State.reset.pending = []

/-- No step takes the web position above its high-water mark or a position out of its range. Through any step, the
stroke queue holds at most 64 records, the mark queue 8, the tracking queue 24, and every counter stays within its
top. The mark queue stays in order of m with no two alike, its marks not beyond the last mark position, and every
queued mark has its fabric ahead of the high-water mark: the web position has not reached its m plus Ms. -/
def Obligations.StepKeepsPositionsAndCapacity : Prop :=
  (∀ s t : State, PositionsInv s → step s = .next t → PositionsInv t) ∧
  (∀ s t : State, CapacityInv s → step s = .next t → CapacityInv t) ∧
  ∀ s t : State, PositionsInv s ∧ MarksInv s → step s = .next t → MarksInv t

/-- Through any step: the slots COMMITTED, ACTIVE and SETTING stand behind the commit pointer, oldest first, SETTING
before ACTIVE before COMMITTED; the PANEL records name exactly those ACTIVE and SETTING, in that order; and the stroke
queue, with what the generator has yet to produce, is every stroke not yet dealt with. So the stroke positions rise
strictly and lie above the high-water mark; fired plus missed never exceeds the stroke count, and equals it in SETTING
and DONE; and a slot is ACTIVE or SETTING exactly when one PANEL record names it. R119 says of every run that the
oldest record of a full tracking queue is closed; here that is a premise, log entry 23. -/
def Obligations.StepKeepsPattern : Prop :=
  (∀ s t : State, PatternInv s → OldestClosed s → step s = .next t → PatternInv t) ∧
  ∀ s : State, PatternInv s →
    s.ps.strokes.Pairwise (fun a b => a.position < b.position) ∧
    (∀ r ∈ s.ps.strokes, s.pc.highWater < r.position) ∧
    ∀ k : Fin 32,
      let dealt := (s.status k).fired + (s.status k).missed
      let count := if (s.panelOf k).kind = .knife then (s.panelOf k).pleats
        else if (s.panelOf k).kind = .box then 2 * (s.panelOf k).pleats else 0
      let named := (s.tu.records.filterMap TrackRecord.slot?).count k
      ((s.status k).state ≠ .free → dealt ≤ count) ∧
      ((s.status k).state = .setting ∨ (s.status k).state = .done → dealt = count) ∧
      ((s.status k).state = .active ∨ (s.status k).state = .setting ↔ named = 1) ∧ named ≤ 1

/-- The belt speed reference never exceeds the host speed, the commissioning maximum or the dwell limit, except while
a splice freeze holds it, through any step. Through any step, a zone in OFF or FAULT has duty 0, I 0 and a closed
valve, duty and I stay within 0 to 1,000, and no stored setpoint exceeds the commissioning maximum temperature. -/
def Obligations.StepKeepsCeilingAndHeat : Prop :=
  (∀ s t : State, CeilingInv s → step s = .next t → CeilingInv t) ∧
  ∀ s t : State, HeatInv s → step s = .next t → HeatInv t

/-- Through any step, at most one unwind is RUNNING, LOW or CUTTING and at most one SPINNING, MATCHED or PASTING, a
roll spins only beside a LOW one, the splice record fits the unwinds, and a plan stands only with no splice, no seam
in flight and no trip. -/
def Obligations.StepKeepsRolls : Prop :=
  ∀ s t : State, RollInv s → step s = .next t → RollInv t

/-- Through any step, a reply is pending exactly in REPLYING, only a part with a station address replies, and the
frame buffer holds an unfinished frame of a possible length. -/
def Obligations.StepKeepsLink : Prop :=
  ∀ s t : State, LinkInv s → step s = .next t → LinkInv t

/-- Through any step, a primary cause stands exactly in TRIPPED and never among the further causes, no freeze stands
in TRIPPED, a deferred STOP stands only in RUNNING during a freeze, and the line is UNCONFIGURED, or TRIPPED, exactly
as the geometry allows. The reference is 0 in UNCONFIGURED and STOPPED, and while E-STOP, WEB-BREAK or ENCODER is
recorded. -/
def Obligations.StepKeepsLineState : Prop :=
  (∀ s t : State, TripInv s ∧ FreezeInv s ∧ ConfiguredInv s → step s = .next t →
     TripInv t ∧ FreezeInv t ∧ ConfiguredInv t) ∧
  ∀ s t : State, TripInv s ∧ RestInv s → step s = .next t → RestInv t

/-- Every step leaves what the blocks report to each other up to date: STARVE, the zones taken out of STANDBY, the
ceiling, the stop timer at rest and the step generators, from any state in which it is so and the PANEL records fit
the slots (R115). PS has nothing left to take or append after any step that found it so. That this comes at the end of
each command is the model's reading, log entries 3 and 12. -/
def Obligations.StepKeepsSettled : Prop :=
  (∀ s t : State, Settled s → TrackInv s → step s = .next t → Settled t) ∧
  ∀ s t : State, QuietPS s → step s = .next t → QuietPS t

/-- Only START, whole or as the last character of its frame, takes the line to RUNNING, and only CLEAR-TRIP (again
whole or as a frame) and a power-on reset take it out of TRIPPED. Apart from a power-on reset, no command unsets or
changes commissioning limits that are set, and none makes a valid geometry invalid; apart from the resets, the high-
water mark never falls; and a zone latched in FAULT with the heat switch on stays in FAULT with its cause unless HEAT-
OFF comes, whole or as a frame. A data character changes nothing but the link and the events, or does what the request
of the frame it completes does. What comes of the frame that carries a whole request is the model's choice, log
entries 1 and 2. -/
def Obligations.OnlyNamedCommandsUndo : Prop :=
  (∀ (c : Instr) (s t : State), exec c s = .next t → (∀ v : Byte, c ≠ .dataCharacter v) →
     (t.lg.lineState = .running → s.lg.lineState ≠ .running → ∃ src, c = .start src) ∧
     (s.lg.lineState = .tripped → t.lg.lineState ≠ .tripped →
       (∃ src, c = .clearTrip src) ∨ ∃ p, c = .powerOnReset p)) ∧
  (∀ (c : Instr) (s t : State), exec c s = .next t → (∀ p, c ≠ .powerOnReset p) →
     (s.limits.isSet = true → t.limits = s.limits) ∧ (s.geometry.valid = true → t.geometry.valid = true) ∧
     ((∀ v, c ≠ .dataCharacter v) →
       ((∀ src, c ≠ .lineReset src) → s.pc.highWater ≤ t.pc.highWater) ∧
       (s.heat.heatOn = true → (∀ src, c ≠ .heatOff src) → ∀ z : Fin 4, (s.zone z).state = .fault →
         (t.zone z).state = .fault ∧ (t.zone z).fault = (s.zone z).fault))) ∧
  ∀ (v : Byte) (s t : State), exec (.dataCharacter v) s = .next t →
    t = { s with link := t.link, events := t.events } ∨
      ∃ (r : Request) (src : Source), exec (r.command src) s = .next t

/-- A refused request changes no state: all that comes of it is the counted frame and the reply with its reason. A
broadcast request has the effects of the addressed one: the two next states differ only in the receiver, REPLYING or
LISTEN, and in the pending reply, which echoes the tag and the kind, or is none. What comes of the frame that carries
a whole request is the model's choice, log entries 1 and 2. -/
def Obligations.RefusalsAndBroadcastsActAsSaid : Prop :=
  (∀ (src : Source) (r : Request) (s : State) (reason : Reason) (detail : List Nat),
     (serve r s).2 = .refused reason detail →
     exec (r.command src) s = .next (answered src r (.refused reason detail) s)) ∧
  ∀ (tag : Byte) (r : Request) (s : State), s.station ≠ none →
    Completes (exec (r.command (.addressed tag)) s) fun t =>
      t.link.receiver = .replying ∧
      (∃ a, t.link.pendingReply = some { tag := tag, kind := BitVec.ofNat 8 r.kind, answer := a }) ∧
      exec (r.command .broadcast) s =
        .next { t with link := { t.link with receiver := .listen, pendingReply := none } }

/-! ### The line link -/

/-- Reading back the payload a request writes gives the request, for every request whose fields fit their widths. -/
def Obligations.RequestPayloadReadsBack : Prop :=
  ∀ r : Request, r.WellFormed → parseRequest r.kind r.payload = some r

/-- The characters of a request frame, sent one by one to a part in LISTEN, do what the request's own command does,
addressed to the station or broadcast. What comes of the frame that carries a whole request is the model's choice, log
entries 1 and 2. -/
def Obligations.FrameCharactersCarryOutRequest : Prop :=
  ∀ (r : Request) (tag : Byte) (s : State), r.WellFormed → s.link.receiver = .listen →
    (∀ a, s.station = some a →
      execAll (.addressCharacter a :: (r.frame tag).map .dataCharacter) s = exec (r.command (.addressed tag)) s) ∧
    execAll (.addressCharacter 0#8 :: (r.frame tag).map .dataCharacter) s = exec (r.command .broadcast) s

/-- An address character: in LISTEN the station address or 0 begins a frame and any other is ignored; in RECEIVING the
frame is abandoned, counted, LINK is raised, and a new frame is begun or not as in LISTEN; in REPLYING the station
address or 0 is an overrun, counted, LINK raised, and any other is ignored. A framing error or a silence over 5 ms in
RECEIVING discards the frame, is counted and raises LINK; in LISTEN and REPLYING neither does anything. A reply sent
to its end is discarded and the receiver goes to LISTEN. That GAP_TIMEOUT outside RECEIVING and REPLY_SENT outside
REPLYING change nothing is the model's reading, log entry 10. -/
def Obligations.AddressCharactersAndLinkErrors : Prop :=
  (∀ (v : Byte) (s : State),
     let mine : Bool := v == 0#8 || s.station == some v
     let after : Receiver := if mine then .receiving (v == 0#8) [] else .listen
     exec (.addressCharacter v) s =
       match s.link.receiver with
       | .listen => .next { s with link := { s.link with receiver := after } }
       | .receiving _ _ => .next (raise .link { s with link := { s.link with
           receiver := after
           counters := { s.link.counters with abandoned := min 65535 (s.link.counters.abandoned + 1) } } })
       | .replying =>
         if mine then .next (raise .link { s with link := { s.link with
           counters := { s.link.counters with overrun := min 65535 (s.link.counters.overrun + 1) } } })
         else .next s) ∧
  ∀ s : State,
    (s.link.receiver = .listen ∨ s.link.receiver = .replying →
      exec .framingError s = .next s ∧ exec .gapTimeout s = .next s) ∧
    (∀ b buffer, s.link.receiver = .receiving b buffer →
      exec .framingError s = .next (raise .link { s with link := { s.link with
        receiver := .listen
        counters := { s.link.counters with framing := min 65535 (s.link.counters.framing + 1) } } }) ∧
      exec .gapTimeout s = .next (raise .link { s with link := { s.link with
        receiver := .listen
        counters := { s.link.counters with gap := min 65535 (s.link.counters.gap + 1) } } })) ∧
    (s.link.receiver = .replying →
      exec .replySent s = .next { s with link := { s.link with receiver := .listen, pendingReply := none } }) ∧
    (s.link.receiver ≠ .replying → exec .replySent s = .next s)

/-- A data character in RECEIVING, short of a whole frame: an impossible length discards the frame, is counted and
raises LINK; otherwise the character joins the frame buffer. In LISTEN and REPLYING it is ignored. The second check
character of a frame: a check that disagrees with the sum of the characters before it discards the frame, is counted
and raises LINK; a frame whose check agrees is counted and its request is carried out with its tag, or, when its kind
and length name none, answered UNKNOWN with no state changed. What comes of the frame that carries a whole request is
the model's choice, log entries 1 and 2. -/
def Obligations.DataCharactersBuildAndEndFrame : Prop :=
  (∀ (v : Byte) (s : State),
     (s.link.receiver = .listen ∨ s.link.receiver = .replying → exec (.dataCharacter v) s = .next s) ∧
     ∀ (b : Bool) (first : Byte) (rest : List Byte) (buffer : List Byte), s.link.receiver = .receiving b buffer →
       buffer ++ [v] = first :: rest →
       (first.toNat < 2 ∨ 242 < first.toNat → exec (.dataCharacter v) s = .next (raise .link { s with link := { s.link with
         receiver := .listen
         counters := { s.link.counters with length := min 65535 (s.link.counters.length + 1) } } })) ∧
       (2 ≤ first.toNat → first.toNat ≤ 242 → rest.length ≠ first.toNat + 2 →
         exec (.dataCharacter v) s =
           .next { s with link := { s.link with receiver := .receiving b (first :: rest) } })) ∧
  ∀ (b : Bool) (tag kind c1 c2 : Byte) (payload : List Byte) (s : State),
    let body : List Byte := BitVec.ofNat 8 (payload.length + 2) :: tag :: kind :: payload
    let src : Source := if b then .broadcast else .addressed tag
    payload.length ≤ 240 → s.link.receiver = .receiving b (body ++ [c1]) →
    (c1.toNat * 256 + c2.toNat ≠ checkSum body →
      exec (.dataCharacter c2) s = .next (raise .link { s with link := { s.link with
        receiver := .listen
        counters := { s.link.counters with check := min 65535 (s.link.counters.check + 1) } } })) ∧
    (c1.toNat * 256 + c2.toNat = checkSum body →
      (∀ r, parseRequest kind.toNat payload = some r → exec (.dataCharacter c2) s = exec (r.command src) s) ∧
      (parseRequest kind.toNat payload = none →
        exec (.dataCharacter c2) s = .next { s with link := { s.link with
          counters := { s.link.counters with accepted := min 65535 (s.link.counters.accepted + 1) }
          receiver := if b = false ∧ s.station ≠ none then .replying else .listen
          pendingReply := if b = false ∧ s.station ≠ none then
            some { tag := tag, kind := kind, answer := .unknown } else none } }))

/-- The reading requests change nothing but the link, and answer DONE with the ring, panel, line, heat and rolls
payloads of section 11.5, which have the lengths of its table; READ-PANEL with no such slot and READ-HEAT with no such
recipe are REFUSED RANGE. The paged reads change nothing but the link. READ-TRACKING from an index over 23 and READ-
EVENTS from one over 13 are REFUSED RANGE, field 1; otherwise they answer their page, 9 characters and 27 for each of
up to 8 records, or 7 and 2 for each of up to 8 classes, DONE-MORE exactly while records or classes remain beyond it.
What comes of the frame that carries a whole request is the model's choice, log entries 1 and 2. So is what stands
where section 11.5 names no value, log entries 11 and 20. -/
def Obligations.ReadsAnswerAndChangeNothing : Prop :=
  (∀ (src : Source) (s : State),
     exec (.readRing src) s = .next (answered src .readRing (.done (readRingPayload s)) s) ∧
     exec (.readLine src) s = .next (answered src .readLine (.done (readLinePayload s)) s) ∧
     exec (.readRolls src) s = .next (answered src .readRolls (.done (readRollsPayload s)) s) ∧
     (∀ k : Fin 32, exec (.readPanel src k.val) s =
       .next (answered src (.readPanel k.val) (.done (readPanelPayload k s)) s)) ∧
     (∀ r : Fin 8, exec (.readHeat src r.val) s =
       .next (answered src (.readHeat r.val) (.done (readHeatPayload r s)) s)) ∧
     (∀ k, 32 ≤ k → exec (.readPanel src k) s = .next (answered src (.readPanel k) (no .range 0) s)) ∧
     (∀ r, 8 ≤ r → exec (.readHeat src r) s = .next (answered src (.readHeat r) (no .range 1) s)) ∧
     (readRingPayload s).length = 33 ∧ (readRollsPayload s).length = 56 ∧
     (∀ k, (readPanelPayload k s).length = 77) ∧ (∀ r, (readHeatPayload r s).length = 116) ∧
     (s.ru.marks.length ≤ markCapacity → (readLinePayload s).length = 164)) ∧
  ∀ (src : Source) (i : Nat) (s : State),
    (23 < i → exec (.readTracking src i) s = .next (answered src (.readTracking i) (no .range 1) s)) ∧
    (i ≤ 23 → exec (.readTracking src i) s = .next (answered src (.readTracking i)
        (if i + 8 < s.tu.records.length then .doneMore (readTrackingPayload i s) else .done (readTrackingPayload i s)) s)) ∧
    (13 < i → exec (.readEvents src i) s = .next (answered src (.readEvents i) (no .range 1) s)) ∧
    (i ≤ 13 → exec (.readEvents src i) s = .next (answered src (.readEvents i)
        (if i + 8 < 14 then .doneMore (readEventsPayload i s) else .done (readEventsPayload i s)) s)) ∧
    (readTrackingPayload i s).length = 9 + 27 * min 8 (s.tu.records.length - i) ∧
    (readEventsPayload i s).length = 7 + 2 * min 8 (14 - i)

/-- IDENTIFY changes nothing but the link and answers DONE with part code 420, revision 1, the station address (0 for
none), the baud strap value, whether the geometry is valid and the limits are set, and the line state. READ-LINK: a
clear flag that is neither 0 nor 1 is REFUSED RANGE, field 1. Otherwise the reply is DONE with the seven counters, the
frame that carries the request among the accepted ones, the station address (0 for none) and the baud strap value;
with the flag clear nothing but the link changes, and with it set every counter is 0 after. What comes of the frame
that carries a whole request is the model's choice, log entries 1 and 2. So is the station character of a part with
none, log entry 18. -/
def Obligations.IdentifyAndReadLinkAnswer : Prop :=
  (∀ (src : Source) (s : State),
     exec (.identify src) s = .next (answered src .identify (.done
       [0x01, 0xA4, 0x01, (s.station.getD 0#8), BitVec.ofNat 8 s.link.baudStraps.val,
         if s.geometry.valid then 1#8 else 0#8, if s.limits.isSet then 1#8 else 0#8,
         match s.lg.lineState with
         | .unconfigured => 0#8 | .stopped => 1#8 | .running => 2#8 | .stopping => 3#8 | .tripped => 4#8]) s)) ∧
  ∀ (src : Source) (clear : Nat) (s : State),
    let c := s.link.counters
    (1 < clear → exec (.readLink src clear) s = .next (answered src (.readLink clear) (no .range 1) s)) ∧
    (clear ≤ 1 → (∀ n ∈ [c.framing, c.gap, c.check, c.length, c.abandoned, c.overrun], n ≤ 65535) →
      let t := answered src (.readLink clear) (.done (bytesOf 2 (min 65535 (c.accepted + 1)) ++ bytesOf 2 c.framing ++
        bytesOf 2 c.gap ++ bytesOf 2 c.check ++ bytesOf 2 c.length ++ bytesOf 2 c.abandoned ++ bytesOf 2 c.overrun ++
        [s.station.getD 0#8, BitVec.ofNat 8 s.link.baudStraps.val])) s
      exec (.readLink src clear) s = .next
        (if clear = 1 then { t with link := { t.link with counters := zeroCounters } } else t))

/-! ### Events -/

/-- Raising a class adds one to its count, holding at 255, and to no other; the class is then pending; and an
attention output is asserted exactly when a pending class is enabled in its mask. SET-EVENT-MASK: a mask number
outside 1 to 2 is REFUSED RANGE, field 1, then a set with a class outside 0 to 13, field 2; otherwise the named mask
is replaced and the reply is DONE with both masks, and nothing else changes. ACK-EVENTS: a set with a class outside 0
to 13 is REFUSED RANGE, field 1. Otherwise the count of each named class becomes 0, the other counts and the masks
stay, the reply is DONE with the pending set after the clearing, and nothing else changes. What comes of the frame
that carries a whole request is the model's choice, log entries 1 and 2. -/
def Obligations.EventsAreCountedMaskedAndCleared : Prop :=
  ((∀ (c d : EventClass) (s : State),
     (raise c s).eventCount d = if d = c then min 255 (s.eventCount c + 1) else s.eventCount d) ∧
   ∀ (mask : EventSet) (s : State),
     attention mask s = true ↔ ∃ c : EventClass, mask.getLsbD c.index.val = true ∧ 1 ≤ s.eventCount c) ∧
  (∀ (src : Source) (mask classes : Nat) (s : State),
     let e : EventUnit :=
       if mask = 1 then { s.events with mask1 := BitVec.ofNat 14 classes }
       else { s.events with mask2 := BitVec.ofNat 14 classes }
     exec (.setEventMask src mask classes) s = .next (
       if mask ≠ 1 ∧ mask ≠ 2 then answered src (.setEventMask mask classes) (no .range 1) s
       else if 2 ^ 14 ≤ classes then answered src (.setEventMask mask classes) (no .range 2) s
       else answered src (.setEventMask mask classes)
         (.done (bytesOf 2 e.mask1.toNat ++ bytesOf 2 e.mask2.toNat)) { s with events := e })) ∧
  ∀ (src : Source) (classes : Nat) (s : State),
    (2 ^ 14 ≤ classes →
      exec (.ackEvents src classes) s = .next (answered src (.ackEvents classes) (no .range 1) s)) ∧
    (classes < 2 ^ 14 → Completes (exec (.ackEvents src classes) s) fun t =>
      (∀ c : EventClass, t.eventCount c = if classes.testBit c.index.val then 0 else s.eventCount c) ∧
      t = answered src (.ackEvents classes)
        (.done (bytesOf 2 ((List.finRange 14).map fun i =>
          if 1 ≤ t.events.counts[i.val]'i.isLt then 2 ^ i.val else 0).sum))
        { s with events := { s.events with counts := t.events.counts } })

/-! ### The encoders and the positions -/

/-- A forward count of the web encoder at which nothing waits adds one to the web position, takes the high-water mark
with it where it passes it, and changes nothing else but what the blocks report to each other; at the top of the range
the count is ignored. A reverse count of the web encoder takes one from the web position and makes RU discard what it
measures; it reports REVERSE exactly when it carries the deficit from the reverse limit or below to above it; at
position 0 it is ignored. What the blocks report, and what PS then takes, comes as the command ends: the model's
reading, log entries 3 and 12. -/
def Obligations.WebCountsMovePosition : Prop :=
  (∀ (p : ChannelPair) (s : State), isCount s .web true p →
     (s.pc.webPosition < topPosition → NothingAt (s.pc.webPosition + 1) s →
       exec (.encoderChange .web p) s = .next (refresh { s with pc := { s.pc with
         webPosition := s.pc.webPosition + 1
         highWater := max s.pc.highWater (s.pc.webPosition + 1)
         webPair := p } })) ∧
     (topPosition ≤ s.pc.webPosition →
       exec (.encoderChange .web p) s = .next (refresh { s with pc := { s.pc with webPair := p } }))) ∧
  ∀ (p : ChannelPair) (s : State), isCount s .web false p →
    (s.pc.webPosition = 0 →
      exec (.encoderChange .web p) s = .next (refresh { s with pc := { s.pc with webPair := p } })) ∧
    (0 < s.pc.webPosition →
      let t : State := { s with
        pc := { s.pc with webPosition := s.pc.webPosition - 1, webPair := p }
        ru := { s.ru with bar := afterReverse s.ru.bar } }
      let limit := reverseLimitCounts s.geometry.given
      exec (.encoderChange .web p) s = .next (refresh (
        if s.geometry.valid = true ∧ s.pc.highWater - s.pc.webPosition ≤ limit ∧
            limit < s.pc.highWater - (s.pc.webPosition - 1) then reportCause .reverse t else t)))

/-- A forward web count, the position and its high-water mark moved and STARVE tested at the new reserve, takes in
turn: the end of a bar group, the expiry of marks, the loss of a search, the last committed end, the stroke, the FLAT
end and the start reached, the seam, and the fire position. Events that meet (the end of a group with an expiry, a
loss or the last committed end; an expiry with the setting up of a search; a boundary with the seam; the fire position
with the stroke) come in one of two orders, and races counts each such choice. What meets at a count is read off the
state: an open group whose space has grown past the gap; a mark whose m plus Ms, a loss, the head stroke, a fire
position, a seam, an ACTIVE FLAT slot's end or the oldest COMMITTED start at or below the web position; a slot to take
that is registered. Short of its position nothing happens. An open group ends, and is judged, once the space beyond
its last kept bar exceeds the gap. An ACTIVE FLAT slot whose end is reached becomes SETTING, and the oldest COMMITTED
slot whose start is reached ACTIVE. PATTERN-EMPTY is raised when a rise of the high-water mark reaches the last
committed end with no slot COMMITTED, and only then. The order of events at one count is the model's reading, log
entries 4 and 5; that a plan is looked at as a count is taken, log entry 22. -/
def Obligations.ForwardWebCountReachesWhatWaits : Prop :=
  ((∀ (p : ChannelPair) (s : State), isCount s .web true p → s.pc.webPosition < topPosition →
      let rises : Bool := s.pc.highWater == s.pc.webPosition
      let moved : State := starveTest { s with pc := { s.pc with
        webPosition := s.pc.webPosition + 1
        highWater := max s.pc.highWater (s.pc.webPosition + 1)
        webPair := p } }
      let ended := reachGroupEnd moved
      let marked := reachLastEnd rises (reachLoss (expireMarks ended))
      let bounded := reachStart (reachFlatEnd (reachStroke marked))
      PositionsInv s → moved.groupMeets rises = false → ended.anyExpired = false ∨ ended.searchReady = false →
      marked.strokeReachedNow = false ∨ marked.fireReached = false →
      marked.seamReached = false ∨
        (marked.strokeReachedNow = false ∧ marked.flatEnded = none ∧ marked.startReached = false) →
      exec (.encoderChange .web p) s = .next (refresh (reachFire (reachSeam bounded)))) ∧
   ∀ (first second : State → State) (s : State),
     inEitherOrder false first second s = second (first s) ∧
     (inEitherOrder true first second s = noteRace (second (first s)) ∨
       inEitherOrder true first second s = noteRace (first (second s))) ∧
   (∀ s : State, noteRace s = { s with races := s.races + 1 }) ∧
   ∀ (p : ChannelPair) (s : State), isCount s .web true p → s.pc.webPosition < topPosition → PositionsInv s →
     let rises : Bool := s.pc.highWater == s.pc.webPosition
     let moved : State := starveTest { s with pc := { s.pc with
       webPosition := s.pc.webPosition + 1
       highWater := max s.pc.highWater (s.pc.webPosition + 1)
       webPair := p } }
     let orders := fun (meet : Bool) (f g : State → List State) (x : State) =>
       if meet then ((f x).flatMap g ++ (g x).flatMap f).map noteRace else (f x).flatMap g
     let expiry := fun x : State => if x.anyExpired && x.searchReady then
       [expireMarks (noteRace x), expireMarks (takeSlot (noteRace x))] else [expireMarks x]
     let waiters := fun x : State => (expiry x).map fun y => reachLastEnd rises (reachLoss y)
     let boundaries := fun x : State => [reachStart (reachFlatEnd (reachStroke x))]
     let bounds := fun x : State => orders (x.seamReached && (x.strokeReachedNow || x.flatEnded.isSome || x.startReached))
       boundaries (fun y => [reachSeam y]) x
     ∃ a ∈ orders (moved.groupMeets rises) (fun x => [reachGroupEnd x]) waiters moved,
       ∃ u ∈ orders (a.strokeReachedNow && a.fireReached) bounds (fun x => [reachFire x]) a,
         exec (.encoderChange .web p) s = .next (refresh u)) ∧
  (∀ s : State,
     let w := s.pc.webPosition
     let loses := ∃ r ∈ s.ps.search, r.loss ≤ w
     let ends : Bool := match s.ru.bar with
       | .inSpace g => decide (g.lastTrailing + groupGapCounts s.geometry.given < w)
       | .idle => false
       | .waitLight => false
       | .inBar _ _ => false
     let waits := fun i : Fin 32 => (s.status (s.ps.commitPointer + i)).state = .committed
     (∀ rises : Bool, s.groupMeets rises = true ↔
       ends = true ∧ (s.anyExpired = true ∨ loses ∨ (rises = true ∧ s.ps.lastEnd = some s.pc.highWater))) ∧
     (s.anyExpired = true ↔ ∃ mk ∈ s.ru.marks, mk.m + msCounts s.geometry.given ≤ w) ∧
     (s.searchReady = true ↔ s.commitReady = true ∧ (s.panelOf s.ps.commitPointer).registration ≠ none) ∧
     (s.strokeReachedNow = true ↔ ∃ r ∈ s.ps.strokes.head?, r.position ≤ w) ∧
     (s.fireReached = true ↔ ∃ p ∈ s.rolls.plan, p.fire ≤ w) ∧
     (s.seamReached = true ↔ ∃ m ∈ s.rolls.seam, m.position ≤ w) ∧
     (s.flatEnded.isSome = true ↔ ∃ k : Fin 32, (s.status k).state = .active ∧ (s.panelOf k).kind = .flat ∧
       ∃ e ∈ (s.status k).endPos, e ≤ w) ∧
     (s.startReached = true ↔ ∃ i : Fin 32, waits i ∧ (∀ j, j < i → ¬ waits j) ∧
       ∃ b ∈ (s.status (s.ps.commitPointer + i)).start, b ≤ w)) ∧
  ∀ s : State,
    (∀ g, s.ru.bar = .inSpace g → reachGroupEnd s =
      if g.lastTrailing + groupGapCounts s.geometry.given < s.pc.webPosition then
        judgeGroup g { s with ru := { s.ru with bar := .idle } } else s) ∧
    ((∀ g, s.ru.bar ≠ .inSpace g) → reachGroupEnd s = s) ∧
    (let ends := fun k : Fin 32 => (s.status k).state = .active ∧ (s.panelOf k).kind = .flat ∧
       ∃ e ∈ (s.status k).endPos, e ≤ s.pc.webPosition
     ((∀ k, ¬ ends k) → reachFlatEnd s = s) ∧
     ∀ k, ends k → (∀ j, ends j → j = k) → reachFlatEnd s = toSetting k s) ∧
    (let waits := fun i : Fin 32 => (s.status (s.ps.commitPointer + i)).state = .committed
     ((∀ i, ¬ waits i) → reachStart s = s) ∧
     ∀ i, waits i → (∀ j, j < i → ¬ waits j) → reachStart s =
       if ∃ b ∈ (s.status (s.ps.commitPointer + i)).start, b ≤ s.pc.webPosition then
         toActive (s.ps.commitPointer + i) s else s) ∧
    ∀ rises : Bool, reachLastEnd rises s =
      if rises = true ∧ s.ps.lastEnd = some s.pc.highWater ∧ ∀ k : Fin 32, (s.status k).state ≠ .committed then
        raise .patternEmpty s else s

/-- With nothing in the tracking queue, a forward count of the belt encoder adds one to the belt position and a
reverse count takes one from it, within 0 and the top of the range, and nothing else changes but what the blocks
report to each other. Whatever is in the queue, a reverse count at position 0 and a forward count at the top of the
range are ignored. A pair equal to the last pair seen changes nothing; a pair that differs in both channels counts
nothing, becomes the last pair seen and reports ENCODER to LG. A reverse belt count removes no record and switches no
zone; it marks UNDER-SET(z), for a zone z not IN-BAND, on the slot of each closed PANEL record whose tail distance it
brings down to Ze of z. That a pair equal to the last pair is no change is the model's reading, log entry 10; what the
blocks report and PS takes comes as the command ends, log entries 3 and 12. -/
def Obligations.BeltCountsAndDoubleChanges : Prop :=
  ((∀ (p : ChannelPair) (s : State), s.tu.records = [] →
     (isCount s .belt true p → exec (.encoderChange .belt p) s = .next (refresh { s with pc := { s.pc with
       beltPosition := if s.pc.beltPosition < topPosition then s.pc.beltPosition + 1 else s.pc.beltPosition
       beltPair := p } })) ∧
     (isCount s .belt false p → exec (.encoderChange .belt p) s = .next (refresh { s with pc := { s.pc with
       beltPosition := s.pc.beltPosition - 1
       beltPair := p } }))) ∧
   ∀ (p : ChannelPair) (s : State),
     (isCount s .belt true p ∧ topPosition ≤ s.pc.beltPosition) ∨ (isCount s .belt false p ∧ s.pc.beltPosition = 0) →
     exec (.encoderChange .belt p) s = .next (refresh { s with pc := { s.pc with beltPair := p } })) ∧
  (∀ (e : Encoder) (p : ChannelPair) (s : State),
     (p = s.lastPair e → exec (.encoderChange e p) s = .next s) ∧
     (p.a ≠ (s.lastPair e).a → p.b ≠ (s.lastPair e).b →
       exec (.encoderChange e p) s = .next (refresh (reportCause .encoder { s with pc :=
         match e with
         | .web => { s.pc with webPair := p }
         | .belt => { s.pc with beltPair := p } })))) ∧
  ∀ (p : ChannelPair) (s : State), isCount s .belt false p → 0 < s.pc.beltPosition →
    let b := s.pc.beltPosition - 1
    let moved : State := { s with pc := { s.pc with beltPosition := b, beltPair := p } }
    let u := trackReverse moved
    exec (.encoderChange .belt p) s = .next (refresh u) ∧ u = { moved with slots := u.slots } ∧
    ∀ k : Fin 32, u.panelOf k = s.panelOf k ∧ u.status k = { s.status k with underSet := (u.status k).underSet } ∧
      ∀ z : Fin 4, (u.status k).underSet.getLsbD z.val = ((s.status k).underSet.getLsbD z.val ||
        (((s.status k).state == .active || (s.status k).state == .setting) && (s.zone z).state != .inBand &&
          s.tu.records.any fun x => match x with
            | .panel j _ (some e) => (j == k) && decide (e + zeCounts s.geometry.given z = b)
            | .panel _ _ none => false
            | .seam _ _ _ => false))

/-- A forward belt count with one PANEL record in the queue: its slot is marked UNDER-SET for each zone whose start
its head distance has just reached while the zone is not IN-BAND (the slot being ACTIVE or SETTING); a closed record
whose tail distance is at least To leaves the queue, its slot becomes DONE, PANEL-DONE is raised, and GARMENT-DONE
with LAST set; PS has nothing due. With one SEAM record it switches, in zone order, each zone not yet switched whose
midpoint the distance has reached, to the record's recipe, adds them to the zones switched, and removes the record,
with no event of its own, when its distance has reached To. With any records it makes all their entry tests, then the
switches that are due, oldest record first, then every retirement. The order at one belt count, the entry tests first,
then the switches of the seams, then the retirements, oldest record first, is the model's choice, log entry 5. What
the blocks report and PS takes comes as the command ends, log entries 3 and 12; the order of the zones is log entry
21. -/
def Obligations.ForwardBeltCountTracksRecords : Prop :=
  (∀ (p : ChannelPair) (s : State) (k : Fin 32) (head : Nat) (tail : Option Nat),
     s.tu.records = [.panel k head tail] → QuietPS s → isCount s .belt true p → s.pc.beltPosition < topPosition →
     let b := s.pc.beltPosition + 1
     let gone : Bool := match tail with
       | some e => decide ((toCounts s.geometry.given : Int) ≤ (b : Int) - e)
       | none => false
     let held : Bool := (s.status k).state == .active || (s.status k).state == .setting
     Completes (exec (.encoderChange .belt p) s) fun t =>
       t.pc = { s.pc with beltPosition := b, beltPair := p } ∧
       t.tu = { s.tu with records := if gone then [] else [.panel k head tail] } ∧
       (∀ j : Fin 32, j ≠ k → t.slot j = s.slot j) ∧ t.panelOf k = s.panelOf k ∧
       t.status k = { s.status k with
         state := if gone then .done else (s.status k).state
         underSet := (t.status k).underSet } ∧
       (∀ z : Fin 4, (t.status k).underSet.getLsbD z.val = ((s.status k).underSet.getLsbD z.val ||
         (held && decide ((b : Int) - head = zsCounts s.geometry.given z) && (s.zone z).state != .inBand))) ∧
       t.eventCount .panelDone = (if gone then min 255 (s.eventCount .panelDone + 1) else s.eventCount .panelDone) ∧
       t.eventCount .garmentDone = (if gone = true ∧ (s.panelOf k).last = true then
         min 255 (s.eventCount .garmentDone + 1) else s.eventCount .garmentDone)) ∧
  (∀ (p : ChannelPair) (s : State) (pos : Nat) (r : Fin 8) (sw : ZoneSet),
     s.tu.records = [.seam pos r sw] → isCount s .belt true p → s.pc.beltPosition < topPosition →
     let d : Int := (s.pc.beltPosition + 1 : Nat) - (pos : Int)
     let due := allZones.filter fun z =>
       !sw.getLsbD z.val &&
         decide ((((zsCounts s.geometry.given z + zeCounts s.geometry.given z) / 2 : Nat) : Int) ≤ d)
     let moved : State := { s with pc := { s.pc with beltPosition := s.pc.beltPosition + 1, beltPair := p } }
     exec (.encoderChange .belt p) s = .next (refresh { due.foldl (fun u z => switchZone z r u) moved with
       tu := { s.tu with records :=
         if (toCounts s.geometry.given : Int) ≤ d then []
         else [.seam pos r (due.foldl (fun acc z => acc ||| BitVec.twoPow 4 z.val) sw)] } })) ∧
  ∀ (p : ChannelPair) (s : State), isCount s .belt true p → s.pc.beltPosition < topPosition →
    let g := s.geometry.given
    let b := s.pc.beltPosition + 1
    let moved : State := { s with pc := { s.pc with beltPosition := b, beltPair := p } }
    let tested := s.tu.records.foldl entriesForward moved
    let due : TrackRecord → List (Fin 4) := fun x => match x with
      | .seam pos _ sw => allZones.filter fun z => !sw.getLsbD z.val && decide (pos + (zsCounts g z + zeCounts g z) / 2 ≤ b)
      | .panel _ _ _ => []
    let switched := s.tu.records.foldl (fun u x => match x with
      | .seam _ r _ => (due x).foldl (fun u z => switchZone z r u) u
      | .panel _ _ _ => u) tested
    let leaves := fun x : TrackRecord => match x with
      | .panel _ _ (some e) => decide (e + toCounts g ≤ b)
      | .panel _ _ none => false
      | .seam pos _ _ => decide (pos + toCounts g ≤ b)
    let named := fun (k : Fin 32) (x : TrackRecord) => match x with
      | .panel j _ _ => leaves x && (j == k)
      | .seam _ _ _ => false
    let gone := s.tu.records.filterMap fun x => match x with
      | .panel j _ _ => if leaves x then some j else none
      | .seam _ _ _ => none
    let more := fun (n m : Nat) => if m = 0 then n else min 255 (n + m)
    let u := trackForward moved
    exec (.encoderChange .belt p) s = .next (refresh u) ∧
    (∀ k : Fin 32, tested.status k = { s.status k with underSet := (tested.status k).underSet } ∧
      ∀ z : Fin 4, (tested.status k).underSet.getLsbD z.val = ((s.status k).underSet.getLsbD z.val ||
        (((s.status k).state == .active || (s.status k).state == .setting) && (s.zone z).state != .inBand &&
          s.tu.records.any fun x => match x with
            | .panel j head _ => (j == k) && decide (head + zsCounts g z = b)
            | .seam _ _ _ => false))) ∧
    tested = { moved with slots := tested.slots } ∧
    (∀ k : Fin 32, u.panelOf k = s.panelOf k ∧ u.status k =
      if s.tu.records.any (named k) = true then { switched.status k with state := .done } else switched.status k) ∧
    u.tu = { s.tu with records := (s.tu.records.filter fun x => !leaves x).map fun x => match x with
      | .seam pos r sw => .seam pos r ((due x).foldl (fun acc z => acc ||| BitVec.twoPow 4 z.val) sw)
      | .panel k head tail => .panel k head tail } ∧
    u.eventCount .panelDone = more (s.eventCount .panelDone) gone.length ∧
    u.eventCount .garmentDone = more (s.eventCount .garmentDone) (gone.filter fun k => (s.panelOf k).last).length ∧
    (∀ c : EventClass, c ≠ .panelDone → c ≠ .garmentDone → u.eventCount c = switched.eventCount c) ∧
    u = { switched with slots := u.slots, tu := u.tu, events := u.events }

/-- A PANEL record's head distance is B less its head; its tail distance is B less its tail, 0 while it is open; a
SEAM record's distance is B less its b. A PANEL record overlaps a zone, or the chamber, when its head distance is at
least the extent's start and its tail distance at most its end; a SEAM record overlaps nothing. The slots HU names to
TU are those of the PANEL records of the queue that overlap. -/
def Obligations.DistancesAndOverlaps : Prop :=
  (∀ (b : Nat) (k : Fin 32) (head : Nat) (tail : Option Nat) (r : Fin 8) (sw : ZoneSet),
     headDistance b (.panel k head tail) = (b : Int) - head ∧
     tailDistance b (.panel k head tail) = (match tail with | some e => (b : Int) - e | none => 0) ∧
     headDistance b (.seam head r sw) = (b : Int) - head) ∧
  ∀ s : State,
    (∀ (x : TrackRecord) (z : Fin 4),
      (s.overlapsZone z x = true ↔ x.slot? ≠ none ∧
        (zsCounts s.geometry.given z : Int) ≤ headDistance s.pc.beltPosition x ∧
        tailDistance s.pc.beltPosition x ≤ zeCounts s.geometry.given z) ∧
      (s.overlapsChamber x = true ↔ x.slot? ≠ none ∧
        (ceCounts s.geometry.given : Int) ≤ headDistance s.pc.beltPosition x ∧
        tailDistance s.pc.beltPosition x ≤ cxCounts s.geometry.given)) ∧
    ∀ (k : Fin 32) (z : Fin 4), k ∈ s.panelSlots (s.overlapsZone z) ↔
      ∃ x ∈ s.tu.records, s.overlapsZone z x = true ∧ x.slot? = some k

/-- A running search, its loss position and the marks. The loss position reached commits the slot there, LOST and
ACTIVE, and raises REG-LOST; short of it nothing happens. A mark of the entry whose registered start is at least the
earliest start commits the slot there, REGISTERED with its m; an earlier one is counted as skipped and nothing else
changes. A mark record leaves the queue, with no event, once the web position has reached its m plus Ms. -/
def Obligations.SearchEndsAtMarkOrLoss : Prop :=
  (∀ (s : State) (r : SearchRecord), s.ps.search = some r → Spared r.slot s →
    (s.pc.webPosition < r.loss → reachLoss s = s) ∧
    (r.loss ≤ s.pc.webPosition →
      let t := reachLoss s
      let stop := r.loss + (s.status r.slot).panelCounts
      (t.status r.slot).state = .active ∧ (t.status r.slot).registration = some .lost ∧
      (t.status r.slot).start = some r.loss ∧ (t.status r.slot).endPos = some stop ∧ t.ps.search = none ∧
      t.ps.commitPointer = r.slot + 1 ∧ t.ps.lastEnd = some stop ∧ t.ru = s.ru ∧ t.pc = s.pc ∧
      t.eventCount .regLost = min 255 (s.eventCount .regLost + 1)) ∧
    ∀ mk : Mark,
      let start := mk.m + msCounts s.geometry.given + r.offset
      let t := judgeMark r mk s
      (start < r.earliest → t = modifyStatus r.slot (fun st => { st with marksSkipped := min 255 (st.marksSkipped + 1) }) s) ∧
      (r.earliest ≤ start →
        (t.status r.slot).state = (if start ≤ s.pc.webPosition then .active else .committed) ∧
        (t.status r.slot).registration = some (.registered mk.m) ∧ (t.status r.slot).start = some start ∧
        (t.status r.slot).endPos = some (start + (s.status r.slot).panelCounts) ∧ t.ps.search = none ∧
        t.ps.commitPointer = r.slot + 1 ∧ t.ps.lastEnd = some (start + (s.status r.slot).panelCounts) ∧
        t.ru = s.ru ∧ t.pc = s.pc ∧ t.eventCount .regLost = s.eventCount .regLost)) ∧
  ∀ s : State, expireMarks s = { s with ru := { s.ru with
    marks := s.ru.marks.filter fun mk => decide (s.pc.webPosition < mk.m + msCounts s.geometry.given) } }

/-- The fire position of a plan reached: with a roll MATCHED the planned splice fires, that roll PASTING with match
count 0, the record in PASTE at the web position with the paste timeout, and the reference frozen unless the line is
TRIPPED or a freeze stands; with none the plan is dropped. The seam in flight reached: SPLICE is marked on every
ACTIVE slot, a SEAM record is added, the seam in flight is gone, and planning is evaluated. With room in the tracking
queue the record joins it at the larger of the belt position and the floor, and the zones whose midpoint it has
already reached are switched to its recipe. Short of its position neither does anything. That a plan is looked at as a
count is taken is the model's choice, log entry 22; so is the order of the zones switched at a SEAM record's adding,
zone 1 first with the stop timer tested after each, log entry 21. -/
def Obligations.FireAndSeamPositionsAct : Prop :=
  (∀ (s : State) (p : SplicePlan), s.rolls.plan = some p →
    (s.pc.webPosition < p.fire → reachFire s = s) ∧
    (p.fire ≤ s.pc.webPosition →
      (s.rolls.a.state ≠ .matched → s.rolls.b.state ≠ .matched →
        reachFire s = { s with rolls := { s.rolls with plan := none } }) ∧
      ∀ u : UnwindId, (s.unwind u).state = .matched → (s.unwind (otherStand u)).state ≠ .matched →
        let y := modifyUnwind u (fun v => { v with state := .pasting, matchCount := 0 }) s
        let record : SpliceRecord :=
          { new := u, kind := .planned, position := s.pc.webPosition, phase := .paste, time := 0,
            timeout := s.geometry.given.pasteTimeout, overdue := false }
        reachFire s = { y with
          rolls := { y.rolls with plan := none, splice := some record }
          lg := { s.lg with
            freeze := if s.lg.lineState = .tripped ∨ s.lg.freeze ≠ none then s.lg.freeze else some s.lg.reference } })) ∧
  ∀ (s : State) (m : SeamInFlight), s.rolls.seam = some m →
    (s.pc.webPosition < m.position → reachSeam s = s) ∧
    (m.position ≤ s.pc.webPosition →
      let marked : State := { s with slots := s.slots.map fun x =>
        if x.status.state = .active then { x with status := { x.status with splice := true } } else x }
      reachSeam s = evaluatePlanning { addSeam m.recipe marked with rolls := { s.rolls with seam := none } }) ∧
    (m.position ≤ s.pc.webPosition → s.tu.records.length < 24 →
      let t := reachSeam s
      let b := max s.pc.beltPosition (queueFloor s.tu.records)
      let due := allZones.filter fun z =>
        decide ((zsCounts s.geometry.given z + zeCounts s.geometry.given z) / 2 + b ≤ s.pc.beltPosition)
      t.rolls.seam = none ∧ t.rolls.a = s.rolls.a ∧ t.rolls.b = s.rolls.b ∧ t.rolls.splice = s.rolls.splice ∧
      t.tu = { s.tu with
        records := s.tu.records ++ [.seam b m.recipe (due.foldl (fun acc z => acc ||| BitVec.twoPow 4 z.val) 0)] } ∧
      (∀ k : Fin 32, (t.status k).splice = ((s.status k).splice || decide ((s.status k).state = .active)) ∧
        (t.status k).state = (s.status k).state) ∧
      (due = [] → t.heat = s.heat ∧ t.events = s.events ∧ t.lg = s.lg) ∧
      (let added : State := { s with
         slots := s.slots.map fun x =>
           if x.status.state = .active then { x with status := { x.status with splice := true } } else x
         tu := t.tu }
       t = evaluatePlanning { due.foldl (fun u z => switchZone z m.recipe u) added with
         rolls := { s.rolls with seam := none } }) ∧
      t = { s with slots := t.slots, tu := t.tu, rolls := t.rolls, lg := t.lg, heat := t.heat, events := t.events })

/-! ### The pattern -/

/-- The reserve is the larger of the last committed end, 0 where there is none, and the web position, plus the gap and
panel counts of the run of QUEUED slots from the commit pointer on, SEARCHING or not, less the web position. -/
def Obligations.ReserveIsWorkedOut : Prop :=
  ∀ (n : Nat) (s : State),
    let ahead := fun i : Nat => s.status (s.ps.commitPointer + Fin.ofNat 32 i)
    (∀ i < n, (ahead i).state = .queued) → n = 32 ∨ (n < 32 ∧ (ahead n).state ≠ .queued) →
    s.reserve = max (s.ps.lastEnd.getD 0) s.pc.webPosition +
      ((List.range n).map fun i => (ahead i).gapCounts + (ahead i).panelCounts).sum - s.pc.webPosition

/-- COMMIT of an unregistered slot that R45 lets PS take, a QUEUED slot being named by no PANEL record: the start is
the base plus the gap counts, the base being the larger of the last committed end and the high-water mark; the end is
the start plus the panel counts; the garment check sets GARMENT-BREAK and the open garment; the pointer moves on, and
an idle generator takes a panel with strokes up. STARVE is tested at the new reserve. A start not yet reached leaves
the slot COMMITTED with every other slot and the tracking queue as they are; a start already reached makes it ACTIVE
with its belt head written and its PANEL record newest in the queue. Planning is then evaluated, and the next slot R45
lets PS take and the strokes follow. PS takes no slot, and neither COMMIT nor SEARCH_SETUP changes anything, while the
slot at the commit pointer is not QUEUED, whatever the slots beyond it hold, while it is SEARCHING, or while the
committed pattern reaches further ahead than the commit horizon; COMMIT takes no registered slot and SEARCH_SETUP no
unregistered one. The order of the zones switched by a SEAM record forced out is log entry 21. That PS's own step is a
command as well, and acts where something still waits, is the model's reading, log entry 3. -/
def Obligations.CommitFixesPanelWhenReady : Prop :=
  (∀ s : State,
     let k := s.ps.commitPointer
     let p := s.panelOf k
     let start := max (s.ps.lastEnd.getD 0) s.pc.highWater + (s.status k).gapCounts
     let stop := start + (s.status k).panelCounts
     let t := commitSlot k s
     (∀ x ∈ s.tu.records, x.slot? ≠ some k) → (s.status k).state = .queued → (s.status k).registration ≠ some .searching → p.registration = none →
     s.ps.lastEnd.getD 0 - s.pc.webPosition ≤ horizonCounts s.geometry.given →
     exec .commit s = .next (refresh t) ∧
     t.ps = { commitPointer := k + 1, lastEnd := some stop, openGarment := if p.last then none else some p.garment,
              generator := if s.ps.generator.isSome then s.ps.generator
                else if p.kind = .flat then none else some (takenUp k start)
              strokes := s.ps.strokes, search := none } ∧
     t.panelOf k = p ∧
     t.status k = { s.status k with
       state := if start ≤ s.pc.webPosition then .active else .committed
       start := some start, endPos := some stop, registration := some .notRequired
       beltHead := if start ≤ s.pc.webPosition then some s.pc.beltPosition else (s.status k).beltHead
       underSet := (t.status k).underSet
       garmentBreak := if p.first then s.ps.openGarment.isSome else s.ps.openGarment != some p.garment } ∧
     (s.pc.webPosition < start → t.tu = s.tu ∧ (t.status k).underSet = (s.status k).underSet ∧
       ∀ j : Fin 32, j ≠ k → t.slot j = s.slot j) ∧
     (start ≤ s.pc.webPosition → ∃ head ∈ [max s.pc.beltPosition (queueFloor s.tu.records),
       max s.pc.beltPosition (queueFloor s.tu.records.tail)],
       t.tu.records.getLast? = some (.panel k head none)) ∧
     t.pc = s.pc ∧ t.geometry = s.geometry ∧ t.limits = s.limits ∧ t.ru = s.ru ∧ t.blade = s.blade ∧
     t.link = s.link ∧ t.inputs = s.inputs ∧
     (let placed := starveTest { s with
        ps := t.ps
        slots := s.slots.set k.val
          { panel := p
            status := { s.status k with
              state := .committed, start := some start, endPos := some stop, registration := some .notRequired
              garmentBreak := (t.status k).garmentBreak } } k.isLt }
      t = evaluatePlanning (if start ≤ s.pc.webPosition then toActive k placed else placed))) ∧
  ∀ s : State,
    let st := s.status s.ps.commitPointer
    (st.state ≠ .queued ∨ st.registration = some .searching ∨
        horizonCounts s.geometry.given < s.ps.lastEnd.getD 0 - s.pc.webPosition →
      exec .commit s = .next s ∧ exec .searchSetup s = .next s) ∧
    ((s.panelOf s.ps.commitPointer).registration ≠ none → exec .commit s = .next s) ∧
    ((s.panelOf s.ps.commitPointer).registration = none → exec .searchSetup s = .next s)

/-- SEARCH_SETUP of a registered slot that R45 lets PS take. The search record holds the entry, the offset and window
in counts, the earliest start (base plus gap counts) and the loss position (that plus the window). The first queued
mark of the entry whose registered start is at least the earliest start ends the search: the slot is committed there,
REGISTERED with its m, and the pointer moves on. With no such mark the slot stays QUEUED and SEARCHING. Either way the
marks of the entry before it leave the queue and count as skipped, holding at 255, and the marks of other entries
stay. Then come the next slot R45 lets PS take and the strokes. That PS's own step is a command as well, and acts
where something still waits, is the model's reading, log entry 3. -/
def Obligations.SearchSetupWalksMarkQueue : Prop :=
  ∀ (s : State) (part : RegistrationPart), (s.panelOf s.ps.commitPointer).registration = some part →
    let k := s.ps.commitPointer
    let g := s.geometry.given
    let base := max (s.ps.lastEnd.getD 0) s.pc.highWater
    let earliest := base + (s.status k).gapCounts
    let offset := countsOfHundredths part.offset g.s
    let window := countsOfHundredths part.window g.s
    let good := fun mk : Mark => mk.entry = part.entry ∧ earliest ≤ mk.m + msCounts g + offset
    let early := s.ru.marks.takeWhile fun mk => !decide (good mk)
    let skipped := min 255 ((s.status k).marksSkipped + (early.filter fun mk => mk.entry = part.entry).length)
    let stay := early.filter fun mk => mk.entry ≠ part.entry
    let t := setUpSearch k part s
    Spared k s → (s.status k).state = .queued → (s.status k).registration ≠ some .searching →
    s.ps.lastEnd.getD 0 - s.pc.webPosition ≤ horizonCounts g → (s.status k).marksSkipped ≤ 255 →
    exec .searchSetup s = .next (refresh t) ∧
    t.pc = s.pc ∧ t.geometry = s.geometry ∧ t.blade = s.blade ∧ t.link = s.link ∧
    (t.status k).marksSkipped = skipped ∧
    (t.status k).garmentBreak = (if (s.panelOf k).first then s.ps.openGarment.isSome
      else s.ps.openGarment != some (s.panelOf k).garment) ∧
    t.ps.openGarment = (if (s.panelOf k).last then none else some (s.panelOf k).garment) ∧
    (s.ru.marks.find? (fun mk => decide (good mk)) = none →
      t.ru = { s.ru with marks := stay } ∧ (t.status k).state = .queued ∧
      (t.status k).registration = some .searching ∧
      t.ps.search = some
        { slot := k, entry := part.entry, offset := offset, window := window, base := base, earliest := earliest,
          loss := earliest + window } ∧
      t.ps.commitPointer = k ∧ t.ps.lastEnd = s.ps.lastEnd ∧ ∀ j : Fin 32, j ≠ k → t.slot j = s.slot j) ∧
    ∀ mk, s.ru.marks.find? (fun mk => decide (good mk)) = some mk →
      let start := mk.m + msCounts g + offset
      t.ru = { s.ru with marks := stay ++ (s.ru.marks.dropWhile fun x => !decide (good x)).tail } ∧
      (t.status k).state = (if start ≤ s.pc.webPosition then .active else .committed) ∧
      (t.status k).registration = some (.registered mk.m) ∧ (t.status k).start = some start ∧
      (t.status k).endPos = some (start + (s.status k).panelCounts) ∧ t.ps.search = none ∧
      t.ps.commitPointer = k + 1 ∧ t.ps.lastEnd = some (start + (s.status k).panelCounts)

/-- STROKE_GENERATE appends one stroke record while the generator works and the queue holds fewer than 64: position,
direction, part, LAST-OF-PANEL and q by the rules of the pleat, the residue and the position carried on. After a
panel's last stroke the generator takes up the first KNIFE or BOX panel among the slots after it up to the commit
pointer, at its start and with residue 50,000, and is idle with none. Otherwise nothing is appended. Nothing else
changes. Then comes what there still is room for. That PS's own step is a command as well, and acts where something
still waits, is the model's reading, log entry 3. -/
def Obligations.StrokeGenerateAppendsNextStroke : Prop :=
  ∀ s : State,
    (s.ps.generator = none ∨ 64 ≤ s.ps.strokes.length → exec .strokeGenerate s = .next (refresh s)) ∧
    ∀ g : Generator, s.ps.generator = some g → s.ps.strokes.length < 64 →
      let p := s.panelOf g.slot
      let l := (fabricLength p g.pleat).toNat
      let f := (faceWidth p g.pleat).toNat
      let stroke := if p.kind = .box then (if g.secondHalf then l - l / 2 else l / 2) else l
      let x := stroke * s.geometry.given.s + g.residue
      let last : Bool := (g.pleat + 1 == p.pleats) && (p.kind != .box || g.secondHalf)
      let later := (List.range (s.ps.commitPointer - (g.slot + 1)).val).map fun i => g.slot + 1 + Fin.ofNat 32 i
      exec .strokeGenerate s = .next (refresh { s with ps := { s.ps with
        generator :=
          if last then
            (later.find? fun k => decide ((s.panelOf k).kind ≠ .flat)).map fun k =>
              { slot := k, pleat := 0, secondHalf := false, residue := 50000
                position := (s.status k).start.getD 0 }
          else some
            { slot := g.slot
              pleat := if p.kind = .box ∧ g.secondHalf = false then g.pleat else g.pleat + 1
              secondHalf := decide (p.kind = .box) && !g.secondHalf
              residue := x % 100000
              position := g.position + x / 100000 }
        strokes := s.ps.strokes ++ [
          { position := g.position + x / 100000
            direction := if p.kind = .box ∧ g.secondHalf = true then opposite p.direction else p.direction
            slot := g.slot
            pleat := g.pleat
            part := if p.kind = .box then (if g.secondHalf then .secondHalf else .firstHalf) else .whole
            last := last
            q := (1000 * l + f / 2) / f }] } })

/-- The strokes of a KNIFE or BOX panel, produced by the residue accumulator from its start, are as many as its stroke
count, only the last carries LAST-OF-PANEL, and that one lies exactly at the panel's end: its start plus its panel
counts, the round half up of its whole fabric length, however the fractions of a count fall. -/
def Obligations.LastStrokeLiesAtPanelEnd : Prop :=
  ∀ (p : PanelRecord) (scale start : Nat) (k : Fin 32), p.kind ≠ .flat → 0 < p.pleats →
    (∀ i : Nat, i < p.pleats → 0 ≤ fabricLength p i) →
    let strokes := strokesFrom p scale (strokeCount p) (takenUp k start)
    strokes.map StrokeRecord.last = List.replicate (strokeCount p - 1) false ++ [true] ∧
    strokes.getLast?.map StrokeRecord.position = some (start + panelCountsOf p scale)

/-! ### The blade and the panel boundaries -/

/-- BLADE_HOME_CHANGE: a level the input already has changes nothing. A departure from HOME makes the blade AWAY and
raises STROKE-FAULT; one from FIRED makes it RETURNING; a return from AWAY makes it HOME; a return in RETURNING
completes the stroke, with its record removed. The consecutive-miss count, and everything else, is kept.
BLADE_SLOW_TIME raises STROKE-FAULT once for each stroke in flight, which goes on. BLADE_TIMEOUT abandons the stroke
in flight, with the blade HOME or AWAY as BLADE-HOME says, reports STROKE, and leaves the slot's counts and the miss
count. With no stroke in flight neither does anything. That a level the input has is no change, and that an expiry is
a command and does nothing with no stroke in flight, is the model's choice, log entries 7 and 10. -/
def Obligations.BladeHomeAndTimersActOnBlade : Prop :=
  (∀ (active : Bool) (s : State),
     (active = s.inputs.bladeHome → exec (.bladeHomeChange active) s = .next s) ∧
     (active ≠ s.inputs.bladeHome →
       let t : State := { s with inputs := { s.inputs with bladeHome := active } }
       exec (.bladeHomeChange active) s = .next (
         if active = false ∧ s.blade.state = .home then
           raise .strokeFault { t with blade := { s.blade with state := .away } }
         else if active = false ∧ s.blade.state = .fired then { t with blade := { s.blade with state := .returning } }
         else if active = true ∧ s.blade.state = .away then { t with blade := { s.blade with state := .home } }
         else if active = true ∧ s.blade.state = .returning then
           { t with blade := { s.blade with state := .home, inFlight := none } }
         else t))) ∧
  ∀ s : State,
    (s.blade.inFlight = none → exec .bladeSlowTime s = .next s ∧ exec .bladeTimeout s = .next s) ∧
    ∀ r, s.blade.inFlight = some r →
      (r.notified = true → exec .bladeSlowTime s = .next s) ∧
      (r.notified = false → exec .bladeSlowTime s = .next (raise .strokeFault { s with blade := { s.blade with
        inFlight := some { r with notified := true, time := max r.time r.slowTime } } })) ∧
      exec .bladeTimeout s = .next (refresh (reportCause .stroke { s with blade := { s.blade with
        inFlight := none
        state := if s.inputs.bladeHome then .home else .away } }))

/-- A stroke reached leaves the head of the queue. With E-STOP, WEB-BREAK or ENCODER in the trip record it is
withheld: only its slot's missed count rises. Otherwise with the blade HOME it is fired: command given, record of the
stroke in flight written with the times in force, blade FIRED, fired count up, miss count 0. Otherwise it is skipped:
missed count up, STROKE-FAULT raised, miss count up to 2, STROKE reported at 2. A LAST-OF-PANEL stroke then takes its
slot to SETTING. The fields bladeOut and strokeCommands are the model's, log entry 13. -/
def Obligations.StrokeReachedIsDealtWith : Prop :=
  ∀ (r : StrokeRecord) (rest : List StrokeRecord) (s : State), s.ps.strokes = r :: rest →
    (s.pc.webPosition < r.position → reachStroke s = s) ∧
    (r.position ≤ s.pc.webPosition →
      let t : State := { s with ps := { s.ps with strokes := rest } }
      let missed := modifyStatus r.slot (fun st => { st with missed := st.missed + 1 }) t
      let fired := modifyStatus r.slot (fun st => { st with fired := st.fired + 1 }) t
      let dealt : State :=
        if s.holdsCause .eStop = true ∨ s.holdsCause .webBreak = true ∨ s.holdsCause .encoder = true then missed
        else if s.blade.state = .home then
          { fired with blade :=
            { state := .fired
              inFlight := some
                { slot := r.slot, pleat := r.pleat, part := r.part, direction := r.direction, position := r.position,
                  time := 0, slowTime := s.geometry.given.bladeSlow, timeout := s.geometry.given.bladeTimeout,
                  notified := false }
              misses := 0
              bladeOut := some r.direction
              strokeCommands := s.blade.strokeCommands + 1 } }
        else if s.blade.misses = 0 then
          raise .strokeFault { missed with blade := { s.blade with misses := 1 } }
        else reportCause .stroke (raise .strokeFault { missed with blade := { s.blade with misses := 2 } })
      reachStroke s = if r.last then toSetting r.slot dealt else dealt)

/-- The start of a panel reached makes its slot ACTIVE with its belt head written and, where the tracking queue has
room, opens its PANEL record at the larger of the belt position and the queue's floor, UNDER-SET for each zone not IN-
BAND that starts within its head distance. The end makes it SETTING with its belt tail written and closes its open
records there. Room in a full tracking queue: the oldest record leaves and the count of forced retirements rises,
holding at 255. A PANEL record's slot is marked UNDER-SET for every zone its tail had not passed (while ACTIVE or
SETTING) and becomes DONE, PANEL-DONE raised and GARMENT-DONE with LAST set; a SEAM record's zones not yet switched
are switched to its recipe, zone 1 first. A queue with fewer than 24 records is left as it is. A start reached and a
seam added make that room first and then add their record, a seam switching the zones it has already reached. The
floor of the queue is 0 when it is empty, the tail of a newest PANEL record that is closed, the head of one that is
open, and with a SEAM record newest the larger of its position and what the newest PANEL record gives, its position
alone with none. The order of the zones is the model's choice, log entry 21. -/
def Obligations.BoundariesAndFullTrackingQueue : Prop :=
  (∀ (k : Fin 32) (s : State),
     (s.tu.records.length < 24 →
       let head := max s.pc.beltPosition (queueFloor s.tu.records)
       let t := toActive k s
       t.tu.records = s.tu.records ++ [.panel k head none] ∧ t.tu.forced = s.tu.forced ∧
       t.status k = { s.status k with
         state := .active, beltHead := some s.pc.beltPosition, underSet := (t.status k).underSet } ∧
       (∀ z : Fin 4, (t.status k).underSet.getLsbD z.val = ((s.status k).underSet.getLsbD z.val ||
         (decide ((zsCounts s.geometry.given z : Int) ≤ (s.pc.beltPosition : Int) - head) &&
           (s.zone z).state != .inBand))) ∧
       t = { s with slots := t.slots, tu := t.tu } ∧ ∀ j : Fin 32, j ≠ k → t.slot j = s.slot j) ∧
     toSetting k s = { modifyStatus k (fun st => { st with state := .setting, beltTail := some s.pc.beltPosition }) s with
       tu := { s.tu with records := s.tu.records.map fun r =>
         match r with
         | .panel j head none => if j = k then .panel j head (some (max s.pc.beltPosition head)) else .panel j head none
         | .panel j head (some tail) => .panel j head (some tail)
         | .seam b recipe sw => .seam b recipe sw } }) ∧
  ((∀ s : State,
     (s.tu.records.length < 24 → makeRoom s = s) ∧
     (∀ (k : Fin 32) (head : Nat) (tail : Option Nat) (rest : List TrackRecord),
       s.tu.records = .panel k head tail :: rest → 23 ≤ rest.length →
       let t := makeRoom s
       let d : Int := match tail with | some e => (s.pc.beltPosition : Int) - e | none => 0
       let held : Bool := (s.status k).state == .active || (s.status k).state == .setting
       t.tu = { records := rest, forced := min 255 (s.tu.forced + 1) } ∧
       t.status k = { s.status k with state := .done, underSet := (t.status k).underSet } ∧
       (∀ z : Fin 4, (t.status k).underSet.getLsbD z.val = ((s.status k).underSet.getLsbD z.val ||
         (held && decide (d ≤ zeCounts s.geometry.given z)))) ∧
       (∀ j : Fin 32, j ≠ k → t.slot j = s.slot j) ∧
       t.eventCount .panelDone = min 255 (s.eventCount .panelDone + 1) ∧
       t.eventCount .garmentDone = (if (s.panelOf k).last then min 255 (s.eventCount .garmentDone + 1)
         else s.eventCount .garmentDone) ∧
       t = { s with slots := t.slots, tu := t.tu, events := t.events }) ∧
     ∀ (pos : Nat) (r : Fin 8) (sw : ZoneSet) (rest : List TrackRecord),
       s.tu.records = .seam pos r sw :: rest → 23 ≤ rest.length →
       makeRoom s =
         { ((List.finRange 4).filter fun z => !sw.getLsbD z.val).foldl (fun u z => switchZone z r u) s with
           tu := { records := rest, forced := min 255 (s.tu.forced + 1) } }) ∧
   (∀ (k : Fin 32) (s : State),
     let y := makeRoom (modifyStatus k (fun st => { st with state := .active, beltHead := some s.pc.beltPosition }) s)
     let t := toActive k s
     let head := max s.pc.beltPosition (queueFloor y.tu.records)
     let held : Bool := (y.status k).state == .active || (y.status k).state == .setting
     t.tu = { y.tu with records := y.tu.records ++ [.panel k head none] } ∧
     t.status k = { y.status k with underSet := (t.status k).underSet } ∧
     (∀ z : Fin 4, (t.status k).underSet.getLsbD z.val = ((y.status k).underSet.getLsbD z.val ||
       (held && decide (head + zsCounts s.geometry.given z ≤ s.pc.beltPosition) && (y.zone z).state != .inBand))) ∧
     t = { y with slots := t.slots, tu := t.tu } ∧ ∀ j : Fin 32, j ≠ k → t.slot j = y.slot j) ∧
   ∀ (r : Fin 8) (s : State),
     let y := makeRoom s
     let b := max s.pc.beltPosition (queueFloor y.tu.records)
     let due := allZones.filter fun z =>
       decide ((zsCounts s.geometry.given z + zeCounts s.geometry.given z) / 2 + b ≤ s.pc.beltPosition)
     addSeam r s = due.foldl (fun u z => switchZone z r u) { y with tu := { y.tu with
       records := y.tu.records ++ [.seam b r (due.foldl (fun acc z => acc ||| BitVec.twoPow 4 z.val) 0)] } }) ∧
  queueFloor [] = 0 ∧
  ∀ older : List TrackRecord,
    (∀ (k : Fin 32) (head : Nat), queueFloor (older ++ [.panel k head none]) = head) ∧
    (∀ (k : Fin 32) (head tail : Nat), queueFloor (older ++ [.panel k head (some tail)]) = tail) ∧
    (∀ (b : Nat) (r : Fin 8) (sw : ZoneSet), (∀ x ∈ older, x.slot? = none) →
      queueFloor (older ++ [.seam b r sw]) = b) ∧
    ∀ (k : Fin 32) (head : Nat) (tail : Option Nat) (seams : List TrackRecord) (b : Nat) (r : Fin 8) (sw : ZoneSet),
      (∀ x ∈ seams, x.slot? = none) →
      queueFloor (older ++ .panel k head tail :: seams ++ [.seam b r sw]) = max b (tail.getD head)

/-! ### The mark sensor -/

/-- MARK_EDGE. A level the input already has changes nothing. With the geometry invalid RU only follows the level.
With it valid, a leading edge starts a bar, ending an open group first when the space before it exceeds the group gap;
a trailing edge ends the bar: narrower than the minimum it is noise, which ends the group if it lies beyond the gap,
and otherwise it is kept: it opens a group, or joins the open one with its bit placed last, or, as a ninth bar, sets
OVERLONG. A group that ends: an OVERLONG one raises MARK-FAULT; one that matches no enabled entry of its bar count,
bit by bit under the mask, is dropped. Otherwise the lowest matching entry makes it a mark at its first leading edge:
one not beyond the last mark position is dropped, a later one becomes the last mark position; one whose fabric is past
the high-water mark raises MARK-FAULT; a search on its entry judges it, and it does not enter the queue; with none it
joins the queue, or raises MARK-FAULT when the queue holds 8. An edge to the level the input has is no edge: the
model's reading, log entry 10. -/
def Obligations.MarkEdgesAndGroups : Prop :=
  (∀ (active : Bool) (s : State),
     (active = s.inputs.mark → exec (.markEdge active) s = .next s) ∧
     (active ≠ s.inputs.mark →
       let here := s.pc.webPosition
       let gap := groupGapCounts s.geometry.given
       let t := fun b : BarState =>
         ({ s with inputs := { s.inputs with mark := active }, ru := { s.ru with bar := b } } : State)
       exec (.markEdge active) s = .next (refresh (
         if s.geometry.valid = false then t (if active then .waitLight else .idle)
         else match active, s.ru.bar with
           | true, .idle => t (.inBar here none)
           | true, .inSpace g =>
             if gap < here - g.lastTrailing then judgeGroup g (t (.inBar here none)) else t (.inBar here (some g))
           | false, .inBar lead none =>
             if here - lead < minBarCounts s.geometry.given then t .idle
             else t (.inSpace
               { first := lead, lastTrailing := here, count := 1,
                 bits := if wideCounts s.geometry.given ≤ here - lead then 1 else 0, overlong := false })
           | false, .inBar lead (some g) =>
             if here - lead < minBarCounts s.geometry.given then
               if g.lastTrailing + gap < here then judgeGroup g (t .idle) else t (.inSpace g)
             else if g.count < 8 then
               t (.inSpace { g with
                 lastTrailing := here
                 count := g.count + 1
                 bits := 2 * g.bits + if wideCounts s.geometry.given ≤ here - lead then 1 else 0 })
             else t (.inSpace { g with lastTrailing := here, overlong := true })
           | false, .waitLight => t .idle
           | _, b => t b)))) ∧
  ∀ (g : Group) (s : State),
    let fits := fun i : Fin 6 =>
      let e := s.ru.codes[i.val]'i.isLt
      e.enabled = true ∧ e.count = g.count ∧
        ∀ b : Fin 64, e.mask.testBit b.val = true → g.bits.testBit b.val = e.code.testBit b.val
    (∀ i : Fin 6, (s.ru.codes[i.val]'i.isLt).mask < 2 ^ 64) →
    (g.overlong = true → judgeGroup g s = raise .markFault s) ∧
    (g.overlong = false → (∀ i, ¬ fits i) → judgeGroup g s = s) ∧
    (∀ i : Fin 6, g.overlong = false → fits i → (∀ j : Fin 6, j < i → ¬ fits j) →
      let t : State := { s with ru := { s.ru with lastMark := some g.first } }
      ((∃ l ∈ s.ru.lastMark, g.first ≤ l) → judgeGroup g s = s) ∧
      ((∀ l ∈ s.ru.lastMark, l < g.first) →
        (g.first + msCounts s.geometry.given ≤ s.pc.highWater → judgeGroup g s = raise .markFault t) ∧
        (s.pc.highWater < g.first + msCounts s.geometry.given → ∀ r, s.ps.search = some r → r.entry = i →
          judgeGroup g s = judgeMark r { entry := i, m := g.first } t) ∧
        (s.pc.highWater < g.first + msCounts s.geometry.given → (∀ r ∈ s.ps.search, r.entry ≠ i) →
          judgeGroup g s =
            if 8 ≤ s.ru.marks.length then raise .markFault t
            else { t with ru := { t.ru with marks := s.ru.marks ++ [{ entry := i, m := g.first }] } })))

/-- SET-MARK-CODE: the entry, the enabled flag, the bar count, the code and the mask are checked in that order, the
first failing one named in REFUSED RANGE; otherwise the entry is replaced whole, the reply is DONE with the entry as
stored, and nothing else changes, whatever the line state and the geometry. What comes of the frame that carries a
whole request is the model's choice, log entries 1 and 2. -/
def Obligations.SetMarkCodeReplacesEntry : Prop :=
  ∀ (src : Source) (entry enabled count code mask : Nat) (s : State),
    let r := Request.setMarkCode entry enabled count code mask
    let c := exec (.setMarkCode src entry enabled count code mask) s
    (6 ≤ entry → c = .next (answered src r (no .range 1) s)) ∧
    ∀ i : Fin 6, i.val = entry →
      c = .next (
        if 2 ≤ enabled then answered src r (no .range 2) s
        else if count = 0 ∨ 9 ≤ count then answered src r (no .range 3) s
        else if 2 ^ count ≤ code then answered src r (no .range 4) s
        else if 2 ^ count ≤ mask then answered src r (no .range 5) s
        else answered src r
          (.done (bytesOf 1 entry ++ bytesOf 1 enabled ++ bytesOf 1 count ++ bytesOf 1 code ++ bytesOf 1 mask))
          { s with ru := { s.ru with
            codes := s.ru.codes.set i.val { enabled := enabled == 1, count := count, code := code, mask := mask } i.isLt } })

/-! ### The line -/

/-- A trip cause reported to LG. HEAT is not taken in UNCONFIGURED or STOPPED. Outside TRIPPED the line becomes
TRIPPED with that primary cause and no further ones, TRIP is raised once, the freeze and a deferred STOP end, the
splice plan is dropped, a splice in PASTE is abandoned with SPLICE-FAIL and one in CUT goes on. In TRIPPED the cause
joins the further ones unless it is recorded already. No other class is raised, and the rolls are otherwise as they
were. An immediate cause sets the reference to 0 and idles both step generators. That the ceiling acts as the freeze
ends is the model's reading, log entry 12. -/
def Obligations.CauseIsTakenIntoTripRecord : Prop :=
  ∀ (c : Cause) (s : State),
    let now : Bool := c == .eStop || c == .webBreak || c == .encoder
    let stop := fun g : Governor =>
      if now then { g with reference := 0, infeedPeriod := none, beltPeriod := none } else g
    (c = .heat → s.lg.lineState = .unconfigured ∨ s.lg.lineState = .stopped → reportCause c s = s) ∧
    (s.lg.lineState = .tripped → reportCause c s = { s with
      lg := stop { s.lg with
        further := if s.lg.primary = some c ∨ s.lg.further.getLsbD c.number = true then s.lg.further
          else s.lg.further ||| BitVec.twoPow 10 c.number } }) ∧
    (s.lg.lineState ≠ .tripped →
      (c = .heat → s.lg.lineState = .running ∨ s.lg.lineState = .stopping) →
      let t := reportCause c s
      let low := starveCounts s.geometry.given
      let held := s.lg.freeze ≠ none
      let tested := s.geometry.valid = true ∧ held
      t = { s with lg := t.lg, rolls := t.rolls, events := t.events } ∧
      t.lg = stop { s.lg with
        lineState := .tripped
        primary := some c
        further := 0
        freeze := none
        deferredStop := false
        hold := if held then s.inputs.takeOffHold else s.lg.hold
        starve := if ¬ tested then s.lg.starve
          else if s.lg.starve then decide (s.reserve < low + hysteresisCounts s.geometry.given)
          else decide (s.reserve < low)
        reference := if held ∧ s.ceiling < s.lg.reference then s.ceiling else s.lg.reference } ∧
      t.eventCount .patternLow = (if s.lg.starve = false ∧ t.lg.starve = true then
        min 255 (s.eventCount .patternLow + 1) else s.eventCount .patternLow) ∧
      t.eventCount .trip = min 255 (s.eventCount .trip + 1) ∧
      (∀ k : EventClass, k ≠ .trip → k ≠ .patternLow → (k = .spliceFail → ∀ r ∈ s.rolls.splice, r.phase ≠ .paste) →
        t.eventCount k = s.eventCount k) ∧
      t.events.mask1 = s.events.mask1 ∧ t.events.mask2 = s.events.mask2 ∧
      (s.rolls.splice = none → t.rolls = { s.rolls with plan := none }) ∧
      (∀ r ∈ s.rolls.splice, r.phase = .cut → t.rolls = { s.rolls with plan := none }) ∧
      (∀ r ∈ s.rolls.splice, r.phase = .paste →
        let abandoned := modifyUnwind r.new
          (fun u => { u with state := .loaded, lastCapture := none, matchCount := 0 }) s
        t.rolls = { abandoned.rolls with plan := none, splice := none } ∧
        t.unwind r.new =
          { s.unwind r.new with state := .loaded, lastCapture := none, matchCount := 0 } ∧
        t.unwind (otherStand r.new) = s.unwind (otherStand r.new) ∧
        t.eventCount .spliceFail = min 255 (s.eventCount .spliceFail + 1)) ∧
      t.rolls.plan = none ∧ t.rolls.seam = s.rolls.seam)

/-- The field inputs of LG. E-STOP or WEB-BREAK becoming active reports its cause, and already active changes nothing;
their release, and the release of PASTE-CONFIRM and CUT-CONFIRM, changes that input alone. HOLD leaves force with
TAKE-OFF HOLD inactive and enters force with it active, except during a freeze. That an input already active reports
nothing is the model's reading, log entry 10. -/
def Obligations.FieldInputsReachTheLine : Prop :=
  ∀ s : State,
    exec .eStop s = .next (if s.inputs.eStop then s
      else refresh (reportCause .eStop { s with inputs := { s.inputs with eStop := true } })) ∧
    exec .webBreak s = .next (if s.inputs.webBreak then s
      else refresh (reportCause .webBreak { s with inputs := { s.inputs with webBreak := true } })) ∧
    exec .eStopReleased s = .next { s with inputs := { s.inputs with eStop := false } } ∧
    exec .webBreakReleased s = .next { s with inputs := { s.inputs with webBreak := false } } ∧
    exec .pasteConfirmInactive s = .next { s with inputs := { s.inputs with pasteConfirm := false } } ∧
    exec .cutConfirmInactive s = .next { s with inputs := { s.inputs with cutConfirm := false } } ∧
    ∀ active : Bool, exec (.takeOffHoldChange active) s = .next (refresh { s with
      inputs := { s.inputs with takeOffHold := active }
      lg := { s.lg with hold := active && (s.lg.freeze.isNone || s.lg.hold) } })

/-- The ramp timer moves the reference toward the target: it becomes the target where they differ by no more than the
step, and otherwise moves by the step. The target is the frozen value in RUNNING and STOPPING during a freeze, the
ceiling in RUNNING with no zero-limit reason in force, 0 otherwise; the step is the ramp step in RUNNING and STOPPING,
the trip ramp step in TRIPPED with no immediate cause, none otherwise. STOPPING becomes STOPPED at 0. The end of a
step period: a running generator gives one step and takes the period of its speed in force, or goes idle below 160,000
or with the geometry invalid; an idle generator does nothing. The infeed runs at the reference times the ratio,
rounded half up, the belt at the reference; the ratio is the q of the head stroke of the queue once the web position
has reached the start of its slot, and 1,000 otherwise. The limits. HEAT holds while a zone its recipe uses is WARMING
or STANDBY; TRACK-FULL while the tracking queue holds 24 records and the oldest COMMITTED start lies within the commit
horizon. With the geometry valid the dwell limit is the chamber length over the largest Dmin of the zones' recipes and
the feeding roll's, rounded down; the stop timer's limit is the largest Dmax of the zones' recipes, and the ceiling
the smallest of the three limits. That an expiry is a command is the model's choice, log entry 7; that an idle
generator does nothing, log entry 10; the fields infeedSteps and beltSteps, log entry 13. -/
def Obligations.RampAndStepTimersDriveTheLine : Prop :=
  (∀ s : State,
     let target :=
       if s.lg.lineState = .running ∨ s.lg.lineState = .stopping then
         match s.lg.freeze with
         | some f => f
         | none =>
           if s.lg.lineState = .running ∧ s.lg.hold = false ∧ s.trackFull = false ∧ s.heatReason = false ∧
               s.lg.starve = false then s.ceiling else 0
       else 0
     let immediate := s.holdsCause .eStop = true ∨ s.holdsCause .webBreak = true ∨ s.holdsCause .encoder = true
     let move :=
       if s.lg.lineState = .running ∨ s.lg.lineState = .stopping then s.geometry.given.rampStep
       else if s.lg.lineState = .tripped ∧ ¬ immediate then s.geometry.given.tripRampStep else 0
     let v :=
       if target ≤ s.lg.reference + move ∧ s.lg.reference ≤ target + move then target
       else if s.lg.reference < target then s.lg.reference + move else s.lg.reference - move
     exec .rampTimer s = .next (refresh { s with lg := { s.lg with
       reference := v
       lineState := if s.lg.lineState = .stopping ∧ v = 0 then .stopped else s.lg.lineState } })) ∧
  (∀ s : State,
     let q := match s.ps.strokes with
       | [] => 1000
       | r :: _ => match (s.status r.slot).start with
         | some start => if start ≤ s.pc.webPosition then r.q else 1000
         | none => 1000
     let period := fun w perMetre : Nat =>
       if s.geometry.valid = false ∨ w * perMetre < 160000 then none
       else some (min 65535 (max 20 ((10000000000 + w * perMetre / 2) / (w * perMetre))))
     (s.lg.infeedPeriod = none → exec (.stepPeriodEnd .infeed) s = .next s) ∧
     (s.lg.infeedPeriod ≠ none → exec (.stepPeriodEnd .infeed) s = .next { s with lg := { s.lg with
       infeedSteps := s.lg.infeedSteps + 1
       infeedPeriod := period ((s.lg.reference * q + 500) / 1000) s.geometry.given.infeedSteps } }) ∧
     (s.lg.beltPeriod = none → exec (.stepPeriodEnd .belt) s = .next s) ∧
     (s.lg.beltPeriod ≠ none → exec (.stepPeriodEnd .belt) s = .next { s with lg := { s.lg with
       beltSteps := s.lg.beltSteps + 1
       beltPeriod := period s.lg.reference s.geometry.given.beltSteps } })) ∧
  ∀ s : State,
    let feeds := fun u : Unwind => u.state = .running ∨ u.state = .low
    let feeding := if feeds s.rolls.a then some s.rolls.a.recipe else if feeds s.rolls.b then some s.rolls.b.recipe else none
    let zones := (List.finRange 4).filterMap fun z => (s.zone z).recipe
    let dmins := (zones ++ feeding.toList).map fun r => (s.recipe r).dmin
    let dmaxs := zones.map fun r => (s.recipe r).dmax
    let waits := fun i : Fin 32 => (s.status (s.ps.commitPointer + i)).state = .committed
    (s.heatReason = true ↔ ∃ z : Fin 4, ((s.zone z).state = .warming ∨ (s.zone z).state = .standby) ∧
      ∃ r ∈ (s.zone z).recipe, (s.recipe r).setpoint z ≠ 0) ∧
    ((∀ i, ¬ waits i) → s.trackFull = false) ∧
    (∀ i, waits i → (∀ j, j < i → ¬ waits j) → (s.trackFull = true ↔ 24 ≤ s.tu.records.length ∧
      ∃ b ∈ (s.status (s.ps.commitPointer + i)).start,
        b ≤ s.pc.webPosition + (s.geometry.given.commitHorizon * s.geometry.given.s + 500) / 1000)) ∧
    s.feedingRecipe = feeding ∧
    (s.geometry.valid = false ∨ (∀ d ∈ dmins, d = 0) → s.dwellLimit = none) ∧
    (s.geometry.valid = true → ∀ d ∈ dmins, d ≠ 0 → (∀ e ∈ dmins, e ≤ d) →
      s.dwellLimit = some ((s.geometry.given.cx - s.geometry.given.ce) * 100 / d)) ∧
    (dmaxs = [] → s.stopLimit = 0) ∧ (∀ d ∈ dmaxs, (∀ e ∈ dmaxs, e ≤ d) → s.stopLimit = d) ∧
    (s.dwellLimit = none → s.ceiling = min s.lg.hostSpeed s.limits.maxSpeed) ∧
    ∀ d, s.dwellLimit = some d → s.ceiling = min (min s.lg.hostSpeed s.limits.maxSpeed) d

/-- START, in its order of checks: NOLIMITS, NOGEOM in UNCONFIGURED and with the geometry invalid, STATE in TRIPPED,
DONE in RUNNING, then ROLL with no unwind RUNNING or LOW, HEAT with the heat switch off or a zone in FAULT, BLADE with
BLADE-HOME inactive. Accepted, the line is RUNNING, a deferred STOP is cleared, and every STANDBY zone becomes WARMING
with its settle timer stopped. What comes of the frame that carries a whole request is the model's choice, log entries
1 and 2. That NOGEOM comes before STATE in TRIPPED is read from R8, log entry 19. -/
def Obligations.StartChecksAndRuns : Prop :=
  ∀ (src : Source) (s : State),
    let feeds := fun u : Unwind => u.state = .running ∨ u.state = .low
    let run := answered src .start (.done []) (refresh { s with
      lg := { s.lg with lineState := .running, deferredStop := false }
      heat := { s.heat with zones := s.heat.zones.map fun zn =>
        if zn.state = .standby then { zn with state := .warming, settle := none } else zn } })
    exec (.start src) s = .next (
      if s.limits.isSet = false then answered src .start (no .noLimits 0) s
      else if s.lg.lineState = .unconfigured ∨ s.geometry.valid = false then answered src .start (no .noGeom 0) s
      else if s.lg.lineState = .tripped then answered src .start (no .state 0) s
      else if s.lg.lineState = .running then run
      else if ¬ feeds s.rolls.a ∧ ¬ feeds s.rolls.b then answered src .start (no .roll 0) s
      else if s.heat.heatOn = false ∨ ∃ z : Fin 4, (s.zone z).state = .fault then answered src .start (no .heat 0) s
      else if s.inputs.bladeHome = false then answered src .start (no .blade 0) s
      else run)

/-- STOP in RUNNING outside a freeze makes the line STOPPING, or STOPPED at once at reference 0; during a freeze it is
deferred; in every other state it changes nothing; it is never refused. SET-SPEED is REFUSED NOLIMITS with the limits
unset, and otherwise sets the host speed to the smaller of the value carried and the maximum belt speed, which it
answers. What comes of the frame that carries a whole request is the model's choice, log entries 1 and 2. -/
def Obligations.StopAndSetSpeedActByState : Prop :=
  ∀ (src : Source) (speed : Nat) (s : State),
    exec (.stop src) s = .next (answered src .stop (.done []) (
      if s.lg.lineState = .running then
        if s.lg.freeze = none then refresh { s with lg := { s.lg with
          lineState := if s.lg.reference = 0 then .stopped else .stopping } }
        else { s with lg := { s.lg with deferredStop := true } }
      else s)) ∧
    (s.limits.isSet = false →
      exec (.setSpeed src speed) s = .next (answered src (.setSpeed speed) (no .noLimits 0) s)) ∧
    (s.limits.isSet = true → speed < 65536 →
      exec (.setSpeed src speed) s = .next (answered src (.setSpeed speed)
        (.done (bytesOf 2 (min speed s.limits.maxSpeed)))
        (refresh { s with lg := { s.lg with hostSpeed := min speed s.limits.maxSpeed } })))

/-- TRIP is accepted in every state and reports LINK. CLEAR-TRIP is accepted in TRIPPED at reference 0 with E-STOP and
WEB-BREAK inactive and no zone in FAULT, and REFUSED STATE otherwise; accepted, it empties the trip record, makes the
line STOPPED with the geometry valid and UNCONFIGURED without, sets the consecutive-miss count to 0, and planning is
evaluated. What comes of the frame that carries a whole request is the model's choice, log entries 1 and 2. -/
def Obligations.TripAndClearTrip : Prop :=
  ∀ (src : Source) (s : State),
    exec (.trip src) s = .next (answered src .trip (.done []) (refresh (reportCause .link s))) ∧
    exec (.clearTrip src) s = .next (
      if s.lg.lineState = .tripped ∧ s.lg.reference = 0 ∧ s.inputs.eStop = false ∧ s.inputs.webBreak = false ∧
          ∀ z : Fin 4, (s.zone z).state ≠ .fault then
        answered src .clearTrip (.done []) (refresh (evaluatePlanning { s with
          lg := { s.lg with
            primary := none, further := 0
            lineState := if s.geometry.valid then .stopped else .unconfigured }
          blade := { s.blade with misses := 0 } }))
      else answered src .clearTrip (no .state 0) s)

/-- LINE-RESET is accepted at reference 0 with no stroke in flight and no splice in flight, and REFUSED STATE
otherwise. Accepted, it zeroes the positions, frees and clears every slot, resets PS, the miss count, RU but for its
code table, STARVE and the tracking queue, ends an overdue cut, drops the plan and the seam in flight, clears a
feeding roll's last capture, and gives every zone the feeding roll's recipe while the heat switch is on; it raises no
PATTERN-LOW, PANEL-DONE, GARMENT-DONE or REG-LOST, and keeps the rest. What comes of the frame that carries a whole
request is the model's choice, log entries 1 and 2. That the four switches are one event with one test of the stop
timer is the model's choice, log entry 21. -/
def Obligations.LineResetClearsProduction : Prop :=
  ∀ (src : Source) (s : State),
    let mayReset := s.lg.reference = 0 ∧ s.blade.inFlight = none ∧ ∀ r ∈ s.rolls.splice, r.overdue = true
    (¬ mayReset → exec (.lineReset src) s = .next (answered src .lineReset (no .state 0) s)) ∧
    (mayReset → (s.geometry.valid = true → 0 < starveCounts s.geometry.given) →
      Completes (exec (.lineReset src) s) fun t =>
        t.pc = { s.pc with webPosition := 0, beltPosition := 0, highWater := 0 } ∧
        (∀ k : Fin 32, t.slot k = { panel := clearedPanel, status := clearedStatus }) ∧ t.ps = clearedSequencer ∧
        t.blade = { s.blade with misses := 0 } ∧
        t.ru = { s.ru with bar := if s.inputs.mark then .waitLight else .idle, marks := [], lastMark := none } ∧
        t.lg = { s.lg with
          reference := 0, starve := true, freeze := none, deferredStop := false, infeedPeriod := none
          beltPeriod := none } ∧
        t.tu = { s.tu with records := [] } ∧ t.geometry = s.geometry ∧ t.limits = s.limits ∧ t.inputs = s.inputs ∧
        t.link = (answered src .lineReset (.done []) s).link ∧
        t.rolls.plan = none ∧ t.rolls.seam = none ∧ t.rolls.splice = none ∧
        (s.rolls.splice = none → ∀ u : UnwindId, t.unwind u = { s.unwind u with
          lastCapture := if (s.unwind u).state = .running ∨ (s.unwind u).state = .low then none
            else (s.unwind u).lastCapture }) ∧
        (∀ r ∈ s.rolls.splice, t.unwind r.new = { s.unwind r.new with
            state := .running, lastCapture := none, lastRev := none, matchCount := 0 } ∧
          t.unwind (otherStand r.new) = { s.unwind (otherStand r.new) with state := .spent }) ∧
        t.heat = { s.heat with
          zones := t.heat.zones, stopElapsed := t.heat.stopElapsed, stopFired := t.heat.stopFired } ∧
        (s.heat.heatOn = false ∨ t.feedingRecipe = none → t.heat.zones = s.heat.zones) ∧
        (s.heat.heatOn = true → ∀ r ∈ t.feedingRecipe, ∀ z : Fin 4, (t.zone z).recipe = some r) ∧
        (s.heat.heatOn = true → ∀ r ∈ t.feedingRecipe,
          let fires := s.heat.stopFired = false ∧ 0 < t.stopLimit ∧ t.stopLimit * 1000 ≤ s.heat.stopElapsed ∧
            (∃ z : Fin 4, (s.zone z).recipe ≠ some r) ∧ ∃ z : Fin 4, (t.zone z).state ≠ .off
          let leaves := (List.finRange 4).filter fun z =>
            decide ((s.zone z).state = .inBand ∧ (s.zone z).recipe ≠ some r)
          (fires → t.heat.stopFired = true ∧ t.eventCount .dwell = min 255 (s.eventCount .dwell + 1)) ∧
          (¬ fires →
            (∀ z : Fin 4, t.zone z = if (s.zone z).recipe = some r then s.zone z
              else switchedZone (decide ((s.recipe r).setpoint z ≠ 0)) r (s.zone z)) ∧
            t.eventCount .zone = (if leaves = [] then s.eventCount .zone
              else min 255 (s.eventCount .zone + leaves.length)) ∧
            t.eventCount .dwell = s.eventCount .dwell ∧
            t.heat.stopElapsed = (if ∀ z : Fin 4, (t.zone z).state = .off then 0 else s.heat.stopElapsed) ∧
            t.heat.stopFired = (if ∀ z : Fin 4, (t.zone z).state = .off then false else s.heat.stopFired))) ∧
        (∀ c : EventClass, c ≠ .zone → c ≠ .dwell → t.eventCount c = s.eventCount c) ∧
        t.events.mask1 = s.events.mask1 ∧ t.events.mask2 = s.events.mask2)

/-- What the blocks report to each other at the end of a command. STARVE enters force below the threshold, with
PATTERN-LOW, except during a freeze, and leaves it at the threshold plus the hysteresis; with the line RUNNING and no
HOLD, TRACK-FULL or STARVE every STANDBY zone becomes WARMING; outside a freeze the reference is held under the
ceiling, and STOPPING becomes STOPPED when that takes it to 0; the stop timer is at 0, its flag clear, while the
reference is not 0 or every zone is OFF; an idle step generator whose speed is not idle takes its first period.
Nothing else changes, where PS has nothing due. Before that PS takes each slot it may take, one after the other, and
appends each stroke there is room for, until nothing is due; where the PANEL records fit the slots (R115), having done
so beforehand makes no difference. That this comes at the end of each command is the model's reading, log entries 3
and 12. -/
def Obligations.ReportsAreBroughtUpToDate : Prop :=
  (∀ s : State, QuietPS s →
    let t := refresh s
    let low := starveCounts s.geometry.given
    let high := low + hysteresisCounts s.geometry.given
    let resumes := s.lg.lineState = .running ∧ s.lg.hold = false ∧ s.trackFull = false ∧ t.lg.starve = false
    let clamped := s.lg.freeze = none ∧ s.ceiling < s.lg.reference
    t.lg.starve = (if s.geometry.valid = false then s.lg.starve
      else if s.lg.starve then decide (s.reserve < high) else decide (s.reserve < low ∧ s.lg.freeze = none)) ∧
    t.events.mask1 = s.events.mask1 ∧ t.events.mask2 = s.events.mask2 ∧
    (∀ c : EventClass, t.eventCount c =
      if c = .patternLow ∧ s.lg.starve = false ∧ t.lg.starve = true then min 255 (s.eventCount c + 1)
      else s.eventCount c) ∧
    t.lg = { s.lg with
      starve := t.lg.starve
      reference := if clamped then s.ceiling else s.lg.reference
      lineState := if clamped ∧ s.ceiling = 0 ∧ s.lg.lineState = .stopping then .stopped else s.lg.lineState
      infeedPeriod := if s.lg.infeedPeriod = none then t.infeedStepPeriod else s.lg.infeedPeriod
      beltPeriod := if s.lg.beltPeriod = none then t.beltStepPeriod else s.lg.beltPeriod } ∧
    t.heat = { s.heat with
      zones := if resumes then s.heat.zones.map fun zn =>
        if zn.state = .standby then { zn with state := .warming, settle := none } else zn else s.heat.zones
      stopElapsed := if t.lg.reference ≠ 0 ∨ ∀ z : Fin 4, (s.zone z).state = .off then 0 else s.heat.stopElapsed
      stopFired := if t.lg.reference ≠ 0 ∨ ∀ z : Fin 4, (s.zone z).state = .off then false else s.heat.stopFired } ∧
    t = { s with lg := t.lg, heat := t.heat, events := t.events }) ∧
  ∀ s : State,
    (TrackInv s → refresh s = refresh (settlePS (starveTest s))) ∧ QuietPS (refresh s) ∧ QuietPS (settlePS s) ∧
    (QuietPS s → settlePS s = s) ∧ (s.commitReady = true → settlePS s = settlePS (takeSlot s)) ∧
    (s.commitReady = false → s.canAppend = true → settlePS s = settlePS (appendStroke s)) ∧
    (s.commitReady = true ↔ (s.status s.ps.commitPointer).state = .queued ∧
      (s.status s.ps.commitPointer).registration ≠ some .searching ∧
      s.ps.lastEnd.getD 0 - s.pc.webPosition ≤ horizonCounts s.geometry.given) ∧
    (s.canAppend = true ↔ s.ps.generator ≠ none ∧ s.ps.strokes.length < 64) ∧
    ((s.panelOf s.ps.commitPointer).registration = none → takeSlot s = commitSlot s.ps.commitPointer s) ∧
    ∀ part, (s.panelOf s.ps.commitPointer).registration = some part → takeSlot s = setUpSearch s.ps.commitPointer part s

/-! ### Heat -/

/-- SCAN. A channel reading raw 4,095 is open and keeps its filter; any other reading is converted, enters the filter,
and ends the open condition; the first one fills it. A zone in WARMING, IN-BAND, OUT-OF-BAND or STANDBY whose channel
is open or never converted goes to FAULT (OPEN), else to FAULT (OVER-TEMPERATURE) at or above the maximum; a FAULT
outside STOPPED and UNCONFIGURED reports HEAT: RUNNING and STOPPING trip on it, TRIPPED records it, and the line,
rolls and other classes change in nothing but that trip and what the blocks report. Otherwise the band test runs or
stops the settle timer, or takes the zone out of IN-BAND; leaving IN-BAND and every FAULT raise ZONE, and leaving IN-
BAND marks UNDER-SET on the panels in the zone. The stop timer advances by 100 ms at reference 0. The zones are as
said while the stop timer does not fire. PS has nothing due and the rolls and the splice record fit each other
(RollInv, which every step keeps), as after every step from reset. That the scan itself completes a settling and fires
the stop timer, and what a zone with no recipe or value does, are the model's reading, log entries 15 and 16. -/
def Obligations.ScanConvertsAndTestsZones : Prop :=
  ∀ (t1 t2 t3 t4 pressure : Fin 4096) (s : State), QuietPS s → RollInv s →
    let raw := fun z : Fin 4 => if z = 0 then t1 else if z = 1 then t2 else if z = 2 then t3 else t4
    let enter := fun (v : Nat) (f : Option Filter) => match f with
      | none => some { w := v, x := v, y := v, z := v : Filter }
      | some f => some { w := f.x, x := f.y, y := f.z, z := v : Filter }
    Completes (exec (.scan t1 t2 t3 t4 pressure) s) fun t =>
      let cause := fun z : Fin 4 =>
        if (t.channel z).openCondition = true ∨ (t.channel z).filter = none then some FaultCause.openSensor
        else if t.limits.isSet = true ∧ t.limits.maxTemp ≤ (t.temperature z).getD 0 then
          some FaultCause.overTemperature
        else none
      let holds : Fin 4 → Bool := fun z => match (s.zone z).recipe, t.temperature z, t.headerPressure with
        | some r, some v, some p =>
          decide ((s.recipe r).setpoint z ≤ v + (s.recipe r).band ∧ v ≤ (s.recipe r).setpoint z + (s.recipe r).band ∧
            (s.recipe r).minPressure ≤ p)
        | _, _, _ => false
      let limit := fun z : Fin 4 => match (s.zone z).recipe with
        | some r => (s.recipe r).settle * 1000
        | none => 0
      let runs := fun z : Fin 4 => (s.zone z).state ≠ .off ∧ (s.zone z).state ≠ .fault
      let faults := fun z : Fin 4 => runs z ∧ (cause z).isSome = true
      let leaves := fun z : Fin 4 => (s.zone z).state = .inBand ∧ (faults z ∨ holds z = false)
      let rises := fun z : Fin 4 => faults z ∨ leaves z
      let trips := (∃ z : Fin 4, faults z) ∧ (s.lg.lineState = .running ∨ s.lg.lineState = .stopping)
      let reference := if trips ∧ s.lg.freeze ≠ none ∧ s.ceiling < s.lg.reference then s.ceiling else s.lg.reference
      let due := reference = 0 ∧ s.heat.stopFired = false ∧ 0 < s.stopLimit ∧
        s.stopLimit * 1000 ≤ s.heat.stopElapsed + 100 ∧ ∃ z : Fin 4, (s.zone z).state ≠ .off
      (∀ z : Fin 4, t.channel z =
        if raw z = 4095 then { s.channel z with openCondition := true }
        else { filter := enter (((raw z).val * 3000 + 2047) / 4095) (s.channel z).filter, openCondition := false }) ∧
      t.heat.pressure = enter ((pressure.val * 1000 + 2047) / 4095) s.heat.pressure ∧
      t.heat.recipes = s.heat.recipes ∧ t.heat.heatOn = s.heat.heatOn ∧
      (∀ z : Fin 4, faults z → t.zone z = { s.zone z with
        state := .fault, settle := none, integral := 0, duty := 0, onTime := 0, valveOpen := false, fault := cause z }) ∧
      ((∃ z : Fin 4, faults z) → s.lg.lineState = .running ∨ s.lg.lineState = .stopping →
        t.lg.lineState = .tripped ∧ t.lg.primary = some .heat ∧ t.lg.further = 0) ∧
      ((∃ z : Fin 4, faults z) → s.lg.lineState = .tripped →
        t.holdsCause .heat = true ∧ t.lg.lineState = .tripped ∧ t.lg.primary = s.lg.primary) ∧
      ((∃ z : Fin 4, faults z) → s.lg.lineState = .stopped ∨ s.lg.lineState = .unconfigured →
        t.lg.lineState = s.lg.lineState ∧ t.lg.primary = s.lg.primary ∧ t.lg.further = s.lg.further) ∧
      ((∀ z : Fin 4, ¬ faults z) → t.lg.primary = s.lg.primary ∧ t.lg.further = s.lg.further) ∧
      (let low := starveCounts s.geometry.given
       let clamped := t.lg.freeze = none ∧ s.ceiling < s.lg.reference
       let recorded := s.lg.primary = some .heat ∨ s.lg.further.getLsbD Cause.heat.number = true
       t.lg = { s.lg with
        lineState := if trips then .tripped
          else if clamped ∧ s.ceiling = 0 ∧ s.lg.lineState = .stopping then .stopped else s.lg.lineState
        primary := if trips then some .heat else s.lg.primary
        further := if trips then 0
          else if (∃ z : Fin 4, faults z) ∧ s.lg.lineState = .tripped ∧ ¬ recorded then
            s.lg.further ||| BitVec.twoPow 10 Cause.heat.number else s.lg.further
        freeze := if trips then none else s.lg.freeze
        deferredStop := s.lg.deferredStop && !decide trips
        hold := if trips ∧ s.lg.freeze ≠ none then s.inputs.takeOffHold else s.lg.hold
        starve := if s.geometry.valid = false then s.lg.starve
          else if s.lg.starve then decide (s.reserve < low + hysteresisCounts s.geometry.given)
          else decide (s.reserve < low ∧ t.lg.freeze = none)
        reference := if clamped then s.ceiling else s.lg.reference
        infeedPeriod := if s.lg.infeedPeriod = none then t.infeedStepPeriod else s.lg.infeedPeriod
        beltPeriod := if s.lg.beltPeriod = none then t.beltStepPeriod else s.lg.beltPeriod }) ∧
      (¬ trips → t.rolls = s.rolls) ∧
      (trips → (∀ r ∈ s.rolls.splice, r.phase ≠ .paste) → t.rolls = { s.rolls with plan := none }) ∧
      (trips → ∀ r ∈ s.rolls.splice, r.phase = .paste →
        let abandoned := modifyUnwind r.new
          (fun u => { u with state := .loaded, lastCapture := none, matchCount := 0 }) s
        t.rolls = { abandoned.rolls with plan := none, splice := none }) ∧
      (∀ c : EventClass, c ≠ .zone → c ≠ .dwell → t.eventCount c =
        if (c = .trip ∧ trips) ∨ (c = .patternLow ∧ s.lg.starve = false ∧ t.lg.starve = true) ∨
            (c = .spliceFail ∧ trips ∧ ∃ r ∈ s.rolls.splice, r.phase = .paste) then min 255 (s.eventCount c + 1)
        else s.eventCount c) ∧
      t.events.mask1 = s.events.mask1 ∧ t.events.mask2 = s.events.mask2 ∧
      (∀ z : Fin 4, ¬ runs z → t.zone z = s.zone z) ∧
      (due → t.heat.stopFired = true ∧ t.eventCount .dwell = min 255 (s.eventCount .dwell + 1)) ∧
      (¬ due →
        (∀ z : Fin 4, runs z → ¬ faults z →
          t.zone z =
            if (s.zone z).state = .inBand then
              if holds z = true then s.zone z else { s.zone z with state := .outOfBand }
            else if (s.zone z).state = .standby then
              if t.lg.lineState = .running ∧ t.lg.hold = false ∧ t.trackFull = false ∧ t.lg.starve = false then
                { s.zone z with state := .warming, settle := none }
              else s.zone z
            else if holds z = false then { s.zone z with settle := none }
            else match (s.zone z).settle with
              | none => { s.zone z with settle := some 0 }
              | some e =>
                if limit z ≤ e + 100 then { s.zone z with state := .inBand, settle := none }
                else { s.zone z with settle := some (e + 100) }) ∧
        t.eventCount .dwell = s.eventCount .dwell ∧
        (let m := ((List.finRange 4).filter fun z => decide (rises z)).length
         t.eventCount .zone = if m = 0 then s.eventCount .zone else min 255 (s.eventCount .zone + m)) ∧
        (∀ k : Fin 32, t.status k = { s.status k with underSet := (t.status k).underSet } ∧
          ∀ z : Fin 4, (t.status k).underSet.getLsbD z.val = ((s.status k).underSet.getLsbD z.val ||
            decide (leaves z ∧ ((s.status k).state = .active ∨ (s.status k).state = .setting) ∧
              k ∈ s.panelSlots (s.overlapsZone z)))) ∧
        (t.heat.stopFired = if t.lg.reference ≠ 0 ∨ ∀ z : Fin 4, (t.zone z).state = .off then false
          else s.heat.stopFired) ∧
        t.heat.stopElapsed = if t.lg.reference ≠ 0 ∨ ∀ z : Fin 4, (t.zone z).state = .off then 0
          else if reference = 0 ∧ s.heat.stopFired = false then s.heat.stopElapsed + 100 else s.heat.stopElapsed) ∧
      (∀ k : Fin 32, t.panelOf k = s.panelOf k) ∧
      t = { s with slots := t.slots, lg := t.lg, rolls := t.rolls, heat := t.heat, events := t.events }

/-- SETTLE_COMPLETE: a zone in WARMING or OUT-OF-BAND whose settle timer has reached the recipe's settle time becomes
IN-BAND with the settle timer stopped, and otherwise nothing changes. STOP_TIMER_FIRE acts only when the stop timer is
due. It then sets the fired flag, raises DWELL, takes every zone in WARMING, IN-BAND or OUT-OF-BAND to STANDBY with
its settle timer stopped, raises ZONE once for each that was IN-BAND, marks OVER-DWELL on the panels in the chamber
and UNDER-SET on those in a zone that was IN-BAND; on a line that RUNS with no HOLD, TRACK-FULL or STARVE the zones
are WARMING at once. That the two rows act only where the timer still waits is the model's reading, log entry 15. -/
def Obligations.SettleAndStopTimersAct : Prop :=
  (∀ (s : State) (z : Fin 4) (r : Fin 8), (s.zone z).recipe = some r →
    let due := ((s.zone z).state = .warming ∨ (s.zone z).state = .outOfBand) ∧
      ∃ e ∈ (s.zone z).settle, (s.recipe r).settle * 1000 ≤ e
    exec (.settleComplete z) s = .next (
      if due then refresh { s with heat := { s.heat with
        zones := s.heat.zones.set z.val { s.zone z with state := .inBand, settle := none } z.isLt } }
      else s)) ∧
  ∀ s : State,
    let due := s.lg.reference = 0 ∧ (∃ z : Fin 4, (s.zone z).state ≠ .off) ∧ s.heat.stopFired = false ∧
      0 < s.stopLimit ∧ s.stopLimit * 1000 ≤ s.heat.stopElapsed
    (¬ due → exec .stopTimerFire s = .next s) ∧
    (due → Settled s → Completes (exec .stopTimerFire s) fun t =>
      let resumes := s.lg.lineState = .running ∧ s.lg.hold = false ∧ s.trackFull = false ∧ s.lg.starve = false
      let marked := fun k : Fin 32 => (s.status k).state = .active ∨ (s.status k).state = .setting
      t.heat = { s.heat with stopFired := true, zones := t.heat.zones } ∧
      (∀ z : Fin 4, t.zone z =
        if (s.zone z).state = .off ∨ (s.zone z).state = .fault then s.zone z
        else if resumes then { s.zone z with state := .warming, settle := none }
        else if (s.zone z).state = .standby then s.zone z
        else { s.zone z with state := .standby, settle := none }) ∧
      t.eventCount .dwell = min 255 (s.eventCount .dwell + 1) ∧
      (let m := ((List.finRange 4).filter fun z => decide ((s.zone z).state = .inBand)).length
       t.eventCount .zone = if m = 0 then s.eventCount .zone else min 255 (s.eventCount .zone + m)) ∧
      (∀ c : EventClass, c ≠ .dwell → c ≠ .zone → t.eventCount c = s.eventCount c) ∧
      (∀ k : Fin 32, t.panelOf k = s.panelOf k ∧
        t.status k = { s.status k with underSet := (t.status k).underSet, overDwell := (t.status k).overDwell } ∧
        (t.status k).overDwell = ((s.status k).overDwell ||
          decide (marked k ∧ k ∈ s.panelSlots s.overlapsChamber)) ∧
        ∀ z : Fin 4, (t.status k).underSet.getLsbD z.val = ((s.status k).underSet.getLsbD z.val ||
          decide ((s.zone z).state = .inBand ∧ marked k ∧ k ∈ s.panelSlots (s.overlapsZone z)))) ∧
      t = { s with slots := t.slots, heat := t.heat, events := t.events })

/-- The temperature of a zone and the header pressure are the average of the four values in the channel's filter,
rounded half up, and absent before the first; a controlled zone's effective setpoint is its recipe's standby setpoint
in STANDBY and its zone setpoint otherwise, and 0 without a recipe. CONTROL_STEP recomputes I and the duty of every
controlled zone with a temperature: e is setpoint minus T held within -2,000 to 2,000, P is e times Kp over 10, the
integral moves by e times Ki over 20 within 0 to 1,000 unless U = P + I is outside that range and e would take it
further out, and the duty is P + I held within 0 to 1,000. VALVE_BOUNDARY takes each duty as the on-time, 2 ms for
each thousandth, and opens the valves of those above 0. At the end of an on-time the valve closes, unless the on-time
is the whole 2,000 ms. Nothing else changes. That a zone with no temperature is left alone is the model's reading, log
entry 16. -/
def Obligations.ControlStepAndValves : Prop :=
  ∀ s : State,
    let average := fun f : Filter => (f.w + f.x + f.y + f.z + 2) / 4
    (∀ z : Fin 4, s.temperature z = (s.channel z).filter.map average) ∧ s.headerPressure = s.heat.pressure.map average ∧
    (∀ z : Fin 4, (s.zone z).recipe = none → s.effectiveSetpoint z = 0) ∧
    (∀ (z : Fin 4) (r : Fin 8), (s.zone z).recipe = some r → (s.zone z).state ≠ .off → (s.zone z).state ≠ .fault →
      s.effectiveSetpoint z =
        if (s.zone z).state = .standby then (s.recipe r).standby else (s.recipe r).setpoint z) ∧
    (Completes (exec .controlStep s) fun t =>
      (∀ z : Fin 4, t.zone z =
        if (s.zone z).state = .off ∨ (s.zone z).state = .fault then s.zone z
        else match s.temperature z with
          | none => s.zone z
          | some v =>
            let e : Int := max (-2000) (min 2000 ((s.effectiveSetpoint z : Int) - v))
            let p := (e * (s.zone z).kp).tdiv 10
            let u := p + (s.zone z).integral
            let i : Int :=
              if (0 ≤ u ∧ u ≤ 1000) ∨ (1000 < u ∧ e < 0) ∨ (u < 0 ∧ 0 < e) then
                max 0 (min 1000 ((s.zone z).integral + (e * (s.zone z).ki).tdiv 20))
              else (s.zone z).integral
            { s.zone z with integral := i.toNat, duty := (max 0 (min 1000 (p + i))).toNat }) ∧
      t = { s with heat := { s.heat with zones := t.heat.zones } }) ∧
    exec .valveBoundary s = .next { s with heat := { s.heat with zones := s.heat.zones.map fun zn =>
      { zn with onTime := 2 * zn.duty, valveOpen := decide (0 < zn.duty) } } } ∧
    ∀ z : Fin 4,
      let shut := { s.zone z with valveOpen := (s.zone z).valveOpen && decide (2000 ≤ (s.zone z).onTime) }
      exec (.valveOnTimeEnd z) s = .next { s with heat := { s.heat with zones := s.heat.zones.set z.val shut z.isLt } }

/-- HEAT-ON: REFUSED ROLL with no feeding roll, then STATE with a channel open, never converted, or at or above the
maximum temperature. With the heat switch on it changes nothing and answers marker and 0. Otherwise the switch is on,
every zone has the feeding roll's recipe, and each zone it uses is WARMING with settle timer stopped, I 0 and duty 0;
it answers the recipe and the set of WARMING zones. HEAT-OFF is never refused. With the heat switch off it changes
nothing; with it on the switch goes off, every zone becomes OFF with no recipe, no fault cause, duty 0, I 0, settle
timer stopped and valve closed, each zone that was IN-BAND raises ZONE and marks UNDER-SET, and the stop timer is 0
with its flag clear. What comes of the frame that carries a whole request is the model's choice, log entries 1 and 2.
At HEAT-OFF PS has nothing due, as after every step. -/
def Obligations.HeatOnAndHeatOffSwitchZones : Prop :=
  (∀ (src : Source) (s : State),
     let bad := ∃ z : Fin 4, (s.channel z).openCondition = true ∨ (s.channel z).filter = none ∨
       (s.limits.isSet = true ∧ s.limits.maxTemp ≤ (s.temperature z).getD 0)
     (s.feedingRecipe = none → exec (.heatOn src) s = .next (answered src .heatOn (no .roll 0) s)) ∧
     ∀ r : Fin 8, s.feedingRecipe = some r →
       let used := fun z : Fin 4 => (s.recipe r).setpoint z ≠ 0
       exec (.heatOn src) s = .next (
         if bad then answered src .heatOn (no .state 0) s
         else if s.heat.heatOn = true then answered src .heatOn (.done [255, 0]) s
         else answered src .heatOn
           (.done [BitVec.ofNat 8 r.val, BitVec.ofNat 8 (((List.finRange 4).map fun z =>
             if used z ∨ (s.zone z).state = .warming then 2 ^ z.val else 0).sum)])
           (refresh { s with heat := { s.heat with
             heatOn := true
             zones := Vector.ofFn fun z =>
               if used z then
                 { s.zone z with recipe := some r, state := .warming, settle := none, integral := 0, duty := 0 }
               else { s.zone z with recipe := some r } } }))) ∧
  ∀ (src : Source) (s : State),
    (s.heat.heatOn = false → exec (.heatOff src) s = .next (answered src .heatOff (.done []) s)) ∧
    (s.heat.heatOn = true → QuietPS s → Completes (exec (.heatOff src) s) fun t =>
      t.heat = { s.heat with heatOn := false, stopElapsed := 0, stopFired := false, zones := t.heat.zones } ∧
      (∀ z : Fin 4, t.zone z = { s.zone z with
        state := .off, recipe := none, settle := none, integral := 0, duty := 0, onTime := 0, valveOpen := false
        fault := none }) ∧
      (let m := ((List.finRange 4).filter fun z => decide ((s.zone z).state = .inBand)).length
       t.eventCount .zone = if m = 0 then s.eventCount .zone else min 255 (s.eventCount .zone + m)) ∧
      (∀ c : EventClass, c ≠ .zone → c ≠ .patternLow → t.eventCount c = s.eventCount c) ∧
      (∀ k : Fin 32, t.panelOf k = s.panelOf k ∧
        t.status k = { s.status k with underSet := (t.status k).underSet } ∧
        ∀ z : Fin 4, (t.status k).underSet.getLsbD z.val = ((s.status k).underSet.getLsbD z.val ||
          decide ((s.zone z).state = .inBand ∧ ((s.status k).state = .active ∨ (s.status k).state = .setting) ∧
            k ∈ s.panelSlots (s.overlapsZone z)))) ∧
      t = { s with
        slots := t.slots, lg := t.lg, heat := t.heat, events := t.events
        link := (answered src .heatOff (.done []) s).link })

/-- A recipe switch of one zone. It does nothing with the heat switch off or to the recipe the zone has. Otherwise the
zone takes the recipe: a used zone goes OFF to WARMING with duty and I 0, IN-BAND to OUT-OF-BAND, and restarts its
settle timer from rest in WARMING and OUT-OF-BAND; an unused one goes OFF with duty 0, I 0 and valve closed; FAULT
keeps the rest. Leaving IN-BAND raises ZONE. The reference is held under the new ceiling at once, except during a
freeze. The stop timer then fires where its time stands at or above its new limit, and otherwise the other zones stay.
That the ceiling and the stop timer act at the switch is the model's reading, log entry 12. -/
def Obligations.RecipeSwitchFollowsItsTable : Prop :=
  ∀ (z : Fin 4) (r : Fin 8) (s : State),
    let t := switchZone z r s
    let old := s.zone z
    let used := (s.recipe r).setpoint z ≠ 0
    let above := s.lg.freeze = none ∧ t.ceiling < s.lg.reference
    let reference := if above then t.ceiling else s.lg.reference
    let fires := reference = 0 ∧ s.heat.stopFired = false ∧ 0 < t.stopLimit ∧
      t.stopLimit * 1000 ≤ s.heat.stopElapsed ∧ ∃ y : Fin 4, (t.zone y).state ≠ .off
    (s.heat.heatOn = false ∨ old.recipe = some r → t = s) ∧
    (s.heat.heatOn = true → old.recipe ≠ some r →
      (t.zone z).recipe = some r ∧
      (fires → t.heat.stopFired = true ∧ t.eventCount .dwell = min 255 (s.eventCount .dwell + 1)) ∧
      (¬ fires →
        t.zone z =
          (if old.state = .fault then { old with recipe := some r }
          else if used then
            if old.state = .off then
              { old with recipe := some r, state := .warming, settle := none, integral := 0, duty := 0 }
            else if old.state = .standby then { old with recipe := some r }
            else if old.state = .inBand then { old with recipe := some r, state := .outOfBand, settle := none }
            else { old with recipe := some r, settle := none }
          else if old.state = .off then { old with recipe := some r }
          else { old with
            recipe := some r, state := .off, settle := none, integral := 0, duty := 0, onTime := 0
            valveOpen := false }) ∧
        (∀ y : Fin 4, y ≠ z → t.zone y = s.zone y) ∧
        t.eventCount .zone = (if old.state = .inBand then min 255 (s.eventCount .zone + 1) else s.eventCount .zone) ∧
        ∀ k : Fin 32, t.status k = { s.status k with underSet := (t.status k).underSet } ∧
          ((t.status k).underSet = if old.state = .inBand ∧
              ((s.status k).state = .active ∨ (s.status k).state = .setting) ∧ k ∈ s.panelSlots (s.overlapsZone z) then
            (s.status k).underSet ||| BitVec.twoPow 4 z.val else (s.status k).underSet))) ∧
    (s.heat.heatOn = true → old.recipe ≠ some r → t.lg = { s.lg with
      reference := reference
      lineState := if above ∧ t.ceiling = 0 ∧ s.lg.lineState = .stopping then .stopped else s.lg.lineState }) ∧
    t = { s with slots := t.slots, lg := t.lg, heat := t.heat, events := t.events }

/-! ### Configuration -/

/-- SET-LIMITS is REFUSED LOCKED once the limits are set, then RANGE for the first field out of range, and otherwise
sets them for good and answers them. SET-ZONE-TUNING is REFUSED RANGE for the first field out of range, and otherwise
replaces Kp and Ki of the zone named, 1 to 4, and answers all three. SET-RECIPE, in its order of checks: NOLIMITS,
RANGE for the index, INUSE for a recipe that a zone, a mounted roll, the seam in flight or a SEAM record names, RANGE
for the first field out of range, RANGE 9 where Dmax is shorter than Dmin after the adjustments. Otherwise the recipe
is stored with its setpoints held under the maximum temperature and Dmin raised to the minimum dwell, and the reply is
the stored recipe and the set of fields adjusted. What comes of the frame that carries a whole request is the model's
choice, log entries 1 and 2. -/
def Obligations.LimitsTuningAndRecipesAreChecked : Prop :=
  ((∀ (src : Source) (maxTemp maxSpeed minDwell : Nat) (s : State),
     let say := answered src (.setLimits maxTemp maxSpeed minDwell)
     exec (.setLimits src maxTemp maxSpeed minDwell) s = .next (
       if s.limits.isSet = true then say (no .locked 0) s
       else if ¬ (500 ≤ maxTemp ∧ maxTemp ≤ 2500) then say (no .range 1) s
       else if ¬ (100 ≤ maxSpeed ∧ maxSpeed ≤ 6000) then say (no .range 2) s
       else if ¬ (10 ≤ minDwell ∧ minDwell ≤ 6000) then say (no .range 3) s
       else say (.done (bytesOf 2 maxTemp ++ bytesOf 2 maxSpeed ++ bytesOf 2 minDwell)) (refresh { s with
         limits := { isSet := true, maxTemp := maxTemp, maxSpeed := maxSpeed, minDwell := minDwell } }))) ∧
   ∀ (src : Source) (zone kp ki : Nat) (s : State),
     let say := answered src (.setZoneTuning zone kp ki)
     let z : Fin 4 := Fin.ofNat 4 (zone - 1)
     exec (.setZoneTuning src zone kp ki) s = .next (
       if zone = 0 ∨ 4 < zone then say (no .range 1) s
       else if 1000 < kp then say (no .range 2) s
       else if 100 < ki then say (no .range 3) s
       else say (.done (bytesOf 1 zone ++ bytesOf 2 kp ++ bytesOf 1 ki)) { s with
         heat := { s.heat with zones := s.heat.zones.set z.val { s.zone z with kp := kp, ki := ki } z.isLt } })) ∧
  ∀ (src : Source) (r : RecipeFields) (s : State),
    let i : Fin 8 := Fin.ofNat 8 r.index
    let top := s.limits.maxTemp
    let dmin := max r.dmin s.limits.minDwell
    let stored : Recipe :=
      { setpoints := #v[min r.setpoint1 top, min r.setpoint2 top, min r.setpoint3 top, min r.setpoint4 top]
        band := r.band, standby := min r.standby top, dmin := dmin, dmax := r.dmax, minPressure := r.minPressure
        settle := r.settle }
    let inUse := (∃ z : Fin 4, (s.zone z).recipe = some i) ∨
      (s.rolls.a.state ≠ .empty ∧ s.rolls.a.recipe = i) ∨ (s.rolls.b.state ≠ .empty ∧ s.rolls.b.recipe = i) ∨
      (∃ m ∈ s.rolls.seam, m.recipe = i) ∨ ∃ x ∈ s.tu.records, seamNames i x = true
    let fields : List (Nat × Nat × Nat × Nat) :=
      [(2, 0, 2500, r.setpoint1), (3, 0, 2500, r.setpoint2), (4, 0, 2500, r.setpoint3), (5, 0, 2500, r.setpoint4),
        (6, 5, 200, r.band), (7, 0, 2500, r.standby), (8, 10, 6000, r.dmin), (9, 10, 3600, r.dmax),
        (10, 0, 1000, r.minPressure), (11, 1, 120, r.settle)]
    let wrong := (fields.find? fun f => decide (f.2.2.2 < f.2.1 ∨ f.2.2.1 < f.2.2.2)).map (·.1)
    let bit := fun (k : Nat) (b : Bool) => if b then 2 ^ k else 0
    let adjusted := bit 0 (top < r.setpoint1) + bit 1 (top < r.setpoint2) + bit 2 (top < r.setpoint3) +
      bit 3 (top < r.setpoint4) + bit 5 (top < r.standby) + bit 6 (r.dmin < s.limits.minDwell)
    let say := answered src (.setRecipe r)
    (s.limits.isSet = false → exec (.setRecipe src r) s = .next (say (no .noLimits 0) s)) ∧
    (s.limits.isSet = true → 8 ≤ r.index → exec (.setRecipe src r) s = .next (say (no .range 1) s)) ∧
    (s.limits.isSet = true → r.index < 8 → inUse → exec (.setRecipe src r) s = .next (say (no .inUse 0) s)) ∧
    (s.limits.isSet = true → r.index < 8 → ¬ inUse →
      (∀ n, wrong = some n → exec (.setRecipe src r) s = .next (say (no .range n) s)) ∧
      (wrong = none → r.dmax * 10 < dmin → exec (.setRecipe src r) s = .next (say (no .range 9) s)) ∧
      (wrong = none → dmin ≤ r.dmax * 10 → top < 65536 → s.limits.minDwell < 65536 →
        exec (.setRecipe src r) s = .next (say
          (.done (bytesOf 1 r.index ++ ((List.finRange 4).map fun z => bytesOf 2 (stored.setpoint z)).flatten ++
            bytesOf 1 r.band ++ bytesOf 2 (min r.standby top) ++ bytesOf 2 dmin ++ bytesOf 2 r.dmax ++
            bytesOf 2 r.minPressure ++ bytesOf 1 r.settle ++ bytesOf 1 adjusted))
          (refresh { s with heat := { s.heat with recipes := s.heat.recipes.set i.val stored i.isLt } }))))

/-- The checks of SET-GEOMETRY: the first that fails names the field refused. The ranges come first in field order,
then the three conversions that must give a count, then the orderings of the table, in millimetres or in counts. The
pleat checks of LOAD-PANEL, on pleat 0 and then on the last: face width within 200 to 10,000, fold depth within 100 to
6,000 for all but FLAT, take-up ratio at most 6,000, and the first stroke of the pleat at least the minimum pitch for
all but FLAT. -/
def Obligations.GeometryAndPleatChecksInOrder : Prop :=
  (∀ g : GeometryFields,
     let ranges : List (Nat × Nat × Nat) :=
       [(4000, 131072, g.s), (4000, 131072, g.sb), (0, 1, g.webSense), (0, 1, g.beltSense), (100, 20000, g.ms),
         (200, 60000, g.h), (1, 1000, g.reverseLimit), (100, 100000, g.commitHorizon), (50, 5000, g.minPitch),
         (10, 2000, g.bladeSlow), (20, 5000, g.bladeTimeout), (10, 5000, g.minBar), (20, 10000, g.wideThreshold),
         (50, 50000, g.groupGap), (1, 200, g.rampStep), (1, 500, g.tripRampStep), (1000, 400000, g.infeedSteps),
         (1000, 400000, g.beltSteps), (100, 100000, g.starveThreshold), (0, 50000, g.starveHysteresis),
         (0, 60000, g.ce), (0, 60000, g.zs1), (0, 60000, g.ze1), (0, 60000, g.zs2), (0, 60000, g.ze2),
         (0, 60000, g.zs3), (0, 60000, g.ze3), (0, 60000, g.zs4), (0, 60000, g.ze4), (1, 60000, g.cx),
         (1, 100000, g.takeOff), (500, 15000, g.dArm), (400, 15000, g.dLast), (300, 15000, g.dCore),
         (0, 100000, g.seamMargin), (0, 100000, g.armLead), (100, 30000, g.pasteTimeout), (100, 30000, g.cutTimeout)]
     let mm := fun x : Nat => (x * g.s + 500) / 1000
     let hundredths := fun x : Nat => (x * g.s + 50000) / 100000
     let belt := fun x : Nat => (x * g.sb + 500) / 1000
     let checks : List (Nat × Bool) :=
       ranges.mapIdx (fun i x => (i + 1, decide (x.1 ≤ x.2.2 ∧ x.2.2 ≤ x.2.1))) ++ [(7, decide (1 ≤ mm g.reverseLimit)), (9, decide (1 ≤ hundredths g.minPitch)), (12, decide (1 ≤ hundredths g.minBar)),
         (11, decide (g.bladeSlow < g.bladeTimeout)), (13, decide (hundredths g.minBar < hundredths g.wideThreshold)),
         (14, decide (hundredths g.wideThreshold < hundredths g.groupGap)), (6, decide (mm g.ms < mm g.h)),
         (22, decide (g.ce ≤ g.zs1)), (23, decide (g.zs1 ≤ g.ze1)), (24, decide (g.ze1 ≤ g.zs2)), (25, decide (g.zs2 ≤ g.ze2)), (26, decide (g.ze2 ≤ g.zs3)),
         (27, decide (g.zs3 ≤ g.ze3)), (28, decide (g.ze3 ≤ g.zs4)), (29, decide (g.zs4 ≤ g.ze4)), (30, decide (g.ze4 ≤ g.cx)), (30, decide (g.ce < g.cx)),
         (31, decide (belt g.cx < belt g.takeOff)), (33, decide (g.dCore < g.dLast)), (32, decide (g.dLast < g.dArm))]
     geometryRefusal g = (checks.find? fun c => !c.2).map (·.1)) ∧
  ∀ (p : PanelRecord) (g : GeometryFields) (i : Nat),
    let f : Int := p.f0 + i * p.df
    let d : Int := p.d0 + i * p.dd
    let l := if p.kind = .knife then f + 2 * d else if p.kind = .box then f + 4 * d else f
    let q := (1000 * l.toNat + f.toNat / 2) / f.toNat
    let stroke := if p.kind = .box then l.toNat / 2 else l.toNat
    pleatFailure p g i =
      (if f < 200 ∨ 10000 < f then some 1
      else if p.kind ≠ .flat ∧ (d < 100 ∨ 6000 < d) then some 2
      else if 6000 < q then some 3
      else if p.kind ≠ .flat ∧ stroke * g.s / 100000 < (g.minPitch * g.s + 50000) / 100000 then some 4
      else none) ∧
    pleatRefusal p g =
      (match pleatFailure p g 0 with
      | some c => some (c, 0)
      | none => match pleatFailure p g (p.pleats - 1) with
        | some c => some (c, p.pleats - 1)
        | none => none)

/-- SET-GEOMETRY is REFUSED STATE unless the line is UNCONFIGURED or STOPPED, or TRIPPED at reference 0, with every
slot FREE or DONE and the tracking queue empty; then RANGE for the field its checks name. Otherwise the geometry is
replaced whole and valid, UNCONFIGURED becomes STOPPED, RU's bar, marks and last mark go, the last revolution counts
and the plan go, and REVERSE is reported where the deficit is already over the new reverse limit; the reply is the
geometry. What comes of the frame that carries a whole request is the model's choice, log entries 1 and 2. -/
def Obligations.SetGeometryReplacesGeometry : Prop :=
  ∀ (src : Source) (g : GeometryFields) (s : State),
    let admits := (s.lg.lineState = .unconfigured ∨ s.lg.lineState = .stopped ∨
        (s.lg.lineState = .tripped ∧ s.lg.reference = 0)) ∧
      (∀ k : Fin 32, (s.status k).state = .free ∨ (s.status k).state = .done) ∧ s.tu.records = []
    let say := answered src (.setGeometry g)
    let y := { s with
      geometry := { valid := true, given := g }
      lg := { s.lg with lineState := if s.lg.lineState = .unconfigured then .stopped else s.lg.lineState }
      ru := { s.ru with bar := if s.inputs.mark then .waitLight else .idle, marks := [], lastMark := none }
      rolls := { s.rolls with
        a := { s.rolls.a with lastRev := none }, b := { s.rolls.b with lastRev := none }, plan := none } }
    (¬ admits → exec (.setGeometry src g) s = .next (say (no .state 0) s)) ∧
    (admits →
      (∀ n, geometryRefusal g = some n → exec (.setGeometry src g) s = .next (say (no .range n) s)) ∧
      (geometryRefusal g = none → exec (.setGeometry src g) s = .next (say (.done (geometryPayload g))
        (refresh (if (g.reverseLimit * g.s + 500) / 1000 < s.pc.highWater - s.pc.webPosition then
          reportCause .reverse y else y)))))

/-! ### The rolls and the splice -/

/-- A revolution marker edge of the feeding roll. It captures the web position. The first, one with no web gone by,
and one whose count is over 33/32 of the last give no estimate. Any other count becomes the last and gives the
diameter, held at 15,000. At D_core or below the roll is SPENT and ROLL-OUT reported; else at D_arm or below a RUNNING
roll is LOW, with ROLL-LOW, and a LOADED roll beside it SPINNING; and a LOW roll that falls to D_last calls for a
forced splice with no splice in flight, which fires with the other roll MATCHED, no seam in flight and the line not
TRIPPED, and reports ROLL-OUT otherwise. PS has nothing due, as after every step, and the command carries the
microseconds passed, the model's choice, log entry 8. -/
def Obligations.FeedingMarkerEstimatesDiameter : Prop :=
  ∀ (u : UnwindId) (elapsed : Nat) (s : State), QuietPS s → RollInv s → s.geometry.valid = true →
    (s.unwind u).state = .running ∨ (s.unwind u).state = .low →
    let g := s.geometry.given
    let old := s.unwind u
    let other := s.unwind (otherStand u)
    let w := s.pc.webPosition
    let captured := refresh (modifyUnwind u (fun v => { v with lastCapture := some w })
      { s with rolls := { s.rolls with microTimer := s.rolls.microTimer + elapsed } })
    (old.lastCapture = none → exec (.revolutionMarkerEdge u elapsed) s = .next captured) ∧
    ∀ c, old.lastCapture = some c →
      let n := w - c
      let est := (n * 1130000 + 355 * g.s / 2) / (355 * g.s)
      let low := old.state = .low ∨ est ≤ g.dArm
      let calls := g.dCore < est ∧ low ∧ g.dLast < old.diameter ∧ est ≤ g.dLast ∧ s.rolls.splice = none
      let fires := s.lg.lineState ≠ .tripped ∧ s.rolls.seam = none ∧ other.state = .matched
      (w ≤ c ∨ (∃ l ∈ old.lastRev, l * 33 < n * 32) → exec (.revolutionMarkerEdge u elapsed) s = .next captured) ∧
      (c < w → (∀ l ∈ old.lastRev, n * 32 ≤ l * 33) →
        Completes (exec (.revolutionMarkerEdge u elapsed) s) fun t =>
          t.unwind u = { old with
            lastCapture := some w, lastRev := some n, diameter := min est 15000
            state := if est ≤ g.dCore then .spent else if low then .low else .running } ∧
          t.rolls.microTimer = s.rolls.microTimer + elapsed ∧ t.rolls.seam = s.rolls.seam ∧
          t.eventCount .rollLow = (if old.state = .running ∧ est ≤ g.dArm then min 255 (s.eventCount .rollLow + 1)
            else s.eventCount .rollLow) ∧
          (est ≤ g.dCore ∨ (calls ∧ ¬ fires) → t.lg.lineState = .tripped ∧ t.holdsCause .rollOut = true) ∧
          (calls → fires → t.rolls.splice = some
              { new := otherStand u, kind := .forced, position := w, phase := .paste, time := 0
                timeout := g.pasteTimeout, overdue := false } ∧
            t.rolls.plan = none ∧ t.unwind (otherStand u) = { other with state := .pasting, matchCount := 0 } ∧
            t.lg.freeze = some (s.lg.freeze.getD s.lg.reference)) ∧
          (g.dCore < est → ¬ calls → t.rolls.splice = s.rolls.splice ∧ t.lg.primary = s.lg.primary) ∧
          (est ≤ g.dCore → other.state = .spinning ∨ other.state = .matched →
            t.unwind (otherStand u) = { other with state := .loaded, matchCount := 0 }) ∧
          (g.dCore < est → ¬ (calls ∧ fires) → t.unwind (otherStand u) =
            if old.state = .running ∧ est ≤ g.dArm ∧ other.state = .loaded then
              { other with state := .spinning, lastCapture := none, matchCount := 0 }
            else other))

/-- A revolution marker edge of the spinning roll, and of any other. In SPINNING and MATCHED it captures the time; the
first judges nothing, and one at the time of the last capture is ignored. A later one passes where the surface speed
from the diameter and the time of the revolution lies within 1 in 100 of the infeed speed, which is not 0. Three
passes in a row make SPINNING MATCHED, three failures in a row MATCHED SPINNING, each from a match count of 0, and
planning is evaluated as the roll becomes MATCHED. With the geometry invalid, and in every other state but RUNNING and
LOW, only the microsecond timer goes on. The command carries the microseconds passed, the model's choice, log entry 8.
-/
def Obligations.SpinningMarkerJudgesRevolution : Prop :=
  ∀ (u : UnwindId) (elapsed : Nat) (s : State),
    let old := s.unwind u
    let now := s.rolls.microTimer + elapsed
    let y := { s with rolls := { s.rolls with microTimer := now } }
    let spinning := s.geometry.valid = true ∧ (old.state = .spinning ∨ old.state = .matched)
    let stays := s.geometry.valid = false ∨
      (old.state ≠ .running ∧ old.state ≠ .low ∧ old.state ≠ .spinning ∧ old.state ≠ .matched)
    (stays → exec (.revolutionMarkerEdge u elapsed) s = .next (refresh y)) ∧
    (spinning → old.lastCapture = none → exec (.revolutionMarkerEdge u elapsed) s =
      .next (refresh (modifyUnwind u (fun v => { v with lastCapture := some now }) y))) ∧
    (∀ c, old.lastCapture = some c → spinning → c = now →
      exec (.revolutionMarkerEdge u elapsed) s = .next (refresh y)) ∧
    ∀ c, old.lastCapture = some c → spinning → c < now →
      let tRev := now - c
      let speed := (old.diameter * 355000000 + 113 * tRev / 2) / (113 * tRev)
      let infeed := s.infeedSpeed
      let pass := infeed ≠ 0 ∧ 100 * speed ≤ 101 * infeed ∧ 99 * infeed ≤ 100 * speed
      let third := old.matchCount = 2
      let judged : Unwind := { old with
        lastCapture := some now
        state := if old.state = .spinning ∧ pass ∧ third then .matched
          else if old.state = .matched ∧ ¬ pass ∧ third then .spinning else old.state
        matchCount := if old.state = .spinning ↔ pass then (if third then 0 else old.matchCount + 1) else 0 }
      let z := modifyUnwind u (fun _ => judged) y
      exec (.revolutionMarkerEdge u elapsed) s =
        .next (refresh (if old.state = .spinning ∧ pass ∧ third then evaluatePlanning z else z))

/-- PASTE-CONFIRM and CUT-CONFIRM act as the input becomes active; already active they change nothing, and outside
their phase they change the input alone. A paste confirmed ends phase PASTE: the old roll is CUTTING, the seam is in
flight at the web position plus H with the new roll's recipe, and phase CUT runs with its timeout. A cut confirmed
ends the splice: the new roll RUNNING, the old SPENT, with SPLICE-DONE and the end of the freeze where the cut was not
overdue. A paste timeout in phase PASTE abandons the splice: the new roll LOADED with no last capture and match count
0, SPLICE-FAIL raised, the freeze ended, and SPLICE-FAIL taken into the trip record. A cut timeout in phase CUT that
is not overdue makes it overdue with its time at the timeout, raises SPLICE-FAIL and takes it into the trip record,
with the splice kept. In any other state neither changes anything. PS has nothing due where a frame is given. What an
expiry or a confirm outside its phase does is the model's reading, log entries 7 and 10. -/
def Obligations.SpliceConfirmsAndTimeouts : Prop :=
  (∀ s : State,
     let pasted := { s with inputs := { s.inputs with pasteConfirm := true } }
     let cut := { s with inputs := { s.inputs with cutConfirm := true } }
     (s.inputs.pasteConfirm = true → exec .pasteConfirm s = .next s) ∧
     (s.inputs.cutConfirm = true → exec .cutConfirm s = .next s) ∧
     (s.inputs.pasteConfirm = false → (∀ r ∈ s.rolls.splice, r.phase = .cut) → exec .pasteConfirm s = .next pasted) ∧
     (s.inputs.cutConfirm = false → (∀ r ∈ s.rolls.splice, r.phase = .paste) → exec .cutConfirm s = .next cut) ∧
     ∀ r, s.rolls.splice = some r →
       (s.inputs.pasteConfirm = false → r.phase = .paste →
         let y := modifyUnwind (otherStand r.new) (fun u => { u with state := .cutting }) pasted
         exec .pasteConfirm s = .next (refresh { y with rolls := { y.rolls with
           seam := some { position := s.pc.webPosition + (s.geometry.given.h * s.geometry.given.s + 500) / 1000
                          recipe := (s.unwind r.new).recipe }
           splice := some { r with phase := .cut, time := 0, timeout := s.geometry.given.cutTimeout } } })) ∧
       (s.inputs.cutConfirm = false → r.phase = .cut → QuietPS s → Completes (exec .cutConfirm s) fun t =>
         t.rolls.splice = none ∧ t.rolls.seam = s.rolls.seam ∧ t.rolls.plan = s.rolls.plan ∧
         t.unwind r.new = { s.unwind r.new with state := .running, lastCapture := none, lastRev := none, matchCount := 0 } ∧
         t.unwind (otherStand r.new) = { s.unwind (otherStand r.new) with state := .spent } ∧
         t.inputs = cut.inputs ∧
         (r.overdue = true → t.eventCount .spliceDone = s.eventCount .spliceDone ∧ t.lg.freeze = s.lg.freeze ∧
           t.lg.hold = s.lg.hold ∧ t.lg.deferredStop = s.lg.deferredStop) ∧
         (r.overdue = false → t.eventCount .spliceDone = min 255 (s.eventCount .spliceDone + 1) ∧
           t.lg.freeze = none ∧ t.lg.hold = (if s.lg.freeze = none then s.lg.hold else s.inputs.takeOffHold) ∧
           (s.lg.freeze ≠ none → s.lg.deferredStop = true → s.lg.lineState = .running →
             t.lg.deferredStop = false ∧ t.lg.lineState = if t.lg.reference = 0 then .stopped else .stopping) ∧
           (s.lg.deferredStop = false → s.lg.lineState ≠ .stopping → t.lg.lineState = s.lg.lineState)) ∧
         t = { s with rolls := t.rolls, lg := t.lg, heat := t.heat, events := t.events, inputs := t.inputs })) ∧
  ∀ s : State,
    ((∀ r ∈ s.rolls.splice, r.phase = .cut) → exec .pasteTimeout s = .next s) ∧
    ((∀ r ∈ s.rolls.splice, r.phase = .paste ∨ r.overdue = true) → exec .cutTimeout s = .next s) ∧
    ∀ r, s.rolls.splice = some r →
      (r.phase = .paste → QuietPS s → Completes (exec .pasteTimeout s) fun t =>
        t.rolls = { s.rolls with a := t.rolls.a, b := t.rolls.b, splice := none, plan := t.rolls.plan } ∧
        t.unwind r.new = { s.unwind r.new with state := .loaded, lastCapture := none, matchCount := 0 } ∧
        t.unwind (otherStand r.new) = s.unwind (otherStand r.new) ∧
        t.eventCount .spliceFail = min 255 (s.eventCount .spliceFail + 1) ∧
        t.lg.freeze = none ∧ t.lg.lineState = .tripped ∧ t.holdsCause .spliceFail = true ∧
        (s.lg.lineState ≠ .tripped → t.lg.primary = some .spliceFail ∧ t.lg.further = 0 ∧ t.rolls.plan = none ∧
          t.eventCount .trip = min 255 (s.eventCount .trip + 1)) ∧
        t = { s with rolls := t.rolls, lg := t.lg, heat := t.heat, events := t.events }) ∧
      (r.phase = .cut → r.overdue = false → QuietPS s → Completes (exec .cutTimeout s) fun t =>
        t.rolls = { s.rolls with splice := some { r with overdue := true, time := r.timeout }, plan := t.rolls.plan } ∧
        t.eventCount .spliceFail = min 255 (s.eventCount .spliceFail + 1) ∧
        t.lg.lineState = .tripped ∧ t.holdsCause .spliceFail = true ∧
        (s.lg.lineState ≠ .tripped → t.lg.primary = some .spliceFail ∧ t.lg.further = 0 ∧ t.rolls.plan = none ∧
          t.lg.freeze = none ∧ t.eventCount .trip = min 255 (s.eventCount .trip + 1)) ∧
        t = { s with rolls := t.rolls, lg := t.lg, heat := t.heat, events := t.events })

/-- Planning is evaluated. With the geometry valid, the line not TRIPPED, one roll LOW and the other MATCHED, and no
plan, no splice and no seam in flight, a plan is made where the newest committed panel ends ahead of the web position,
the slot after it is QUEUED with a gap of at least twice the seam margin, and the target, the end plus half the gap,
lies at least H and the arm lead ahead; its fire position is the target less H. Otherwise nothing changes. -/
def Obligations.PlanningMakesOnePlan : Prop :=
  ∀ s : State,
    let g := s.geometry.given
    let mm := fun x : Nat => (x * g.s + 500) / 1000
    let may := s.geometry.valid = true ∧ s.lg.lineState ≠ .tripped ∧
      ((s.rolls.a.state = .low ∧ s.rolls.b.state = .matched) ∨
        (s.rolls.b.state = .low ∧ s.rolls.a.state = .matched)) ∧
      s.rolls.plan = none ∧ s.rolls.splice = none ∧ s.rolls.seam = none
    let gap := (s.status s.ps.commitPointer).gapCounts
    (¬ may ∨ s.ps.lastEnd = none → evaluatePlanning s = s) ∧
    ∀ e, s.ps.lastEnd = some e → may →
      let target := e + gap / 2
      evaluatePlanning s =
        if s.pc.webPosition < e ∧ (s.status s.ps.commitPointer).state = .queued ∧
            2 * ((g.seamMargin * g.s + 50000) / 100000) ≤ gap ∧ s.pc.webPosition + mm g.armLead + mm g.h ≤ target then
          { s with rolls := { s.rolls with
            plan := some { slot := s.ps.commitPointer - 1, slotAfter := s.ps.commitPointer, target := target,
                           fire := target - mm g.h } } }
        else s

/-- ROLL-READY, in its order of checks: RANGE 1 for the unwind, ROLL unless the stand is EMPTY, RANGE for the first
field out of range, ROLL for a threaded roll beside a feeding one, STATE for a threaded roll with the line RUNNING.
Otherwise the stand holds the roll: RUNNING if threaded, SPINNING beside a LOW roll, LOADED if not, captures absent
and match count 0, and planning is evaluated for a threaded one. ROLL-REMOVED: RANGE 1 for the unwind, ROLL unless
LOADED or SPENT; otherwise the stand is EMPTY with diameter and recipe 0 and no captures. What comes of the frame that
carries a whole request is the model's choice, log entries 1 and 2. That the match count stays is the model's reading,
log entry 18. -/
def Obligations.RollRequestsChangeStand : Prop :=
  (∀ (src : Source) (unwind diameter recipe threaded : Nat) (s : State),
    let say := answered src (.rollReady unwind diameter recipe threaded)
    let u : UnwindId := if unwind = 0 then .A else .B
    let other := (s.unwind (otherStand u)).state
    let state := if threaded = 1 then UnwindState.running else if other = .low then .spinning else .loaded
    let y := modifyUnwind u (fun _ =>
      { state := state, recipe := Fin.ofNat 8 recipe, diameter := diameter, lastCapture := none, lastRev := none
        matchCount := 0 }) s
    exec (.rollReady src unwind diameter recipe threaded) s = .next (
      if 1 < unwind then say (no .range 1) s
      else if (s.unwind u).state ≠ .empty then say (no .roll 0) s
      else if ¬ (500 ≤ diameter ∧ diameter ≤ 15000) then say (no .range 2) s
      else if 7 < recipe then say (no .range 3) s
      else if 1 < threaded then say (no .range 4) s
      else if threaded = 1 ∧ (other = .running ∨ other = .low) then say (no .roll 0) s
      else if threaded = 1 ∧ s.lg.lineState = .running then say (no .state 0) s
      else say (.done [if state = .running then 5 else if state = .spinning then 2 else 1])
        (refresh (if threaded = 1 then evaluatePlanning y else y)))) ∧
  ∀ (src : Source) (unwind : Nat) (s : State),
    let say := answered src (.rollRemoved unwind)
    let u : UnwindId := if unwind = 0 then .A else .B
    exec (.rollRemoved src unwind) s = .next (
      if 1 < unwind then say (no .range 1) s
      else if (s.unwind u).state ≠ .loaded ∧ (s.unwind u).state ≠ .spent then say (no .roll 0) s
      else say (.done []) (modifyUnwind u (fun v =>
        { v with state := .empty, recipe := 0, diameter := 0, lastCapture := none, lastRev := none }) s))

/-! ### The panel requests -/

/-- LOAD-PANEL, in its order of checks: NOGEOM, RANGE 0 for the slot, SLOT unless FREE, RANGE for the first field out
of range, GEOMETRY with the check and the pleat. Otherwise the slot is QUEUED with the panel as checked, its gap and
panel counts worked out and NOT-REQUIRED with no registration part, the reply gives both counts and their sum, and
planning is evaluated where the slot is at the commit pointer. The counts here fit their reply fields, as in every
geometry that can be set. CANCEL-PANEL frees a QUEUED slot that is not SEARCHING and RELEASE-PANEL a DONE one, with
the status record cleared and the panel record kept; a slot number over 31 is REFUSED RANGE, any other state SLOT.
What comes of the frame that carries a whole request is the model's choice, log entries 1 and 2. That planning is
evaluated before PS can take the slot just QUEUED is the model's choice, log entry 5; what PS takes and the blocks
report comes as the command ends, its reading, log entries 3 and 12. -/
def Obligations.PanelRequestsQueueAndFreeSlots : Prop :=
  (∀ (src : Source) (slot : Nat) (p : PanelFields) (s : State),
     let say := answered src (.loadPanel slot p)
     let k : Fin 32 := Fin.ofNat 32 slot
     let g := s.geometry.given
     let flat := p.kind = 2
     let part := p.registered = 1
     let checks : List (Nat × Bool) :=
       [(1, decide (p.garment ≤ 65535)), (2, decide (p.first ≤ 1)), (3, decide (p.last ≤ 1)),
         (4, decide (p.kind ≤ 2)), (5, decide (1 ≤ p.pleats ∧ p.pleats ≤ 255)),
         (6, decide (200 ≤ p.f0 ∧ p.f0 ≤ 10000)), (7, decide (flat ∨ (100 ≤ p.d0 ∧ p.d0 ≤ 6000))),
         (8, decide (-500 ≤ p.df ∧ p.df ≤ 500)), (9, decide (flat ∨ (-500 ≤ p.dd ∧ p.dd ≤ 500))),
         (10, decide (p.gap ≤ 200000)), (11, decide (p.direction ≤ 1)), (12, decide (p.registered ≤ 1)),
         (13, decide (¬ part ∨ p.entry ≤ 5)), (14, decide (¬ part ∨ p.offset ≤ 500000)),
         (15, decide (¬ part ∨ (1000 ≤ p.window ∧ p.window ≤ 1000000)))]
     let wrong := (checks.find? fun c => !c.2).map (·.1)
     let panel : PanelRecord :=
       { garment := p.garment
         first := decide (p.first = 1)
         last := decide (p.last = 1)
         kind := if p.kind = 0 then .knife else if p.kind = 1 then .box else .flat
         pleats := p.pleats
         f0 := p.f0
         d0 := if flat then 0 else p.d0
         df := p.df
         dd := if flat then 0 else p.dd
         gap := p.gap
         direction := if p.direction = 1 then .right else .left
         registration := if part then some { entry := Fin.ofNat 6 p.entry, offset := p.offset, window := p.window }
           else none }
     let gaps := (p.gap * g.s + 50000) / 100000
     let counts := panelCountsOf panel g.s
     let status := { clearedStatus with
       state := .queued, gapCounts := gaps, panelCounts := counts
       registration := if part then none else some .notRequired }
     let y := { s with slots := s.slots.set k.val { panel := panel, status := status } k.isLt }
     (s.geometry.valid = false → exec (.loadPanel src slot p) s = .next (say (no .noGeom 0) s)) ∧
     (s.geometry.valid = true → 32 ≤ slot → exec (.loadPanel src slot p) s = .next (say (no .range 0) s)) ∧
     (s.geometry.valid = true → slot < 32 → (s.status k).state ≠ .free →
       exec (.loadPanel src slot p) s = .next (say (no .slot 0) s)) ∧
     (s.geometry.valid = true → slot < 32 → (s.status k).state = .free →
       (∀ n, wrong = some n → exec (.loadPanel src slot p) s = .next (say (no .range n) s)) ∧
       (∀ x, pleatRefusal panel g = some x → wrong = none →
         exec (.loadPanel src slot p) s = .next (say (.refused .geometry [x.1, x.2]) s)) ∧
       (wrong = none → pleatRefusal panel g = none → gaps + counts < 16777216 →
         exec (.loadPanel src slot p) s = .next (say
           (.done (bytesOf 3 gaps ++ bytesOf 3 counts ++ bytesOf 3 (gaps + counts)))
           (refresh (if k = s.ps.commitPointer then evaluatePlanning y else y)))))) ∧
  ∀ (src : Source) (slot : Nat) (s : State),
    let k : Fin 32 := Fin.ofNat 32 slot
    let freed := refresh { s with
      slots := s.slots.set k.val { panel := s.panelOf k, status := clearedStatus } k.isLt }
    exec (.cancelPanel src slot) s = .next (
      if 31 < slot then answered src (.cancelPanel slot) (no .range 0) s
      else if (s.status k).state = .queued ∧ (s.status k).registration ≠ some .searching then
        answered src (.cancelPanel slot) (.done []) freed
      else answered src (.cancelPanel slot) (no .slot 0) s) ∧
    exec (.releasePanel src slot) s = .next (
      if 31 < slot then answered src (.releasePanel slot) (no .range 0) s
      else if (s.status k).state = .done then answered src (.releasePanel slot) (.done []) freed
      else answered src (.releasePanel slot) (no .slot 0) s)
end

