-- ==== Sys2Proof/Laws/State.lean ====
section
/-! SUPPORT. One lemma per field for each basic update of State: the fields an update leaves alone, and the accessors
that do not see it. -/

namespace Sys2Proof.Machine

/-! ### raise -/

@[simp] theorem raise_pc (c : EventClass) (s : State) : (raise c s).pc = s.pc := rfl
@[simp] theorem raise_geometry (c : EventClass) (s : State) : (raise c s).geometry = s.geometry := rfl
@[simp] theorem raise_limits (c : EventClass) (s : State) : (raise c s).limits = s.limits := rfl
@[simp] theorem raise_slots (c : EventClass) (s : State) : (raise c s).slots = s.slots := rfl
@[simp] theorem raise_ps (c : EventClass) (s : State) : (raise c s).ps = s.ps := rfl
@[simp] theorem raise_blade (c : EventClass) (s : State) : (raise c s).blade = s.blade := rfl
@[simp] theorem raise_ru (c : EventClass) (s : State) : (raise c s).ru = s.ru := rfl
@[simp] theorem raise_lg (c : EventClass) (s : State) : (raise c s).lg = s.lg := rfl
@[simp] theorem raise_tu (c : EventClass) (s : State) : (raise c s).tu = s.tu := rfl
@[simp] theorem raise_heat (c : EventClass) (s : State) : (raise c s).heat = s.heat := rfl
@[simp] theorem raise_rolls (c : EventClass) (s : State) : (raise c s).rolls = s.rolls := rfl
@[simp] theorem raise_link (c : EventClass) (s : State) : (raise c s).link = s.link := rfl
@[simp] theorem raise_inputs (c : EventClass) (s : State) : (raise c s).inputs = s.inputs := rfl
@[simp] theorem raise_pending (c : EventClass) (s : State) : (raise c s).pending = s.pending := rfl
@[simp] theorem raise_races (c : EventClass) (s : State) : (raise c s).races = s.races := rfl
@[simp] theorem raise_status (c : EventClass) (j : Fin 32) (s : State) :
    (raise c s).status j = s.status j := rfl
@[simp] theorem raise_panelOf (c : EventClass) (j : Fin 32) (s : State) :
    (raise c s).panelOf j = s.panelOf j := rfl
@[simp] theorem raise_zone (c : EventClass) (z' : Fin 4) (s : State) :
    (raise c s).zone z' = s.zone z' := rfl
@[simp] theorem raise_recipe (c : EventClass) (r' : Fin 8) (s : State) :
    (raise c s).recipe r' = s.recipe r' := rfl
@[simp] theorem raise_channel (c : EventClass) (z' : Fin 4) (s : State) :
    (raise c s).channel z' = s.channel z' := rfl
@[simp] theorem raise_unwind (c : EventClass) (u' : UnwindId) (s : State) :
    (raise c s).unwind u' = s.unwind u' := by cases u' <;> rfl
@[simp] theorem raise_station (c : EventClass) (s : State) :
    (raise c s).station = s.station := rfl
@[simp] theorem raise_oldestCommitted (c : EventClass) (s : State) :
    (raise c s).oldestCommitted = s.oldestCommitted := rfl

/-! ### setSlot -/

@[simp] theorem setSlot_pc (k : Fin 32) (x : Slot) (s : State) : (setSlot k x s).pc = s.pc := rfl
@[simp] theorem setSlot_geometry (k : Fin 32) (x : Slot) (s : State) : (setSlot k x s).geometry = s.geometry := rfl
@[simp] theorem setSlot_limits (k : Fin 32) (x : Slot) (s : State) : (setSlot k x s).limits = s.limits := rfl
@[simp] theorem setSlot_ps (k : Fin 32) (x : Slot) (s : State) : (setSlot k x s).ps = s.ps := rfl
@[simp] theorem setSlot_blade (k : Fin 32) (x : Slot) (s : State) : (setSlot k x s).blade = s.blade := rfl
@[simp] theorem setSlot_ru (k : Fin 32) (x : Slot) (s : State) : (setSlot k x s).ru = s.ru := rfl
@[simp] theorem setSlot_lg (k : Fin 32) (x : Slot) (s : State) : (setSlot k x s).lg = s.lg := rfl
@[simp] theorem setSlot_tu (k : Fin 32) (x : Slot) (s : State) : (setSlot k x s).tu = s.tu := rfl
@[simp] theorem setSlot_heat (k : Fin 32) (x : Slot) (s : State) : (setSlot k x s).heat = s.heat := rfl
@[simp] theorem setSlot_rolls (k : Fin 32) (x : Slot) (s : State) : (setSlot k x s).rolls = s.rolls := rfl
@[simp] theorem setSlot_link (k : Fin 32) (x : Slot) (s : State) : (setSlot k x s).link = s.link := rfl
@[simp] theorem setSlot_events (k : Fin 32) (x : Slot) (s : State) : (setSlot k x s).events = s.events := rfl
@[simp] theorem setSlot_inputs (k : Fin 32) (x : Slot) (s : State) : (setSlot k x s).inputs = s.inputs := rfl
@[simp] theorem setSlot_pending (k : Fin 32) (x : Slot) (s : State) : (setSlot k x s).pending = s.pending := rfl
@[simp] theorem setSlot_races (k : Fin 32) (x : Slot) (s : State) : (setSlot k x s).races = s.races := rfl
@[simp] theorem setSlot_zone (k : Fin 32) (x : Slot) (z' : Fin 4) (s : State) :
    (setSlot k x s).zone z' = s.zone z' := rfl
@[simp] theorem setSlot_recipe (k : Fin 32) (x : Slot) (r' : Fin 8) (s : State) :
    (setSlot k x s).recipe r' = s.recipe r' := rfl
@[simp] theorem setSlot_channel (k : Fin 32) (x : Slot) (z' : Fin 4) (s : State) :
    (setSlot k x s).channel z' = s.channel z' := rfl
@[simp] theorem setSlot_unwind (k : Fin 32) (x : Slot) (u' : UnwindId) (s : State) :
    (setSlot k x s).unwind u' = s.unwind u' := by cases u' <;> rfl
@[simp] theorem setSlot_eventCount (k : Fin 32) (x : Slot) (c' : EventClass) (s : State) :
    (setSlot k x s).eventCount c' = s.eventCount c' := rfl
@[simp] theorem setSlot_station (k : Fin 32) (x : Slot) (s : State) :
    (setSlot k x s).station = s.station := rfl

/-! ### modifyStatus -/

@[simp] theorem modifyStatus_pc (k : Fin 32) (f : SlotStatus → SlotStatus) (s : State) : (modifyStatus k f s).pc = s.pc := rfl
@[simp] theorem modifyStatus_geometry (k : Fin 32) (f : SlotStatus → SlotStatus) (s : State) : (modifyStatus k f s).geometry = s.geometry := rfl
@[simp] theorem modifyStatus_limits (k : Fin 32) (f : SlotStatus → SlotStatus) (s : State) : (modifyStatus k f s).limits = s.limits := rfl
@[simp] theorem modifyStatus_ps (k : Fin 32) (f : SlotStatus → SlotStatus) (s : State) : (modifyStatus k f s).ps = s.ps := rfl
@[simp] theorem modifyStatus_blade (k : Fin 32) (f : SlotStatus → SlotStatus) (s : State) : (modifyStatus k f s).blade = s.blade := rfl
@[simp] theorem modifyStatus_ru (k : Fin 32) (f : SlotStatus → SlotStatus) (s : State) : (modifyStatus k f s).ru = s.ru := rfl
@[simp] theorem modifyStatus_lg (k : Fin 32) (f : SlotStatus → SlotStatus) (s : State) : (modifyStatus k f s).lg = s.lg := rfl
@[simp] theorem modifyStatus_tu (k : Fin 32) (f : SlotStatus → SlotStatus) (s : State) : (modifyStatus k f s).tu = s.tu := rfl
@[simp] theorem modifyStatus_heat (k : Fin 32) (f : SlotStatus → SlotStatus) (s : State) : (modifyStatus k f s).heat = s.heat := rfl
@[simp] theorem modifyStatus_rolls (k : Fin 32) (f : SlotStatus → SlotStatus) (s : State) : (modifyStatus k f s).rolls = s.rolls := rfl
@[simp] theorem modifyStatus_link (k : Fin 32) (f : SlotStatus → SlotStatus) (s : State) : (modifyStatus k f s).link = s.link := rfl
@[simp] theorem modifyStatus_events (k : Fin 32) (f : SlotStatus → SlotStatus) (s : State) : (modifyStatus k f s).events = s.events := rfl
@[simp] theorem modifyStatus_inputs (k : Fin 32) (f : SlotStatus → SlotStatus) (s : State) : (modifyStatus k f s).inputs = s.inputs := rfl
@[simp] theorem modifyStatus_pending (k : Fin 32) (f : SlotStatus → SlotStatus) (s : State) : (modifyStatus k f s).pending = s.pending := rfl
@[simp] theorem modifyStatus_races (k : Fin 32) (f : SlotStatus → SlotStatus) (s : State) : (modifyStatus k f s).races = s.races := rfl
@[simp] theorem modifyStatus_zone (k : Fin 32) (f : SlotStatus → SlotStatus) (z' : Fin 4) (s : State) :
    (modifyStatus k f s).zone z' = s.zone z' := rfl
@[simp] theorem modifyStatus_recipe (k : Fin 32) (f : SlotStatus → SlotStatus) (r' : Fin 8) (s : State) :
    (modifyStatus k f s).recipe r' = s.recipe r' := rfl
@[simp] theorem modifyStatus_channel (k : Fin 32) (f : SlotStatus → SlotStatus) (z' : Fin 4) (s : State) :
    (modifyStatus k f s).channel z' = s.channel z' := rfl
@[simp] theorem modifyStatus_unwind (k : Fin 32) (f : SlotStatus → SlotStatus) (u' : UnwindId) (s : State) :
    (modifyStatus k f s).unwind u' = s.unwind u' := by cases u' <;> rfl
@[simp] theorem modifyStatus_eventCount (k : Fin 32) (f : SlotStatus → SlotStatus) (c' : EventClass) (s : State) :
    (modifyStatus k f s).eventCount c' = s.eventCount c' := rfl
@[simp] theorem modifyStatus_station (k : Fin 32) (f : SlotStatus → SlotStatus) (s : State) :
    (modifyStatus k f s).station = s.station := rfl

/-! ### modifyZone -/

@[simp] theorem modifyZone_pc (z : Fin 4) (f : Zone → Zone) (s : State) : (modifyZone z f s).pc = s.pc := rfl
@[simp] theorem modifyZone_geometry (z : Fin 4) (f : Zone → Zone) (s : State) : (modifyZone z f s).geometry = s.geometry := rfl
@[simp] theorem modifyZone_limits (z : Fin 4) (f : Zone → Zone) (s : State) : (modifyZone z f s).limits = s.limits := rfl
@[simp] theorem modifyZone_slots (z : Fin 4) (f : Zone → Zone) (s : State) : (modifyZone z f s).slots = s.slots := rfl
@[simp] theorem modifyZone_ps (z : Fin 4) (f : Zone → Zone) (s : State) : (modifyZone z f s).ps = s.ps := rfl
@[simp] theorem modifyZone_blade (z : Fin 4) (f : Zone → Zone) (s : State) : (modifyZone z f s).blade = s.blade := rfl
@[simp] theorem modifyZone_ru (z : Fin 4) (f : Zone → Zone) (s : State) : (modifyZone z f s).ru = s.ru := rfl
@[simp] theorem modifyZone_lg (z : Fin 4) (f : Zone → Zone) (s : State) : (modifyZone z f s).lg = s.lg := rfl
@[simp] theorem modifyZone_tu (z : Fin 4) (f : Zone → Zone) (s : State) : (modifyZone z f s).tu = s.tu := rfl
@[simp] theorem modifyZone_rolls (z : Fin 4) (f : Zone → Zone) (s : State) : (modifyZone z f s).rolls = s.rolls := rfl
@[simp] theorem modifyZone_link (z : Fin 4) (f : Zone → Zone) (s : State) : (modifyZone z f s).link = s.link := rfl
@[simp] theorem modifyZone_events (z : Fin 4) (f : Zone → Zone) (s : State) : (modifyZone z f s).events = s.events := rfl
@[simp] theorem modifyZone_inputs (z : Fin 4) (f : Zone → Zone) (s : State) : (modifyZone z f s).inputs = s.inputs := rfl
@[simp] theorem modifyZone_pending (z : Fin 4) (f : Zone → Zone) (s : State) : (modifyZone z f s).pending = s.pending := rfl
@[simp] theorem modifyZone_races (z : Fin 4) (f : Zone → Zone) (s : State) : (modifyZone z f s).races = s.races := rfl
@[simp] theorem modifyZone_status (z : Fin 4) (f : Zone → Zone) (j : Fin 32) (s : State) :
    (modifyZone z f s).status j = s.status j := rfl
@[simp] theorem modifyZone_panelOf (z : Fin 4) (f : Zone → Zone) (j : Fin 32) (s : State) :
    (modifyZone z f s).panelOf j = s.panelOf j := rfl
@[simp] theorem modifyZone_recipe (z : Fin 4) (f : Zone → Zone) (r' : Fin 8) (s : State) :
    (modifyZone z f s).recipe r' = s.recipe r' := rfl
@[simp] theorem modifyZone_channel (z : Fin 4) (f : Zone → Zone) (z' : Fin 4) (s : State) :
    (modifyZone z f s).channel z' = s.channel z' := rfl
@[simp] theorem modifyZone_unwind (z : Fin 4) (f : Zone → Zone) (u' : UnwindId) (s : State) :
    (modifyZone z f s).unwind u' = s.unwind u' := by cases u' <;> rfl
@[simp] theorem modifyZone_eventCount (z : Fin 4) (f : Zone → Zone) (c' : EventClass) (s : State) :
    (modifyZone z f s).eventCount c' = s.eventCount c' := rfl
@[simp] theorem modifyZone_station (z : Fin 4) (f : Zone → Zone) (s : State) :
    (modifyZone z f s).station = s.station := rfl
@[simp] theorem modifyZone_oldestCommitted (z : Fin 4) (f : Zone → Zone) (s : State) :
    (modifyZone z f s).oldestCommitted = s.oldestCommitted := rfl

/-! ### modifyUnwind -/

@[simp] theorem modifyUnwind_pc (u : UnwindId) (f : Unwind → Unwind) (s : State) : (modifyUnwind u f s).pc = s.pc := by cases u <;> rfl
@[simp] theorem modifyUnwind_geometry (u : UnwindId) (f : Unwind → Unwind) (s : State) : (modifyUnwind u f s).geometry = s.geometry := by cases u <;> rfl
@[simp] theorem modifyUnwind_limits (u : UnwindId) (f : Unwind → Unwind) (s : State) : (modifyUnwind u f s).limits = s.limits := by cases u <;> rfl
@[simp] theorem modifyUnwind_slots (u : UnwindId) (f : Unwind → Unwind) (s : State) : (modifyUnwind u f s).slots = s.slots := by cases u <;> rfl
@[simp] theorem modifyUnwind_ps (u : UnwindId) (f : Unwind → Unwind) (s : State) : (modifyUnwind u f s).ps = s.ps := by cases u <;> rfl
@[simp] theorem modifyUnwind_blade (u : UnwindId) (f : Unwind → Unwind) (s : State) : (modifyUnwind u f s).blade = s.blade := by cases u <;> rfl
@[simp] theorem modifyUnwind_ru (u : UnwindId) (f : Unwind → Unwind) (s : State) : (modifyUnwind u f s).ru = s.ru := by cases u <;> rfl
@[simp] theorem modifyUnwind_lg (u : UnwindId) (f : Unwind → Unwind) (s : State) : (modifyUnwind u f s).lg = s.lg := by cases u <;> rfl
@[simp] theorem modifyUnwind_tu (u : UnwindId) (f : Unwind → Unwind) (s : State) : (modifyUnwind u f s).tu = s.tu := by cases u <;> rfl
@[simp] theorem modifyUnwind_heat (u : UnwindId) (f : Unwind → Unwind) (s : State) : (modifyUnwind u f s).heat = s.heat := by cases u <;> rfl
@[simp] theorem modifyUnwind_link (u : UnwindId) (f : Unwind → Unwind) (s : State) : (modifyUnwind u f s).link = s.link := by cases u <;> rfl
@[simp] theorem modifyUnwind_events (u : UnwindId) (f : Unwind → Unwind) (s : State) : (modifyUnwind u f s).events = s.events := by cases u <;> rfl
@[simp] theorem modifyUnwind_inputs (u : UnwindId) (f : Unwind → Unwind) (s : State) : (modifyUnwind u f s).inputs = s.inputs := by cases u <;> rfl
@[simp] theorem modifyUnwind_pending (u : UnwindId) (f : Unwind → Unwind) (s : State) : (modifyUnwind u f s).pending = s.pending := by cases u <;> rfl
@[simp] theorem modifyUnwind_races (u : UnwindId) (f : Unwind → Unwind) (s : State) : (modifyUnwind u f s).races = s.races := by cases u <;> rfl
@[simp] theorem modifyUnwind_status (u : UnwindId) (f : Unwind → Unwind) (j : Fin 32) (s : State) :
    (modifyUnwind u f s).status j = s.status j := by cases u <;> rfl
@[simp] theorem modifyUnwind_panelOf (u : UnwindId) (f : Unwind → Unwind) (j : Fin 32) (s : State) :
    (modifyUnwind u f s).panelOf j = s.panelOf j := by cases u <;> rfl
@[simp] theorem modifyUnwind_zone (u : UnwindId) (f : Unwind → Unwind) (z' : Fin 4) (s : State) :
    (modifyUnwind u f s).zone z' = s.zone z' := by cases u <;> rfl
@[simp] theorem modifyUnwind_recipe (u : UnwindId) (f : Unwind → Unwind) (r' : Fin 8) (s : State) :
    (modifyUnwind u f s).recipe r' = s.recipe r' := by cases u <;> rfl
@[simp] theorem modifyUnwind_channel (u : UnwindId) (f : Unwind → Unwind) (z' : Fin 4) (s : State) :
    (modifyUnwind u f s).channel z' = s.channel z' := by cases u <;> rfl
@[simp] theorem modifyUnwind_eventCount (u : UnwindId) (f : Unwind → Unwind) (c' : EventClass) (s : State) :
    (modifyUnwind u f s).eventCount c' = s.eventCount c' := by cases u <;> rfl
@[simp] theorem modifyUnwind_station (u : UnwindId) (f : Unwind → Unwind) (s : State) :
    (modifyUnwind u f s).station = s.station := by cases u <;> rfl
@[simp] theorem modifyUnwind_oldestCommitted (u : UnwindId) (f : Unwind → Unwind) (s : State) :
    (modifyUnwind u f s).oldestCommitted = s.oldestCommitted := by cases u <;> rfl

/-! ### noteRace -/

@[simp] theorem noteRace_pc (s : State) : (noteRace s).pc = s.pc := rfl
@[simp] theorem noteRace_geometry (s : State) : (noteRace s).geometry = s.geometry := rfl
@[simp] theorem noteRace_limits (s : State) : (noteRace s).limits = s.limits := rfl
@[simp] theorem noteRace_slots (s : State) : (noteRace s).slots = s.slots := rfl
@[simp] theorem noteRace_ps (s : State) : (noteRace s).ps = s.ps := rfl
@[simp] theorem noteRace_blade (s : State) : (noteRace s).blade = s.blade := rfl
@[simp] theorem noteRace_ru (s : State) : (noteRace s).ru = s.ru := rfl
@[simp] theorem noteRace_lg (s : State) : (noteRace s).lg = s.lg := rfl
@[simp] theorem noteRace_tu (s : State) : (noteRace s).tu = s.tu := rfl
@[simp] theorem noteRace_heat (s : State) : (noteRace s).heat = s.heat := rfl
@[simp] theorem noteRace_rolls (s : State) : (noteRace s).rolls = s.rolls := rfl
@[simp] theorem noteRace_link (s : State) : (noteRace s).link = s.link := rfl
@[simp] theorem noteRace_events (s : State) : (noteRace s).events = s.events := rfl
@[simp] theorem noteRace_inputs (s : State) : (noteRace s).inputs = s.inputs := rfl
@[simp] theorem noteRace_pending (s : State) : (noteRace s).pending = s.pending := rfl
@[simp] theorem noteRace_status (j : Fin 32) (s : State) :
    (noteRace s).status j = s.status j := rfl
@[simp] theorem noteRace_panelOf (j : Fin 32) (s : State) :
    (noteRace s).panelOf j = s.panelOf j := rfl
@[simp] theorem noteRace_zone (z' : Fin 4) (s : State) :
    (noteRace s).zone z' = s.zone z' := rfl
@[simp] theorem noteRace_recipe (r' : Fin 8) (s : State) :
    (noteRace s).recipe r' = s.recipe r' := rfl
@[simp] theorem noteRace_channel (z' : Fin 4) (s : State) :
    (noteRace s).channel z' = s.channel z' := rfl
@[simp] theorem noteRace_unwind (u' : UnwindId) (s : State) :
    (noteRace s).unwind u' = s.unwind u' := by cases u' <;> rfl
@[simp] theorem noteRace_eventCount (c' : EventClass) (s : State) :
    (noteRace s).eventCount c' = s.eventCount c' := rfl
@[simp] theorem noteRace_station (s : State) :
    (noteRace s).station = s.station := rfl
@[simp] theorem noteRace_oldestCommitted (s : State) :
    (noteRace s).oldestCommitted = s.oldestCommitted := rfl

/-! ### setBar -/

@[simp] theorem setBar_pc (b : BarState) (s : State) : (setBar b s).pc = s.pc := rfl
@[simp] theorem setBar_geometry (b : BarState) (s : State) : (setBar b s).geometry = s.geometry := rfl
@[simp] theorem setBar_limits (b : BarState) (s : State) : (setBar b s).limits = s.limits := rfl
@[simp] theorem setBar_slots (b : BarState) (s : State) : (setBar b s).slots = s.slots := rfl
@[simp] theorem setBar_ps (b : BarState) (s : State) : (setBar b s).ps = s.ps := rfl
@[simp] theorem setBar_blade (b : BarState) (s : State) : (setBar b s).blade = s.blade := rfl
@[simp] theorem setBar_lg (b : BarState) (s : State) : (setBar b s).lg = s.lg := rfl
@[simp] theorem setBar_tu (b : BarState) (s : State) : (setBar b s).tu = s.tu := rfl
@[simp] theorem setBar_heat (b : BarState) (s : State) : (setBar b s).heat = s.heat := rfl
@[simp] theorem setBar_rolls (b : BarState) (s : State) : (setBar b s).rolls = s.rolls := rfl
@[simp] theorem setBar_link (b : BarState) (s : State) : (setBar b s).link = s.link := rfl
@[simp] theorem setBar_events (b : BarState) (s : State) : (setBar b s).events = s.events := rfl
@[simp] theorem setBar_inputs (b : BarState) (s : State) : (setBar b s).inputs = s.inputs := rfl
@[simp] theorem setBar_pending (b : BarState) (s : State) : (setBar b s).pending = s.pending := rfl
@[simp] theorem setBar_races (b : BarState) (s : State) : (setBar b s).races = s.races := rfl
@[simp] theorem setBar_status (b : BarState) (j : Fin 32) (s : State) :
    (setBar b s).status j = s.status j := rfl
@[simp] theorem setBar_panelOf (b : BarState) (j : Fin 32) (s : State) :
    (setBar b s).panelOf j = s.panelOf j := rfl
@[simp] theorem setBar_zone (b : BarState) (z' : Fin 4) (s : State) :
    (setBar b s).zone z' = s.zone z' := rfl
@[simp] theorem setBar_recipe (b : BarState) (r' : Fin 8) (s : State) :
    (setBar b s).recipe r' = s.recipe r' := rfl
@[simp] theorem setBar_channel (b : BarState) (z' : Fin 4) (s : State) :
    (setBar b s).channel z' = s.channel z' := rfl
@[simp] theorem setBar_unwind (b : BarState) (u' : UnwindId) (s : State) :
    (setBar b s).unwind u' = s.unwind u' := by cases u' <;> rfl
@[simp] theorem setBar_eventCount (b : BarState) (c' : EventClass) (s : State) :
    (setBar b s).eventCount c' = s.eventCount c' := rfl
@[simp] theorem setBar_station (b : BarState) (s : State) :
    (setBar b s).station = s.station := rfl
@[simp] theorem setBar_oldestCommitted (b : BarState) (s : State) :
    (setBar b s).oldestCommitted = s.oldestCommitted := rfl

/-! ### setRecords -/

@[simp] theorem setRecords_pc (rs : List TrackRecord) (s : State) : (setRecords rs s).pc = s.pc := rfl
@[simp] theorem setRecords_geometry (rs : List TrackRecord) (s : State) : (setRecords rs s).geometry = s.geometry := rfl
@[simp] theorem setRecords_limits (rs : List TrackRecord) (s : State) : (setRecords rs s).limits = s.limits := rfl
@[simp] theorem setRecords_slots (rs : List TrackRecord) (s : State) : (setRecords rs s).slots = s.slots := rfl
@[simp] theorem setRecords_ps (rs : List TrackRecord) (s : State) : (setRecords rs s).ps = s.ps := rfl
@[simp] theorem setRecords_blade (rs : List TrackRecord) (s : State) : (setRecords rs s).blade = s.blade := rfl
@[simp] theorem setRecords_ru (rs : List TrackRecord) (s : State) : (setRecords rs s).ru = s.ru := rfl
@[simp] theorem setRecords_lg (rs : List TrackRecord) (s : State) : (setRecords rs s).lg = s.lg := rfl
@[simp] theorem setRecords_heat (rs : List TrackRecord) (s : State) : (setRecords rs s).heat = s.heat := rfl
@[simp] theorem setRecords_rolls (rs : List TrackRecord) (s : State) : (setRecords rs s).rolls = s.rolls := rfl
@[simp] theorem setRecords_link (rs : List TrackRecord) (s : State) : (setRecords rs s).link = s.link := rfl
@[simp] theorem setRecords_events (rs : List TrackRecord) (s : State) : (setRecords rs s).events = s.events := rfl
@[simp] theorem setRecords_inputs (rs : List TrackRecord) (s : State) : (setRecords rs s).inputs = s.inputs := rfl
@[simp] theorem setRecords_pending (rs : List TrackRecord) (s : State) : (setRecords rs s).pending = s.pending := rfl
@[simp] theorem setRecords_races (rs : List TrackRecord) (s : State) : (setRecords rs s).races = s.races := rfl
@[simp] theorem setRecords_status (rs : List TrackRecord) (j : Fin 32) (s : State) :
    (setRecords rs s).status j = s.status j := rfl
@[simp] theorem setRecords_panelOf (rs : List TrackRecord) (j : Fin 32) (s : State) :
    (setRecords rs s).panelOf j = s.panelOf j := rfl
@[simp] theorem setRecords_zone (rs : List TrackRecord) (z' : Fin 4) (s : State) :
    (setRecords rs s).zone z' = s.zone z' := rfl
@[simp] theorem setRecords_recipe (rs : List TrackRecord) (r' : Fin 8) (s : State) :
    (setRecords rs s).recipe r' = s.recipe r' := rfl
@[simp] theorem setRecords_channel (rs : List TrackRecord) (z' : Fin 4) (s : State) :
    (setRecords rs s).channel z' = s.channel z' := rfl
@[simp] theorem setRecords_unwind (rs : List TrackRecord) (u' : UnwindId) (s : State) :
    (setRecords rs s).unwind u' = s.unwind u' := by cases u' <;> rfl
@[simp] theorem setRecords_eventCount (rs : List TrackRecord) (c' : EventClass) (s : State) :
    (setRecords rs s).eventCount c' = s.eventCount c' := rfl
@[simp] theorem setRecords_station (rs : List TrackRecord) (s : State) :
    (setRecords rs s).station = s.station := rfl
@[simp] theorem setRecords_oldestCommitted (rs : List TrackRecord) (s : State) :
    (setRecords rs s).oldestCommitted = s.oldestCommitted := rfl

/-! ### dropPlan -/

@[simp] theorem dropPlan_pc (s : State) : (dropPlan s).pc = s.pc := rfl
@[simp] theorem dropPlan_geometry (s : State) : (dropPlan s).geometry = s.geometry := rfl
@[simp] theorem dropPlan_limits (s : State) : (dropPlan s).limits = s.limits := rfl
@[simp] theorem dropPlan_slots (s : State) : (dropPlan s).slots = s.slots := rfl
@[simp] theorem dropPlan_ps (s : State) : (dropPlan s).ps = s.ps := rfl
@[simp] theorem dropPlan_blade (s : State) : (dropPlan s).blade = s.blade := rfl
@[simp] theorem dropPlan_ru (s : State) : (dropPlan s).ru = s.ru := rfl
@[simp] theorem dropPlan_lg (s : State) : (dropPlan s).lg = s.lg := rfl
@[simp] theorem dropPlan_tu (s : State) : (dropPlan s).tu = s.tu := rfl
@[simp] theorem dropPlan_heat (s : State) : (dropPlan s).heat = s.heat := rfl
@[simp] theorem dropPlan_link (s : State) : (dropPlan s).link = s.link := rfl
@[simp] theorem dropPlan_events (s : State) : (dropPlan s).events = s.events := rfl
@[simp] theorem dropPlan_inputs (s : State) : (dropPlan s).inputs = s.inputs := rfl
@[simp] theorem dropPlan_pending (s : State) : (dropPlan s).pending = s.pending := rfl
@[simp] theorem dropPlan_races (s : State) : (dropPlan s).races = s.races := rfl
@[simp] theorem dropPlan_status (j : Fin 32) (s : State) :
    (dropPlan s).status j = s.status j := rfl
@[simp] theorem dropPlan_panelOf (j : Fin 32) (s : State) :
    (dropPlan s).panelOf j = s.panelOf j := rfl
@[simp] theorem dropPlan_zone (z' : Fin 4) (s : State) :
    (dropPlan s).zone z' = s.zone z' := rfl
@[simp] theorem dropPlan_recipe (r' : Fin 8) (s : State) :
    (dropPlan s).recipe r' = s.recipe r' := rfl
@[simp] theorem dropPlan_channel (z' : Fin 4) (s : State) :
    (dropPlan s).channel z' = s.channel z' := rfl
@[simp] theorem dropPlan_unwind (u' : UnwindId) (s : State) :
    (dropPlan s).unwind u' = s.unwind u' := by cases u' <;> rfl
@[simp] theorem dropPlan_eventCount (c' : EventClass) (s : State) :
    (dropPlan s).eventCount c' = s.eventCount c' := rfl
@[simp] theorem dropPlan_station (s : State) :
    (dropPlan s).station = s.station := rfl
@[simp] theorem dropPlan_oldestCommitted (s : State) :
    (dropPlan s).oldestCommitted = s.oldestCommitted := rfl

/-! ### setRecipe -/

@[simp] theorem setRecipe_pc (i : Fin 8) (r : Recipe) (s : State) : (setRecipe i r s).pc = s.pc := rfl
@[simp] theorem setRecipe_geometry (i : Fin 8) (r : Recipe) (s : State) : (setRecipe i r s).geometry = s.geometry := rfl
@[simp] theorem setRecipe_limits (i : Fin 8) (r : Recipe) (s : State) : (setRecipe i r s).limits = s.limits := rfl
@[simp] theorem setRecipe_slots (i : Fin 8) (r : Recipe) (s : State) : (setRecipe i r s).slots = s.slots := rfl
@[simp] theorem setRecipe_ps (i : Fin 8) (r : Recipe) (s : State) : (setRecipe i r s).ps = s.ps := rfl
@[simp] theorem setRecipe_blade (i : Fin 8) (r : Recipe) (s : State) : (setRecipe i r s).blade = s.blade := rfl
@[simp] theorem setRecipe_ru (i : Fin 8) (r : Recipe) (s : State) : (setRecipe i r s).ru = s.ru := rfl
@[simp] theorem setRecipe_lg (i : Fin 8) (r : Recipe) (s : State) : (setRecipe i r s).lg = s.lg := rfl
@[simp] theorem setRecipe_tu (i : Fin 8) (r : Recipe) (s : State) : (setRecipe i r s).tu = s.tu := rfl
@[simp] theorem setRecipe_rolls (i : Fin 8) (r : Recipe) (s : State) : (setRecipe i r s).rolls = s.rolls := rfl
@[simp] theorem setRecipe_link (i : Fin 8) (r : Recipe) (s : State) : (setRecipe i r s).link = s.link := rfl
@[simp] theorem setRecipe_events (i : Fin 8) (r : Recipe) (s : State) : (setRecipe i r s).events = s.events := rfl
@[simp] theorem setRecipe_inputs (i : Fin 8) (r : Recipe) (s : State) : (setRecipe i r s).inputs = s.inputs := rfl
@[simp] theorem setRecipe_pending (i : Fin 8) (r : Recipe) (s : State) : (setRecipe i r s).pending = s.pending := rfl
@[simp] theorem setRecipe_races (i : Fin 8) (r : Recipe) (s : State) : (setRecipe i r s).races = s.races := rfl
@[simp] theorem setRecipe_status (i : Fin 8) (r : Recipe) (j : Fin 32) (s : State) :
    (setRecipe i r s).status j = s.status j := rfl
@[simp] theorem setRecipe_panelOf (i : Fin 8) (r : Recipe) (j : Fin 32) (s : State) :
    (setRecipe i r s).panelOf j = s.panelOf j := rfl
@[simp] theorem setRecipe_zone (i : Fin 8) (r : Recipe) (z' : Fin 4) (s : State) :
    (setRecipe i r s).zone z' = s.zone z' := rfl
@[simp] theorem setRecipe_channel (i : Fin 8) (r : Recipe) (z' : Fin 4) (s : State) :
    (setRecipe i r s).channel z' = s.channel z' := rfl
@[simp] theorem setRecipe_unwind (i : Fin 8) (r : Recipe) (u' : UnwindId) (s : State) :
    (setRecipe i r s).unwind u' = s.unwind u' := by cases u' <;> rfl
@[simp] theorem setRecipe_eventCount (i : Fin 8) (r : Recipe) (c' : EventClass) (s : State) :
    (setRecipe i r s).eventCount c' = s.eventCount c' := rfl
@[simp] theorem setRecipe_station (i : Fin 8) (r : Recipe) (s : State) :
    (setRecipe i r s).station = s.station := rfl
@[simp] theorem setRecipe_oldestCommitted (i : Fin 8) (r : Recipe) (s : State) :
    (setRecipe i r s).oldestCommitted = s.oldestCommitted := rfl

/-! ### modifyCounters -/

@[simp] theorem modifyCounters_pc (f : LinkCounters → LinkCounters) (s : State) : (modifyCounters f s).pc = s.pc := rfl
@[simp] theorem modifyCounters_geometry (f : LinkCounters → LinkCounters) (s : State) : (modifyCounters f s).geometry = s.geometry := rfl
@[simp] theorem modifyCounters_limits (f : LinkCounters → LinkCounters) (s : State) : (modifyCounters f s).limits = s.limits := rfl
@[simp] theorem modifyCounters_slots (f : LinkCounters → LinkCounters) (s : State) : (modifyCounters f s).slots = s.slots := rfl
@[simp] theorem modifyCounters_ps (f : LinkCounters → LinkCounters) (s : State) : (modifyCounters f s).ps = s.ps := rfl
@[simp] theorem modifyCounters_blade (f : LinkCounters → LinkCounters) (s : State) : (modifyCounters f s).blade = s.blade := rfl
@[simp] theorem modifyCounters_ru (f : LinkCounters → LinkCounters) (s : State) : (modifyCounters f s).ru = s.ru := rfl
@[simp] theorem modifyCounters_lg (f : LinkCounters → LinkCounters) (s : State) : (modifyCounters f s).lg = s.lg := rfl
@[simp] theorem modifyCounters_tu (f : LinkCounters → LinkCounters) (s : State) : (modifyCounters f s).tu = s.tu := rfl
@[simp] theorem modifyCounters_heat (f : LinkCounters → LinkCounters) (s : State) : (modifyCounters f s).heat = s.heat := rfl
@[simp] theorem modifyCounters_rolls (f : LinkCounters → LinkCounters) (s : State) : (modifyCounters f s).rolls = s.rolls := rfl
@[simp] theorem modifyCounters_events (f : LinkCounters → LinkCounters) (s : State) : (modifyCounters f s).events = s.events := rfl
@[simp] theorem modifyCounters_inputs (f : LinkCounters → LinkCounters) (s : State) : (modifyCounters f s).inputs = s.inputs := rfl
@[simp] theorem modifyCounters_pending (f : LinkCounters → LinkCounters) (s : State) : (modifyCounters f s).pending = s.pending := rfl
@[simp] theorem modifyCounters_races (f : LinkCounters → LinkCounters) (s : State) : (modifyCounters f s).races = s.races := rfl
@[simp] theorem modifyCounters_status (f : LinkCounters → LinkCounters) (j : Fin 32) (s : State) :
    (modifyCounters f s).status j = s.status j := rfl
@[simp] theorem modifyCounters_panelOf (f : LinkCounters → LinkCounters) (j : Fin 32) (s : State) :
    (modifyCounters f s).panelOf j = s.panelOf j := rfl
@[simp] theorem modifyCounters_zone (f : LinkCounters → LinkCounters) (z' : Fin 4) (s : State) :
    (modifyCounters f s).zone z' = s.zone z' := rfl
@[simp] theorem modifyCounters_recipe (f : LinkCounters → LinkCounters) (r' : Fin 8) (s : State) :
    (modifyCounters f s).recipe r' = s.recipe r' := rfl
@[simp] theorem modifyCounters_channel (f : LinkCounters → LinkCounters) (z' : Fin 4) (s : State) :
    (modifyCounters f s).channel z' = s.channel z' := rfl
@[simp] theorem modifyCounters_unwind (f : LinkCounters → LinkCounters) (u' : UnwindId) (s : State) :
    (modifyCounters f s).unwind u' = s.unwind u' := by cases u' <;> rfl
@[simp] theorem modifyCounters_eventCount (f : LinkCounters → LinkCounters) (c' : EventClass) (s : State) :
    (modifyCounters f s).eventCount c' = s.eventCount c' := rfl
@[simp] theorem modifyCounters_station (f : LinkCounters → LinkCounters) (s : State) :
    (modifyCounters f s).station = s.station := rfl
@[simp] theorem modifyCounters_oldestCommitted (f : LinkCounters → LinkCounters) (s : State) :
    (modifyCounters f s).oldestCommitted = s.oldestCommitted := rfl

/-! ### setReceiver -/

@[simp] theorem setReceiver_pc (r : Receiver) (s : State) : (setReceiver r s).pc = s.pc := rfl
@[simp] theorem setReceiver_geometry (r : Receiver) (s : State) : (setReceiver r s).geometry = s.geometry := rfl
@[simp] theorem setReceiver_limits (r : Receiver) (s : State) : (setReceiver r s).limits = s.limits := rfl
@[simp] theorem setReceiver_slots (r : Receiver) (s : State) : (setReceiver r s).slots = s.slots := rfl
@[simp] theorem setReceiver_ps (r : Receiver) (s : State) : (setReceiver r s).ps = s.ps := rfl
@[simp] theorem setReceiver_blade (r : Receiver) (s : State) : (setReceiver r s).blade = s.blade := rfl
@[simp] theorem setReceiver_ru (r : Receiver) (s : State) : (setReceiver r s).ru = s.ru := rfl
@[simp] theorem setReceiver_lg (r : Receiver) (s : State) : (setReceiver r s).lg = s.lg := rfl
@[simp] theorem setReceiver_tu (r : Receiver) (s : State) : (setReceiver r s).tu = s.tu := rfl
@[simp] theorem setReceiver_heat (r : Receiver) (s : State) : (setReceiver r s).heat = s.heat := rfl
@[simp] theorem setReceiver_rolls (r : Receiver) (s : State) : (setReceiver r s).rolls = s.rolls := rfl
@[simp] theorem setReceiver_events (r : Receiver) (s : State) : (setReceiver r s).events = s.events := rfl
@[simp] theorem setReceiver_inputs (r : Receiver) (s : State) : (setReceiver r s).inputs = s.inputs := rfl
@[simp] theorem setReceiver_pending (r : Receiver) (s : State) : (setReceiver r s).pending = s.pending := rfl
@[simp] theorem setReceiver_races (r : Receiver) (s : State) : (setReceiver r s).races = s.races := rfl
@[simp] theorem setReceiver_status (r : Receiver) (j : Fin 32) (s : State) :
    (setReceiver r s).status j = s.status j := rfl
@[simp] theorem setReceiver_panelOf (r : Receiver) (j : Fin 32) (s : State) :
    (setReceiver r s).panelOf j = s.panelOf j := rfl
@[simp] theorem setReceiver_zone (r : Receiver) (z' : Fin 4) (s : State) :
    (setReceiver r s).zone z' = s.zone z' := rfl
@[simp] theorem setReceiver_recipe (r : Receiver) (r' : Fin 8) (s : State) :
    (setReceiver r s).recipe r' = s.recipe r' := rfl
@[simp] theorem setReceiver_channel (r : Receiver) (z' : Fin 4) (s : State) :
    (setReceiver r s).channel z' = s.channel z' := rfl
@[simp] theorem setReceiver_unwind (r : Receiver) (u' : UnwindId) (s : State) :
    (setReceiver r s).unwind u' = s.unwind u' := by cases u' <;> rfl
@[simp] theorem setReceiver_eventCount (r : Receiver) (c' : EventClass) (s : State) :
    (setReceiver r s).eventCount c' = s.eventCount c' := rfl
@[simp] theorem setReceiver_station (r : Receiver) (s : State) :
    (setReceiver r s).station = s.station := rfl
@[simp] theorem setReceiver_oldestCommitted (r : Receiver) (s : State) :
    (setReceiver r s).oldestCommitted = s.oldestCommitted := rfl

/-! ### setPair -/

@[simp] theorem setPair_geometry (e : Encoder) (p : ChannelPair) (s : State) : (setPair e p s).geometry = s.geometry := by cases e <;> rfl
@[simp] theorem setPair_limits (e : Encoder) (p : ChannelPair) (s : State) : (setPair e p s).limits = s.limits := by cases e <;> rfl
@[simp] theorem setPair_slots (e : Encoder) (p : ChannelPair) (s : State) : (setPair e p s).slots = s.slots := by cases e <;> rfl
@[simp] theorem setPair_ps (e : Encoder) (p : ChannelPair) (s : State) : (setPair e p s).ps = s.ps := by cases e <;> rfl
@[simp] theorem setPair_blade (e : Encoder) (p : ChannelPair) (s : State) : (setPair e p s).blade = s.blade := by cases e <;> rfl
@[simp] theorem setPair_ru (e : Encoder) (p : ChannelPair) (s : State) : (setPair e p s).ru = s.ru := by cases e <;> rfl
@[simp] theorem setPair_lg (e : Encoder) (p : ChannelPair) (s : State) : (setPair e p s).lg = s.lg := by cases e <;> rfl
@[simp] theorem setPair_tu (e : Encoder) (p : ChannelPair) (s : State) : (setPair e p s).tu = s.tu := by cases e <;> rfl
@[simp] theorem setPair_heat (e : Encoder) (p : ChannelPair) (s : State) : (setPair e p s).heat = s.heat := by cases e <;> rfl
@[simp] theorem setPair_rolls (e : Encoder) (p : ChannelPair) (s : State) : (setPair e p s).rolls = s.rolls := by cases e <;> rfl
@[simp] theorem setPair_link (e : Encoder) (p : ChannelPair) (s : State) : (setPair e p s).link = s.link := by cases e <;> rfl
@[simp] theorem setPair_events (e : Encoder) (p : ChannelPair) (s : State) : (setPair e p s).events = s.events := by cases e <;> rfl
@[simp] theorem setPair_inputs (e : Encoder) (p : ChannelPair) (s : State) : (setPair e p s).inputs = s.inputs := by cases e <;> rfl
@[simp] theorem setPair_pending (e : Encoder) (p : ChannelPair) (s : State) : (setPair e p s).pending = s.pending := by cases e <;> rfl
@[simp] theorem setPair_races (e : Encoder) (p : ChannelPair) (s : State) : (setPair e p s).races = s.races := by cases e <;> rfl
@[simp] theorem setPair_status (e : Encoder) (p : ChannelPair) (j : Fin 32) (s : State) :
    (setPair e p s).status j = s.status j := by cases e <;> rfl
@[simp] theorem setPair_panelOf (e : Encoder) (p : ChannelPair) (j : Fin 32) (s : State) :
    (setPair e p s).panelOf j = s.panelOf j := by cases e <;> rfl
@[simp] theorem setPair_zone (e : Encoder) (p : ChannelPair) (z' : Fin 4) (s : State) :
    (setPair e p s).zone z' = s.zone z' := by cases e <;> rfl
@[simp] theorem setPair_recipe (e : Encoder) (p : ChannelPair) (r' : Fin 8) (s : State) :
    (setPair e p s).recipe r' = s.recipe r' := by cases e <;> rfl
@[simp] theorem setPair_channel (e : Encoder) (p : ChannelPair) (z' : Fin 4) (s : State) :
    (setPair e p s).channel z' = s.channel z' := by cases e <;> rfl
@[simp] theorem setPair_unwind (e : Encoder) (p : ChannelPair) (u' : UnwindId) (s : State) :
    (setPair e p s).unwind u' = s.unwind u' := by cases u' <;> cases e <;> rfl
@[simp] theorem setPair_eventCount (e : Encoder) (p : ChannelPair) (c' : EventClass) (s : State) :
    (setPair e p s).eventCount c' = s.eventCount c' := by cases e <;> rfl
@[simp] theorem setPair_station (e : Encoder) (p : ChannelPair) (s : State) :
    (setPair e p s).station = s.station := by cases e <;> rfl
@[simp] theorem setPair_oldestCommitted (e : Encoder) (p : ChannelPair) (s : State) :
    (setPair e p s).oldestCommitted = s.oldestCommitted := by cases e <;> rfl

end Sys2Proof.Machine
end

