-- ==== Sys2Proof/Laws/Ops.lean ====
section
/-! SUPPORT. Reading after writing: what the basic updates of slots, zones, unwinds and events give back. -/

namespace Sys2Proof.Machine

/-! ### Slots -/

@[simp] theorem slot_setSlot_same (k : Fin 32) (x : Slot) (s : State) : (setSlot k x s).slot k = x := by
  simp [State.slot, setSlot]

theorem slot_setSlot_other {j k : Fin 32} (h : j ≠ k) (x : Slot) (s : State) :
    (setSlot k x s).slot j = s.slot j := by
  have : k.val ≠ j.val := fun e => h (Fin.ext e.symm)
  simp [State.slot, setSlot, Vector.getElem_set_ne, this]

@[simp] theorem status_modifyStatus_same (k : Fin 32) (f : SlotStatus → SlotStatus) (s : State) :
    (modifyStatus k f s).status k = f (s.status k) := by
  simp [State.status, modifyStatus]

theorem status_modifyStatus_other {j k : Fin 32} (h : j ≠ k) (f : SlotStatus → SlotStatus) (s : State) :
    (modifyStatus k f s).status j = s.status j := by
  simp [State.status, modifyStatus, slot_setSlot_other h]

@[simp] theorem panelOf_modifyStatus (j k : Fin 32) (f : SlotStatus → SlotStatus) (s : State) :
    (modifyStatus k f s).panelOf j = s.panelOf j := by
  by_cases h : j = k
  · subst h; simp [State.panelOf, modifyStatus]
  · simp [State.panelOf, modifyStatus, slot_setSlot_other h]

/-! ### Zones -/

@[simp] theorem zone_modifyZone_same (z : Fin 4) (f : Zone → Zone) (s : State) :
    (modifyZone z f s).zone z = f (s.zone z) := by
  simp [State.zone, modifyZone]

theorem zone_modifyZone_other {y z : Fin 4} (h : y ≠ z) (f : Zone → Zone) (s : State) :
    (modifyZone z f s).zone y = s.zone y := by
  have : z.val ≠ y.val := fun e => h (Fin.ext e.symm)
  simp [State.zone, modifyZone, Vector.getElem_set_ne, this]

/-! ### Unwinds -/

@[simp] theorem otherStand_otherStand (u : UnwindId) : otherStand (otherStand u) = u := by cases u <;> rfl

theorem otherStand_ne (u : UnwindId) : otherStand u ≠ u := by cases u <;> decide

@[simp] theorem unwind_modifyUnwind_same (u : UnwindId) (f : Unwind → Unwind) (s : State) :
    (modifyUnwind u f s).unwind u = f (s.unwind u) := by
  cases u <;> rfl

theorem unwind_modifyUnwind_other {u v : UnwindId} (h : v ≠ u) (f : Unwind → Unwind) (s : State) :
    (modifyUnwind u f s).unwind v = s.unwind v := by
  cases u <;> cases v <;> first | rfl | exact absurd rfl h

@[simp] theorem unwind_modifyUnwind_otherStand (u : UnwindId) (f : Unwind → Unwind) (s : State) :
    (modifyUnwind u f s).unwind (otherStand u) = s.unwind (otherStand u) :=
  unwind_modifyUnwind_other (otherStand_ne u) f s

/-! ### Events (R188) -/

theorem EventClass.index_injective {c d : EventClass} (h : c.index = d.index) : c = d := by
  revert h; cases c <;> cases d <;> decide

@[simp] theorem eventCount_raise_same (c : EventClass) (s : State) :
    (raise c s).eventCount c = countUp 255 (s.eventCount c) := by
  simp [State.eventCount, raise]

theorem eventCount_raise_other {c d : EventClass} (h : d ≠ c) (s : State) :
    (raise c s).eventCount d = s.eventCount d := by
  have : c.index.val ≠ d.index.val := fun e => h (EventClass.index_injective (Fin.ext e.symm))
  simp [State.eventCount, raise, Vector.getElem_set_ne, this]

@[simp] theorem mask1_raise (c : EventClass) (s : State) : (raise c s).events.mask1 = s.events.mask1 := rfl

@[simp] theorem mask2_raise (c : EventClass) (s : State) : (raise c s).events.mask2 = s.events.mask2 := rfl

/-! ### Arithmetic -/

theorem countUp_le (cap n : Nat) : countUp cap n ≤ cap := Nat.min_le_left cap (n + 1)

/-- Round half up of an exact multiple. -/
theorem roundHalfUp_mul (q : Nat) {d : Nat} (h : 0 < d) : roundHalfUp (q * d) d = q := by
  unfold roundHalfUp
  rw [Nat.add_comm, Nat.add_mul_div_right _ _ h, Nat.div_eq_of_lt (by omega), Nat.zero_add]

/-! ### Folds -/

/-- What every step of a fold leaves alone, the fold leaves alone. -/
theorem foldl_keeps {α β : Type} (π : State → β) (op : State → α → State) (h : ∀ s a, π (op s a) = π s)
    (l : List α) (s : State) : π (l.foldl op s) = π s := by
  induction l generalizing s with
  | nil => rfl
  | cons a l ih => simp only [List.foldl_cons, ih, h]

end Sys2Proof.Machine
end

