-- ==== Sys2Proof/Laws/Frames.lean ====
section
/-! SUPPORT. The frame of each shared operation: the blocks of State it leaves alone. A name that ends in _frame says
all of them at once. -/

namespace Sys2Proof.Machine

@[simp] theorem aim_frame (mark : SlotStatus → SlotStatus) (k : Fin 32) (s : State) :
      (aim mark k s).pc = s.pc ∧
      (aim mark k s).geometry = s.geometry ∧
      (aim mark k s).limits = s.limits ∧
      (aim mark k s).ps = s.ps ∧
      (aim mark k s).blade = s.blade ∧
      (aim mark k s).ru = s.ru ∧
      (aim mark k s).lg = s.lg ∧
      (aim mark k s).tu = s.tu ∧
      (aim mark k s).heat = s.heat ∧
      (aim mark k s).rolls = s.rolls ∧
      (aim mark k s).link = s.link ∧
      (aim mark k s).events = s.events ∧
      (aim mark k s).inputs = s.inputs ∧
      (aim mark k s).pending = s.pending ∧
      (aim mark k s).races = s.races := by
  refine ⟨?_, ?_, ?_, ?_, ?_, ?_, ?_, ?_, ?_, ?_, ?_, ?_, ?_, ?_, ?_⟩ <;> unfold aim <;> repeat' split
  all_goals simp

@[simp] theorem aimUnderSet_frame (z : Fin 4) (k : Fin 32) (s : State) :
      (aimUnderSet z k s).pc = s.pc ∧
      (aimUnderSet z k s).geometry = s.geometry ∧
      (aimUnderSet z k s).limits = s.limits ∧
      (aimUnderSet z k s).ps = s.ps ∧
      (aimUnderSet z k s).blade = s.blade ∧
      (aimUnderSet z k s).ru = s.ru ∧
      (aimUnderSet z k s).lg = s.lg ∧
      (aimUnderSet z k s).tu = s.tu ∧
      (aimUnderSet z k s).heat = s.heat ∧
      (aimUnderSet z k s).rolls = s.rolls ∧
      (aimUnderSet z k s).link = s.link ∧
      (aimUnderSet z k s).events = s.events ∧
      (aimUnderSet z k s).inputs = s.inputs ∧
      (aimUnderSet z k s).pending = s.pending ∧
      (aimUnderSet z k s).races = s.races := by
  simp [aimUnderSet]

@[simp] theorem aimOverDwell_frame (k : Fin 32) (s : State) :
      (aimOverDwell k s).pc = s.pc ∧
      (aimOverDwell k s).geometry = s.geometry ∧
      (aimOverDwell k s).limits = s.limits ∧
      (aimOverDwell k s).ps = s.ps ∧
      (aimOverDwell k s).blade = s.blade ∧
      (aimOverDwell k s).ru = s.ru ∧
      (aimOverDwell k s).lg = s.lg ∧
      (aimOverDwell k s).tu = s.tu ∧
      (aimOverDwell k s).heat = s.heat ∧
      (aimOverDwell k s).rolls = s.rolls ∧
      (aimOverDwell k s).link = s.link ∧
      (aimOverDwell k s).events = s.events ∧
      (aimOverDwell k s).inputs = s.inputs ∧
      (aimOverDwell k s).pending = s.pending ∧
      (aimOverDwell k s).races = s.races := by
  simp [aimOverDwell]

@[simp] theorem aimSplice_frame (k : Fin 32) (s : State) :
      (aimSplice k s).pc = s.pc ∧
      (aimSplice k s).geometry = s.geometry ∧
      (aimSplice k s).limits = s.limits ∧
      (aimSplice k s).ps = s.ps ∧
      (aimSplice k s).blade = s.blade ∧
      (aimSplice k s).ru = s.ru ∧
      (aimSplice k s).lg = s.lg ∧
      (aimSplice k s).tu = s.tu ∧
      (aimSplice k s).heat = s.heat ∧
      (aimSplice k s).rolls = s.rolls ∧
      (aimSplice k s).link = s.link ∧
      (aimSplice k s).events = s.events ∧
      (aimSplice k s).inputs = s.inputs ∧
      (aimSplice k s).pending = s.pending ∧
      (aimSplice k s).races = s.races := by
  simp [aimSplice]

@[simp] theorem markZonePanels_frame (z : Fin 4) (s : State) :
      (markZonePanels z s).pc = s.pc ∧
      (markZonePanels z s).geometry = s.geometry ∧
      (markZonePanels z s).limits = s.limits ∧
      (markZonePanels z s).ps = s.ps ∧
      (markZonePanels z s).blade = s.blade ∧
      (markZonePanels z s).ru = s.ru ∧
      (markZonePanels z s).lg = s.lg ∧
      (markZonePanels z s).tu = s.tu ∧
      (markZonePanels z s).heat = s.heat ∧
      (markZonePanels z s).rolls = s.rolls ∧
      (markZonePanels z s).link = s.link ∧
      (markZonePanels z s).events = s.events ∧
      (markZonePanels z s).inputs = s.inputs ∧
      (markZonePanels z s).pending = s.pending ∧
      (markZonePanels z s).races = s.races := by
  unfold markZonePanels
  refine ⟨?_, ?_, ?_, ?_, ?_, ?_, ?_, ?_, ?_, ?_, ?_, ?_, ?_, ?_, ?_⟩ <;>
    exact foldl_keeps _ _ (by simp) _ _

@[simp] theorem markChamberPanels_frame (s : State) :
      (markChamberPanels s).pc = s.pc ∧
      (markChamberPanels s).geometry = s.geometry ∧
      (markChamberPanels s).limits = s.limits ∧
      (markChamberPanels s).ps = s.ps ∧
      (markChamberPanels s).blade = s.blade ∧
      (markChamberPanels s).ru = s.ru ∧
      (markChamberPanels s).lg = s.lg ∧
      (markChamberPanels s).tu = s.tu ∧
      (markChamberPanels s).heat = s.heat ∧
      (markChamberPanels s).rolls = s.rolls ∧
      (markChamberPanels s).link = s.link ∧
      (markChamberPanels s).events = s.events ∧
      (markChamberPanels s).inputs = s.inputs ∧
      (markChamberPanels s).pending = s.pending ∧
      (markChamberPanels s).races = s.races := by
  unfold markChamberPanels
  refine ⟨?_, ?_, ?_, ?_, ?_, ?_, ?_, ?_, ?_, ?_, ?_, ?_, ?_, ?_, ?_⟩ <;>
    exact foldl_keeps _ _ (by simp) _ _

@[simp] theorem leaveInBand_frame (z : Fin 4) (s : State) :
      (leaveInBand z s).pc = s.pc ∧
      (leaveInBand z s).geometry = s.geometry ∧
      (leaveInBand z s).limits = s.limits ∧
      (leaveInBand z s).ps = s.ps ∧
      (leaveInBand z s).blade = s.blade ∧
      (leaveInBand z s).ru = s.ru ∧
      (leaveInBand z s).lg = s.lg ∧
      (leaveInBand z s).tu = s.tu ∧
      (leaveInBand z s).heat = s.heat ∧
      (leaveInBand z s).rolls = s.rolls ∧
      (leaveInBand z s).link = s.link ∧
      (leaveInBand z s).inputs = s.inputs ∧
      (leaveInBand z s).pending = s.pending ∧
      (leaveInBand z s).races = s.races := by
  simp [leaveInBand]

@[simp] theorem leaveIfInBand_frame (before : ZoneState) (z : Fin 4) (s : State) :
      (leaveIfInBand before z s).pc = s.pc ∧
      (leaveIfInBand before z s).geometry = s.geometry ∧
      (leaveIfInBand before z s).limits = s.limits ∧
      (leaveIfInBand before z s).ps = s.ps ∧
      (leaveIfInBand before z s).blade = s.blade ∧
      (leaveIfInBand before z s).ru = s.ru ∧
      (leaveIfInBand before z s).lg = s.lg ∧
      (leaveIfInBand before z s).tu = s.tu ∧
      (leaveIfInBand before z s).heat = s.heat ∧
      (leaveIfInBand before z s).rolls = s.rolls ∧
      (leaveIfInBand before z s).link = s.link ∧
      (leaveIfInBand before z s).inputs = s.inputs ∧
      (leaveIfInBand before z s).pending = s.pending ∧
      (leaveIfInBand before z s).races = s.races := by
  refine ⟨?_, ?_, ?_, ?_, ?_, ?_, ?_, ?_, ?_, ?_, ?_, ?_, ?_, ?_⟩ <;> unfold leaveIfInBand <;> repeat' split
  all_goals simp

@[simp] theorem resumeZones_frame (s : State) :
      (resumeZones s).pc = s.pc ∧
      (resumeZones s).geometry = s.geometry ∧
      (resumeZones s).limits = s.limits ∧
      (resumeZones s).slots = s.slots ∧
      (resumeZones s).ps = s.ps ∧
      (resumeZones s).blade = s.blade ∧
      (resumeZones s).ru = s.ru ∧
      (resumeZones s).lg = s.lg ∧
      (resumeZones s).tu = s.tu ∧
      (resumeZones s).rolls = s.rolls ∧
      (resumeZones s).link = s.link ∧
      (resumeZones s).events = s.events ∧
      (resumeZones s).inputs = s.inputs ∧
      (resumeZones s).pending = s.pending ∧
      (resumeZones s).races = s.races := by
  unfold resumeZones
  refine ⟨?_, ?_, ?_, ?_, ?_, ?_, ?_, ?_, ?_, ?_, ?_, ?_, ?_, ?_, ?_⟩ <;>
    exact foldl_keeps _ _ (by simp) _ _

@[simp] theorem resumeTest_frame (s : State) :
      (resumeTest s).pc = s.pc ∧
      (resumeTest s).geometry = s.geometry ∧
      (resumeTest s).limits = s.limits ∧
      (resumeTest s).slots = s.slots ∧
      (resumeTest s).ps = s.ps ∧
      (resumeTest s).blade = s.blade ∧
      (resumeTest s).ru = s.ru ∧
      (resumeTest s).lg = s.lg ∧
      (resumeTest s).tu = s.tu ∧
      (resumeTest s).rolls = s.rolls ∧
      (resumeTest s).link = s.link ∧
      (resumeTest s).events = s.events ∧
      (resumeTest s).inputs = s.inputs ∧
      (resumeTest s).pending = s.pending ∧
      (resumeTest s).races = s.races := by
  refine ⟨?_, ?_, ?_, ?_, ?_, ?_, ?_, ?_, ?_, ?_, ?_, ?_, ?_, ?_, ?_⟩ <;> unfold resumeTest <;> repeat' split
  all_goals simp

@[simp] theorem standZone_frame (z : Fin 4) (s : State) :
      (standZone s z).pc = s.pc ∧
      (standZone s z).geometry = s.geometry ∧
      (standZone s z).limits = s.limits ∧
      (standZone s z).ps = s.ps ∧
      (standZone s z).blade = s.blade ∧
      (standZone s z).ru = s.ru ∧
      (standZone s z).lg = s.lg ∧
      (standZone s z).tu = s.tu ∧
      (standZone s z).rolls = s.rolls ∧
      (standZone s z).link = s.link ∧
      (standZone s z).inputs = s.inputs ∧
      (standZone s z).pending = s.pending ∧
      (standZone s z).races = s.races := by
  refine ⟨?_, ?_, ?_, ?_, ?_, ?_, ?_, ?_, ?_, ?_, ?_, ?_, ?_⟩ <;> unfold standZone <;> repeat' split
  all_goals simp

@[simp] theorem fireStopTimer_frame (s : State) :
      (fireStopTimer s).pc = s.pc ∧
      (fireStopTimer s).geometry = s.geometry ∧
      (fireStopTimer s).limits = s.limits ∧
      (fireStopTimer s).ps = s.ps ∧
      (fireStopTimer s).blade = s.blade ∧
      (fireStopTimer s).ru = s.ru ∧
      (fireStopTimer s).lg = s.lg ∧
      (fireStopTimer s).tu = s.tu ∧
      (fireStopTimer s).rolls = s.rolls ∧
      (fireStopTimer s).link = s.link ∧
      (fireStopTimer s).inputs = s.inputs ∧
      (fireStopTimer s).pending = s.pending ∧
      (fireStopTimer s).races = s.races := by
  have h : ∀ (α : Type) (π : State → α), (∀ t z, π (standZone t z) = π t) → ∀ l t,
      π (List.foldl standZone t l) = π t := fun _ π hp l t => foldl_keeps π standZone hp l t
  unfold fireStopTimer
  simp only [resumeTest_frame, raise_pc, raise_geometry, raise_limits, raise_ps, raise_blade, raise_ru, raise_lg,
    raise_tu, raise_rolls, raise_link, raise_inputs, raise_pending, raise_races, markChamberPanels_frame]
  refine ⟨?_, ?_, ?_, ?_, ?_, ?_, ?_, ?_, ?_, ?_, ?_, ?_, ?_⟩ <;> exact (foldl_keeps _ standZone (by simp) _ _).trans rfl

@[simp] theorem restStopTimer_frame (s : State) :
      (restStopTimer s).pc = s.pc ∧
      (restStopTimer s).geometry = s.geometry ∧
      (restStopTimer s).limits = s.limits ∧
      (restStopTimer s).slots = s.slots ∧
      (restStopTimer s).ps = s.ps ∧
      (restStopTimer s).blade = s.blade ∧
      (restStopTimer s).ru = s.ru ∧
      (restStopTimer s).lg = s.lg ∧
      (restStopTimer s).tu = s.tu ∧
      (restStopTimer s).rolls = s.rolls ∧
      (restStopTimer s).link = s.link ∧
      (restStopTimer s).events = s.events ∧
      (restStopTimer s).inputs = s.inputs ∧
      (restStopTimer s).pending = s.pending ∧
      (restStopTimer s).races = s.races := by
  refine ⟨?_, ?_, ?_, ?_, ?_, ?_, ?_, ?_, ?_, ?_, ?_, ?_, ?_, ?_, ?_⟩ <;> unfold restStopTimer <;> (try dsimp only) <;> repeat' split
  all_goals simp

@[simp] theorem checkStopTimer_frame (s : State) :
      (checkStopTimer s).pc = s.pc ∧
      (checkStopTimer s).geometry = s.geometry ∧
      (checkStopTimer s).limits = s.limits ∧
      (checkStopTimer s).ps = s.ps ∧
      (checkStopTimer s).blade = s.blade ∧
      (checkStopTimer s).ru = s.ru ∧
      (checkStopTimer s).lg = s.lg ∧
      (checkStopTimer s).tu = s.tu ∧
      (checkStopTimer s).rolls = s.rolls ∧
      (checkStopTimer s).link = s.link ∧
      (checkStopTimer s).inputs = s.inputs ∧
      (checkStopTimer s).pending = s.pending ∧
      (checkStopTimer s).races = s.races := by
  refine ⟨?_, ?_, ?_, ?_, ?_, ?_, ?_, ?_, ?_, ?_, ?_, ?_, ?_⟩ <;> unfold checkStopTimer <;> repeat' split
  all_goals simp

@[simp] theorem clampReference_frame (s : State) :
      (clampReference s).pc = s.pc ∧
      (clampReference s).geometry = s.geometry ∧
      (clampReference s).limits = s.limits ∧
      (clampReference s).slots = s.slots ∧
      (clampReference s).ps = s.ps ∧
      (clampReference s).blade = s.blade ∧
      (clampReference s).ru = s.ru ∧
      (clampReference s).tu = s.tu ∧
      (clampReference s).heat = s.heat ∧
      (clampReference s).rolls = s.rolls ∧
      (clampReference s).link = s.link ∧
      (clampReference s).events = s.events ∧
      (clampReference s).inputs = s.inputs ∧
      (clampReference s).pending = s.pending ∧
      (clampReference s).races = s.races := by
  refine ⟨?_, ?_, ?_, ?_, ?_, ?_, ?_, ?_, ?_, ?_, ?_, ?_, ?_, ?_, ?_⟩ <;> unfold clampReference <;> (try dsimp only) <;> repeat' split
  all_goals simp

@[simp] theorem switchRecord_frame (z : Fin 4) (r : Fin 8) (s : State) :
      (switchRecord z r s).pc = s.pc ∧
      (switchRecord z r s).geometry = s.geometry ∧
      (switchRecord z r s).limits = s.limits ∧
      (switchRecord z r s).ps = s.ps ∧
      (switchRecord z r s).blade = s.blade ∧
      (switchRecord z r s).ru = s.ru ∧
      (switchRecord z r s).lg = s.lg ∧
      (switchRecord z r s).tu = s.tu ∧
      (switchRecord z r s).rolls = s.rolls ∧
      (switchRecord z r s).link = s.link ∧
      (switchRecord z r s).inputs = s.inputs ∧
      (switchRecord z r s).pending = s.pending ∧
      (switchRecord z r s).races = s.races := by
  simp [switchRecord]

@[simp] theorem switchZone_frame (z : Fin 4) (r : Fin 8) (s : State) :
      (switchZone z r s).pc = s.pc ∧
      (switchZone z r s).geometry = s.geometry ∧
      (switchZone z r s).limits = s.limits ∧
      (switchZone z r s).ps = s.ps ∧
      (switchZone z r s).blade = s.blade ∧
      (switchZone z r s).ru = s.ru ∧
      (switchZone z r s).tu = s.tu ∧
      (switchZone z r s).rolls = s.rolls ∧
      (switchZone z r s).link = s.link ∧
      (switchZone z r s).inputs = s.inputs ∧
      (switchZone z r s).pending = s.pending ∧
      (switchZone z r s).races = s.races := by
  refine ⟨?_, ?_, ?_, ?_, ?_, ?_, ?_, ?_, ?_, ?_, ?_, ?_⟩ <;> unfold switchZone <;> repeat' split
  all_goals simp

@[simp] theorem switchAllZones_frame (r : Fin 8) (s : State) :
      (switchAllZones r s).pc = s.pc ∧
      (switchAllZones r s).geometry = s.geometry ∧
      (switchAllZones r s).limits = s.limits ∧
      (switchAllZones r s).ps = s.ps ∧
      (switchAllZones r s).blade = s.blade ∧
      (switchAllZones r s).ru = s.ru ∧
      (switchAllZones r s).tu = s.tu ∧
      (switchAllZones r s).rolls = s.rolls ∧
      (switchAllZones r s).link = s.link ∧
      (switchAllZones r s).inputs = s.inputs ∧
      (switchAllZones r s).pending = s.pending ∧
      (switchAllZones r s).races = s.races := by
  unfold switchAllZones
  split
  · simp
  · simp only [checkStopTimer_frame, clampReference_frame]
    refine ⟨?_, ?_, ?_, ?_, ?_, ?_, ?_, ?_, ?_, ?_, ?_, ?_⟩ <;>
      exact foldl_keeps _ _ (fun t a => by split <;> simp) _ _

@[simp] theorem entryTest_frame (k : Fin 32) (z : Fin 4) (s : State) :
      (entryTest k s z).pc = s.pc ∧
      (entryTest k s z).geometry = s.geometry ∧
      (entryTest k s z).limits = s.limits ∧
      (entryTest k s z).ps = s.ps ∧
      (entryTest k s z).blade = s.blade ∧
      (entryTest k s z).ru = s.ru ∧
      (entryTest k s z).lg = s.lg ∧
      (entryTest k s z).tu = s.tu ∧
      (entryTest k s z).heat = s.heat ∧
      (entryTest k s z).rolls = s.rolls ∧
      (entryTest k s z).link = s.link ∧
      (entryTest k s z).events = s.events ∧
      (entryTest k s z).inputs = s.inputs ∧
      (entryTest k s z).pending = s.pending ∧
      (entryTest k s z).races = s.races := by
  refine ⟨?_, ?_, ?_, ?_, ?_, ?_, ?_, ?_, ?_, ?_, ?_, ?_, ?_, ?_, ?_⟩ <;> unfold entryTest <;> repeat' split
  all_goals simp

@[simp] theorem retireSlot_frame (k : Fin 32) (s : State) :
      (retireSlot k s).pc = s.pc ∧
      (retireSlot k s).geometry = s.geometry ∧
      (retireSlot k s).limits = s.limits ∧
      (retireSlot k s).ps = s.ps ∧
      (retireSlot k s).blade = s.blade ∧
      (retireSlot k s).ru = s.ru ∧
      (retireSlot k s).lg = s.lg ∧
      (retireSlot k s).tu = s.tu ∧
      (retireSlot k s).heat = s.heat ∧
      (retireSlot k s).rolls = s.rolls ∧
      (retireSlot k s).link = s.link ∧
      (retireSlot k s).inputs = s.inputs ∧
      (retireSlot k s).pending = s.pending ∧
      (retireSlot k s).races = s.races := by
  refine ⟨?_, ?_, ?_, ?_, ?_, ?_, ?_, ?_, ?_, ?_, ?_, ?_, ?_, ?_⟩ <;> unfold retireSlot <;> (try dsimp only) <;> repeat' split
  all_goals simp

@[simp] theorem switchFor_frame (r : TrackRecord) (zs : List (Fin 4)) (s : State) :
      (switchFor r zs s).pc = s.pc ∧
      (switchFor r zs s).geometry = s.geometry ∧
      (switchFor r zs s).limits = s.limits ∧
      (switchFor r zs s).ps = s.ps ∧
      (switchFor r zs s).blade = s.blade ∧
      (switchFor r zs s).ru = s.ru ∧
      (switchFor r zs s).tu = s.tu ∧
      (switchFor r zs s).rolls = s.rolls ∧
      (switchFor r zs s).link = s.link ∧
      (switchFor r zs s).inputs = s.inputs ∧
      (switchFor r zs s).pending = s.pending ∧
      (switchFor r zs s).races = s.races := by
  cases r with
  | panel k head tail => simp [switchFor]
  | seam b recipe switched =>
    unfold switchFor
    refine ⟨?_, ?_, ?_, ?_, ?_, ?_, ?_, ?_, ?_, ?_, ?_, ?_⟩ <;> exact foldl_keeps _ _ (by simp) _ _

@[simp] theorem forceOut_frame (r : TrackRecord) (s : State) :
      (forceOut r s).pc = s.pc ∧
      (forceOut r s).geometry = s.geometry ∧
      (forceOut r s).limits = s.limits ∧
      (forceOut r s).ps = s.ps ∧
      (forceOut r s).blade = s.blade ∧
      (forceOut r s).ru = s.ru ∧
      (forceOut r s).tu = s.tu ∧
      (forceOut r s).rolls = s.rolls ∧
      (forceOut r s).link = s.link ∧
      (forceOut r s).inputs = s.inputs ∧
      (forceOut r s).pending = s.pending ∧
      (forceOut r s).races = s.races := by
  cases r with
  | panel k head tail =>
    simp only [forceOut, retireSlot_frame]
    refine ⟨?_, ?_, ?_, ?_, ?_, ?_, ?_, ?_, ?_, ?_, ?_, ?_⟩ <;> exact foldl_keeps _ _ (by simp) _ _
  | seam b recipe switched => simp [forceOut]

@[simp] theorem makeRoom_frame (s : State) :
      (makeRoom s).pc = s.pc ∧
      (makeRoom s).geometry = s.geometry ∧
      (makeRoom s).limits = s.limits ∧
      (makeRoom s).ps = s.ps ∧
      (makeRoom s).blade = s.blade ∧
      (makeRoom s).ru = s.ru ∧
      (makeRoom s).rolls = s.rolls ∧
      (makeRoom s).link = s.link ∧
      (makeRoom s).inputs = s.inputs ∧
      (makeRoom s).pending = s.pending ∧
      (makeRoom s).races = s.races := by
  refine ⟨?_, ?_, ?_, ?_, ?_, ?_, ?_, ?_, ?_, ?_, ?_⟩ <;> unfold makeRoom <;> (try dsimp only) <;> repeat' split
  all_goals simp

@[simp] theorem openRecord_frame (k : Fin 32) (s : State) :
      (openRecord k s).pc = s.pc ∧
      (openRecord k s).geometry = s.geometry ∧
      (openRecord k s).limits = s.limits ∧
      (openRecord k s).ps = s.ps ∧
      (openRecord k s).blade = s.blade ∧
      (openRecord k s).ru = s.ru ∧
      (openRecord k s).rolls = s.rolls ∧
      (openRecord k s).link = s.link ∧
      (openRecord k s).inputs = s.inputs ∧
      (openRecord k s).pending = s.pending ∧
      (openRecord k s).races = s.races := by
  unfold openRecord
  refine ⟨?_, ?_, ?_, ?_, ?_, ?_, ?_, ?_, ?_, ?_, ?_⟩ <;>
    exact (foldl_keeps _ _ (by simp) _ _).trans (by simp)

@[simp] theorem closeRecord_frame (k : Fin 32) (s : State) :
      (closeRecord k s).pc = s.pc ∧
      (closeRecord k s).geometry = s.geometry ∧
      (closeRecord k s).limits = s.limits ∧
      (closeRecord k s).slots = s.slots ∧
      (closeRecord k s).ps = s.ps ∧
      (closeRecord k s).blade = s.blade ∧
      (closeRecord k s).ru = s.ru ∧
      (closeRecord k s).lg = s.lg ∧
      (closeRecord k s).heat = s.heat ∧
      (closeRecord k s).rolls = s.rolls ∧
      (closeRecord k s).link = s.link ∧
      (closeRecord k s).events = s.events ∧
      (closeRecord k s).inputs = s.inputs ∧
      (closeRecord k s).pending = s.pending ∧
      (closeRecord k s).races = s.races := by
  simp [closeRecord]

@[simp] theorem addSeam_frame (recipe : Fin 8) (s : State) :
      (addSeam recipe s).pc = s.pc ∧
      (addSeam recipe s).geometry = s.geometry ∧
      (addSeam recipe s).limits = s.limits ∧
      (addSeam recipe s).ps = s.ps ∧
      (addSeam recipe s).blade = s.blade ∧
      (addSeam recipe s).ru = s.ru ∧
      (addSeam recipe s).rolls = s.rolls ∧
      (addSeam recipe s).link = s.link ∧
      (addSeam recipe s).inputs = s.inputs ∧
      (addSeam recipe s).pending = s.pending ∧
      (addSeam recipe s).races = s.races := by
  simp [addSeam]

@[simp] theorem evaluatePlanning_frame (s : State) :
      (evaluatePlanning s).pc = s.pc ∧
      (evaluatePlanning s).geometry = s.geometry ∧
      (evaluatePlanning s).limits = s.limits ∧
      (evaluatePlanning s).slots = s.slots ∧
      (evaluatePlanning s).ps = s.ps ∧
      (evaluatePlanning s).blade = s.blade ∧
      (evaluatePlanning s).ru = s.ru ∧
      (evaluatePlanning s).lg = s.lg ∧
      (evaluatePlanning s).tu = s.tu ∧
      (evaluatePlanning s).heat = s.heat ∧
      (evaluatePlanning s).link = s.link ∧
      (evaluatePlanning s).events = s.events ∧
      (evaluatePlanning s).inputs = s.inputs ∧
      (evaluatePlanning s).pending = s.pending ∧
      (evaluatePlanning s).races = s.races := by
  refine ⟨?_, ?_, ?_, ?_, ?_, ?_, ?_, ?_, ?_, ?_, ?_, ?_, ?_, ?_, ?_⟩ <;> unfold evaluatePlanning <;> (try dsimp only) <;> repeat' split
  all_goals simp

@[simp] theorem freezeSpeed_frame (s : State) :
      (freezeSpeed s).pc = s.pc ∧
      (freezeSpeed s).geometry = s.geometry ∧
      (freezeSpeed s).limits = s.limits ∧
      (freezeSpeed s).slots = s.slots ∧
      (freezeSpeed s).ps = s.ps ∧
      (freezeSpeed s).blade = s.blade ∧
      (freezeSpeed s).ru = s.ru ∧
      (freezeSpeed s).tu = s.tu ∧
      (freezeSpeed s).heat = s.heat ∧
      (freezeSpeed s).rolls = s.rolls ∧
      (freezeSpeed s).link = s.link ∧
      (freezeSpeed s).events = s.events ∧
      (freezeSpeed s).inputs = s.inputs ∧
      (freezeSpeed s).pending = s.pending ∧
      (freezeSpeed s).races = s.races := by
  refine ⟨?_, ?_, ?_, ?_, ?_, ?_, ?_, ?_, ?_, ?_, ?_, ?_, ?_, ?_, ?_⟩ <;> unfold freezeSpeed <;> (try dsimp only) <;> repeat' split
  all_goals simp

@[simp] theorem fireSplice_frame (kind : SpliceKind) (new : UnwindId) (s : State) :
      (fireSplice kind new s).pc = s.pc ∧
      (fireSplice kind new s).geometry = s.geometry ∧
      (fireSplice kind new s).limits = s.limits ∧
      (fireSplice kind new s).slots = s.slots ∧
      (fireSplice kind new s).ps = s.ps ∧
      (fireSplice kind new s).blade = s.blade ∧
      (fireSplice kind new s).ru = s.ru ∧
      (fireSplice kind new s).tu = s.tu ∧
      (fireSplice kind new s).heat = s.heat ∧
      (fireSplice kind new s).link = s.link ∧
      (fireSplice kind new s).events = s.events ∧
      (fireSplice kind new s).inputs = s.inputs ∧
      (fireSplice kind new s).pending = s.pending ∧
      (fireSplice kind new s).races = s.races := by
  refine ⟨?_, ?_, ?_, ?_, ?_, ?_, ?_, ?_, ?_, ?_, ?_, ?_, ?_, ?_⟩ <;> unfold fireSplice <;> (try dsimp only)
  all_goals simp

@[simp] theorem failPaste_frame (r : SpliceRecord) (s : State) :
      (failPaste r s).pc = s.pc ∧
      (failPaste r s).geometry = s.geometry ∧
      (failPaste r s).limits = s.limits ∧
      (failPaste r s).slots = s.slots ∧
      (failPaste r s).ps = s.ps ∧
      (failPaste r s).blade = s.blade ∧
      (failPaste r s).ru = s.ru ∧
      (failPaste r s).lg = s.lg ∧
      (failPaste r s).tu = s.tu ∧
      (failPaste r s).heat = s.heat ∧
      (failPaste r s).link = s.link ∧
      (failPaste r s).inputs = s.inputs ∧
      (failPaste r s).pending = s.pending ∧
      (failPaste r s).races = s.races := by
  refine ⟨?_, ?_, ?_, ?_, ?_, ?_, ?_, ?_, ?_, ?_, ?_, ?_, ?_, ?_⟩ <;> unfold failPaste <;> (try dsimp only)
  all_goals simp

@[simp] theorem tripSplice_frame (s : State) :
      (tripSplice s).pc = s.pc ∧
      (tripSplice s).geometry = s.geometry ∧
      (tripSplice s).limits = s.limits ∧
      (tripSplice s).slots = s.slots ∧
      (tripSplice s).ps = s.ps ∧
      (tripSplice s).blade = s.blade ∧
      (tripSplice s).ru = s.ru ∧
      (tripSplice s).lg = s.lg ∧
      (tripSplice s).tu = s.tu ∧
      (tripSplice s).heat = s.heat ∧
      (tripSplice s).link = s.link ∧
      (tripSplice s).inputs = s.inputs ∧
      (tripSplice s).pending = s.pending ∧
      (tripSplice s).races = s.races := by
  refine ⟨?_, ?_, ?_, ?_, ?_, ?_, ?_, ?_, ?_, ?_, ?_, ?_, ?_, ?_⟩ <;> unfold tripSplice <;> repeat' split
  all_goals simp

@[simp] theorem endCut_frame (r : SpliceRecord) (s : State) :
      (endCut r s).pc = s.pc ∧
      (endCut r s).geometry = s.geometry ∧
      (endCut r s).limits = s.limits ∧
      (endCut r s).slots = s.slots ∧
      (endCut r s).ps = s.ps ∧
      (endCut r s).blade = s.blade ∧
      (endCut r s).ru = s.ru ∧
      (endCut r s).lg = s.lg ∧
      (endCut r s).tu = s.tu ∧
      (endCut r s).heat = s.heat ∧
      (endCut r s).link = s.link ∧
      (endCut r s).events = s.events ∧
      (endCut r s).inputs = s.inputs ∧
      (endCut r s).pending = s.pending ∧
      (endCut r s).races = s.races := by
  refine ⟨?_, ?_, ?_, ?_, ?_, ?_, ?_, ?_, ?_, ?_, ?_, ?_, ?_, ?_, ?_⟩ <;> unfold endCut <;> (try dsimp only)
  all_goals simp

@[simp] theorem starveTest_frame (s : State) :
      (starveTest s).pc = s.pc ∧
      (starveTest s).geometry = s.geometry ∧
      (starveTest s).limits = s.limits ∧
      (starveTest s).slots = s.slots ∧
      (starveTest s).ps = s.ps ∧
      (starveTest s).blade = s.blade ∧
      (starveTest s).ru = s.ru ∧
      (starveTest s).tu = s.tu ∧
      (starveTest s).heat = s.heat ∧
      (starveTest s).rolls = s.rolls ∧
      (starveTest s).link = s.link ∧
      (starveTest s).inputs = s.inputs ∧
      (starveTest s).pending = s.pending ∧
      (starveTest s).races = s.races := by
  refine ⟨?_, ?_, ?_, ?_, ?_, ?_, ?_, ?_, ?_, ?_, ?_, ?_, ?_, ?_⟩ <;> unfold starveTest <;> (try dsimp only) <;> repeat' split
  all_goals simp

@[simp] theorem liftFreeze_frame (s : State) :
      (liftFreeze s).pc = s.pc ∧
      (liftFreeze s).geometry = s.geometry ∧
      (liftFreeze s).limits = s.limits ∧
      (liftFreeze s).slots = s.slots ∧
      (liftFreeze s).ps = s.ps ∧
      (liftFreeze s).blade = s.blade ∧
      (liftFreeze s).ru = s.ru ∧
      (liftFreeze s).tu = s.tu ∧
      (liftFreeze s).heat = s.heat ∧
      (liftFreeze s).rolls = s.rolls ∧
      (liftFreeze s).link = s.link ∧
      (liftFreeze s).inputs = s.inputs ∧
      (liftFreeze s).pending = s.pending ∧
      (liftFreeze s).races = s.races := by
  simp [liftFreeze]

@[simp] theorem stopLine_frame (s : State) :
      (stopLine s).pc = s.pc ∧
      (stopLine s).geometry = s.geometry ∧
      (stopLine s).limits = s.limits ∧
      (stopLine s).slots = s.slots ∧
      (stopLine s).ps = s.ps ∧
      (stopLine s).blade = s.blade ∧
      (stopLine s).ru = s.ru ∧
      (stopLine s).tu = s.tu ∧
      (stopLine s).heat = s.heat ∧
      (stopLine s).rolls = s.rolls ∧
      (stopLine s).link = s.link ∧
      (stopLine s).events = s.events ∧
      (stopLine s).inputs = s.inputs ∧
      (stopLine s).pending = s.pending ∧
      (stopLine s).races = s.races := by
  simp [stopLine]

@[simp] theorem takeDeferredStop_frame (s : State) :
      (takeDeferredStop s).pc = s.pc ∧
      (takeDeferredStop s).geometry = s.geometry ∧
      (takeDeferredStop s).limits = s.limits ∧
      (takeDeferredStop s).slots = s.slots ∧
      (takeDeferredStop s).ps = s.ps ∧
      (takeDeferredStop s).blade = s.blade ∧
      (takeDeferredStop s).ru = s.ru ∧
      (takeDeferredStop s).tu = s.tu ∧
      (takeDeferredStop s).heat = s.heat ∧
      (takeDeferredStop s).rolls = s.rolls ∧
      (takeDeferredStop s).link = s.link ∧
      (takeDeferredStop s).events = s.events ∧
      (takeDeferredStop s).inputs = s.inputs ∧
      (takeDeferredStop s).pending = s.pending ∧
      (takeDeferredStop s).races = s.races := by
  refine ⟨?_, ?_, ?_, ?_, ?_, ?_, ?_, ?_, ?_, ?_, ?_, ?_, ?_, ?_, ?_⟩ <;> unfold takeDeferredStop <;> (try dsimp only) <;> repeat' split
  all_goals simp

@[simp] theorem spliceOver_frame (s : State) :
      (spliceOver s).pc = s.pc ∧
      (spliceOver s).geometry = s.geometry ∧
      (spliceOver s).limits = s.limits ∧
      (spliceOver s).slots = s.slots ∧
      (spliceOver s).ps = s.ps ∧
      (spliceOver s).blade = s.blade ∧
      (spliceOver s).ru = s.ru ∧
      (spliceOver s).tu = s.tu ∧
      (spliceOver s).heat = s.heat ∧
      (spliceOver s).rolls = s.rolls ∧
      (spliceOver s).link = s.link ∧
      (spliceOver s).inputs = s.inputs ∧
      (spliceOver s).pending = s.pending ∧
      (spliceOver s).races = s.races := by
  refine ⟨?_, ?_, ?_, ?_, ?_, ?_, ?_, ?_, ?_, ?_, ?_, ?_, ?_, ?_⟩ <;> unfold spliceOver <;> repeat' split
  all_goals simp

@[simp] theorem tripFreeze_frame (s : State) :
      (tripFreeze s).pc = s.pc ∧
      (tripFreeze s).geometry = s.geometry ∧
      (tripFreeze s).limits = s.limits ∧
      (tripFreeze s).slots = s.slots ∧
      (tripFreeze s).ps = s.ps ∧
      (tripFreeze s).blade = s.blade ∧
      (tripFreeze s).ru = s.ru ∧
      (tripFreeze s).tu = s.tu ∧
      (tripFreeze s).heat = s.heat ∧
      (tripFreeze s).rolls = s.rolls ∧
      (tripFreeze s).link = s.link ∧
      (tripFreeze s).inputs = s.inputs ∧
      (tripFreeze s).pending = s.pending ∧
      (tripFreeze s).races = s.races := by
  refine ⟨?_, ?_, ?_, ?_, ?_, ?_, ?_, ?_, ?_, ?_, ?_, ?_, ?_, ?_⟩ <;> unfold tripFreeze <;> (try dsimp only) <;> repeat' split
  all_goals simp

@[simp] theorem enterTripped_frame (c : Cause) (s : State) :
      (enterTripped c s).pc = s.pc ∧
      (enterTripped c s).geometry = s.geometry ∧
      (enterTripped c s).limits = s.limits ∧
      (enterTripped c s).slots = s.slots ∧
      (enterTripped c s).ps = s.ps ∧
      (enterTripped c s).blade = s.blade ∧
      (enterTripped c s).ru = s.ru ∧
      (enterTripped c s).tu = s.tu ∧
      (enterTripped c s).heat = s.heat ∧
      (enterTripped c s).link = s.link ∧
      (enterTripped c s).inputs = s.inputs ∧
      (enterTripped c s).pending = s.pending ∧
      (enterTripped c s).races = s.races := by
  simp [enterTripped]

@[simp] theorem stopAtOnce_frame (s : State) :
      (stopAtOnce s).pc = s.pc ∧
      (stopAtOnce s).geometry = s.geometry ∧
      (stopAtOnce s).limits = s.limits ∧
      (stopAtOnce s).slots = s.slots ∧
      (stopAtOnce s).ps = s.ps ∧
      (stopAtOnce s).blade = s.blade ∧
      (stopAtOnce s).ru = s.ru ∧
      (stopAtOnce s).tu = s.tu ∧
      (stopAtOnce s).heat = s.heat ∧
      (stopAtOnce s).rolls = s.rolls ∧
      (stopAtOnce s).link = s.link ∧
      (stopAtOnce s).events = s.events ∧
      (stopAtOnce s).inputs = s.inputs ∧
      (stopAtOnce s).pending = s.pending ∧
      (stopAtOnce s).races = s.races := by
  simp [stopAtOnce]

@[simp] theorem takeCause_frame (c : Cause) (s : State) :
      (takeCause c s).pc = s.pc ∧
      (takeCause c s).geometry = s.geometry ∧
      (takeCause c s).limits = s.limits ∧
      (takeCause c s).slots = s.slots ∧
      (takeCause c s).ps = s.ps ∧
      (takeCause c s).blade = s.blade ∧
      (takeCause c s).ru = s.ru ∧
      (takeCause c s).tu = s.tu ∧
      (takeCause c s).heat = s.heat ∧
      (takeCause c s).link = s.link ∧
      (takeCause c s).inputs = s.inputs ∧
      (takeCause c s).pending = s.pending ∧
      (takeCause c s).races = s.races := by
  refine ⟨?_, ?_, ?_, ?_, ?_, ?_, ?_, ?_, ?_, ?_, ?_, ?_, ?_⟩ <;> unfold takeCause <;> (try dsimp only) <;> repeat' split
  all_goals simp

@[simp] theorem reportCause_frame (c : Cause) (s : State) :
      (reportCause c s).pc = s.pc ∧
      (reportCause c s).geometry = s.geometry ∧
      (reportCause c s).limits = s.limits ∧
      (reportCause c s).slots = s.slots ∧
      (reportCause c s).ps = s.ps ∧
      (reportCause c s).blade = s.blade ∧
      (reportCause c s).ru = s.ru ∧
      (reportCause c s).tu = s.tu ∧
      (reportCause c s).heat = s.heat ∧
      (reportCause c s).link = s.link ∧
      (reportCause c s).inputs = s.inputs ∧
      (reportCause c s).pending = s.pending ∧
      (reportCause c s).races = s.races := by
  refine ⟨?_, ?_, ?_, ?_, ?_, ?_, ?_, ?_, ?_, ?_, ?_, ?_, ?_⟩ <;> unfold reportCause <;> repeat' split
  all_goals simp

@[simp] theorem startGenerators_frame (s : State) :
      (startGenerators s).pc = s.pc ∧
      (startGenerators s).geometry = s.geometry ∧
      (startGenerators s).limits = s.limits ∧
      (startGenerators s).slots = s.slots ∧
      (startGenerators s).ps = s.ps ∧
      (startGenerators s).blade = s.blade ∧
      (startGenerators s).ru = s.ru ∧
      (startGenerators s).tu = s.tu ∧
      (startGenerators s).heat = s.heat ∧
      (startGenerators s).rolls = s.rolls ∧
      (startGenerators s).link = s.link ∧
      (startGenerators s).events = s.events ∧
      (startGenerators s).inputs = s.inputs ∧
      (startGenerators s).pending = s.pending ∧
      (startGenerators s).races = s.races := by
  simp [startGenerators]

@[simp] theorem toActive_frame (k : Fin 32) (s : State) :
      (toActive k s).pc = s.pc ∧
      (toActive k s).geometry = s.geometry ∧
      (toActive k s).limits = s.limits ∧
      (toActive k s).ps = s.ps ∧
      (toActive k s).blade = s.blade ∧
      (toActive k s).ru = s.ru ∧
      (toActive k s).rolls = s.rolls ∧
      (toActive k s).link = s.link ∧
      (toActive k s).inputs = s.inputs ∧
      (toActive k s).pending = s.pending ∧
      (toActive k s).races = s.races := by
  simp [toActive]

@[simp] theorem toSetting_frame (k : Fin 32) (s : State) :
      (toSetting k s).pc = s.pc ∧
      (toSetting k s).geometry = s.geometry ∧
      (toSetting k s).limits = s.limits ∧
      (toSetting k s).ps = s.ps ∧
      (toSetting k s).blade = s.blade ∧
      (toSetting k s).ru = s.ru ∧
      (toSetting k s).lg = s.lg ∧
      (toSetting k s).heat = s.heat ∧
      (toSetting k s).rolls = s.rolls ∧
      (toSetting k s).link = s.link ∧
      (toSetting k s).events = s.events ∧
      (toSetting k s).inputs = s.inputs ∧
      (toSetting k s).pending = s.pending ∧
      (toSetting k s).races = s.races := by
  simp [toSetting]

@[simp] theorem fireStroke_frame (r : StrokeRecord) (s : State) :
      (fireStroke r s).pc = s.pc ∧
      (fireStroke r s).geometry = s.geometry ∧
      (fireStroke r s).limits = s.limits ∧
      (fireStroke r s).ps = s.ps ∧
      (fireStroke r s).ru = s.ru ∧
      (fireStroke r s).lg = s.lg ∧
      (fireStroke r s).tu = s.tu ∧
      (fireStroke r s).heat = s.heat ∧
      (fireStroke r s).rolls = s.rolls ∧
      (fireStroke r s).link = s.link ∧
      (fireStroke r s).events = s.events ∧
      (fireStroke r s).inputs = s.inputs ∧
      (fireStroke r s).pending = s.pending ∧
      (fireStroke r s).races = s.races := by
  simp [fireStroke]

@[simp] theorem countMissed_frame (r : StrokeRecord) (s : State) :
      (countMissed r s).pc = s.pc ∧
      (countMissed r s).geometry = s.geometry ∧
      (countMissed r s).limits = s.limits ∧
      (countMissed r s).ps = s.ps ∧
      (countMissed r s).blade = s.blade ∧
      (countMissed r s).ru = s.ru ∧
      (countMissed r s).lg = s.lg ∧
      (countMissed r s).tu = s.tu ∧
      (countMissed r s).heat = s.heat ∧
      (countMissed r s).rolls = s.rolls ∧
      (countMissed r s).link = s.link ∧
      (countMissed r s).events = s.events ∧
      (countMissed r s).inputs = s.inputs ∧
      (countMissed r s).pending = s.pending ∧
      (countMissed r s).races = s.races := by
  simp [countMissed]

@[simp] theorem missOne_frame (s : State) :
      (missOne s).pc = s.pc ∧
      (missOne s).geometry = s.geometry ∧
      (missOne s).limits = s.limits ∧
      (missOne s).slots = s.slots ∧
      (missOne s).ps = s.ps ∧
      (missOne s).ru = s.ru ∧
      (missOne s).tu = s.tu ∧
      (missOne s).heat = s.heat ∧
      (missOne s).link = s.link ∧
      (missOne s).inputs = s.inputs ∧
      (missOne s).pending = s.pending ∧
      (missOne s).races = s.races := by
  refine ⟨?_, ?_, ?_, ?_, ?_, ?_, ?_, ?_, ?_, ?_, ?_, ?_⟩ <;> unfold missOne <;> (try dsimp only) <;> repeat' split
  all_goals simp

@[simp] theorem skipStroke_frame (r : StrokeRecord) (s : State) :
      (skipStroke r s).pc = s.pc ∧
      (skipStroke r s).geometry = s.geometry ∧
      (skipStroke r s).limits = s.limits ∧
      (skipStroke r s).ps = s.ps ∧
      (skipStroke r s).ru = s.ru ∧
      (skipStroke r s).tu = s.tu ∧
      (skipStroke r s).heat = s.heat ∧
      (skipStroke r s).link = s.link ∧
      (skipStroke r s).inputs = s.inputs ∧
      (skipStroke r s).pending = s.pending ∧
      (skipStroke r s).races = s.races := by
  simp [skipStroke]

@[simp] theorem dealStroke_frame (r : StrokeRecord) (s : State) :
      (dealStroke r s).pc = s.pc ∧
      (dealStroke r s).geometry = s.geometry ∧
      (dealStroke r s).limits = s.limits ∧
      (dealStroke r s).ps = s.ps ∧
      (dealStroke r s).ru = s.ru ∧
      (dealStroke r s).tu = s.tu ∧
      (dealStroke r s).heat = s.heat ∧
      (dealStroke r s).link = s.link ∧
      (dealStroke r s).inputs = s.inputs ∧
      (dealStroke r s).pending = s.pending ∧
      (dealStroke r s).races = s.races := by
  refine ⟨?_, ?_, ?_, ?_, ?_, ?_, ?_, ?_, ?_, ?_, ?_⟩ <;> unfold dealStroke <;> repeat' split
  all_goals simp

@[simp] theorem strokeReached_frame (r : StrokeRecord) (rest : List StrokeRecord) (s : State) :
      (strokeReached r rest s).pc = s.pc ∧
      (strokeReached r rest s).geometry = s.geometry ∧
      (strokeReached r rest s).limits = s.limits ∧
      (strokeReached r rest s).ru = s.ru ∧
      (strokeReached r rest s).heat = s.heat ∧
      (strokeReached r rest s).link = s.link ∧
      (strokeReached r rest s).inputs = s.inputs ∧
      (strokeReached r rest s).pending = s.pending ∧
      (strokeReached r rest s).races = s.races := by
  refine ⟨?_, ?_, ?_, ?_, ?_, ?_, ?_, ?_, ?_⟩ <;> unfold strokeReached <;> (try dsimp only) <;> repeat' split
  all_goals simp

@[simp] theorem reachStroke_frame (s : State) :
      (reachStroke s).pc = s.pc ∧
      (reachStroke s).geometry = s.geometry ∧
      (reachStroke s).limits = s.limits ∧
      (reachStroke s).ru = s.ru ∧
      (reachStroke s).heat = s.heat ∧
      (reachStroke s).link = s.link ∧
      (reachStroke s).inputs = s.inputs ∧
      (reachStroke s).pending = s.pending ∧
      (reachStroke s).races = s.races := by
  refine ⟨?_, ?_, ?_, ?_, ?_, ?_, ?_, ?_, ?_⟩ <;> unfold reachStroke <;> repeat' split
  all_goals simp

@[simp] theorem reachFlatEnd_frame (s : State) :
      (reachFlatEnd s).pc = s.pc ∧
      (reachFlatEnd s).geometry = s.geometry ∧
      (reachFlatEnd s).limits = s.limits ∧
      (reachFlatEnd s).ps = s.ps ∧
      (reachFlatEnd s).blade = s.blade ∧
      (reachFlatEnd s).ru = s.ru ∧
      (reachFlatEnd s).lg = s.lg ∧
      (reachFlatEnd s).heat = s.heat ∧
      (reachFlatEnd s).rolls = s.rolls ∧
      (reachFlatEnd s).link = s.link ∧
      (reachFlatEnd s).events = s.events ∧
      (reachFlatEnd s).inputs = s.inputs ∧
      (reachFlatEnd s).pending = s.pending ∧
      (reachFlatEnd s).races = s.races := by
  refine ⟨?_, ?_, ?_, ?_, ?_, ?_, ?_, ?_, ?_, ?_, ?_, ?_, ?_, ?_⟩ <;> unfold reachFlatEnd <;> repeat' split
  all_goals simp

@[simp] theorem reachStart_frame (s : State) :
      (reachStart s).pc = s.pc ∧
      (reachStart s).geometry = s.geometry ∧
      (reachStart s).limits = s.limits ∧
      (reachStart s).ps = s.ps ∧
      (reachStart s).blade = s.blade ∧
      (reachStart s).ru = s.ru ∧
      (reachStart s).rolls = s.rolls ∧
      (reachStart s).link = s.link ∧
      (reachStart s).inputs = s.inputs ∧
      (reachStart s).pending = s.pending ∧
      (reachStart s).races = s.races := by
  refine ⟨?_, ?_, ?_, ?_, ?_, ?_, ?_, ?_, ?_, ?_, ?_⟩ <;> unfold reachStart <;> repeat' split
  all_goals simp

@[simp] theorem reachLastEnd_frame (rising : Bool) (s : State) :
      (reachLastEnd rising s).pc = s.pc ∧
      (reachLastEnd rising s).geometry = s.geometry ∧
      (reachLastEnd rising s).limits = s.limits ∧
      (reachLastEnd rising s).slots = s.slots ∧
      (reachLastEnd rising s).ps = s.ps ∧
      (reachLastEnd rising s).blade = s.blade ∧
      (reachLastEnd rising s).ru = s.ru ∧
      (reachLastEnd rising s).lg = s.lg ∧
      (reachLastEnd rising s).tu = s.tu ∧
      (reachLastEnd rising s).heat = s.heat ∧
      (reachLastEnd rising s).rolls = s.rolls ∧
      (reachLastEnd rising s).link = s.link ∧
      (reachLastEnd rising s).inputs = s.inputs ∧
      (reachLastEnd rising s).pending = s.pending ∧
      (reachLastEnd rising s).races = s.races := by
  refine ⟨?_, ?_, ?_, ?_, ?_, ?_, ?_, ?_, ?_, ?_, ?_, ?_, ?_, ?_, ?_⟩ <;> unfold reachLastEnd <;> repeat' split
  all_goals simp

@[simp] theorem appendStroke_frame (s : State) :
      (appendStroke s).pc = s.pc ∧
      (appendStroke s).geometry = s.geometry ∧
      (appendStroke s).limits = s.limits ∧
      (appendStroke s).slots = s.slots ∧
      (appendStroke s).blade = s.blade ∧
      (appendStroke s).ru = s.ru ∧
      (appendStroke s).lg = s.lg ∧
      (appendStroke s).tu = s.tu ∧
      (appendStroke s).heat = s.heat ∧
      (appendStroke s).rolls = s.rolls ∧
      (appendStroke s).link = s.link ∧
      (appendStroke s).events = s.events ∧
      (appendStroke s).inputs = s.inputs ∧
      (appendStroke s).pending = s.pending ∧
      (appendStroke s).races = s.races := by
  refine ⟨?_, ?_, ?_, ?_, ?_, ?_, ?_, ?_, ?_, ?_, ?_, ?_, ?_, ?_, ?_⟩ <;> unfold appendStroke <;> (try dsimp only) <;> repeat' split
  all_goals simp

@[simp] theorem generate_frame (n : Nat) (s : State) :
      (generate n s).pc = s.pc ∧
      (generate n s).geometry = s.geometry ∧
      (generate n s).limits = s.limits ∧
      (generate n s).slots = s.slots ∧
      (generate n s).blade = s.blade ∧
      (generate n s).ru = s.ru ∧
      (generate n s).lg = s.lg ∧
      (generate n s).tu = s.tu ∧
      (generate n s).heat = s.heat ∧
      (generate n s).rolls = s.rolls ∧
      (generate n s).link = s.link ∧
      (generate n s).events = s.events ∧
      (generate n s).inputs = s.inputs ∧
      (generate n s).pending = s.pending ∧
      (generate n s).races = s.races := by
  induction n generalizing s with
  | zero => simp [generate]
  | succ n ih =>
    unfold generate
    split <;> simp [ih]

@[simp] theorem checkGarment_frame (k : Fin 32) (s : State) :
      (checkGarment k s).pc = s.pc ∧
      (checkGarment k s).geometry = s.geometry ∧
      (checkGarment k s).limits = s.limits ∧
      (checkGarment k s).blade = s.blade ∧
      (checkGarment k s).ru = s.ru ∧
      (checkGarment k s).lg = s.lg ∧
      (checkGarment k s).tu = s.tu ∧
      (checkGarment k s).heat = s.heat ∧
      (checkGarment k s).rolls = s.rolls ∧
      (checkGarment k s).link = s.link ∧
      (checkGarment k s).events = s.events ∧
      (checkGarment k s).inputs = s.inputs ∧
      (checkGarment k s).pending = s.pending ∧
      (checkGarment k s).races = s.races := by
  simp [checkGarment]

@[simp] theorem placePanel_frame (k : Fin 32) (start : Nat) (reg : Registered) (s : State) :
      (placePanel k start reg s).pc = s.pc ∧
      (placePanel k start reg s).geometry = s.geometry ∧
      (placePanel k start reg s).limits = s.limits ∧
      (placePanel k start reg s).blade = s.blade ∧
      (placePanel k start reg s).ru = s.ru ∧
      (placePanel k start reg s).lg = s.lg ∧
      (placePanel k start reg s).tu = s.tu ∧
      (placePanel k start reg s).heat = s.heat ∧
      (placePanel k start reg s).rolls = s.rolls ∧
      (placePanel k start reg s).link = s.link ∧
      (placePanel k start reg s).events = s.events ∧
      (placePanel k start reg s).inputs = s.inputs ∧
      (placePanel k start reg s).pending = s.pending ∧
      (placePanel k start reg s).races = s.races := by
  simp [placePanel]

@[simp] theorem finishCommit_frame (k : Fin 32) (start : Nat) (reg : Registered) (s : State) :
      (finishCommit k start reg s).pc = s.pc ∧
      (finishCommit k start reg s).geometry = s.geometry ∧
      (finishCommit k start reg s).limits = s.limits ∧
      (finishCommit k start reg s).blade = s.blade ∧
      (finishCommit k start reg s).ru = s.ru ∧
      (finishCommit k start reg s).link = s.link ∧
      (finishCommit k start reg s).inputs = s.inputs ∧
      (finishCommit k start reg s).pending = s.pending ∧
      (finishCommit k start reg s).races = s.races := by
  refine ⟨?_, ?_, ?_, ?_, ?_, ?_, ?_, ?_, ?_⟩ <;> unfold finishCommit <;> (try dsimp only) <;> repeat' split
  all_goals simp

@[simp] theorem commitSlot_frame (k : Fin 32) (s : State) :
      (commitSlot k s).pc = s.pc ∧
      (commitSlot k s).geometry = s.geometry ∧
      (commitSlot k s).limits = s.limits ∧
      (commitSlot k s).blade = s.blade ∧
      (commitSlot k s).ru = s.ru ∧
      (commitSlot k s).link = s.link ∧
      (commitSlot k s).inputs = s.inputs ∧
      (commitSlot k s).pending = s.pending ∧
      (commitSlot k s).races = s.races := by
  simp [commitSlot]

@[simp] theorem countSkipped_frame (k : Fin 32) (n : Nat) (s : State) :
      (countSkipped k n s).pc = s.pc ∧
      (countSkipped k n s).geometry = s.geometry ∧
      (countSkipped k n s).limits = s.limits ∧
      (countSkipped k n s).ps = s.ps ∧
      (countSkipped k n s).blade = s.blade ∧
      (countSkipped k n s).ru = s.ru ∧
      (countSkipped k n s).lg = s.lg ∧
      (countSkipped k n s).tu = s.tu ∧
      (countSkipped k n s).heat = s.heat ∧
      (countSkipped k n s).rolls = s.rolls ∧
      (countSkipped k n s).link = s.link ∧
      (countSkipped k n s).events = s.events ∧
      (countSkipped k n s).inputs = s.inputs ∧
      (countSkipped k n s).pending = s.pending ∧
      (countSkipped k n s).races = s.races := by
  simp [countSkipped]

@[simp] theorem acceptMark_frame (r : SearchRecord) (mk : Mark) (s : State) :
      (acceptMark r mk s).pc = s.pc ∧
      (acceptMark r mk s).geometry = s.geometry ∧
      (acceptMark r mk s).limits = s.limits ∧
      (acceptMark r mk s).blade = s.blade ∧
      (acceptMark r mk s).ru = s.ru ∧
      (acceptMark r mk s).link = s.link ∧
      (acceptMark r mk s).inputs = s.inputs ∧
      (acceptMark r mk s).pending = s.pending ∧
      (acceptMark r mk s).races = s.races := by
  simp [acceptMark]

@[simp] theorem setUpSearch_frame (k : Fin 32) (part : RegistrationPart) (s : State) :
      (setUpSearch k part s).pc = s.pc ∧
      (setUpSearch k part s).geometry = s.geometry ∧
      (setUpSearch k part s).limits = s.limits ∧
      (setUpSearch k part s).blade = s.blade ∧
      (setUpSearch k part s).link = s.link ∧
      (setUpSearch k part s).inputs = s.inputs ∧
      (setUpSearch k part s).pending = s.pending ∧
      (setUpSearch k part s).races = s.races := by
  refine ⟨?_, ?_, ?_, ?_, ?_, ?_, ?_, ?_⟩ <;> unfold setUpSearch <;> (try dsimp only) <;> repeat' split
  all_goals simp

@[simp] theorem takeSlot_frame (s : State) :
      (takeSlot s).pc = s.pc ∧
      (takeSlot s).geometry = s.geometry ∧
      (takeSlot s).limits = s.limits ∧
      (takeSlot s).blade = s.blade ∧
      (takeSlot s).link = s.link ∧
      (takeSlot s).inputs = s.inputs ∧
      (takeSlot s).pending = s.pending ∧
      (takeSlot s).races = s.races := by
  refine ⟨?_, ?_, ?_, ?_, ?_, ?_, ?_, ?_⟩ <;> unfold takeSlot <;> repeat' split
  all_goals simp

@[simp] theorem loseSearch_frame (r : SearchRecord) (s : State) :
      (loseSearch r s).pc = s.pc ∧
      (loseSearch r s).geometry = s.geometry ∧
      (loseSearch r s).limits = s.limits ∧
      (loseSearch r s).blade = s.blade ∧
      (loseSearch r s).ru = s.ru ∧
      (loseSearch r s).link = s.link ∧
      (loseSearch r s).inputs = s.inputs ∧
      (loseSearch r s).pending = s.pending ∧
      (loseSearch r s).races = s.races := by
  simp [loseSearch]

@[simp] theorem reachLoss_frame (s : State) :
      (reachLoss s).pc = s.pc ∧
      (reachLoss s).geometry = s.geometry ∧
      (reachLoss s).limits = s.limits ∧
      (reachLoss s).blade = s.blade ∧
      (reachLoss s).ru = s.ru ∧
      (reachLoss s).link = s.link ∧
      (reachLoss s).inputs = s.inputs ∧
      (reachLoss s).pending = s.pending ∧
      (reachLoss s).races = s.races := by
  refine ⟨?_, ?_, ?_, ?_, ?_, ?_, ?_, ?_, ?_⟩ <;> unfold reachLoss <;> repeat' split
  all_goals simp

@[simp] theorem takeReady_frame (n : Nat) (s : State) :
      (takeReady n s).pc = s.pc ∧
      (takeReady n s).geometry = s.geometry ∧
      (takeReady n s).limits = s.limits ∧
      (takeReady n s).blade = s.blade ∧
      (takeReady n s).link = s.link ∧
      (takeReady n s).inputs = s.inputs ∧
      (takeReady n s).pending = s.pending ∧
      (takeReady n s).races = s.races := by
  induction n generalizing s with
  | zero => simp [takeReady]
  | succ n ih =>
    unfold takeReady
    split <;> simp [ih]

@[simp] theorem settlePS_frame (s : State) :
      (settlePS s).pc = s.pc ∧
      (settlePS s).geometry = s.geometry ∧
      (settlePS s).limits = s.limits ∧
      (settlePS s).blade = s.blade ∧
      (settlePS s).link = s.link ∧
      (settlePS s).inputs = s.inputs ∧
      (settlePS s).pending = s.pending ∧
      (settlePS s).races = s.races := by
  simp [settlePS]

@[simp] theorem refresh_frame (s : State) :
      (refresh s).pc = s.pc ∧
      (refresh s).geometry = s.geometry ∧
      (refresh s).limits = s.limits ∧
      (refresh s).blade = s.blade ∧
      (refresh s).link = s.link ∧
      (refresh s).inputs = s.inputs ∧
      (refresh s).pending = s.pending ∧
      (refresh s).races = s.races := by
  simp [refresh]

end Sys2Proof.Machine
end

