-- ==== Sys2Proof/Laws/PerInstr.lean ====
section
/-! SUPPORT. Statements made for every command one by one: the request a command carries determines the command. -/

namespace Sys2Proof.Laws

/-- A command that carries a request is the command of that request, from the source it came from (R181, R197). -/
def Carried.Statement (i : Instr) : Prop := ∀ r : Request, i.request = some r → ∃ src, i = r.command src

theorem Carried.powerOnReset (p : PowerOnSamples) : Carried.Statement (.powerOnReset p) := fun _ h => nomatch h
theorem Carried.encoderChange (e : Encoder) (pair : ChannelPair) : Carried.Statement (.encoderChange e pair) :=
  fun _ h => nomatch h
theorem Carried.commit : Carried.Statement .commit := fun _ h => nomatch h
theorem Carried.searchSetup : Carried.Statement .searchSetup := fun _ h => nomatch h
theorem Carried.strokeGenerate : Carried.Statement .strokeGenerate := fun _ h => nomatch h
theorem Carried.markEdge (active : Bool) : Carried.Statement (.markEdge active) := fun _ h => nomatch h
theorem Carried.bladeHomeChange (active : Bool) : Carried.Statement (.bladeHomeChange active) := fun _ h => nomatch h
theorem Carried.bladeSlowTime : Carried.Statement .bladeSlowTime := fun _ h => nomatch h
theorem Carried.bladeTimeout : Carried.Statement .bladeTimeout := fun _ h => nomatch h
theorem Carried.eStop : Carried.Statement .eStop := fun _ h => nomatch h
theorem Carried.webBreak : Carried.Statement .webBreak := fun _ h => nomatch h
theorem Carried.takeOffHoldChange (active : Bool) : Carried.Statement (.takeOffHoldChange active) :=
  fun _ h => nomatch h
theorem Carried.revolutionMarkerEdge (u : UnwindId) (elapsedUs : Nat) : Carried.Statement (.revolutionMarkerEdge u elapsedUs) :=
  fun _ h => nomatch h
theorem Carried.pasteConfirm : Carried.Statement .pasteConfirm := fun _ h => nomatch h
theorem Carried.cutConfirm : Carried.Statement .cutConfirm := fun _ h => nomatch h
theorem Carried.pasteTimeout : Carried.Statement .pasteTimeout := fun _ h => nomatch h
theorem Carried.cutTimeout : Carried.Statement .cutTimeout := fun _ h => nomatch h
theorem Carried.rampTimer : Carried.Statement .rampTimer := fun _ h => nomatch h
theorem Carried.stepPeriodEnd (g : StepOutput) : Carried.Statement (.stepPeriodEnd g) := fun _ h => nomatch h
theorem Carried.scan (t1 t2 t3 t4 pressure : Fin 4096) : Carried.Statement (.scan t1 t2 t3 t4 pressure) :=
  fun _ h => nomatch h
theorem Carried.settleComplete (z : Fin 4) : Carried.Statement (.settleComplete z) := fun _ h => nomatch h
theorem Carried.stopTimerFire : Carried.Statement .stopTimerFire := fun _ h => nomatch h
theorem Carried.controlStep : Carried.Statement .controlStep := fun _ h => nomatch h
theorem Carried.valveBoundary : Carried.Statement .valveBoundary := fun _ h => nomatch h
theorem Carried.valveOnTimeEnd (z : Fin 4) : Carried.Statement (.valveOnTimeEnd z) := fun _ h => nomatch h
theorem Carried.addressCharacter (v : Byte) : Carried.Statement (.addressCharacter v) := fun _ h => nomatch h
theorem Carried.dataCharacter (v : Byte) : Carried.Statement (.dataCharacter v) := fun _ h => nomatch h
theorem Carried.framingError : Carried.Statement .framingError := fun _ h => nomatch h
theorem Carried.gapTimeout : Carried.Statement .gapTimeout := fun _ h => nomatch h
theorem Carried.replySent : Carried.Statement .replySent := fun _ h => nomatch h
theorem Carried.identify (src : Source) : Carried.Statement (.identify src) :=
  fun _ h => ⟨src, by cases Option.some.inj h; rfl⟩
theorem Carried.readLink (src : Source) (clear : Nat) : Carried.Statement (.readLink src clear) :=
  fun _ h => ⟨src, by cases Option.some.inj h; rfl⟩
theorem Carried.setLimits (src : Source) (maxTemp maxSpeed minDwell : Nat) : Carried.Statement (.setLimits src maxTemp maxSpeed minDwell) :=
  fun _ h => ⟨src, by cases Option.some.inj h; rfl⟩
theorem Carried.setGeometry (src : Source) (g : GeometryFields) : Carried.Statement (.setGeometry src g) :=
  fun _ h => ⟨src, by cases Option.some.inj h; rfl⟩
theorem Carried.setRecipe (src : Source) (r : RecipeFields) : Carried.Statement (.setRecipe src r) :=
  fun _ h => ⟨src, by cases Option.some.inj h; rfl⟩
theorem Carried.setZoneTuning (src : Source) (zone kp ki : Nat) : Carried.Statement (.setZoneTuning src zone kp ki) :=
  fun _ h => ⟨src, by cases Option.some.inj h; rfl⟩
theorem Carried.setMarkCode (src : Source) (entry enabled count code mask : Nat) : Carried.Statement (.setMarkCode src entry enabled count code mask) :=
  fun _ h => ⟨src, by cases Option.some.inj h; rfl⟩
theorem Carried.setEventMask (src : Source) (mask classes : Nat) : Carried.Statement (.setEventMask src mask classes) :=
  fun _ h => ⟨src, by cases Option.some.inj h; rfl⟩
theorem Carried.loadPanel (src : Source) (slot : Nat) (p : PanelFields) : Carried.Statement (.loadPanel src slot p) :=
  fun _ h => ⟨src, by cases Option.some.inj h; rfl⟩
theorem Carried.cancelPanel (src : Source) (slot : Nat) : Carried.Statement (.cancelPanel src slot) :=
  fun _ h => ⟨src, by cases Option.some.inj h; rfl⟩
theorem Carried.releasePanel (src : Source) (slot : Nat) : Carried.Statement (.releasePanel src slot) :=
  fun _ h => ⟨src, by cases Option.some.inj h; rfl⟩
theorem Carried.readPanel (src : Source) (slot : Nat) : Carried.Statement (.readPanel src slot) :=
  fun _ h => ⟨src, by cases Option.some.inj h; rfl⟩
theorem Carried.readRing (src : Source) : Carried.Statement (.readRing src) :=
  fun _ h => ⟨src, by cases Option.some.inj h; rfl⟩
theorem Carried.start (src : Source) : Carried.Statement (.start src) :=
  fun _ h => ⟨src, by cases Option.some.inj h; rfl⟩
theorem Carried.stop (src : Source) : Carried.Statement (.stop src) :=
  fun _ h => ⟨src, by cases Option.some.inj h; rfl⟩
theorem Carried.setSpeed (src : Source) (speed : Nat) : Carried.Statement (.setSpeed src speed) :=
  fun _ h => ⟨src, by cases Option.some.inj h; rfl⟩
theorem Carried.trip (src : Source) : Carried.Statement (.trip src) :=
  fun _ h => ⟨src, by cases Option.some.inj h; rfl⟩
theorem Carried.clearTrip (src : Source) : Carried.Statement (.clearTrip src) :=
  fun _ h => ⟨src, by cases Option.some.inj h; rfl⟩
theorem Carried.lineReset (src : Source) : Carried.Statement (.lineReset src) :=
  fun _ h => ⟨src, by cases Option.some.inj h; rfl⟩
theorem Carried.readLine (src : Source) : Carried.Statement (.readLine src) :=
  fun _ h => ⟨src, by cases Option.some.inj h; rfl⟩
theorem Carried.heatOn (src : Source) : Carried.Statement (.heatOn src) :=
  fun _ h => ⟨src, by cases Option.some.inj h; rfl⟩
theorem Carried.heatOff (src : Source) : Carried.Statement (.heatOff src) :=
  fun _ h => ⟨src, by cases Option.some.inj h; rfl⟩
theorem Carried.readHeat (src : Source) (recipe : Nat) : Carried.Statement (.readHeat src recipe) :=
  fun _ h => ⟨src, by cases Option.some.inj h; rfl⟩
theorem Carried.rollReady (src : Source) (unwind diameter recipe threaded : Nat) : Carried.Statement (.rollReady src unwind diameter recipe threaded) :=
  fun _ h => ⟨src, by cases Option.some.inj h; rfl⟩
theorem Carried.rollRemoved (src : Source) (unwind : Nat) : Carried.Statement (.rollRemoved src unwind) :=
  fun _ h => ⟨src, by cases Option.some.inj h; rfl⟩
theorem Carried.readRolls (src : Source) : Carried.Statement (.readRolls src) :=
  fun _ h => ⟨src, by cases Option.some.inj h; rfl⟩
theorem Carried.readTracking (src : Source) (index : Nat) : Carried.Statement (.readTracking src index) :=
  fun _ h => ⟨src, by cases Option.some.inj h; rfl⟩
theorem Carried.readEvents (src : Source) (index : Nat) : Carried.Statement (.readEvents src index) :=
  fun _ h => ⟨src, by cases Option.some.inj h; rfl⟩
theorem Carried.ackEvents (src : Source) (classes : Nat) : Carried.Statement (.ackEvents src classes) :=
  fun _ h => ⟨src, by cases Option.some.inj h; rfl⟩
theorem Carried.eStopReleased : Carried.Statement .eStopReleased := fun _ h => nomatch h
theorem Carried.webBreakReleased : Carried.Statement .webBreakReleased := fun _ h => nomatch h
theorem Carried.pasteConfirmInactive : Carried.Statement .pasteConfirmInactive := fun _ h => nomatch h
theorem Carried.cutConfirmInactive : Carried.Statement .cutConfirmInactive := fun _ h => nomatch h

end Sys2Proof.Laws
end

