-- ==== Sys2Proof/Tests/Slice0.lean ====
section
/-! SUPPORT. Tests: ill-formed requests refused, worked examples of spec/, and a state that meets the hypotheses of each
statement, clause by clause. -/

namespace Sys2Proof.Tests

open Sys2Proof Sys2Proof.Machine Sys2Proof.Safety

/-! ### Building states -/

/-- A geometry that passes every check, at the web scale of the worked conversion (chapter 1). -/
def geo : GeometryFields :=
  { s := 39370, sb := 20000, webSense := 0, beltSense := 0, ms := 1800, h := 9500, reverseLimit := 50,
    commitHorizon := 3000, minPitch := 300, bladeSlow := 60, bladeTimeout := 250, minBar := 40, wideThreshold := 120,
    groupGap := 800, rampStep := 20, tripRampStep := 50, infeedSteps := 50000, beltSteps := 20000,
    starveThreshold := 4000, starveHysteresis := 1000, ce := 600, zs1 := 600, ze1 := 1300, zs2 := 1350, ze2 := 2100,
    zs3 := 2150, ze3 := 2850, zs4 := 2900, ze4 := 3600, cx := 3600, takeOff := 4500, dArm := 2500, dLast := 1800,
    dCore := 1200, seamMargin := 1000, armLead := 500, pasteTimeout := 2000, cutTimeout := 1500 }

/-- A KNIFE panel of four pleats. -/
def pan : PanelFields :=
  { garment := 710, first := 1, last := 0, kind := 0, pleats := 4, f0 := 1200, d0 := 800, df := 50, dd := 0,
    gap := 2000, direction := 1, registered := 0, entry := 0, offset := 0, window := 0 }

/-- A recipe that uses zones 1 to 4. -/
def rcp : RecipeFields :=
  { index := 7, setpoint1 := 1400, setpoint2 := 1400, setpoint3 := 1400, setpoint4 := 1400, band := 50, standby := 900,
    dmin := 200, dmax := 60, minPressure := 100, settle := 10 }

/-- Configured and STOPPED: geometry valid, limits set, host speed 1,200. -/
def base : State := { State.reset with
  geometry := { valid := true, given := geo }
  limits := { isSet := true, maxTemp := 1800, maxSpeed := 2500, minDwell := 10 }
  lg := { State.reset.lg with lineState := .stopped, hostSpeed := 1200 } }

/-- An unwind in a given state. -/
def roll (st : UnwindState) (diameter : Nat) (capture : Option Nat) (matches_ : Nat) : Unwind :=
  { state := st, recipe := 0, diameter := diameter, lastCapture := capture, lastRev := none, matchCount := matches_ }

/-- `base` with the two unwinds given. -/
def rolls (a b : Unwind) : State := { base with rolls := { base.rolls with a := a, b := b } }

/-- `base` with a roll RUNNING and the heat switch on: START is accepted. -/
def ready : State :=
  let s := rolls (roll .running 9000 none 0) emptyUnwind
  { s with heat := { s.heat with heatOn := true } }

/-- `ready` in RUNNING at a reference of 600. -/
def running : State := { ready with lg := { ready.lg with lineState := .running, reference := 600 } }

/-- `base` in TRIPPED by LINK, at rest. -/
def tripped : State := { base with lg := { base.lg with lineState := .tripped, primary := some .link } }

/-- `base` with the receiver in a given state. -/
def hearing (r : Receiver) : State := { base with link := { base.link with receiver := r } }

/-- `base` at a web position. -/
def atWeb (w : Nat) : State := { base with pc := { base.pc with webPosition := w, highWater := w } }

/-- `s` with slot 0 QUEUED with the panel given. -/
def queue0 (p : PanelRecord) (s : State) : State := setSlot 0 { panel := p, status := queuedStatus p geo.s } s

/-- A registered panel. -/
def regPanel : PanelRecord := { panelOfFields pan with registration := some { entry := 2, offset := 0, window := 1000 } }

/-- `s` with one zone replaced. -/
def zoned (z : Fin 4) (f : Zone → Zone) (s : State) : State := modifyZone z f s

/-- `s` with a stroke at the head of the queue. -/
def struck (w : Nat) (last : Bool) (s : State) : State := { s with ps := { s.ps with
  strokes := [{ position := w, direction := .left, slot := 0, pleat := 0, part := .whole, last := last, q := 2333 }] } }

/-- `s` with a splice record in a phase. -/
def spliced (p : SplicePhase) (overdue : Bool) (s : State) : State := { s with rolls := { s.rolls with
  splice := some { new := .B, kind := .planned, position := 5, phase := p, time := 0, timeout := 2000, overdue := overdue } } }

/-- The field of a next state, or a default where the command stops. -/
def after {α : Type} (d : α) (f : State → α) (o : Host.Outcome State Fault Refusal) : α :=
  match o with
  | .next t => f t
  | .fault _ => d
  | .refused _ => d

/-! ### Ill-formed requests (section 11.4): each field one too large for its characters -/

theorem test_readLink_ill : ¬ (Request.readLink 256).WellFormed := by decide
theorem test_setLimits_ill : ¬ (Request.setLimits 65536 0 0).WellFormed ∧ ¬ (Request.setLimits 0 65536 0).WellFormed ∧
    ¬ (Request.setLimits 0 0 65536).WellFormed := by decide
set_option synthInstance.maxSize 1000 in
theorem test_setGeometry_ill : ∀ g ∈ [
    { geo with s := 16777216 }, { geo with sb := 16777216 }, { geo with webSense := 256 }, { geo with beltSense :=
    256 }, { geo with ms := 65536 }, { geo with h := 65536 }, { geo with reverseLimit := 65536 }, { geo with
    commitHorizon := 16777216 }, { geo with minPitch := 65536 }, { geo with bladeSlow := 65536 }, { geo with
    bladeTimeout := 65536 }, { geo with minBar := 65536 }, { geo with wideThreshold := 65536 }, { geo with groupGap
    := 65536 }, { geo with rampStep := 256 }, { geo with tripRampStep := 65536 }, { geo with infeedSteps := 16777216
    }, { geo with beltSteps := 16777216 }, { geo with starveThreshold := 16777216 }, { geo with starveHysteresis :=
    65536 }, { geo with ce := 65536 }, { geo with zs1 := 65536 }, { geo with ze1 := 65536 }, { geo with zs2 := 65536
    }, { geo with ze2 := 65536 }, { geo with zs3 := 65536 }, { geo with ze3 := 65536 }, { geo with zs4 := 65536 }, {
    geo with ze4 := 65536 }, { geo with cx := 65536 }, { geo with takeOff := 16777216 }, { geo with dArm := 65536 },
    { geo with dLast := 65536 }, { geo with dCore := 65536 }, { geo with seamMargin := 16777216 }, { geo with
    armLead := 16777216 }, { geo with pasteTimeout := 65536 }, { geo with cutTimeout := 65536 }],
    ¬ (g : GeometryFields).WellFormed := by decide
set_option synthInstance.maxSize 1000 in
theorem test_setRecipe_ill : ∀ g ∈ [
    { rcp with index := 256 }, { rcp with setpoint1 := 65536 }, { rcp with setpoint2 := 65536 }, { rcp with
    setpoint3 := 65536 }, { rcp with setpoint4 := 65536 }, { rcp with band := 256 }, { rcp with standby := 65536 },
    { rcp with dmin := 65536 }, { rcp with dmax := 65536 }, { rcp with minPressure := 65536 }, { rcp with settle :=
    256 }],
    ¬ (g : RecipeFields).WellFormed := by decide
theorem test_setZoneTuning_ill : ¬ (Request.setZoneTuning 256 0 0).WellFormed ∧
    ¬ (Request.setZoneTuning 0 65536 0).WellFormed ∧ ¬ (Request.setZoneTuning 0 0 256).WellFormed := by decide
theorem test_setMarkCode_ill : ¬ (Request.setMarkCode 256 0 0 0 0).WellFormed ∧
    ¬ (Request.setMarkCode 0 256 0 0 0).WellFormed ∧ ¬ (Request.setMarkCode 0 0 256 0 0).WellFormed ∧
    ¬ (Request.setMarkCode 0 0 0 256 0).WellFormed ∧ ¬ (Request.setMarkCode 0 0 0 0 256).WellFormed := by decide
theorem test_setEventMask_ill : ¬ (Request.setEventMask 256 0).WellFormed ∧
    ¬ (Request.setEventMask 0 65536).WellFormed := by decide
theorem test_loadPanel_slot_ill : ¬ (Request.loadPanel 256 pan).WellFormed := by decide
set_option synthInstance.maxSize 1000 in
theorem test_loadPanel_ill : ∀ g ∈ [
    { pan with garment := 65536 }, { pan with first := 256 }, { pan with last := 256 }, { pan with kind := 256 }, {
    pan with pleats := 256 }, { pan with f0 := 65536 }, { pan with d0 := 65536 }, { pan with df := 32768 }, { pan
    with df := -32769 }, { pan with dd := 32768 }, { pan with dd := -32769 }, { pan with gap := 16777216 }, { pan
    with direction := 256 }, { pan with registered := 256 }, { pan with entry := 256 }, { pan with offset :=
    16777216 }, { pan with window := 16777216 }],
    ¬ (g : PanelFields).WellFormed := by decide
theorem test_slot_numbers_ill : ¬ (Request.cancelPanel 256).WellFormed ∧ ¬ (Request.releasePanel 256).WellFormed ∧
    ¬ (Request.readPanel 256).WellFormed := by decide
theorem test_setSpeed_ill : ¬ (Request.setSpeed 65536).WellFormed := by decide
theorem test_roll_requests_ill : ¬ (Request.rollReady 256 0 0 0).WellFormed ∧
    ¬ (Request.rollReady 0 65536 0 0).WellFormed ∧ ¬ (Request.rollReady 0 0 256 0).WellFormed ∧
    ¬ (Request.rollReady 0 0 0 256).WellFormed ∧ ¬ (Request.rollRemoved 256).WellFormed := by decide
theorem test_indexes_ill : ¬ (Request.readHeat 256).WellFormed ∧ ¬ (Request.readTracking 256).WellFormed ∧
    ¬ (Request.readEvents 256).WellFormed ∧ ¬ (Request.ackEvents 65536).WellFormed := by decide
theorem test_command_ill : ¬ (Instr.setSpeed .broadcast 65536).WellFormed := by
  show ¬ (Request.setSpeed 65536).WellFormed
  decide

/-! ### Worked examples: every expected value is the spec's -/

/-- Section 3.4: 2,000 hundredths at 39,370 counts per metre. -/
theorem test_conversion : countsOfHundredths 2000 39370 = 787 := by decide

/-- R23's example: gap counts 787, panel counts 4,528, planned count 5,315. -/
theorem test_loadPanel_worked : (serveLoadPanel 4 pan base).2 =
    .done (bytesOf 3 787 ++ bytesOf 3 4528 ++ bytesOf 3 5315) := by decide

/-- R38's examples: check 1 at pleat 11, check 3 at pleat 0. -/
theorem test_pleat_refusals :
    pleatRefusal { panelOfFields pan with f0 := 2000, df := -200, pleats := 12 } geo = some (1, 11) ∧
    pleatRefusal { panelOfFields pan with f0 := 300, d0 := 900 } geo = some (3, 0) := by decide

/-- Section 3.5: the strokes of the worked graded panel, which starts at 100,787. -/
theorem test_graded_panel :
    ((strokesFrom (panelOfFields pan) 39370 4 (takenUp 4 100787)).map fun r => (r.position, r.q, r.last)) =
    [(101889, 2333, false), (103011, 2280, false), (104153, 2231, false), (105315, 2185, true)] := by decide

/-- Section 3.6: the strokes of the worked box panel, as offsets from its start. -/
theorem test_box_panel :
    ((strokesFrom { panelOfFields pan with kind := .box, pleats := 3, f0 := 1000, d0 := 500, df := 0, dd := -50 } 39370 6
      (takenUp 0 0)).map fun r => (r.position, r.direction, r.part, r.last)) =
    [(591, .right, .firstHalf, false), (1181, .left, .secondHalf, false), (1732, .right, .firstHalf, false),
      (2283, .left, .secondHalf, false), (2795, .right, .firstHalf, false), (3307, .left, .secondHalf, true)] := by
  decide

/-- R11's example: H of 1,500 mm against Ms of 1,800 mm is refused for field 6. -/
theorem test_geometry_order : geometryRefusal geo = none ∧ geometryRefusal { geo with h := 1500 } = some 6 := by decide

/-- R14's example: a second SET-LIMITS is LOCKED, and the first stands. -/
theorem test_limits_lock :
    (serveSetLimits 1800 2500 150 .reset).2 = .done (bytesOf 2 1800 ++ bytesOf 2 2500 ++ bytesOf 2 150) ∧
    (serveSetLimits 2000 2500 150 base).2 = .refused .locked [0] := by decide

/-- The recipe of R133's example. -/
def exampleRecipe : RecipeFields :=
  { index := 3, setpoint1 := 1450, setpoint2 := 1900, setpoint3 := 0, setpoint4 := 1500, band := 30, standby := 900,
    dmin := 120, dmax := 60, minPressure := 180, settle := 30 }

/-- `base` with a minimum dwell of 150. -/
def base150 : State := { base with limits := { base.limits with minDwell := 150 } }

/-- R133's example: zone 2 and Dmin adjusted (bits 1 and 6); Dmax 14 is refused for field 9. -/
theorem test_recipe_adjusted :
    (serveSetRecipe exampleRecipe base150).2 =
      .done ([3] ++ bytesOf 2 1450 ++ bytesOf 2 1800 ++ bytesOf 2 0 ++ bytesOf 2 1500 ++ [30] ++ bytesOf 2 900 ++
        bytesOf 2 150 ++ bytesOf 2 60 ++ bytesOf 2 180 ++ [30] ++ [66]) ∧
    (serveSetRecipe { exampleRecipe with dmax := 14 } base150).2 = .refused .range [9] := by decide

/-- R130's examples. -/
theorem test_convert : convertTemp 1900 = 1392 ∧ convertPressure 1200 = 293 := by decide

/-- The worked filter of section 8.1. -/
theorem test_filter :
    let scans := fun rs : List (Fin 4096) =>
      rs.foldl (fun c r => scanChannel r c) { filter := none, openCondition := false }
    (scans [1880, 1900]).filter.map Filter.value = some 1381 ∧
    (scans [1880, 1900, 1910]).filter.map Filter.value = some 1386 ∧
    (scans [1880, 1900, 1910, 4095]).filter.map Filter.value = some 1386 ∧
    (scans [1880, 1900, 1910, 4095]).openCondition = true := by decide

/-- Zone 3 of the worked control steps, with a given I. -/
def tuned (i : Nat) : Zone := { resetZone with state := .warming, kp := 40, ki := 8, integral := i }

/-- The worked control steps of section 8.4: I and duty after each row. -/
theorem test_control_steps :
    ([(300, 1380), (328, 1000), (328, 1500), (308, 1457), (306, 1600)].map fun row =>
      let z := controlledZone (controlError 1450 row.2) (tuned row.1)
      (z.integral, z.duty)) = [(328, 608), (328, 1000), (308, 108), (306, 278), (306, 0)] := by decide

/-- The worked diameter figures of section 9.2, and the rejection bound. -/
theorem test_diameters :
    [49473, 31000, 30900, 22300, 22260].map (diameterOf · 39370) = [4000, 2506, 2498, 1803, 1800] ∧
    rejectsCount (some 49473) 51019 = false ∧ rejectsCount (some 49473) 51020 = true := by decide

/-- The worked match of section 9.3. -/
theorem test_match :
    surfaceSpeed 8000 8980000 = 2799 ∧ revolutionPasses 2799 2800 = true ∧
    surfaceSpeed 8000 9100000 = 2762 ∧ revolutionPasses 2762 2800 = false := by decide

/-- The worked feed figures of section 6.7, and the bounds. -/
theorem test_periods :
    [(2800, 50000), (2736, 50000), (1200, 50000), (1200, 20000), (8, 20000), (7, 20000), (15000, 400000)].map
      (fun x => stepPeriod x.1 x.2) = [some 71, some 73, some 167, some 417, some 62500, none, some 20] := by decide

/-- The worked frames of section 11.2, after their address characters. -/
theorem test_frames :
    Request.start.frame 42#8 = [2, 42, 48, 0, 92] ∧
    ({ tag := 42, kind := 48, answer := .refused .roll [0] } : PendingReply).frame =
      [5, 42, 48, 3, 9, 0, 0, 107] := by decide

/-- Payloads written out by hand from the tables of chapter 11, and a wrong length and a kind of no request. -/
theorem test_payloads :
    parseRequest 50 [0x04, 0xB0] = some (.setSpeed 1200) ∧ parseRequest 51 [] = some .trip ∧
    parseRequest 33 [9] = some (.cancelPanel 9) ∧
    parseRequest 20 [2, 1, 3, 5, 7] = some (.setMarkCode 2 1 3 5 7) ∧
    parseRequest 32 [4, 0x02, 0xC6, 1, 0, 0, 4, 0x04, 0xB0, 0x03, 0x20, 0xFF, 0xCE, 0, 0, 0, 0x07, 0xD0, 1, 0, 0,
        0, 0, 0, 0, 0, 0] = some (.loadPanel 4 { pan with df := -50 }) ∧
    parseRequest 50 [0x04] = none ∧ parseRequest 3 [] = none := by decide

/-- No row of the table gives bits. -/
theorem test_no_words : decodeTableWord 8 0 = none ∧ decodeTableWord 16 513 = none := by decide

/-- Section 10.3: START to station 7 with tag 42, sent character by character, is refused ROLL. -/
theorem test_transaction :
    let s : State := { base with link := { base.link with stationStraps := 7 } }
    after none (fun t => t.link.pendingReply) (execAll (.addressCharacter 7 :: ([2, 42, 48, 0, 92].map .dataCharacter)) s) =
      some { tag := 42, kind := 48, answer := .refused .roll [0] } := by decide

/-! ### States that meet the hypotheses of the statements, named after them -/

/-- The invariants hold where nothing has happened and where a line is configured, has a roll and runs. -/
theorem witness_positions : PositionsInv running ∧ PositionsInv (atWeb topPosition) := by decide
theorem witness_capacity : CapacityInv running := by
  refine ⟨by decide, by decide, by decide, by decide, fun c => ?_, by decide, by decide⟩
  cases c <;> decide
theorem witness_ceiling : CeilingInv running := by decide
theorem witness_heat : HeatInv running := by decide
theorem witness_rolls : RollInv running := by
  refine ⟨by decide, by decide, fun u => ?_, fun _ u => ?_, by decide, fun h => absurd rfl h⟩ <;> cases u <;> decide
theorem witness_link : LinkInv running := ⟨by decide, by decide, trivial⟩
theorem witness_line_state : TripInv running ∧ FreezeInv running ∧ ConfiguredInv running := by decide
theorem witness_line_state_tripped : TripInv tripped ∧ FreezeInv tripped ∧ ConfiguredInv tripped := by decide

/-- `running` with every report up to date. -/
def settled : State := refresh running

theorem witness_settled : Settled base ∧ TrackInv base ∧
    ∃ t, step { base with pending := [.setSpeed .broadcast 900] } = .next t := ⟨by decide, by decide, _, rfl⟩
theorem witness_step : (∃ t, step { running with pending := [.setSpeed .broadcast 900] } = .next t) ∧
    ∃ t, step running = .next t := ⟨⟨_, rfl⟩, ⟨_, rfl⟩⟩

/-- `base` with the worked panel taken for commit at web position 5: COMMITTED at 792 with its four strokes queued. -/
def patterned : State := refresh (queue0 (panelOfFields pan) (atWeb 5))
/-- Its start reached: ACTIVE, with its PANEL record open. -/
def onBelt : State := reachStart { patterned with pc := { patterned.pc with webPosition := 792, highWater := 792 } }
/-- The pattern holds with a slot COMMITTED and with one ACTIVE, and commands run there. -/
theorem witness_StepKeepsPattern_committed : PatternInv patterned ∧ OldestClosed patterned ∧
    (patterned.status 0).state = .committed ∧ patterned.ps.strokes.length = 4 := by
  refine ⟨⟨by decide, by decide, by decide, ⟨by decide, by decide, by decide, by decide, by decide⟩, by decide, by decide,
    by decide +kernel, by decide, by decide, by decide⟩, by decide⟩
theorem witness_StepKeepsPattern_active : PatternInv onBelt ∧ OldestClosed onBelt ∧
    (onBelt.status 0).state = .active ∧ onBelt.tu.records = [.panel 0 0 none] := by
  refine ⟨⟨by decide, by decide, by decide, ⟨by decide, by decide, by decide, by decide, by decide⟩, by decide, by decide,
    by decide +kernel, by decide, by decide, by decide⟩, by decide⟩
/-- Nothing but a slot COMMITTED, with no record yet, and the PANEL record of one ACTIVE. -/
theorem witness_StepKeepsSettled : TrackInv patterned ∧ TrackInv onBelt ∧ onBelt.tu.records ≠ [] := by decide
theorem witness_StepKeepsPattern_step : (∃ t, step { patterned with pending := [.commit] } = .next t) ∧
    ∃ t, step { onBelt with pending := [.encoderChange .web { a := false, b := true }] } = .next t :=
  ⟨⟨_, rfl⟩, ⟨_, rfl⟩⟩
/-- Marks in the queue just ahead of the high-water mark; and an immediate cause recorded at reference 0. -/
theorem witness_StepKeepsMarks : PositionsInv (atWeb 5) ∧ MarksInv { atWeb 5 with ru := { base.ru with
    marks := [{ entry := 0, m := 2 }, { entry := 0, m := 3 }], lastMark := some 3 } } := by decide
theorem witness_StepKeepsRest : RestInv base ∧ TripInv base ∧ RestInv running ∧ TripInv running ∧
    TripInv { tripped with lg := { tripped.lg with primary := some .eStop } } ∧
    RestInv { tripped with lg := { tripped.lg with primary := some .eStop } } := by decide

theorem witness_StepRunsFrontCommand :
    { base with pending := [.stop .broadcast, .commit] }.pending = .stop .broadcast :: [.commit] := rfl
theorem witness_EmptyQueueLetsOneMillisecondPass : base.pending = [] := rfl

/-- START takes a line to RUNNING, and CLEAR-TRIP takes one out of TRIPPED. -/
theorem witness_OnlyNamedCommandsUndo_start : ∃ t, exec (.start .broadcast) ready = .next t ∧
    t.lg.lineState = .running ∧ ready.lg.lineState ≠ .running := ⟨_, rfl, by decide, by decide⟩
theorem witness_OnlyNamedCommandsUndo_clear : ∃ t, exec (.clearTrip .broadcast) tripped = .next t ∧
    tripped.lg.lineState = .tripped ∧ t.lg.lineState ≠ .tripped := ⟨_, rfl, by decide, by decide⟩
/-- The last character of a START frame runs the line as START does. -/
theorem witness_OnlyNamedCommandsUndo_data : ∃ t, exec (.dataCharacter 92)
    { ready with link := { ready.link with receiver := .receiving true [2, 42, 48, 0] } } = .next t ∧
    t.lg.lineState = .running := ⟨_, rfl, by decide⟩
/-- `ready` with zone 1 in FAULT. -/
def faulted : State := zoned 0 (faultedZone .openSensor) ready
theorem witness_OnlyNamedCommandsUndo_rest : ∃ t, exec (.setSpeed .broadcast 5) faulted = .next t ∧
    faulted.limits.isSet = true ∧ faulted.geometry.valid = true ∧ faulted.heat.heatOn = true ∧
    (faulted.zone 0).state = .fault := ⟨_, rfl, by decide⟩

theorem witness_RefusalsAndBroadcastsActAsSaid :
    (serve .start .reset).2 = .refused .noLimits [0] ∧ State.reset.station ≠ none := by decide
theorem witness_RequestPayloadReadsBack :
    (Request.setSpeed 65535).WellFormed ∧ (Request.loadPanel 255 { pan with df := -32768 }).WellFormed := by decide
theorem witness_FrameCharactersCarryOutRequest :
    (Request.setSpeed 65535).WellFormed ∧ base.link.receiver = .listen ∧ base.station = some 1#8 := by decide

theorem witness_AddressCharactersAndLinkErrors :
    (hearing .listen).link.receiver = .listen ∧ (hearing .replying).link.receiver = .replying ∧
    (hearing (.receiving false [2])).link.receiver = .receiving false [2] := by decide
/-- Lengths at and beside the bounds 2 and 242, and a frame whose last check character is due. -/
theorem witness_DataCharactersBuildAndEndFrame :
    (hearing (.receiving false [])).link.receiver = .receiving false [] ∧ [] ++ [1#8] = 1#8 :: [] ∧
    (1#8).toNat < 2 ∧ 242 < (243#8).toNat ∧ 2 ≤ (2#8).toNat ∧ (242#8).toNat ≤ 242 ∧
    ([] : List Byte).length ≠ (2#8).toNat + 2 := by decide
/-- The body of the START of section 11.2, its check, and one that disagrees; a kind of no request. -/
theorem witness_DataCharacters_check :
    let body : List Byte := [2, 42, 48]
    ([] : List Byte).length ≤ 240 ∧
    (hearing (.receiving false (body ++ [0]))).link.receiver = .receiving false (body ++ [0]) ∧
    (0#8).toNat * 256 + (92#8).toNat = checkSum body ∧ (0#8).toNat * 256 + (93#8).toNat ≠ checkSum body ∧
    parseRequest (48#8).toNat [] = some .start ∧ parseRequest (3#8).toNat [] = none := by decide
theorem witness_ReadsAnswerAndChangeNothing : base.ru.marks.length ≤ markCapacity ∧ 24 > 23 ∧ 23 ≤ 23 := by decide
theorem witness_IdentifyAndReadLinkAnswer : ∀ n ∈ [base.link.counters.framing, base.link.counters.gap,
    base.link.counters.check, base.link.counters.length, base.link.counters.abandoned, base.link.counters.overrun],
    n ≤ 65535 := by decide

/-- The web and the belt stand still with both channels low: a forward count raises b, a reverse count a. -/
theorem witness_WebCountsMovePosition_forward :
    isCount (atWeb 5) .web true { a := false, b := true } ∧
    (atWeb 5).pc.webPosition < topPosition := by decide
theorem witness_WebCountsMovePosition_nothing : NothingAt 6 (atWeb 5) :=
  ⟨by decide, by decide, by decide, by decide, by decide, by decide, by decide, trivial, by decide⟩
theorem witness_WebCountsMovePosition_top : isCount (atWeb topPosition) .web true { a := false, b := true } ∧
    topPosition ≤ (atWeb topPosition).pc.webPosition := by decide
theorem witness_WebCountsMovePosition_reverse : isCount (atWeb 1) .web false { a := true, b := false } ∧ isCount (atWeb 0) .web false { a := true, b := false } ∧
    0 < (atWeb 1).pc.webPosition ∧ (atWeb 0).pc.webPosition = 0 := by decide
theorem witness_BeltCountsAndDoubleChanges :
    base.tu.records = [] ∧ isCount base .belt true { a := false, b := true } ∧
    isCount base .belt false { a := true, b := false } ∧
    ({ a := true, b := true } : ChannelPair).a ≠ (base.lastPair .belt).a ∧
    ({ a := true, b := true } : ChannelPair).b ≠ (base.lastPair .belt).b ∧
    ({ a := false, b := false } : ChannelPair) = base.lastPair .belt := by decide

/-- `base` with the tracking queue given, at belt position `b`. -/
def tracked (b : Nat) (rs : List TrackRecord) : State :=
  { base with tu := { base.tu with records := rs }, pc := { base.pc with beltPosition := b } }

theorem witness_ForwardBeltCountTracksRecords :
    (tracked 9 [.panel 0 5 (some 7)]).tu.records = [.panel 0 5 (some 7)] ∧
    (tracked 9 [.seam 5 3 0]).tu.records = [.seam 5 3 0] ∧ QuietPS (tracked 9 [.panel 0 5 (some 7)]) ∧
    isCount (tracked 9 [.panel 0 5 (some 7)]) .belt true { a := false, b := true } ∧
    isCount (tracked 9 [.seam 5 3 0]) .belt true { a := false, b := true } ∧ 9 < topPosition := by decide

/-- A reverse count at position 0 and a forward one at the top of the range, with a record in the queue. -/
theorem witness_BeltCounts_ignored :
    isCount (tracked topPosition [.panel 0 5 (some 7)]) .belt true { a := false, b := true } ∧
    topPosition ≤ (tracked topPosition [.panel 0 5 (some 7)]).pc.beltPosition ∧
    isCount (tracked 0 [.panel 0 5 (some 7)]) .belt false { a := true, b := false } ∧
    (tracked 0 [.panel 0 5 (some 7)]).pc.beltPosition = 0 := by decide
theorem witness_BeltCounts_reverse : isCount (tracked 9 [.panel 0 5 (some 7)]) .belt false { a := true, b := false } ∧
    0 < (tracked 9 [.panel 0 5 (some 7)]).pc.beltPosition := by decide

/-- A web count that reaches a stroke and one that reaches a start, each meeting nothing else. -/
theorem witness_ForwardWebCountReachesWhatWaits : ∀ s ∈ [struck 6 false (atWeb 5),
      { patterned with pc := { patterned.pc with webPosition := 791, highWater := 791 } }],
    isCount s .web true { a := false, b := true } ∧ PositionsInv s ∧ s.groupMeets true = false ∧
    s.anyExpired = false ∧ s.rolls.plan = none ∧ s.rolls.seam = none := by decide
/-- A web count at which a start and the seam meet. -/
theorem witness_ForwardWebCount_meet :
    let s : State := { patterned with
      pc := { patterned.pc with webPosition := 791, highWater := 791 }
      rolls := { patterned.rolls with seam := some { position := 792, recipe := 3 } } }
    let moved : State := { s with pc := { s.pc with webPosition := 792, highWater := 792 } }
    isCount s .web true { a := false, b := true } ∧ s.pc.webPosition < topPosition ∧ PositionsInv s ∧
    (moved.seamReached && (moved.strokeReachedNow || moved.flatEnded.isSome || moved.startReached)) = true := by decide
/-- `base` with a FLAT panel in slot 0 ACTIVE, its end at 900, at web position `w`. -/
def flatAt (w : Nat) : State := modifyStatus 0 (fun st => { st with state := .active, start := some 1, endPos := some 900 })
  (queue0 { panelOfFields pan with kind := .flat } (atWeb w))
theorem witness_GroupEndsBoundariesAndPatternEmpty :
    (flatAt 900).flatEnded = some 0 ∧ (flatAt 899).flatEnded = none ∧ onBelt.oldestCommitted = none ∧
    patterned.oldestCommitted = some 0 ∧ (setBar (.inSpace
      { first := 5, lastTrailing := 65, count := 1, bits := 1, overlong := false }) base).ru.bar ≠ .idle ∧
    (setBar .idle base).ru.bar = .idle := by decide

/-- No slot QUEUED, one, and all 32. -/
theorem witness_ReserveIsWorkedOut : (base.status 0).state ≠ .queued ∧
    ((queue0 (panelOfFields pan) base).status 0).state = .queued ∧
    ((queue0 (panelOfFields pan) base).status 1).state ≠ .queued ∧
    ∀ k : Fin 32, (({ base with slots := Vector.replicate 32 (queue0 (panelOfFields pan) base).slots[0] } : State).status
      k).state = .queued := by decide

/-- `base` with a search for slot 0, its earliest start 900 and its loss position 1,000, at web position `w`. -/
def searching (w : Nat) : State := { queue0 regPanel (atWeb w) with ps := { base.ps with
  search := some
    { slot := 0, entry := 2, offset := 0, window := 100, base := 0, earliest := 900, loss := 1000 } } }
theorem witness_SearchEndsAtMarkOrLoss : ∃ r, (searching 999).ps.search = some r ∧ (searching 1000).ps.search = some r ∧
    Spared r.slot (searching 999) ∧ Spared r.slot (searching 1000) ∧ (searching 999).pc.webPosition < r.loss ∧
    r.loss ≤ (searching 1000).pc.webPosition ∧
    70866 + msCounts geo + r.offset ≥ r.earliest ∧ 0 < r.earliest := ⟨_, rfl, rfl, by decide⟩

/-- `base` with a plan whose fire position is 20, at web position `w`, B in a given state beside A LOW. -/
def planned (w : Nat) (st : UnwindState) : State :=
  let s := rolls (roll .low 2400 none 0) (roll st 9000 none 0)
  { s with
    pc := { s.pc with webPosition := w, highWater := w }
    rolls := { s.rolls with plan := some { slot := 0, slotAfter := 1, target := 30, fire := 20 } } }
theorem witness_FireAndSeamPositionsAct_fire : ∃ p, (planned 19 .matched).rolls.plan = some p ∧
    (planned 20 .matched).rolls.plan = some p ∧ (planned 20 .spinning).rolls.plan = some p ∧
    (planned 19 .matched).pc.webPosition < p.fire ∧ p.fire ≤ (planned 20 .matched).pc.webPosition ∧
    ((planned 20 .matched).unwind .B).state = .matched ∧ ((planned 20 .matched).unwind .A).state ≠ .matched ∧
    (planned 20 .spinning).rolls.a.state ≠ .matched ∧ (planned 20 .spinning).rolls.b.state ≠ .matched :=
  ⟨_, rfl, by decide⟩
/-- `base` with the seam in flight at 20, at web position `w`. -/
def seamed (w : Nat) : State := { atWeb w with rolls := { base.rolls with seam := some { position := 20, recipe := 3 } } }
theorem witness_FireAndSeamPositionsAct_seam : ∃ m, (seamed 19).rolls.seam = some m ∧ (seamed 20).rolls.seam = some m ∧
    (seamed 19).pc.webPosition < m.position ∧ m.position ≤ (seamed 20).pc.webPosition ∧
    (seamed 20).tu.records.length < 24 := ⟨_, rfl, by decide⟩

/-- COMMIT: a start ahead of the web position (the gap is 787 counts) and one already reached (no gap). -/
theorem witness_CommitFixesPanelWhenReady :
    let far := queue0 (panelOfFields pan) (atWeb 5)
    let near := queue0 { panelOfFields pan with gap := 0 } (atWeb 5)
    let go := fun s : State => (∀ x ∈ s.tu.records, x.slot? ≠ some 0) ∧ (s.status 0).state = .queued ∧ (s.status 0).registration ≠ some .searching ∧
      (s.panelOf 0).registration = none ∧ s.ps.lastEnd.getD 0 - s.pc.webPosition ≤ horizonCounts geo
    go far ∧ go near ∧ far.pc.webPosition < far.pc.highWater + (far.status 0).gapCounts ∧
    near.pc.highWater + (near.status 0).gapCounts ≤ near.pc.webPosition := by decide
theorem witness_NothingTaken : (base.status base.ps.commitPointer).state ≠ .queued ∧
    ((queue0 regPanel base).panelOf 0).registration ≠ none ∧
    ((queue0 (panelOfFields pan) base).panelOf 0).registration = none := by decide
/-- `base` with a registered panel QUEUED and the marks given. -/
def withMarks (ms : List Mark) : State :=
  { queue0 regPanel base with ru := { base.ru with marks := ms } }
theorem witness_SearchSetupWalksMarkQueue : ∃ part, ((withMarks []).panelOf 0).registration = some part ∧
    ((withMarks [{ entry := 2, m := 5 }]).panelOf 0).registration = some part ∧
    ((withMarks []).status 0).state = .queued ∧ ((withMarks []).status 0).registration ≠ some .searching ∧
    Spared 0 (withMarks []) ∧ Spared 0 (withMarks [{ entry := 2, m := 5 }]) ∧
    (withMarks []).ps.lastEnd.getD 0 - (withMarks []).pc.webPosition ≤ horizonCounts geo ∧
    ((withMarks []).status 0).marksSkipped ≤ 255 ∧ part.entry = 2 ∧
    ((withMarks []).status 0).gapCounts ≤ 5 + msCounts geo + countsOfHundredths part.offset geo.s :=
  ⟨_, rfl, by decide⟩
/-- `base` with the worked panel in slot 0 and the generator at pleat `i` of it. -/
def generating (i : Nat) : State :=
  let s := queue0 (panelOfFields pan) base
  { s with ps := { s.ps with generator := some { takenUp 0 787 with pleat := i } } }
theorem witness_StrokeGenerateAppendsNextStroke : base.ps.generator = none ∧
    (generating 0).ps.generator = some { takenUp 0 787 with pleat := 0 } ∧
    (generating 3).ps.generator = some { takenUp 0 787 with pleat := 3 } ∧ (generating 0).ps.strokes.length < 64 ∧
    ((3 + 1 == (panelOfFields pan).pleats) = true) := by decide
theorem witness_LastStrokeLiesAtPanelEnd : (panelOfFields pan).kind ≠ .flat ∧ 0 < (panelOfFields pan).pleats ∧
    ∀ i : Nat, i < (panelOfFields pan).pleats → 0 ≤ fabricLength (panelOfFields pan) i := by decide

/-- `base` with a stroke in flight. -/
def flying (notified : Bool) : State := { base with blade := { base.blade with
  state := .fired
  inFlight := some { slot := 0, pleat := 0, part := .whole, direction := .left, position := 5, time := 60,
                     slowTime := 60, timeout := 250, notified := notified } } }
theorem witness_BladeHomeAndTimersActOnBlade_home : true = base.inputs.bladeHome ∧ false ≠ base.inputs.bladeHome := by decide
theorem witness_BladeHomeAndTimersActOnBlade_timers : base.blade.inFlight = none ∧
    (∃ r, (flying false).blade.inFlight = some r ∧ r.notified = false) ∧
    ∃ r, (flying true).blade.inFlight = some r ∧ r.notified = true := ⟨rfl, ⟨_, rfl, rfl⟩, ⟨_, rfl, rfl⟩⟩
theorem witness_StrokeReachedIsDealtWith : ∃ r, (struck 6 true (atWeb 5)).ps.strokes = [r] ∧
    (struck 6 true (atWeb 6)).ps.strokes = [r] ∧ (struck 6 true (atWeb 5)).pc.webPosition < r.position ∧
    r.position ≤ (struck 6 true (atWeb 6)).pc.webPosition := ⟨_, rfl, by decide⟩
theorem witness_BoundariesAndFullTrackingQueue : base.tu.records.length < 24 ∧
    (tracked 9 (List.replicate 24 (.panel 0 5 (some 7)))).tu.records =
      .panel 0 5 (some 7) :: List.replicate 23 (.panel 0 5 (some 7)) ∧
    23 ≤ (List.replicate 23 (TrackRecord.panel 0 5 (some 7))).length ∧
    (tracked 9 (.seam 3 1 5 :: List.replicate 23 (.panel 0 5 (some 7)))).tu.records =
      .seam 3 1 5 :: List.replicate 23 (.panel 0 5 (some 7)) := by decide

/-- Older records with and without a PANEL record among them. -/
theorem witness_FloorOfTheQueue : (∀ x ∈ [TrackRecord.seam 5 1 0], x.slot? = none) ∧
    ¬ ∀ x ∈ [TrackRecord.panel 0 5 (some 7), .seam 5 1 0], x.slot? = none := by decide

/-- A group of one wide bar first seen at `m`. -/
def group (m : Nat) : Group := { first := m, lastTrailing := m + 60, count := 1, bits := 1, overlong := false }
/-- `base` with entry 3 of the code table matching one wide bar. -/
def coded : State := { base with ru := { base.ru with
  codes := base.ru.codes.set 3 { enabled := true, count := 1, code := 1, mask := 1 } } }
/-- Whether the group fits entry `i`, as the statement says it. -/
abbrev fitsEntry (s : State) (g : Group) (i : Fin 6) : Prop :=
  (s.ru.codes[i.val]'i.isLt).enabled = true ∧ (s.ru.codes[i.val]'i.isLt).count = g.count ∧
    ∀ b : Fin 64, (s.ru.codes[i.val]'i.isLt).mask.testBit b.val = true →
      g.bits.testBit b.val = (s.ru.codes[i.val]'i.isLt).code.testBit b.val
theorem witness_MarkEdgesAndGroups : true ≠ base.inputs.mark ∧ false = base.inputs.mark ∧
    (∀ i : Fin 6, (coded.ru.codes[i.val]'i.isLt).mask < 2 ^ 64) ∧ fitsEntry coded (group 5) 3 ∧
    (∀ j : Fin 6, j < 3 → ¬ fitsEntry coded (group 5) j) ∧ (∀ i, ¬ fitsEntry base (group 5) i) ∧
    (group 5).overlong = false ∧ { group 5 with overlong := true }.overlong = true ∧
    (∀ l ∈ coded.ru.lastMark, l < 5) ∧ coded.pc.highWater < 5 + msCounts geo ∧
    (∀ r ∈ coded.ps.search, r.entry ≠ 3) := by decide
/-- `coded` with a search on its entry 3: a mark whose registered start is before the earliest start 900, and one after. -/
theorem witness_MarkEdgesAndGroups_searched :
    let r : SearchRecord :=
      { slot := 0, entry := 3, offset := 0, window := 100, base := 0, earliest := 900 + msCounts geo, loss := 90000 }
    let s : State := { coded with ps := { coded.ps with search := some r } }
    s.ps.search = some r ∧ r.entry = 3 ∧ fitsEntry s (group 5) 3 ∧ (∀ j : Fin 6, j < 3 → ¬ fitsEntry s (group 5) j) ∧
    (∀ l ∈ s.ru.lastMark, l < 5) ∧ s.pc.highWater < (group 5).first + msCounts geo ∧
    5 + msCounts geo < 900 + msCounts geo ∧ 900 + msCounts geo ≤ 900 + msCounts geo := ⟨rfl, rfl, by decide⟩
/-- The other two outcomes: a mark not beyond the last one, and one whose fabric is past. -/
theorem witness_MarkEdgesAndGroups_dropped :
    (∃ l ∈ some 5, 5 ≤ l) ∧ 5 + msCounts geo ≤ (atWeb 80000).pc.highWater := by decide
theorem witness_SetMarkCodeReplacesEntry : (5 : Fin 6).val = 5 ∧ 6 ≤ 6 := by decide

theorem witness_CauseIsTakenIntoTripRecord : running.rolls.splice = none ∧ base.lg.lineState = .stopped ∧ tripped.lg.lineState = .tripped ∧
    running.lg.lineState ≠ .tripped ∧ (spliced .cut false running).rolls.splice.map (·.phase) = some .cut ∧
    (spliced .paste false running).rolls.splice.map (·.phase) = some .paste ∧ running.lg.freeze = none ∧
    ({ running with lg := { running.lg with freeze := some 600 } } : State).lg.freeze ≠ none := by decide
theorem witness_RampAndStepTimersDriveTheLine :
    base.lg.infeedPeriod = none ∧ settled.lg.infeedPeriod ≠ none ∧ base.lg.beltPeriod = none ∧
    settled.lg.beltPeriod ≠ none := by decide
/-- Reports: PS with nothing due, with a slot to take and with a stroke to append. -/
theorem witness_ReportsAreBroughtUpToDate : TrackInv (queue0 (panelOfFields pan) base) ∧ QuietPS base ∧ (queue0 (panelOfFields pan) base).commitReady = true ∧
    ((queue0 (panelOfFields pan) base).panelOf 0).registration = none ∧
    ((queue0 regPanel base).panelOf 0).registration ≠ none ∧
    (generating 0).commitReady = true ∧ (setSlot 1 clearedSlot { generating 0 with
      ps := { (generating 0).ps with commitPointer := 1 } }).commitReady = false ∧ (generating 0).canAppend = true := by
  decide
theorem witness_StopAndSetSpeedActByState : State.reset.limits.isSet = false ∧ base.limits.isSet = true ∧
    65535 < 65536 := by decide
theorem witness_LineResetClearsProduction :
    let may := fun s : State => s.lg.reference = 0 ∧ s.blade.inFlight = none ∧ ∀ r ∈ s.rolls.splice, r.overdue = true
    may base ∧ may (spliced .cut true base) ∧ ¬ may running ∧ 0 < starveCounts base.geometry.given ∧
    base.rolls.splice = none ∧ base.heat.heatOn = false ∧ ready.heat.heatOn = true ∧
    ready.feedingRecipe = some 0 := by decide

theorem witness_QuietPS : QuietPS running ∧ QuietPS ready ∧ QuietPS (spliced .paste false running) ∧
    QuietPS (spliced .cut false running) := by decide
/-- A SCAN after which no zone runs, and one after which a zone is in FAULT on a RUNNING line. -/
theorem witness_ScanConvertsAndTestsZones : ∃ t, exec (.scan 4095 1900 1900 1900 1200)
      (zoned 0 (fun z => { z with state := .warming }) running) = .next t ∧
    (t.zone 0).state = .fault ∧ t.lg.primary = some .heat ∧ (t.zone 1) = (running.zone 1) := ⟨_, rfl, by decide⟩
/-- A zone that faults in TRIPPED, STOPPED and RUNNING, in the last with nothing due to PS and a splice in PASTE or none;
and scans in which none does. -/
theorem witness_ScanConvertsAndTestsZones_lines : ∀ s ∈ [tripped, base, running, spliced .paste false running],
    QuietPS (zoned 0 (fun z => { z with state := .warming }) s) ∧
    ∃ t, exec (.scan 4095 1900 1900 1900 1200) (zoned 0 (fun z => { z with state := .warming }) s) = .next t ∧
      (t.channel 0).openCondition = true := by
  intro s h
  simp only [List.mem_cons, List.not_mem_nil, or_false] at h
  obtain rfl | rfl | rfl | rfl := h <;> exact ⟨by decide, _, rfl, by decide⟩
/-- The rolls fit each other there, and in a splice in PASTE on a RUNNING line whose new roll is PASTING. -/
theorem witness_ScanConvertsAndTestsZones_rolls :
    let pasting : State := { spliced .paste false running with rolls :=
      { (spliced .paste false running).rolls with a := roll .low 2400 none 0, b := roll .pasting 9000 none 0 } }
    RollInv (zoned 0 (fun z => { z with state := .warming }) running) ∧ RollInv base ∧ RollInv tripped ∧
    RollInv (zoned 0 (fun z => { z with state := .warming }) pasting) ∧ QuietPS pasting := by
  refine ⟨?_, ?_, ?_, ?_, by decide⟩ <;>
    refine ⟨by decide, by decide, fun u => ?_, fun h u => ?_, by decide, by decide⟩ <;> cases u <;>
      first | decide | exact absurd h (by decide)
theorem witness_ScanConvertsAndTestsZones_none : QuietPS base ∧ (∀ z : Fin 4, (base.zone z).state = .off) ∧
    tripped.lg.lineState = .tripped ∧ base.lg.lineState = .stopped ∧ running.lg.lineState = .running := by decide
/-- `base` with zone 1 WARMING under recipe 7 (settle time 10 s, dwell limit Dmax 60 s) and its settle timer at `e`, and
the stop timer at `w`. -/
def warming (e w : Nat) : State :=
  let s := setRecipe 7 (adjustedRecipe rcp base.limits)
    (zoned 0 (fun z => { z with state := .warming, recipe := some 7, settle := some e }) base)
  { s with heat := { s.heat with stopElapsed := w } }
/-- A controlled zone with a recipe, one in STANDBY, and one without. -/
theorem witness_ControlStepAndValves : ((warming 0 0).zone 0).recipe = some 7 ∧ ((warming 0 0).zone 0).state = .warming ∧
    (base.zone 0).recipe = none ∧
    ((zoned 0 (fun z => { z with state := .standby, recipe := some 7 }) base).zone 0).state = .standby := by decide
theorem witness_SettleAndStopTimersAct : ((warming 10000 0).zone 0).recipe = some 7 ∧
    ((warming 10000 0).recipe 7).settle * 1000 ≤ 10000 ∧ ((warming 9999 0).recipe 7).settle * 1000 > 9999 ∧
    (warming 0 60000).lg.reference = 0 ∧ (warming 0 60000).heat.stopFired = false ∧ 0 < (warming 0 60000).stopLimit ∧
    (warming 0 60000).stopLimit * 1000 ≤ (warming 0 60000).heat.stopElapsed ∧
    ¬ (warming 0 59999).stopLimit * 1000 ≤ (warming 0 59999).heat.stopElapsed ∧ Settled (warming 0 60000) := by decide
/-- A dwell limit from one recipe's Dmin, none from Dmin 0, and the oldest COMMITTED slot with a full tracking queue. -/
theorem witness_LimitsAreWorkedOut : (warming 0 0).geometry.valid = true ∧
    ((warming 0 0).zoneRecipes.map fun r => ((warming 0 0).recipe r).dmin) = [200] ∧ base.zoneRecipes = [] ∧
    (patterned.status 0).state = .committed ∧ base.oldestCommitted = none := by decide
theorem witness_HeatOnAndHeatOffSwitchZones : base.feedingRecipe = none ∧ ready.feedingRecipe = some 0 ∧
    base.heat.heatOn = false ∧ ready.heat.heatOn = true := by decide
/-- A switch that leaves the stop timer alone, and one whose new limit fires it. -/
theorem witness_RecipeSwitchFollowsItsTable :
    let s := { warming 0 60000 with heat := { (warming 0 60000).heat with heatOn := true } }
    s.heat.heatOn = true ∧ (s.zone 1).recipe ≠ some 7 ∧ (s.zone 0).recipe = some 7 ∧ base.heat.heatOn = false ∧
    s.lg.reference = 0 ∧ s.heat.stopFired = false ∧ (switchZone 1 7 s).heat.stopFired = true ∧
    (switchZone 1 7 { s with heat := { s.heat with stopElapsed := 0 } }).heat.stopFired = false := by decide

theorem witness_LimitsTuningAndRecipesAreChecked : State.reset.limits.isSet = false ∧ base.limits.isSet = true ∧
    rcp.index < 8 ∧ 8 ≤ { rcp with index := 8 }.index ∧
    base.recipeInUse 7 = false ∧ (warming 0 0).recipeInUse 7 = true ∧ firstFailing (recipeRanges rcp) = none ∧
    max rcp.dmin base.limits.minDwell ≤ rcp.dmax * 10 ∧
    { rcp with dmax := 19 }.dmax * 10 < max rcp.dmin base.limits.minDwell ∧
    firstFailing (recipeRanges { rcp with settle := 0 }) = some 11 ∧ base.limits.maxTemp < 65536 ∧
    base.limits.minDwell < 65536 := by decide
theorem witness_SetGeometryReplacesGeometry : base.admitsGeometry = true ∧ running.admitsGeometry = false ∧
    geometryRefusal geo = none ∧ geometryRefusal { geo with h := 1500 } = some 6 := by decide

/-- `rolls` at web position `w`, the roll on A with a given state, diameter and last capture. -/
def unwinding (st : UnwindState) (d w c : Nat) (other : UnwindState) : State :=
  let s := rolls (roll st d (some c) 0) (roll other 9000 none 0)
  { s with pc := { s.pc with webPosition := w, highWater := w } }
/-- A first capture, a count with no web, a rejected count, and counts to 2,498 (LOW), 1,800 (a forced splice) and 1,200
(run out), with the diameters of section 9.2. -/
theorem witness_FeedingMarkerEstimatesDiameter :
    QuietPS running ∧ running.geometry.valid = true ∧ (running.unwind .A).state = .running ∧
    (running.unwind .A).lastCapture = none ∧ QuietPS (unwinding .running 2506 30900 0 .loaded) ∧
    QuietPS (unwinding .low 1803 22260 0 .matched) ∧ diameterOf 30900 geo.s ≤ geo.dArm ∧
    geo.dCore < diameterOf 22260 geo.s ∧ diameterOf 22260 geo.s ≤ geo.dLast ∧ geo.dLast < 1803 ∧
    diameterOf 14800 geo.s ≤ geo.dCore := by decide
theorem witness_FeedingMarker_rolls : RollInv (unwinding .running 2506 30900 0 .loaded) ∧
    RollInv (unwinding .low 1803 22260 0 .matched) := by
  constructor <;>
    refine ⟨by decide, by decide, fun u => ?_, fun _ u => ?_, by decide, fun h => absurd rfl h⟩ <;>
      cases u <;> decide
/-- `base` with B SPINNING or MATCHED beside A LOW, captured at time 1,000, the timer at `now`. -/
def spinningRoll (st : UnwindState) (n now : Nat) : State :=
  let s := rolls (roll .low 2400 none 0) (roll st 8000 (some 1000) n)
  { s with rolls := { s.rolls with microTimer := now }, lg := { s.lg with reference := 1200 } }
theorem witness_SpinningMarkerJudgesRevolution : (spinningRoll .spinning 2 5000).geometry.valid = true ∧ ((spinningRoll .spinning 2 5000).unwind .B).state = .spinning ∧
    ((spinningRoll .matched 2 5000).unwind .B).state = .matched ∧ 1000 < 5000 + 1 ∧
    (base.unwind .A).state = .empty ∧ State.reset.geometry.valid = false := by decide
/-- An edge at the time of the last capture. -/
theorem witness_SpinningMarker_sameTime : ((spinningRoll .spinning 2 1000).unwind .B).lastCapture = some (1000 + 0) ∧
    (spinningRoll .spinning 2 1000).rolls.microTimer = 1000 := by decide
theorem witness_SpliceConfirmsAndTimeouts : base.inputs.pasteConfirm = false ∧ base.inputs.cutConfirm = false ∧
    base.rolls.splice = none ∧ (spliced .paste false running).rolls.splice.map (·.phase) = some .paste ∧
    (spliced .cut false running).rolls.splice.map (·.phase) = some .cut ∧
    (spliced .cut false running).rolls.splice.map (·.overdue) = some false ∧
    (spliced .cut true running).rolls.splice.map (·.overdue) = some true := by decide
/-- A panel ends at 500,000, a gap of twice the seam margin follows, and the web stands where the arm lead just fits. -/
def planReady (w : Nat) : State :=
  let s := rolls (roll .low 2400 none 0) (roll .matched 9000 none 0)
  let k := setSlot 0 { panel := panelOfFields pan, status := { queuedStatus (panelOfFields pan) geo.s with gapCounts := 788 } } s
  { k with ps := { k.ps with lastEnd := some 500000 }, pc := { k.pc with webPosition := w, highWater := w } }
theorem witness_PlanningMakesOnePlan : base.ps.lastEnd = none ∧ (planReady 5).ps.lastEnd = some 500000 ∧
    (planReady 5).mayPlan = true ∧ (planReady (500394 - 374015 - 19685)).planFor ≠ none ∧
    (planReady (500394 - 374015 - 19685 + 1)).planFor = none := by decide
theorem witness_PanelRequestsQueueAndFreeSlots : State.reset.geometry.valid = false ∧ base.geometry.valid = true ∧
    (base.status 31).state = .free ∧ ((queue0 (panelOfFields pan) base).status 0).state ≠ .free ∧
    firstFailing (panelRanges pan) = none ∧ firstFailing (panelRanges { pan with window := 1, registered := 1 }) = some 15 ∧
    pleatRefusal (panelOfFields pan) geo = none ∧
    pleatRefusal (panelOfFields { pan with f0 := 300, d0 := 900 }) geo = some (3, 0) ∧
    countsOfHundredths pan.gap geo.s + panelCountsOf (panelOfFields pan) geo.s < 16777216 := by decide

/-! ### One step each of commands whose outcome is easily misread -/

theorem test_start : after .stopped (·.lg.lineState) (exec (.start .broadcast) ready) = .running := by decide
theorem test_start_at_zero_blade : after none (·.link.pendingReply) (exec (.start (.addressed 9))
    { ready with inputs := { ready.inputs with bladeHome := false } }) =
    some { tag := 9, kind := 48, answer := .refused .blade [0] } := by decide
theorem test_setSpeed_limited : after 0 (·.lg.hostSpeed) (exec (.setSpeed .broadcast 3000) base) = 2500 := by decide
theorem test_setSpeed_zero : after (0, LineState.stopped) (fun t => (t.lg.reference, t.lg.lineState))
    (exec (.setSpeed .broadcast 0) running) = (0, .running) := by decide
theorem test_trip_then_further : after none (·.lg.primary) (execAll [.trip .broadcast, .bladeTimeout] (flying true)) =
    some .link := by decide
theorem test_eStop_stops_at_once : after (1, LineState.stopped) (fun t => (t.lg.reference, t.lg.lineState))
    (exec .eStop running) = (0, .tripped) := by decide
theorem test_stroke_fires : (reachStroke (struck 6 false (atWeb 6))).blade.inFlight.map (·.timeout) = some 250 := by
  decide
theorem test_second_skip_trips :
    (reachStroke (struck 6 false { atWeb 6 with blade := { base.blade with state := .returning, misses := 1 } })).lg.primary =
      some .stroke := by decide
theorem test_low_roll : after UnwindState.empty (fun t => (t.unwind .A).state)
    (exec (.revolutionMarkerEdge .A 0) (unwinding .running 2506 30900 0 .loaded)) = .low := by decide
theorem test_low_roll_spins_other : after UnwindState.empty (fun t => (t.unwind .B).state)
    (exec (.revolutionMarkerEdge .A 0) (unwinding .running 2506 30900 0 .loaded)) = .spinning := by decide
theorem test_forced_splice : after none (fun t => t.rolls.splice.map (·.kind))
    (exec (.revolutionMarkerEdge .A 0) (unwinding .low 1803 22260 0 .matched)) = some .forced := by decide
theorem test_web_runs_back : after none (·.lg.primary)
    (exec (.encoderChange .web { a := true, b := false }) { atWeb 5000 with pc := { (atWeb 5000).pc with
      highWater := 6969 } }) = some .reverse := by decide

end Sys2Proof.Tests
end

