-- ==== Sys2Proof/Proofs/Bounds.lean ====
section
/-! PROOF. What the operations keep within bounds: positions, queues, counters and the mark queue's order (R3, R6, R50,
R64, R83, R115, R185, R188). One relation, `KeepsBounds`, is proved once for each shared operation. -/

namespace Sys2Proof.Machine

open Sys2Proof.Safety

-- One proof after the other: many short ones at once need more threads than the memory limit leaves room for.
set_option Elab.async false

/-! ### The relation -/

/-- The mark queue in order, below the last mark position, with every fabric ahead of position `w` (R82, R83). -/
def MarksAhead (w : Nat) (s : State) : Prop :=
  s.ru.marks.Pairwise (fun a b => a.m < b.m) ∧
  ∀ mk ∈ s.ru.marks, w < mk.m + msCounts s.geometry.given ∧ ∃ l ∈ s.ru.lastMark, mk.m ≤ l

theorem marksInv_iff (s : State) : MarksInv s ↔ MarksAhead s.pc.highWater s := Iff.rfl

/-- Every link counter at or below its top (R185). -/
def CountersFit (c : LinkCounters) : Prop :=
  c.accepted ≤ 65535 ∧ c.framing ≤ 65535 ∧ c.gap ≤ 65535 ∧ c.check ≤ 65535 ∧ c.length ≤ 65535 ∧
    c.abandoned ≤ 65535 ∧ c.overrun ≤ 65535

/-- The change from `s` to `t` leaves the positions and the geometry alone, and every queue and counter that was within
its size stays so; the mark queue stays ahead of every position it was ahead of. The obligations a plain update has are
closed by the frame lemmas. -/
structure KeepsBounds (s t : State) : Prop where
  pc : t.pc = s.pc := by simp
  geometry : t.geometry = s.geometry := by simp
  strokes : s.ps.strokes.length ≤ strokeCapacity → t.ps.strokes.length ≤ strokeCapacity := by simp
  marks : s.ru.marks.length ≤ markCapacity → t.ru.marks.length ≤ markCapacity := by simp
  ahead : ∀ w ≤ s.pc.highWater, MarksAhead w s → MarksAhead w t := by simp [MarksAhead]
  records : s.tu.records.length ≤ trackCapacity → t.tu.records.length ≤ trackCapacity := by simp
  forced : s.tu.forced ≤ 255 → t.tu.forced ≤ 255 := by simp
  events : (∀ c, s.eventCount c ≤ 255) → ∀ c, t.eventCount c ≤ 255 := by simp [State.eventCount]
  misses : s.blade.misses ≤ 2 → t.blade.misses ≤ 2 := by simp
  counters : CountersFit s.link.counters → CountersFit t.link.counters := by simp

namespace KeepsBounds

theorem refl (s : State) : KeepsBounds s s := {}

theorem trans {s t u : State} (h : KeepsBounds s t) (k : KeepsBounds t u) : KeepsBounds s u where
  pc := k.pc.trans h.pc
  geometry := k.geometry.trans h.geometry
  strokes := k.strokes ∘ h.strokes
  marks := k.marks ∘ h.marks
  ahead w hw hs := k.ahead w (by rw [h.pc]; exact hw) (h.ahead w hw hs)
  records := k.records ∘ h.records
  forced := k.forced ∘ h.forced
  events := k.events ∘ h.events
  misses := k.misses ∘ h.misses
  counters := k.counters ∘ h.counters

theorem foldl {α : Type} {op : State → α → State} (h : ∀ s a, KeepsBounds s (op s a)) (l : List α) (s : State) :
    KeepsBounds s (l.foldl op s) := by
  induction l generalizing s with
  | nil => exact refl s
  | cons a l ih => exact (h s a).trans (ih (op s a))

theorem capacity {s t : State} (h : KeepsBounds s t) : CapacityInv s → CapacityInv t := by
  rintro ⟨hstrokes, hmarks, hrecords, hforced, hevents, hmisses, hcounters⟩
  exact ⟨h.strokes hstrokes, h.marks hmarks, h.records hrecords, h.forced hforced, h.events hevents,
    h.misses hmisses, h.counters hcounters⟩

end KeepsBounds

/-! ### Updates of the blocks that hold none of the bounded queues and counters -/

theorem modifyStatus_keepsBounds (k : Fin 32) (f : SlotStatus → SlotStatus) (s : State) :
    KeepsBounds s (modifyStatus k f s) := {}
theorem modifyZone_keepsBounds (z : Fin 4) (f : Zone → Zone) (s : State) : KeepsBounds s (modifyZone z f s) := {}
theorem modifyUnwind_keepsBounds (u : UnwindId) (f : Unwind → Unwind) (s : State) :
    KeepsBounds s (modifyUnwind u f s) := {}
theorem setRolls_keepsBounds (r : Rolls) (s : State) : KeepsBounds s { s with rolls := r } := {}
theorem setLine_keepsBounds (g : Governor) (s : State) : KeepsBounds s { s with lg := g } := {}
theorem setHeat_keepsBounds (h : HeatUnit) (s : State) : KeepsBounds s { s with heat := h } := {}
theorem setInputs_keepsBounds (i : Inputs) (s : State) : KeepsBounds s { s with inputs := i } := {}
theorem noteRace_keepsBounds (s : State) : KeepsBounds s (noteRace s) := {}
theorem aimUnderSet_keepsBounds (z : Fin 4) (k : Fin 32) (s : State) : KeepsBounds s (aimUnderSet z k s) := {}
theorem aimSplice_keepsBounds (k : Fin 32) (s : State) : KeepsBounds s (aimSplice k s) := {}
theorem entryTest_keepsBounds (k : Fin 32) (s : State) (z : Fin 4) : KeepsBounds s (entryTest k s z) := {}
theorem markZonePanels_keepsBounds (z : Fin 4) (s : State) : KeepsBounds s (markZonePanels z s) := {}
theorem markChamberPanels_keepsBounds (s : State) : KeepsBounds s (markChamberPanels s) := {}
theorem resumeZones_keepsBounds (s : State) : KeepsBounds s (resumeZones s) := {}
theorem resumeTest_keepsBounds (s : State) : KeepsBounds s (resumeTest s) := {}
theorem restStopTimer_keepsBounds (s : State) : KeepsBounds s (restStopTimer s) := {}
theorem clampReference_keepsBounds (s : State) : KeepsBounds s (clampReference s) := {}
theorem startGenerators_keepsBounds (s : State) : KeepsBounds s (startGenerators s) := {}
theorem takeDeferredStop_keepsBounds (s : State) : KeepsBounds s (takeDeferredStop s) := {}
theorem stopAtOnce_keepsBounds (s : State) : KeepsBounds s (stopAtOnce s) := {}
theorem evaluatePlanning_keepsBounds (s : State) : KeepsBounds s (evaluatePlanning s) := {}
theorem fireSplice_keepsBounds (kind : SpliceKind) (new : UnwindId) (s : State) :
    KeepsBounds s (fireSplice kind new s) := {}
theorem endCut_keepsBounds (r : SpliceRecord) (s : State) : KeepsBounds s (endCut r s) := {}
theorem countMissed_keepsBounds (r : StrokeRecord) (s : State) : KeepsBounds s (countMissed r s) := {}
theorem countSkipped_keepsBounds (k : Fin 32) (n : Nat) (s : State) : KeepsBounds s (countSkipped k n s) := {}

/-! ### Zones, splices and the tracking queue -/

theorem raise_keepsBounds (c : EventClass) (s : State) : KeepsBounds s (raise c s) where
  events h d := by
    by_cases hd : d = c
    · subst hd; simpa using countUp_le _ _
    · simpa [eventCount_raise_other hd] using h d

theorem leaveInBand_keepsBounds (z : Fin 4) (s : State) : KeepsBounds s (leaveInBand z s) :=
  (markZonePanels_keepsBounds z s).trans (raise_keepsBounds _ _)

theorem leaveIfInBand_keepsBounds (before : ZoneState) (z : Fin 4) (s : State) :
    KeepsBounds s (leaveIfInBand before z s) := by
  unfold leaveIfInBand
  split
  · exact leaveInBand_keepsBounds z s
  · exact .refl s

theorem standZone_keepsBounds (s : State) (z : Fin 4) : KeepsBounds s (standZone s z) := by
  unfold standZone
  split
  case h_1 | h_2 | h_3 => exact (modifyZone_keepsBounds z _ s).trans (leaveIfInBand_keepsBounds _ z _)
  case h_4 | h_5 | h_6 => exact .refl s

theorem fireStopTimer_keepsBounds (s : State) : KeepsBounds s (fireStopTimer s) :=
  have stood := (setHeat_keepsBounds _ s).trans (.foldl standZone_keepsBounds allZones _)
  have marked := (stood.trans (markChamberPanels_keepsBounds _)).trans (raise_keepsBounds .dwell _)
  marked.trans (resumeTest_keepsBounds _)

theorem checkStopTimer_keepsBounds (s : State) : KeepsBounds s (checkStopTimer s) := by
  unfold checkStopTimer
  split
  · exact (restStopTimer_keepsBounds s).trans (fireStopTimer_keepsBounds _)
  · exact restStopTimer_keepsBounds s

theorem switchRecord_keepsBounds (z : Fin 4) (r : Fin 8) (s : State) : KeepsBounds s (switchRecord z r s) :=
  (modifyZone_keepsBounds z _ s).trans (leaveIfInBand_keepsBounds _ z _)

theorem switchZone_keepsBounds (z : Fin 4) (r : Fin 8) (s : State) : KeepsBounds s (switchZone z r s) := by
  unfold switchZone
  split
  · exact .refl s
  · exact ((switchRecord_keepsBounds z r s).trans (clampReference_keepsBounds _)).trans
      (checkStopTimer_keepsBounds _)

theorem switchAllZones_keepsBounds (r : Fin 8) (s : State) : KeepsBounds s (switchAllZones r s) := by
  have each : ∀ (t : State) (z : Fin 4),
      KeepsBounds t (if (t.zone z).recipe = some r then t else switchRecord z r t) := by
    intro t z
    split
    · exact .refl t
    · exact switchRecord_keepsBounds z r t
  unfold switchAllZones
  split
  · exact .refl s
  · exact ((KeepsBounds.foldl each allZones s).trans (clampReference_keepsBounds _)).trans
      (checkStopTimer_keepsBounds _)

theorem retireSlot_keepsBounds (k : Fin 32) (s : State) : KeepsBounds s (retireSlot k s) := by
  have done : KeepsBounds s (raise .panelDone (modifyStatus k (fun st => { st with state := .done }) s)) :=
    (modifyStatus_keepsBounds k _ s).trans (raise_keepsBounds _ _)
  unfold retireSlot
  split
  · exact done.trans (raise_keepsBounds _ _)
  · exact done

theorem switchFor_keepsBounds (r : TrackRecord) (zs : List (Fin 4)) (s : State) :
    KeepsBounds s (switchFor r zs s) := by
  cases r with
  | panel k head tail => exact .refl s
  | seam b recipe switched => exact .foldl (fun t z => switchZone_keepsBounds z recipe t) zs s

theorem forceOut_keepsBounds (r : TrackRecord) (s : State) : KeepsBounds s (forceOut r s) := by
  cases r with
  | panel k head tail =>
    exact (KeepsBounds.foldl (fun t z => aimUnderSet_keepsBounds z k t) _ s).trans
      (retireSlot_keepsBounds k _)
  | seam b recipe switched =>
    unfold forceOut
    exact switchFor_keepsBounds _ _ s

/-- Room for one record is there after `makeRoom` wherever the queue was within its size. -/
theorem makeRoom_length (s : State) (h : s.tu.records.length ≤ trackCapacity) :
    (makeRoom s).tu.records.length < trackCapacity := by
  unfold makeRoom
  split
  · simp_all [trackCapacity]
  · split
    · simp_all
    · simp_all

theorem makeRoom_keepsBounds (s : State) : KeepsBounds s (makeRoom s) where
  records h := (makeRoom_length s h).le
  forced h := by
    unfold makeRoom
    split
    · exact h
    · split
      · exact countUp_le 255 _
      · exact h
  events h := by
    unfold makeRoom
    split
    · exact h
    · split
      · exact (forceOut_keepsBounds _ s).events h
      · exact h

/-- A record put at the end of the queue once room has been made for it. -/
theorem appendRecord_keepsBounds (r : TrackRecord) (s : State) :
    KeepsBounds s (setRecords ((makeRoom s).tu.records ++ [r]) (makeRoom s)) where
  records h := by simpa [setRecords] using makeRoom_length s h
  forced h := (makeRoom_keepsBounds s).forced h
  events h := (makeRoom_keepsBounds s).events h

theorem openRecord_keepsBounds (k : Fin 32) (s : State) : KeepsBounds s (openRecord k s) :=
  (appendRecord_keepsBounds _ s).trans
    (.foldl (entryTest_keepsBounds k) _ _)

theorem closeRecord_keepsBounds (k : Fin 32) (s : State) : KeepsBounds s (closeRecord k s) where
  records h := by simpa [closeRecord, setRecords] using h
  forced h := h

theorem addSeam_keepsBounds (recipe : Fin 8) (s : State) : KeepsBounds s (addSeam recipe s) := by
  unfold addSeam
  exact (appendRecord_keepsBounds _ s).trans (switchFor_keepsBounds _ _ _)

theorem failPaste_keepsBounds (r : SpliceRecord) (s : State) : KeepsBounds s (failPaste r s) :=
  ((modifyUnwind_keepsBounds _ _ s).trans (setRolls_keepsBounds _ _)).trans (raise_keepsBounds _ _)

theorem tripSplice_keepsBounds (s : State) : KeepsBounds s (tripSplice s) := by
  have dropped : KeepsBounds s (dropPlan s) := setRolls_keepsBounds _ s
  unfold tripSplice
  split
  · split
    · exact dropped.trans (failPaste_keepsBounds _ _)
    · exact dropped
  · exact dropped

/-! ### The line -/

theorem starveTest_keepsBounds (s : State) : KeepsBounds s (starveTest s) where
  events h := by
    unfold starveTest
    dsimp only
    repeat' split
    · exact h
    · exact h
    · exact h
    · exact (raise_keepsBounds .patternLow _).events h
    · exact h

theorem liftFreeze_keepsBounds (s : State) : KeepsBounds s (liftFreeze s) :=
  (setLine_keepsBounds _ s).trans (starveTest_keepsBounds _)

theorem spliceOver_keepsBounds (s : State) : KeepsBounds s (spliceOver s) := by
  unfold spliceOver
  split
  · exact .refl s
  · exact ((liftFreeze_keepsBounds s).trans (takeDeferredStop_keepsBounds _)).trans (clampReference_keepsBounds _)

theorem tripFreeze_keepsBounds (s : State) : KeepsBounds s (tripFreeze s) := by
  have undeferred : KeepsBounds s { s with lg := { s.lg with deferredStop := false } } := setLine_keepsBounds _ s
  unfold tripFreeze
  split
  · exact undeferred
  · exact (undeferred.trans (liftFreeze_keepsBounds _)).trans (clampReference_keepsBounds _)

theorem enterTripped_keepsBounds (c : Cause) (s : State) : KeepsBounds s (enterTripped c s) :=
  have raised := (setLine_keepsBounds _ s).trans (raise_keepsBounds .trip _)
  (raised.trans (tripFreeze_keepsBounds _)).trans (tripSplice_keepsBounds _)

theorem takeCause_keepsBounds (c : Cause) (s : State) : KeepsBounds s (takeCause c s) := by
  unfold takeCause
  split
  · split
    · exact .refl s
    · exact setLine_keepsBounds _ s
  · exact enterTripped_keepsBounds c s

theorem reportCause_keepsBounds (c : Cause) (s : State) : KeepsBounds s (reportCause c s) := by
  unfold reportCause
  split
  · split
    · exact (takeCause_keepsBounds c s).trans (stopAtOnce_keepsBounds _)
    · exact takeCause_keepsBounds c s
  · exact .refl s

/-! ### The blade and the panel boundaries -/

theorem toActive_keepsBounds (k : Fin 32) (s : State) : KeepsBounds s (toActive k s) :=
  (modifyStatus_keepsBounds k _ s).trans (openRecord_keepsBounds k _)

theorem toSetting_keepsBounds (k : Fin 32) (s : State) : KeepsBounds s (toSetting k s) :=
  (modifyStatus_keepsBounds k _ s).trans (closeRecord_keepsBounds k _)

theorem fireStroke_keepsBounds (r : StrokeRecord) (s : State) : KeepsBounds s (fireStroke r s) where
  misses _ := by simp [fireStroke]

theorem setMisses_keepsBounds (n : Nat) (hn : n ≤ 2) (s : State) :
    KeepsBounds s { s with blade := { s.blade with misses := n } } where
  misses _ := hn

theorem missOne_keepsBounds (s : State) : KeepsBounds s (missOne s) := by
  unfold missOne
  split
  · exact setMisses_keepsBounds 1 (by decide) s
  · exact (setMisses_keepsBounds 2 (by decide) s).trans (reportCause_keepsBounds _ _)

theorem skipStroke_keepsBounds (r : StrokeRecord) (s : State) : KeepsBounds s (skipStroke r s) :=
  ((countMissed_keepsBounds r s).trans (raise_keepsBounds _ _)).trans (missOne_keepsBounds _)

theorem dealStroke_keepsBounds (r : StrokeRecord) (s : State) : KeepsBounds s (dealStroke r s) := by
  unfold dealStroke
  split
  · exact countMissed_keepsBounds r s
  · split
    · exact fireStroke_keepsBounds r s
    · exact skipStroke_keepsBounds r s

theorem strokeReached_keepsBounds (r : StrokeRecord) (rest : List StrokeRecord) (s : State)
    (h : s.ps.strokes = r :: rest) : KeepsBounds s (strokeReached r rest s) := by
  have left : KeepsBounds s { s with ps := { s.ps with strokes := rest } } :=
    { strokes := fun hs => by rw [h, List.length_cons] at hs; exact Nat.le_of_succ_le hs }
  unfold strokeReached
  dsimp only
  split
  · exact (left.trans (dealStroke_keepsBounds r _)).trans (toSetting_keepsBounds r.slot _)
  · exact left.trans (dealStroke_keepsBounds r _)

theorem reachStroke_keepsBounds (s : State) : KeepsBounds s (reachStroke s) := by
  unfold reachStroke
  split
  · exact .refl s
  · next r rest h =>
    split
    · exact strokeReached_keepsBounds r rest s h
    · exact .refl s

theorem reachFlatEnd_keepsBounds (s : State) : KeepsBounds s (reachFlatEnd s) := by
  unfold reachFlatEnd
  split
  · exact toSetting_keepsBounds _ s
  · exact .refl s

theorem reachStart_keepsBounds (s : State) : KeepsBounds s (reachStart s) := by
  unfold reachStart
  split
  · split
    · exact toActive_keepsBounds _ s
    · exact .refl s
  · exact .refl s

theorem reachLastEnd_keepsBounds (rising : Bool) (s : State) : KeepsBounds s (reachLastEnd rising s) := by
  unfold reachLastEnd
  split
  · exact raise_keepsBounds _ s
  · exact .refl s

/-! ### The schedule -/

theorem appendStroke_keepsBounds (s : State) : KeepsBounds s (appendStroke s) where
  strokes h := by
    unfold appendStroke
    split
    · exact h
    · split
      · next hroom => simpa using hroom
      · exact h

theorem generate_keepsBounds (n : Nat) (s : State) : KeepsBounds s (generate n s) := by
  induction n generalizing s with
  | zero => exact .refl s
  | succ n ih =>
    unfold generate
    split
    · exact (appendStroke_keepsBounds s).trans (ih _)
    · exact .refl s

theorem checkGarment_keepsBounds (k : Fin 32) (s : State) : KeepsBounds s (checkGarment k s) where
  strokes h := by simpa [checkGarment] using h

theorem placePanel_keepsBounds (k : Fin 32) (start : Nat) (reg : Registered) (s : State) :
    KeepsBounds s (placePanel k start reg s) where
  strokes h := by simpa [placePanel] using h

theorem finishCommit_keepsBounds (k : Fin 32) (start : Nat) (reg : Registered) (s : State) :
    KeepsBounds s (finishCommit k start reg s) := by
  have placed := (placePanel_keepsBounds k start reg s).trans (starveTest_keepsBounds _)
  unfold finishCommit
  dsimp only
  split
  · exact (placed.trans (toActive_keepsBounds k _)).trans (evaluatePlanning_keepsBounds _)
  · exact placed.trans (evaluatePlanning_keepsBounds _)

theorem commitSlot_keepsBounds (k : Fin 32) (s : State) : KeepsBounds s (commitSlot k s) :=
  (checkGarment_keepsBounds k s).trans (finishCommit_keepsBounds _ _ _ _)

theorem acceptMark_keepsBounds (r : SearchRecord) (mk : Mark) (s : State) : KeepsBounds s (acceptMark r mk s) :=
  finishCommit_keepsBounds _ _ _ s

theorem walkMarks_sublist (e : Fin 6) (far : Mark → Bool) (l : List Mark) :
    (walkMarks e far l).1.Sublist l := by
  induction l with
  | nil => exact .slnil
  | cons mk rest ih =>
    unfold walkMarks
    split
    · exact ih.cons_cons mk
    · split
      · exact .cons mk (.refl rest)
      · exact .cons mk ih

theorem MarksAhead.of_sublist {w : Nat} {s t : State} (h : MarksAhead w s) (hmarks : t.ru.marks.Sublist s.ru.marks)
    (hlast : t.ru.lastMark = s.ru.lastMark) (hgeometry : t.geometry = s.geometry) : MarksAhead w t := by
  obtain ⟨hordered, hahead⟩ := h
  refine ⟨hordered.sublist hmarks, fun mk hmk => ?_⟩
  rw [hlast, hgeometry]
  exact hahead mk (hmarks.subset hmk)

/-- Marks taken out of the queue, with the rest of RU and of the part left alone. -/
theorem fewerMarks_keepsBounds {s : State} {ms : List Mark} (h : ms.Sublist s.ru.marks) :
    KeepsBounds s { s with ru := { s.ru with marks := ms } } where
  marks hlen := h.length_le.trans hlen
  ahead _ _ hs := hs.of_sublist h rfl rfl

theorem setSearch_keepsBounds (r : Option SearchRecord) (s : State) :
    KeepsBounds s { s with ps := { s.ps with search := r } } := {}

theorem setUpSearch_keepsBounds (k : Fin 32) (part : RegistrationPart) (s : State) :
    KeepsBounds s (setUpSearch k part s) := by
  unfold setUpSearch
  extract_lets r s1 ps s2 w ru s3
  have searched : KeepsBounds s s2 :=
    ((checkGarment_keepsBounds k s).trans (modifyStatus_keepsBounds k _ _)).trans (setSearch_keepsBounds (some r) _)
  have walked : KeepsBounds s s3 :=
    (searched.trans (fewerMarks_keepsBounds (walkMarks_sublist _ _ _))).trans (countSkipped_keepsBounds k _ _)
  split
  · exact walked.trans (acceptMark_keepsBounds _ _ _)
  · exact walked

theorem takeSlot_keepsBounds (s : State) : KeepsBounds s (takeSlot s) := by
  unfold takeSlot
  split
  · exact commitSlot_keepsBounds _ s
  · exact setUpSearch_keepsBounds _ _ s

theorem reachLoss_keepsBounds (s : State) : KeepsBounds s (reachLoss s) := by
  unfold reachLoss
  split
  · split
    · exact (raise_keepsBounds _ s).trans (finishCommit_keepsBounds _ _ _ _)
    · exact .refl s
  · exact .refl s

theorem takeReady_keepsBounds (n : Nat) (s : State) : KeepsBounds s (takeReady n s) := by
  induction n generalizing s with
  | zero => exact .refl s
  | succ n ih =>
    unfold takeReady
    split
    · exact (takeSlot_keepsBounds s).trans (ih _)
    · exact .refl s

theorem refresh_keepsBounds (s : State) : KeepsBounds s (refresh s) :=
  have settled := ((starveTest_keepsBounds s).trans (takeReady_keepsBounds 32 _)).trans
    (generate_keepsBounds strokeCapacity _)
  have held := (settled.trans (resumeTest_keepsBounds _)).trans (clampReference_keepsBounds _)
  (held.trans (restStopTimer_keepsBounds _)).trans (startGenerators_keepsBounds _)

end Sys2Proof.Machine
end

