-- ==== Sys2Proof/Proofs/BoundedSteps.lean ====
section
/-! PROOF. Every step keeps positions, queues, counters and marks within their ranges (StepKeepsPositionsAndCapacity). -/

namespace Sys2Proof.Machine

open Sys2Proof.Safety

-- One proof after the other: many short ones at once need more threads than the memory limit leaves room for.
set_option Elab.async false

/-! ### Marks and groups (R79 to R84) -/

theorem setBar_keepsBounds (b : BarState) (s : State) : KeepsBounds s (setBar b s) where
  marks h := h
  ahead _ _ h := h

theorem judgeMark_keepsBounds (r : SearchRecord) (mk : Mark) (s : State) : KeepsBounds s (judgeMark r mk s) := by
  unfold judgeMark
  split
  · exact acceptMark_keepsBounds r mk s
  · exact countSkipped_keepsBounds _ _ s

/-- Every queued mark lies below a mark beyond the last mark position (R82, R83). -/
theorem MarksAhead.below_new {w m : Nat} {s : State} (h : MarksAhead w s) (hnew : ∀ l ∈ s.ru.lastMark, l < m) :
    ∀ x ∈ s.ru.marks, x.m < m := by
  intro x hx
  obtain ⟨-, l, hl, hle⟩ := h.2 x hx
  exact hle.trans_lt (hnew l hl)

theorem raiseLastMark_keepsBounds (m : Nat) (s : State) (hnew : ∀ l ∈ s.ru.lastMark, l < m) :
    KeepsBounds s { s with ru := { s.ru with lastMark := some m } } where
  ahead _ _ h := ⟨h.1, fun x hx => ⟨(h.2 x hx).1, m, rfl, (h.below_new hnew x hx).le⟩⟩

/-- A mark beyond the last mark position, with its fabric ahead of the high-water mark, may be the last mark position and
the newest of the queue (R82, R83). -/
theorem queueNewMark_keepsBounds (mk : Mark) (s : State) (hnew : ∀ l ∈ s.ru.lastMark, l < mk.m)
    (hahead : s.pc.highWater < mk.m + msCounts s.geometry.given) :
    KeepsBounds s (queueMark mk { s with ru := { s.ru with lastMark := some mk.m } }) := by
  unfold queueMark
  split
  · exact (raiseLastMark_keepsBounds mk.m s hnew).trans (raise_keepsBounds _ _)
  · next hroom =>
    have hend {w : Nat} (hw : w ≤ s.pc.highWater) (h : MarksAhead w s) : ∀ x ∈ s.ru.marks ++ [mk],
        w < x.m + msCounts s.geometry.given ∧ ∃ l ∈ some mk.m, x.m ≤ l := by
      intro x hx
      rcases List.mem_append.mp hx with hx | hx
      · exact ⟨(h.2 x hx).1, mk.m, rfl, (h.below_new hnew x hx).le⟩
      · rw [List.mem_singleton.mp hx]
        exact ⟨hw.trans_lt hahead, mk.m, rfl, le_refl _⟩
    exact
      { marks := fun _ => by simpa using hroom
        ahead := fun w hw h => ⟨List.pairwise_append.mpr
          ⟨h.1, List.pairwise_singleton _ _, by simpa using h.below_new hnew⟩, hend hw h⟩ }

/-- A mark at or below the last mark position has been read before and is dropped silently (R82). -/
theorem screenMark_of_read {mk : Mark} {s : State} {l : Nat} (hl : s.ru.lastMark = some l) (hle : mk.m ≤ l) :
    screenMark mk s = s := by
  simp [screenMark, hl, hle]

/-- A mark beyond the last mark position becomes it, and is offered unless its fabric has gone by (R82). -/
theorem screenMark_of_new {mk : Mark} {s : State} (hnew : ∀ l ∈ s.ru.lastMark, l < mk.m) :
    screenMark mk s =
      if mk.m + msCounts s.geometry.given ≤ s.pc.highWater then
        raise .markFault { s with ru := { s.ru with lastMark := some mk.m } }
      else offerMark mk { s with ru := { s.ru with lastMark := some mk.m } } := by
  cases hl : s.ru.lastMark with
  | none => simp [screenMark, hl]
  | some l =>
    have : ¬ mk.m ≤ l := Nat.not_le.mpr (hnew l hl)
    simp [screenMark, hl, this]

theorem screenMark_keepsBounds (mk : Mark) (s : State) : KeepsBounds s (screenMark mk s) := by
  by_cases hnew : ∀ l ∈ s.ru.lastMark, l < mk.m
  · have raised := raiseLastMark_keepsBounds mk.m s hnew
    rw [screenMark_of_new hnew]
    split
    · exact raised.trans (raise_keepsBounds _ _)
    · next hlate =>
      have queued := queueNewMark_keepsBounds mk s hnew (Nat.not_le.mp hlate)
      unfold offerMark
      split
      · split
        · exact raised.trans (judgeMark_keepsBounds _ _ _)
        · exact queued
      · exact queued
  · push Not at hnew
    obtain ⟨l, hl, hle⟩ := hnew
    rw [screenMark_of_read hl hle]
    exact .refl s

theorem judgeGroup_keepsBounds (g : Group) (s : State) : KeepsBounds s (judgeGroup g s) := by
  unfold judgeGroup
  split
  · exact raise_keepsBounds _ s
  · split
    · exact screenMark_keepsBounds _ s
    · exact .refl s

theorem endBar_keepsBounds (lead : Nat) (group : Option Group) (s : State) :
    KeepsBounds s (endBar lead group s) := by
  unfold endBar
  dsimp only
  split
  · split
    · exact setBar_keepsBounds _ s
    · split
      · exact (setBar_keepsBounds _ s).trans (judgeGroup_keepsBounds _ _)
      · exact setBar_keepsBounds _ s
  · exact setBar_keepsBounds _ s

theorem leadingEdge_keepsBounds (s : State) : KeepsBounds s (leadingEdge s) := by
  unfold leadingEdge
  dsimp only
  split
  · exact setBar_keepsBounds _ s
  · split
    · exact (setBar_keepsBounds _ s).trans (judgeGroup_keepsBounds _ _)
    · exact setBar_keepsBounds _ s
  · exact .refl s
  · exact .refl s

theorem trailingEdge_keepsBounds (s : State) : KeepsBounds s (trailingEdge s) := by
  unfold trailingEdge
  split
  · exact endBar_keepsBounds _ _ s
  · exact setBar_keepsBounds _ s
  · exact .refl s
  · exact .refl s

theorem discardGroup_keepsBounds (s : State) : KeepsBounds s (discardGroup s) := by
  unfold discardGroup
  split
  · exact setBar_keepsBounds _ s
  · exact setBar_keepsBounds _ s
  · exact .refl s
  · exact .refl s

theorem reachGroupEnd_keepsBounds (s : State) : KeepsBounds s (reachGroupEnd s) := by
  unfold reachGroupEnd
  split
  · split
    · exact (setBar_keepsBounds _ s).trans (judgeGroup_keepsBounds _ _)
    · exact .refl s
  · exact .refl s
  · exact .refl s
  · exact .refl s

theorem expireMarks_keepsBounds (s : State) : KeepsBounds s (expireMarks s) :=
  fewerMarks_keepsBounds List.filter_sublist

/-- After the expiry every queued mark lies ahead of the web position as well (R84). -/
theorem expireMarks_ahead {w : Nat} {s : State} (h : MarksAhead w s) :
    MarksAhead (max w s.pc.webPosition) (expireMarks s) := by
  refine ⟨h.1.sublist List.filter_sublist, fun mk hmk => ?_⟩
  obtain ⟨hqueued, hfresh⟩ := List.mem_filter.mp hmk
  have hahead : s.pc.webPosition < mk.m + msCounts s.geometry.given := by simpa [State.expired] using hfresh
  exact ⟨max_lt (h.2 mk hqueued).1 hahead, (h.2 mk hqueued).2⟩

/-! ### Web counts (R3 to R5, R84) -/

/-- The change from `s` to `t` keeps everything within bounds, and takes the marks out of the queue that the web position
of `s` has reached. -/
structure ClearsMarks (s t : State) : Prop where
  bounds : KeepsBounds s t
  clears : ∀ w ≤ s.pc.highWater, MarksAhead w s → MarksAhead (max w s.pc.webPosition) t

theorem KeepsBounds.transClears {s t u : State} (h : KeepsBounds s t) (k : ClearsMarks t u) : ClearsMarks s u where
  bounds := h.trans k.bounds
  clears w hw hs := by
    have := k.clears w (by rw [h.pc]; exact hw) (h.ahead w hw hs)
    rwa [h.pc] at this

theorem ClearsMarks.trans {s t u : State} (hweb : s.pc.webPosition ≤ s.pc.highWater) (h : ClearsMarks s t)
    (k : KeepsBounds t u) : ClearsMarks s u where
  bounds := h.bounds.trans k
  clears w hw hs := k.ahead _ (by rw [h.bounds.pc]; exact max_le hw hweb) (h.clears w hw hs)

theorem expireMarks_clears (s : State) : ClearsMarks s (expireMarks s) where
  bounds := expireMarks_keepsBounds s
  clears _ _ h := expireMarks_ahead h

/-- Two events in either order: one after the other, with the choice counted where it was free (log entry 4). -/
theorem inEitherOrder_cases (meet : Bool) (first second : State → State) (s : State) :
    inEitherOrder meet first second s = noteRace (first (second s)) ∨
    inEitherOrder meet first second s = noteRace (second (first s)) ∨
    inEitherOrder meet first second s = second (first s) := by
  unfold inEitherOrder
  split
  · exact .inl rfl
  · split
    · exact .inr (.inl rfl)
    · exact .inr (.inr rfl)

theorem inEitherOrder_keepsBounds {first second : State → State} (hfirst : ∀ s, KeepsBounds s (first s))
    (hsecond : ∀ s, KeepsBounds s (second s)) (meet : Bool) (s : State) :
    KeepsBounds s (inEitherOrder meet first second s) := by
  rcases inEitherOrder_cases meet first second s with h | h | h <;> rw [h]
  · exact ((hsecond s).trans (hfirst _)).trans (noteRace_keepsBounds _)
  · exact ((hfirst s).trans (hsecond _)).trans (noteRace_keepsBounds _)
  · exact (hfirst s).trans (hsecond _)

theorem setUpReady_keepsBounds (s : State) : KeepsBounds s (setUpReady s) := by
  unfold setUpReady
  split
  · exact takeSlot_keepsBounds s
  · exact .refl s

theorem reachExpiry_clears (s : State) : ClearsMarks s (reachExpiry s) := by
  unfold reachExpiry
  split
  · split
    · exact ((noteRace_keepsBounds s).trans (setUpReady_keepsBounds _)).transClears (expireMarks_clears _)
    · exact (noteRace_keepsBounds s).transClears (expireMarks_clears _)
  · exact expireMarks_clears s

theorem reachMarkWaiters_clears (rising : Bool) (s : State) (hweb : s.pc.webPosition ≤ s.pc.highWater) :
    ClearsMarks s (reachMarkWaiters rising s) :=
  ((reachExpiry_clears s).trans hweb (reachLoss_keepsBounds _)).trans hweb (reachLastEnd_keepsBounds rising _)

theorem markSeamPanels_keepsBounds (s : State) : KeepsBounds s (markSeamPanels s) :=
  .foldl (fun t k => aimSplice_keepsBounds k t) _ s

theorem reachSeam_keepsBounds (s : State) : KeepsBounds s (reachSeam s) := by
  unfold reachSeam
  split
  · exact .refl s
  · split
    · exact (((markSeamPanels_keepsBounds s).trans (addSeam_keepsBounds _ _)).trans (setRolls_keepsBounds _ _)).trans
        (evaluatePlanning_keepsBounds _)
    · exact .refl s

theorem reachFire_keepsBounds (s : State) : KeepsBounds s (reachFire s) := by
  unfold reachFire
  split
  · exact .refl s
  · split
    · split
      · exact fireSplice_keepsBounds _ _ s
      · exact setRolls_keepsBounds _ s
    · exact .refl s

theorem reachBoundaries_keepsBounds (s : State) : KeepsBounds s (reachBoundaries s) :=
  ((reachStroke_keepsBounds s).trans (reachFlatEnd_keepsBounds _)).trans (reachStart_keepsBounds _)

theorem groupEndAndWaiters_clears (meet rising : Bool) (s : State) (hweb : s.pc.webPosition ≤ s.pc.highWater) :
    ClearsMarks s (inEitherOrder meet reachGroupEnd (reachMarkWaiters rising) s) := by
  have ended := reachGroupEnd_keepsBounds s
  have endedFirst : ClearsMarks s (reachMarkWaiters rising (reachGroupEnd s)) :=
    ended.transClears (reachMarkWaiters_clears rising _ (by rw [ended.pc]; exact hweb))
  rcases inEitherOrder_cases meet reachGroupEnd (reachMarkWaiters rising) s with h | h | h <;> rw [h]
  · exact ((reachMarkWaiters_clears rising s hweb).trans hweb (reachGroupEnd_keepsBounds _)).trans hweb
      (noteRace_keepsBounds _)
  · exact endedFirst.trans hweb (noteRace_keepsBounds _)
  · exact endedFirst

theorem reachWebPosition_clears (rising : Bool) (s : State) (hweb : s.pc.webPosition ≤ s.pc.highWater) :
    ClearsMarks s (reachWebPosition rising s) := by
  unfold reachWebPosition
  exact (groupEndAndWaiters_clears _ rising s hweb).trans hweb
    (inEitherOrder_keepsBounds
      (fun t => inEitherOrder_keepsBounds reachBoundaries_keepsBounds reachSeam_keepsBounds _ t)
      reachFire_keepsBounds _ _)

/-- The change from `s` to `t` keeps the three invariants of StepKeepsPositionsAndCapacity; the positions may move. -/
structure StaysBounded (s t : State) : Prop where
  positions : PositionsInv s → PositionsInv t
  capacity : CapacityInv s → CapacityInv t
  marks : PositionsInv s → MarksInv s → MarksInv t

theorem StaysBounded.trans {s t u : State} (h : StaysBounded s t) (k : StaysBounded t u) : StaysBounded s u where
  positions := k.positions ∘ h.positions
  capacity := k.capacity ∘ h.capacity
  marks hp hm := k.marks (h.positions hp) (h.marks hp hm)

theorem KeepsBounds.stays {s t : State} (h : KeepsBounds s t) : StaysBounded s t where
  positions hp := by unfold PositionsInv; rw [h.pc]; exact hp
  capacity := h.capacity
  marks _ hm := by
    rw [marksInv_iff, h.pc]
    exact h.ahead _ le_rfl hm

theorem webForward_stays (s : State) : StaysBounded s (webForward s) := by
  unfold webForward
  split
  · exact (KeepsBounds.refl s).stays
  · next hbelow =>
    extract_lets w
    set moved : State := { s with pc := { s.pc with webPosition := w, highWater := max s.pc.highWater w } }
    have hweb : (starveTest moved).pc.webPosition ≤ (starveTest moved).pc.highWater := by simp [moved]
    have reached : ClearsMarks moved (reachWebPosition (decide (s.pc.highWater < w)) (starveTest moved)) :=
      (starveTest_keepsBounds moved).transClears (reachWebPosition_clears _ _ hweb)
    refine ⟨fun hp => ?_, fun hc => reached.bounds.capacity hc, fun hp hm => ?_⟩
    · obtain ⟨-, hhigh, hbelt⟩ := hp
      unfold PositionsInv
      rw [reached.bounds.pc]
      exact ⟨le_max_right _ _, max_le hhigh (by omega), hbelt⟩
    · rw [marksInv_iff, reached.bounds.pc]
      exact reached.clears s.pc.highWater (le_max_left _ _) hm

theorem webReverse_stays (s : State) : StaysBounded s (webReverse s) := by
  unfold webReverse
  split
  · exact (KeepsBounds.refl s).stays
  · have back : StaysBounded s { s with pc := { s.pc with webPosition := s.pc.webPosition - 1 } } :=
      { positions := fun ⟨hweb, hhigh, hbelt⟩ => ⟨(Nat.sub_le _ _).trans hweb, hhigh, hbelt⟩
        capacity := id
        marks := fun _ hm => hm }
    have discarded := back.trans (discardGroup_keepsBounds _).stays
    dsimp only
    split
    · exact discarded.trans (reportCause_keepsBounds _ _).stays
    · exact discarded

/-! ### Belt counts (R6) -/

theorem moveBelt_stays (b : Nat) (hb : b ≤ topPosition) (s : State) :
    StaysBounded s { s with pc := { s.pc with beltPosition := b } } where
  positions := fun ⟨hweb, hhigh, _⟩ => ⟨hweb, hhigh, hb⟩
  capacity := id
  marks _ hm := hm

theorem entriesForward_keepsBounds (s : State) (r : TrackRecord) : KeepsBounds s (entriesForward s r) := by
  cases r with
  | panel k head tail => exact .foldl (entryTest_keepsBounds k) _ s
  | seam b recipe switched => exact .refl s

theorem entriesReverse_keepsBounds (s : State) (r : TrackRecord) : KeepsBounds s (entriesReverse s r) := by
  match r with
  | .panel k _ (some _) => exact .foldl (entryTest_keepsBounds k) _ s
  | .panel _ _ none => exact .refl s
  | .seam _ _ _ => exact .refl s

theorem leaveAtTakeOff_keepsBounds (s : State) (r : TrackRecord) : KeepsBounds s (leaveAtTakeOff s r) := by
  cases r with
  | panel k head tail => exact retireSlot_keepsBounds k s
  | seam b recipe switched => exact .refl s

/-- The queue replaced by one that is no longer than it was at some earlier state. -/
theorem KeepsBounds.setRecords {s t : State} (h : KeepsBounds s t) {rs : List TrackRecord}
    (hlen : rs.length ≤ s.tu.records.length) : KeepsBounds s (setRecords rs t) where
  pc := h.pc
  geometry := h.geometry
  strokes := h.strokes
  marks := h.marks
  ahead := h.ahead
  records := hlen.trans
  forced := h.forced
  events := h.events
  misses := h.misses
  counters := h.counters

theorem trackForward_keepsBounds (s : State) : KeepsBounds s (trackForward s) := by
  have entered : KeepsBounds s (s.tu.records.foldl entriesForward s) := .foldl entriesForward_keepsBounds _ s
  have switched (t : State) : KeepsBounds t (switchSeams t) :=
    (KeepsBounds.foldl (fun u r => switchFor_keepsBounds r _ u) t.tu.records t).setRecords (by simp)
  have retired (t : State) : KeepsBounds t (retireAtTakeOff t) :=
    (KeepsBounds.foldl leaveAtTakeOff_keepsBounds _ t).setRecords (List.length_filter_le _ _)
  exact (entered.trans (switched _)).trans (retired _)

theorem beltForward_stays (s : State) : StaysBounded s (beltForward s) := by
  unfold beltForward
  split
  · exact (KeepsBounds.refl s).stays
  · exact (moveBelt_stays _ (by omega) s).trans (trackForward_keepsBounds _).stays

theorem beltReverse_stays (s : State) : StaysBounded s (beltReverse s) := by
  have back : StaysBounded s { s with pc := { s.pc with beltPosition := s.pc.beltPosition - 1 } } :=
    { positions := fun ⟨hweb, hhigh, hbelt⟩ => ⟨hweb, hhigh, (Nat.sub_le _ _).trans hbelt⟩
      capacity := id
      marks := fun _ hm => hm }
  unfold beltReverse
  split
  · exact (KeepsBounds.refl s).stays
  · exact back.trans (KeepsBounds.foldl entriesReverse_keepsBounds _ _).stays

end Sys2Proof.Machine
end

