-- ==== Sys2Proof/Proofs/BoundedCommands.lean ====
section
/-! PROOF. Every command, request and idle step keeps positions, queues, counters and marks within their ranges. -/

namespace Sys2Proof.Machine

open Sys2Proof.Safety

-- One proof after the other: many short ones at once need more threads than the memory limit leaves room for.
set_option Elab.async false

/-! ### The blade, the line and the heat -/

theorem setBlade_keepsBounds (b : Blade) (s : State) (h : b.misses = s.blade.misses) :
    KeepsBounds s { s with blade := b } where
  misses hs := by rw [h]; exact hs

theorem bladeLeaves_keepsBounds (s : State) : KeepsBounds s (bladeLeaves s) := by
  unfold bladeLeaves
  split
  · exact (setBlade_keepsBounds { s.blade with state := .away } s rfl).trans (raise_keepsBounds _ _)
  · exact setBlade_keepsBounds { s.blade with state := .returning } s rfl
  · exact .refl s
  · exact .refl s

theorem bladeReturns_keepsBounds (s : State) : KeepsBounds s (bladeReturns s) := by
  unfold bladeReturns
  split
  · exact setBlade_keepsBounds { s.blade with state := .home } s rfl
  · exact setBlade_keepsBounds { s.blade with state := .home, inFlight := none } s rfl
  · exact .refl s
  · exact .refl s

theorem testZone_keepsBounds (s : State) (z : Fin 4) : KeepsBounds s (testZone s z) := by
  have faulted : KeepsBounds s (faultTest z s) := by
    unfold faultTest
    split
    · split
      · unfold enterFault
        dsimp only
        split
        · exact ((modifyZone_keepsBounds z _ s).trans (leaveInBand_keepsBounds z _)).trans
            (reportCause_keepsBounds _ _)
        · exact ((modifyZone_keepsBounds z _ s).trans (raise_keepsBounds _ _)).trans (reportCause_keepsBounds _ _)
      · exact .refl s
    · exact .refl s
  have banded (t : State) : KeepsBounds t (bandTest z t) := by
    unfold bandTest
    split
    case h_1 | h_2 | h_3 | h_4 => exact modifyZone_keepsBounds z _ t
    case h_5 => exact (modifyZone_keepsBounds z _ t).trans (leaveInBand_keepsBounds z _)
    case h_6 | h_7 | h_8 | h_9 => exact .refl t
  exact faulted.trans (banded _)

theorem stepStopTimer_keepsBounds (s : State) : KeepsBounds s (stepStopTimer s) := by
  unfold stepStopTimer
  split
  · dsimp only
    split
    · exact (setHeat_keepsBounds _ s).trans (fireStopTimer_keepsBounds _)
    · exact setHeat_keepsBounds _ s
  · exact .refl s

theorem controlZone_keepsBounds (s : State) (z : Fin 4) : KeepsBounds s (controlZone s z) := by
  unfold controlZone
  split
  · split
    · exact modifyZone_keepsBounds z _ s
    · exact .refl s
  · exact .refl s

theorem heatOn_keepsBounds (r : Fin 8) (s : State) : KeepsBounds s (heatOn r s) :=
  (setHeat_keepsBounds _ s).trans (.foldl (fun t z => modifyZone_keepsBounds z _ t) _ _)

theorem heatOff_keepsBounds (s : State) : KeepsBounds s (heatOff s) :=
  have left := KeepsBounds.foldl (fun t z => leaveIfInBand_keepsBounds (t.zone z).state z t) allZones s
  (left.trans (.foldl (fun t z => modifyZone_keepsBounds z heatlessZone t) allZones _)).trans
    (setHeat_keepsBounds _ _)

/-! ### The rolls -/

theorem openWindow_keepsBounds (u : UnwindId) (s : State) : KeepsBounds s (openWindow u s) :=
  (((modifyUnwind_keepsBounds u _ s).trans (raise_keepsBounds _ _)).trans (modifyUnwind_keepsBounds _ _ _)).trans
    (evaluatePlanning_keepsBounds _)

theorem compareDiameter_keepsBounds (u : UnwindId) (before estimate : Nat) (s : State) :
    KeepsBounds s (compareDiameter u before estimate s) := by
  unfold compareDiameter
  dsimp only
  split
  · exact (((modifyUnwind_keepsBounds u _ s).trans (modifyUnwind_keepsBounds _ spunDown _)).trans
      (setRolls_keepsBounds _ _)).trans (reportCause_keepsBounds _ _)
  · split
    · unfold forcedSplice
      repeat' split
      · exact .refl s
      · exact reportCause_keepsBounds _ s
      · exact reportCause_keepsBounds _ s
      · exact fireSplice_keepsBounds _ _ s
      · exact reportCause_keepsBounds _ s
    · exact .refl s

theorem acceptCount_keepsBounds (u : UnwindId) (nRev : Nat) (s : State) : KeepsBounds s (acceptCount u nRev s) := by
  unfold acceptCount
  dsimp only
  split
  · exact ((modifyUnwind_keepsBounds u _ s).trans (openWindow_keepsBounds u _)).trans
      (compareDiameter_keepsBounds _ _ _ _)
  · exact (modifyUnwind_keepsBounds u _ s).trans (compareDiameter_keepsBounds _ _ _ _)

theorem feedEdge_keepsBounds (u : UnwindId) (s : State) : KeepsBounds s (feedEdge u s) := by
  have captured := modifyUnwind_keepsBounds u (fun w => { w with lastCapture := some s.pc.webPosition }) s
  unfold feedEdge
  dsimp only
  repeat' split
  · exact captured
  · exact captured
  · exact captured
  · exact captured.trans (acceptCount_keepsBounds _ _ _)

theorem spinEdge_keepsBounds (u : UnwindId) (s : State) : KeepsBounds s (spinEdge u s) := by
  have captured := modifyUnwind_keepsBounds u (fun w => { w with lastCapture := some s.rolls.microTimer }) s
  have judged (tRev : Nat) (t : State) : KeepsBounds t (judgeRevolution u tRev t) := by
    unfold judgeRevolution
    dsimp only
    split
    · exact (modifyUnwind_keepsBounds u _ t).trans (evaluatePlanning_keepsBounds _)
    · exact modifyUnwind_keepsBounds u _ t
  unfold spinEdge
  dsimp only
  repeat' split
  · exact captured
  · exact .refl s
  · exact captured.trans (judged _ _)

theorem markerEdge_keepsBounds (u : UnwindId) (s : State) : KeepsBounds s (markerEdge u s) := by
  unfold markerEdge
  split
  · exact .refl s
  · split
    case h_1 | h_2 => exact feedEdge_keepsBounds u s
    case h_3 | h_4 => exact spinEdge_keepsBounds u s
    all_goals exact .refl s

theorem completePaste_keepsBounds (r : SpliceRecord) (s : State) : KeepsBounds s (completePaste r s) :=
  (modifyUnwind_keepsBounds _ _ s).trans (setRolls_keepsBounds _ _)

theorem confirmCut_keepsBounds (r : SpliceRecord) (s : State) : KeepsBounds s (confirmCut r s) := by
  unfold confirmCut
  split
  · exact endCut_keepsBounds r s
  · exact ((endCut_keepsBounds r s).trans (spliceOver_keepsBounds _)).trans (raise_keepsBounds _ _)

theorem mountRoll_keepsBounds (u : UnwindId) (diameter : Nat) (recipe : Fin 8) (threaded : Nat) (s : State) :
    KeepsBounds s (mountRoll u diameter recipe threaded s) := by
  unfold mountRoll
  dsimp only
  split
  · exact (modifyUnwind_keepsBounds u _ s).trans (evaluatePlanning_keepsBounds _)
  · exact modifyUnwind_keepsBounds u _ s

/-! ### The requests -/

theorem setCounters_keepsBounds (f : LinkCounters → LinkCounters) (s : State)
    (h : CountersFit s.link.counters → CountersFit (f s.link.counters)) : KeepsBounds s (modifyCounters f s) where
  counters := h

theorem setReceiver_keepsBounds (r : Receiver) (s : State) : KeepsBounds s (setReceiver r s) where
  counters h := h

theorem serveReadLink_keepsBounds (clear : Nat) (s : State) : KeepsBounds s (serveReadLink clear s).1 := by
  unfold serveReadLink
  split
  · exact .refl s
  · dsimp only
    split
    · exact setCounters_keepsBounds _ s fun _ => by simp [CountersFit, zeroCounters]
    · exact .refl s

theorem serveSetLimits_keepsBounds (maxTemp maxSpeed minDwell : Nat) (s : State) :
    KeepsBounds s (serveSetLimits maxTemp maxSpeed minDwell s).1 := by
  unfold serveSetLimits
  split
  · exact .refl s
  · split
    · exact .refl s
    · exact KeepsBounds.trans (t := { s with limits := _ }) {} (refresh_keepsBounds _)

theorem serveSetRecipe_keepsBounds (r : RecipeFields) (s : State) : KeepsBounds s (serveSetRecipe r s).1 := by
  have stored (i : Fin 8) (x : Recipe) : KeepsBounds s (refresh (setRecipe i x s)) :=
    (setHeat_keepsBounds _ s).trans (refresh_keepsBounds _)
  unfold serveSetRecipe
  split
  · exact .refl s
  · split
    · split
      · exact .refl s
      · split
        · exact .refl s
        · dsimp only
          split
          · exact .refl s
          · exact stored _ _
    · exact .refl s

theorem serveSetZoneTuning_keepsBounds (zone kp ki : Nat) (s : State) :
    KeepsBounds s (serveSetZoneTuning zone kp ki s).1 := by
  unfold serveSetZoneTuning
  split
  · exact .refl s
  · dsimp only
    exact modifyZone_keepsBounds _ _ s

theorem setCodes_keepsBounds (codes : Vector CodeEntry 6) (s : State) :
    KeepsBounds s { s with ru := { s.ru with codes := codes } } where
  marks h := h
  ahead _ _ h := h

theorem serveSetMarkCode_keepsBounds (entry enabled count code mask : Nat) (s : State) :
    KeepsBounds s (serveSetMarkCode entry enabled count code mask s).1 := by
  unfold serveSetMarkCode
  split
  · repeat' split
    · exact .refl s
    · exact .refl s
    · exact .refl s
    · exact .refl s
    · exact setCodes_keepsBounds _ s
  · exact .refl s

theorem setEvents_keepsBounds (e : EventUnit) (s : State)
    (h : (∀ c, s.eventCount c ≤ 255) → ∀ c, State.eventCount { s with events := e } c ≤ 255) :
    KeepsBounds s { s with events := e } where
  events := h

theorem serveSetEventMask_keepsBounds (mask classes : Nat) (s : State) :
    KeepsBounds s (serveSetEventMask mask classes s).1 := by
  unfold serveSetEventMask
  split
  · exact .refl s
  · dsimp only
    split
    · exact setEvents_keepsBounds _ s id
    · exact setEvents_keepsBounds _ s id

theorem setSlot_keepsBounds (k : Fin 32) (x : Slot) (s : State) : KeepsBounds s (setSlot k x s) := {}

theorem serveLoadPanel_keepsBounds (slot : Nat) (p : PanelFields) (s : State) :
    KeepsBounds s (serveLoadPanel slot p s).1 := by
  have loaded (k : Fin 32) : KeepsBounds s (loadSlot k (panelOfFields p) s) := by
    unfold loadSlot
    dsimp only
    split
    · exact (setSlot_keepsBounds k _ s).trans (evaluatePlanning_keepsBounds _)
    · exact setSlot_keepsBounds k _ s
  unfold serveLoadPanel
  split
  · exact .refl s
  · split
    · split
      · exact .refl s
      · split
        · exact .refl s
        · split
          · exact .refl s
          · exact (loaded _).trans (refresh_keepsBounds _)
    · exact .refl s

theorem freeSlot_refresh_keepsBounds (k : Fin 32) (s : State) : KeepsBounds s (refresh (freeSlot k s)) :=
  (modifyStatus_keepsBounds k _ s).trans (refresh_keepsBounds _)

theorem serveCancelPanel_keepsBounds (slot : Nat) (s : State) : KeepsBounds s (serveCancelPanel slot s).1 := by
  unfold serveCancelPanel
  split
  · split
    · exact freeSlot_refresh_keepsBounds _ s
    · exact .refl s
  · exact .refl s

theorem serveReleasePanel_keepsBounds (slot : Nat) (s : State) : KeepsBounds s (serveReleasePanel slot s).1 := by
  unfold serveReleasePanel
  split
  · split
    · exact freeSlot_refresh_keepsBounds _ s
    · exact .refl s
  · exact .refl s

theorem serveReadPanel_keepsBounds (slot : Nat) (s : State) : KeepsBounds s (serveReadPanel slot s).1 := by
  unfold serveReadPanel
  split <;> exact .refl s

theorem startLine_refresh_keepsBounds (s : State) : KeepsBounds s (refresh (startLine s)) :=
  ((setLine_keepsBounds _ s).trans (resumeZones_keepsBounds _)).trans (refresh_keepsBounds _)

theorem serveStart_keepsBounds (s : State) : KeepsBounds s (serveStart s).1 := by
  unfold serveStart
  split
  · exact .refl s
  · split
    · exact .refl s
    · split
      case h_1 | h_2 => exact .refl s
      case h_3 => exact startLine_refresh_keepsBounds s
      case h_4 | h_5 =>
        repeat' split
        · exact .refl s
        · exact .refl s
        · exact .refl s
        · exact startLine_refresh_keepsBounds s

theorem serveStop_keepsBounds (s : State) : KeepsBounds s (serveStop s).1 := by
  unfold serveStop stopEffect
  dsimp only
  split
  · exact (setLine_keepsBounds _ s).trans (refresh_keepsBounds _)
  · exact setLine_keepsBounds _ s
  all_goals exact .refl s

theorem serveSetSpeed_keepsBounds (speed : Nat) (s : State) : KeepsBounds s (serveSetSpeed speed s).1 := by
  unfold serveSetSpeed
  split
  · exact .refl s
  · exact (setLine_keepsBounds _ s).trans (refresh_keepsBounds _)

theorem serveTrip_keepsBounds (s : State) : KeepsBounds s (serveTrip s).1 :=
  (reportCause_keepsBounds _ s).trans (refresh_keepsBounds _)

theorem clearLine_keepsBounds (g : Governor) (s : State) :
    KeepsBounds s { s with lg := g, blade := { s.blade with misses := 0 } } where
  misses _ := Nat.zero_le _

theorem clearTrip_keepsBounds (s : State) : KeepsBounds s (clearTrip s) := by
  unfold clearTrip
  exact (clearLine_keepsBounds _ s).trans (evaluatePlanning_keepsBounds _)

theorem serveClearTrip_keepsBounds (s : State) : KeepsBounds s (serveClearTrip s).1 := by
  unfold serveClearTrip
  split
  · exact (clearTrip_keepsBounds s).trans (refresh_keepsBounds (clearTrip s))
  · exact .refl s

theorem serveHeatOn_keepsBounds (s : State) : KeepsBounds s (serveHeatOn s).1 := by
  unfold serveHeatOn
  repeat' split
  · exact .refl s
  · exact .refl s
  · exact .refl s
  · exact (heatOn_keepsBounds _ s).trans (refresh_keepsBounds _)

theorem serveHeatOff_keepsBounds (s : State) : KeepsBounds s (serveHeatOff s).1 := by
  unfold serveHeatOff
  dsimp only
  split
  · exact (heatOff_keepsBounds s).trans (refresh_keepsBounds _)
  · exact .refl s

theorem serveReadHeat_keepsBounds (recipe : Nat) (s : State) : KeepsBounds s (serveReadHeat recipe s).1 := by
  unfold serveReadHeat
  split <;> exact .refl s

theorem serveRollReady_keepsBounds (unwind diameter recipe threaded : Nat) (s : State) :
    KeepsBounds s (serveRollReady unwind diameter recipe threaded s).1 := by
  unfold serveRollReady
  split
  · exact .refl s
  · split
    · exact .refl s
    · split
      · exact .refl s
      · repeat' split
        · exact .refl s
        · exact .refl s
        · exact (mountRoll_keepsBounds _ _ _ _ s).trans (refresh_keepsBounds _)

theorem serveRollRemoved_keepsBounds (unwind : Nat) (s : State) : KeepsBounds s (serveRollRemoved unwind s).1 := by
  unfold serveRollRemoved
  split
  · exact .refl s
  · split
    case h_1 | h_2 => exact modifyUnwind_keepsBounds _ _ s
    all_goals exact .refl s

theorem serveReadTracking_keepsBounds (index : Nat) (s : State) : KeepsBounds s (serveReadTracking index s).1 := by
  unfold serveReadTracking
  repeat' split
  all_goals exact .refl s

theorem serveReadEvents_keepsBounds (index : Nat) (s : State) : KeepsBounds s (serveReadEvents index s).1 := by
  unfold serveReadEvents
  repeat' split
  all_goals exact .refl s

theorem eventCount_acknowledge (classes : EventSet) (c : EventClass) (s : State) :
    (acknowledge classes s).eventCount c = if classes.getLsbD c.index.val then 0 else s.eventCount c := by
  simp [State.eventCount, acknowledge, clearCounts]

theorem serveAckEvents_keepsBounds (classes : Nat) (s : State) : KeepsBounds s (serveAckEvents classes s).1 := by
  unfold serveAckEvents
  split
  · refine setEvents_keepsBounds _ s fun h c => (eventCount_acknowledge _ c s).trans_le ?_
    split
    · exact Nat.zero_le _
    · exact h c
  · exact .refl s

/-! ### SET-GEOMETRY, LINE-RESET and the power-on reset, which clear the marks -/

theorem marksInv_of_empty {s : State} (h : s.ru.marks = []) : MarksInv s := by
  simp [MarksInv, h]

theorem storeGeometry_stays (g : GeometryFields) (s : State) : StaysBounded s (clearOldCounts (storeGeometry g s)) where
  positions hp := hp
  capacity := fun ⟨hstrokes, _, hrest⟩ => ⟨hstrokes, Nat.zero_le _, hrest⟩
  marks _ _ := marksInv_of_empty rfl

theorem serveSetGeometry_stays (g : GeometryFields) (s : State) : StaysBounded s (serveSetGeometry g s).1 := by
  have checked (t : State) : KeepsBounds t (restartReverseCheck t) := by
    unfold restartReverseCheck
    split
    · exact reportCause_keepsBounds _ t
    · exact .refl t
  unfold serveSetGeometry
  split
  · exact (KeepsBounds.refl s).stays
  · split
    · exact (KeepsBounds.refl s).stays
    · exact (storeGeometry_stays g s).trans ((checked _).trans (refresh_keepsBounds _)).stays

theorem clearProduction_stays (s : State) : StaysBounded s (clearProduction s) where
  positions _ := by simp [PositionsInv, clearProduction]
  capacity := fun ⟨_, _, _, hforced, hevents, _, hcounters⟩ =>
    ⟨Nat.zero_le _, Nat.zero_le _, Nat.zero_le _, hforced, hevents, Nat.zero_le _, hcounters⟩
  marks _ _ := marksInv_of_empty rfl

theorem clearRolls_keepsBounds (s : State) : KeepsBounds s (clearRolls s) := by
  have ended : KeepsBounds s (endOverdueCut s) := by
    unfold endOverdueCut
    split
    · exact endCut_keepsBounds _ s
    · exact .refl s
  exact ended.trans (setRolls_keepsBounds _ _)

theorem lineReset_stays (s : State) : StaysBounded s (lineReset s) := by
  have switched (t : State) : KeepsBounds t (switchToFeeding t) := by
    unfold switchToFeeding
    split
    · exact switchAllZones_keepsBounds _ t
    · exact .refl t
  exact (clearProduction_stays s).trans ((clearRolls_keepsBounds _).trans (switched _)).stays

theorem serveLineReset_stays (s : State) : StaysBounded s (serveLineReset s).1 := by
  unfold serveLineReset
  split
  · exact (lineReset_stays s).trans (refresh_keepsBounds (lineReset s)).stays
  · exact (KeepsBounds.refl s).stays

theorem firstSampleTrips_keepsBounds (p : PowerOnSamples) (s : State) : KeepsBounds s (firstSampleTrips p s) := by
  unfold firstSampleTrips
  dsimp only
  repeat' split
  · exact (reportCause_keepsBounds _ s).trans (reportCause_keepsBounds _ _)
  · exact reportCause_keepsBounds _ s
  · exact reportCause_keepsBounds _ s
  · exact .refl s

theorem coldState_capacity (p : PowerOnSamples) : CapacityInv (coldState p) := by
  refine ⟨Nat.zero_le _, Nat.zero_le _, Nat.zero_le _, Nat.zero_le _, fun c => ?_, Nat.zero_le _, ?_⟩
  · simp [State.eventCount, coldState]
  · simp [coldState, zeroCounters]

/-! ### Every request, command and step -/

/-- The owner of a request keeps the part within bounds (R181). -/
theorem serve_stays (r : Request) (s : State) : StaysBounded s (serve r s).1 := by
  cases r with
  | identify | readRing | readLine | readRolls => exact (KeepsBounds.refl s).stays
  | readLink clear => exact (serveReadLink_keepsBounds clear s).stays
  | setLimits t v d => exact (serveSetLimits_keepsBounds t v d s).stays
  | setGeometry g => exact serveSetGeometry_stays g s
  | setRecipe r => exact (serveSetRecipe_keepsBounds r s).stays
  | setZoneTuning z kp ki => exact (serveSetZoneTuning_keepsBounds z kp ki s).stays
  | setMarkCode e n c k m => exact (serveSetMarkCode_keepsBounds e n c k m s).stays
  | setEventMask m c => exact (serveSetEventMask_keepsBounds m c s).stays
  | loadPanel k p => exact (serveLoadPanel_keepsBounds k p s).stays
  | cancelPanel k => exact (serveCancelPanel_keepsBounds k s).stays
  | releasePanel k => exact (serveReleasePanel_keepsBounds k s).stays
  | readPanel k => exact (serveReadPanel_keepsBounds k s).stays
  | start => exact (serveStart_keepsBounds s).stays
  | stop => exact (serveStop_keepsBounds s).stays
  | setSpeed v => exact (serveSetSpeed_keepsBounds v s).stays
  | trip => exact (serveTrip_keepsBounds s).stays
  | clearTrip => exact (serveClearTrip_keepsBounds s).stays
  | lineReset => exact serveLineReset_stays s
  | heatOn => exact (serveHeatOn_keepsBounds s).stays
  | heatOff => exact (serveHeatOff_keepsBounds s).stays
  | readHeat r => exact (serveReadHeat_keepsBounds r s).stays
  | rollReady u d r t => exact (serveRollReady_keepsBounds u d r t s).stays
  | rollRemoved u => exact (serveRollRemoved_keepsBounds u s).stays
  | readTracking i => exact (serveReadTracking_keepsBounds i s).stays
  | readEvents i => exact (serveReadEvents_keepsBounds i s).stays
  | ackEvents c => exact (serveAckEvents_keepsBounds c s).stays

theorem countAccepted_keepsBounds (s : State) : KeepsBounds s (countAccepted s) :=
  setCounters_keepsBounds _ s fun ⟨_, hrest⟩ => ⟨countUp_le _ _, hrest⟩

theorem deliver_keepsBounds (src : Source) (kind : Nat) (r : State × Answer) :
    KeepsBounds r.1 (deliver src kind r) := by
  unfold deliver
  split
  all_goals exact { counters := fun h => h }

theorem acceptRequest_stays (src : Source) (r : Request) (s : State) :
    StaysBounded s (acceptRequest src r (serve r) s) :=
  ((countAccepted_keepsBounds s).stays.trans (serve_stays r _)).trans (deliver_keepsBounds src _ _).stays

/-- A link error counted and raised (R185). -/
theorem linkError_keepsBounds (f : LinkCounters → LinkCounters) (s : State)
    (h : CountersFit s.link.counters → CountersFit (f s.link.counters)) : KeepsBounds s (linkError f s) :=
  (setCounters_keepsBounds f s h).trans (raise_keepsBounds _ _)

/-- A whole link counter more is within its top (R185). -/
theorem countLink_le (n : Nat) : countLink n ≤ 65535 := countUp_le _ _

theorem advanceFrame_stays (broadcast : Bool) (frame : List Byte) (s : State) :
    StaysBounded s (advanceFrame broadcast frame s) := by
  have taken (body : List Byte) : StaysBounded s (takeFrame broadcast body s) := by
    unfold takeFrame
    split
    · dsimp only
      split
      · exact acceptRequest_stays _ _ s
      · exact ((countAccepted_keepsBounds s).trans
          (deliver_keepsBounds _ _ (countAccepted s, Answer.unknown))).stays
    · exact (KeepsBounds.refl s).stays
  unfold advanceFrame
  split
  · exact ((linkError_keepsBounds _ s fun ⟨ha, hf, hg, hc, _, hrest⟩ => ⟨ha, hf, hg, hc, countLink_le _, hrest⟩).trans
      (setReceiver_keepsBounds _ _)).stays
  · split
    · unfold checkFrame
      dsimp only
      split
      · exact taken _
      · exact ((linkError_keepsBounds _ s fun ⟨ha, hf, hg, _, hrest⟩ => ⟨ha, hf, hg, countLink_le _, hrest⟩).trans
          (setReceiver_keepsBounds _ _)).stays
    · exact (setReceiver_keepsBounds _ s).stays

theorem setPair_stays (e : Encoder) (p : ChannelPair) (s : State) : StaysBounded s (setPair e p s) := by
  cases e
  · exact { positions := id, capacity := id, marks := fun _ h => h }
  · exact { positions := id, capacity := id, marks := fun _ h => h }

theorem countEncoder_stays (e : Encoder) (forward : Bool) (s : State) : StaysBounded s (countEncoder e forward s) := by
  match e, forward with
  | .web, true => exact webForward_stays s
  | .web, false => exact webReverse_stays s
  | .belt, true => exact beltForward_stays s
  | .belt, false => exact beltReverse_stays s

theorem tick_keepsBounds (s : State) : KeepsBounds s (tick s) := by
  unfold tick
  exact { misses := id }

/-- The next state that an outcome gives, where it gives one, stays within bounds of `s`. -/
def EndsBounded (s : State) (o : Host.Outcome State Fault Refusal) : Prop := ∀ t, o = .next t → StaysBounded s t

theorem StaysBounded.ends {s t : State} (h : StaysBounded s t) : EndsBounded s (.next t) := by
  rintro _ ⟨⟩
  exact h

theorem KeepsBounds.ends {s t : State} (h : KeepsBounds s t) : EndsBounded s (.next t) := h.stays.ends

/-! ### The commands that wait for no request -/

theorem execPowerOnReset_ends (p : PowerOnSamples) (s : State) : EndsBounded s (execPowerOnReset p s) :=
  have cold : StaysBounded s { coldState p with pending := s.pending, races := s.races } :=
    { positions := fun _ => by simp [PositionsInv, coldState]
      capacity := fun _ => coldState_capacity p
      marks := fun _ _ => marksInv_of_empty rfl }
  (cold.trans (firstSampleTrips_keepsBounds p _).stays).ends

theorem execEncoderChange_ends (e : Encoder) (p : ChannelPair) (s : State) :
    EndsBounded s (execEncoderChange e p s) := by
  unfold execEncoderChange
  dsimp only
  split
  · exact (KeepsBounds.refl s).ends
  · split
    · exact ((setPair_stays e p s).trans ((reportCause_keepsBounds _ _).trans (refresh_keepsBounds _)).stays).ends
    · exact (((setPair_stays e p s).trans (countEncoder_stays e _ _)).trans (refresh_keepsBounds _).stays).ends

theorem execCommit_ends (s : State) : EndsBounded s (execCommit s) := by
  unfold execCommit
  split
  · exact ((commitSlot_keepsBounds _ s).trans (refresh_keepsBounds _)).ends
  · exact (KeepsBounds.refl s).ends
  · exact (KeepsBounds.refl s).ends

theorem execSearchSetup_ends (s : State) : EndsBounded s (execSearchSetup s) := by
  unfold execSearchSetup
  split
  · exact ((setUpSearch_keepsBounds _ _ s).trans (refresh_keepsBounds _)).ends
  · exact (KeepsBounds.refl s).ends
  · exact (KeepsBounds.refl s).ends

theorem execMarkEdge_ends (active : Bool) (s : State) : EndsBounded s (execMarkEdge active s) := by
  have seen := setInputs_keepsBounds { s.inputs with mark := active } s
  unfold execMarkEdge
  dsimp only
  split
  · exact (KeepsBounds.refl s).ends
  · refine (KeepsBounds.trans (seen.trans ?_) (refresh_keepsBounds _)).ends
    split
    · exact setBar_keepsBounds _ _
    · split
      · exact leadingEdge_keepsBounds _
      · exact trailingEdge_keepsBounds _

theorem execBladeHomeChange_ends (active : Bool) (s : State) : EndsBounded s (execBladeHomeChange active s) := by
  have seen := setInputs_keepsBounds { s.inputs with bladeHome := active } s
  unfold execBladeHomeChange
  dsimp only
  split
  · exact (KeepsBounds.refl s).ends
  · refine (seen.trans ?_).ends
    split
    · exact bladeReturns_keepsBounds _
    · exact bladeLeaves_keepsBounds _

theorem execBladeSlowTime_ends (s : State) : EndsBounded s (execBladeSlowTime s) := by
  unfold execBladeSlowTime
  split
  · exact (KeepsBounds.refl s).ends
  · next r _ =>
    have notified := setBlade_keepsBounds
      { s.blade with inFlight := some { r with notified := true, time := max r.time r.slowTime } } s rfl
    split
    · exact (KeepsBounds.refl s).ends
    · exact (notified.trans (raise_keepsBounds _ _)).ends

theorem execBladeTimeout_ends (s : State) : EndsBounded s (execBladeTimeout s) := by
  have abandoned := setBlade_keepsBounds
    { s.blade with inFlight := none, state := if s.inputs.bladeHome then .home else .away } s rfl
  unfold execBladeTimeout
  split
  · exact (KeepsBounds.refl s).ends
  · exact ((abandoned.trans (reportCause_keepsBounds _ _)).trans (refresh_keepsBounds _)).ends

theorem execEStop_ends (s : State) : EndsBounded s (execEStop s) := by
  unfold execEStop
  split
  · exact (KeepsBounds.refl s).ends
  · exact (((setInputs_keepsBounds _ s).trans (reportCause_keepsBounds _ _)).trans (refresh_keepsBounds _)).ends

theorem execWebBreak_ends (s : State) : EndsBounded s (execWebBreak s) := by
  unfold execWebBreak
  split
  · exact (KeepsBounds.refl s).ends
  · exact (((setInputs_keepsBounds _ s).trans (reportCause_keepsBounds _ _)).trans (refresh_keepsBounds _)).ends

theorem execTakeOffHoldChange_ends (active : Bool) (s : State) : EndsBounded s (execTakeOffHoldChange active s) :=
  have held : KeepsBounds s { s with
      inputs := { s.inputs with takeOffHold := active }, lg := { s.lg with hold := holdAfter active s.lg } } := {}
  (held.trans (refresh_keepsBounds _)).ends

theorem execRevolutionMarkerEdge_ends (u : UnwindId) (elapsed : Nat) (s : State) :
    EndsBounded s (execRevolutionMarkerEdge u elapsed s) :=
  (((setRolls_keepsBounds _ s).trans (markerEdge_keepsBounds u _)).trans (refresh_keepsBounds _)).ends

theorem execPasteConfirm_ends (s : State) : EndsBounded s (execPasteConfirm s) := by
  unfold execPasteConfirm
  dsimp only
  split
  · exact (KeepsBounds.refl s).ends
  · split
    · exact (((setInputs_keepsBounds _ s).trans (completePaste_keepsBounds _ _)).trans (refresh_keepsBounds _)).ends
    · exact (setInputs_keepsBounds _ s).ends

theorem execCutConfirm_ends (s : State) : EndsBounded s (execCutConfirm s) := by
  unfold execCutConfirm
  dsimp only
  split
  · exact (KeepsBounds.refl s).ends
  · split
    · exact (((setInputs_keepsBounds _ s).trans (confirmCut_keepsBounds _ _)).trans (refresh_keepsBounds _)).ends
    · exact (setInputs_keepsBounds _ s).ends

theorem execPasteTimeout_ends (s : State) : EndsBounded s (execPasteTimeout s) := by
  unfold execPasteTimeout
  split
  · exact ((((failPaste_keepsBounds _ s).trans (spliceOver_keepsBounds _)).trans (reportCause_keepsBounds _ _)).trans
      (refresh_keepsBounds _)).ends
  · exact (KeepsBounds.refl s).ends

theorem execCutTimeout_ends (s : State) : EndsBounded s (execCutTimeout s) := by
  have overdue (r : SpliceRecord) : KeepsBounds s (overdueCut r s) :=
    ((setRolls_keepsBounds _ s).trans (raise_keepsBounds _ _)).trans (reportCause_keepsBounds _ _)
  unfold execCutTimeout
  split
  · split
    · exact (KeepsBounds.refl s).ends
    · exact ((overdue _).trans (refresh_keepsBounds _)).ends
  · exact (KeepsBounds.refl s).ends

theorem execStepPeriodEnd_ends (g : StepOutput) (s : State) : EndsBounded s (execStepPeriodEnd g s) := by
  unfold execStepPeriodEnd
  split
  · split
    · exact (KeepsBounds.refl s).ends
    · exact (setLine_keepsBounds _ s).ends
  · split
    · exact (KeepsBounds.refl s).ends
    · exact (setLine_keepsBounds _ s).ends

theorem execScan_ends (t1 t2 t3 t4 pressure : Fin 4096) (s : State) : EndsBounded s (execScan t1 t2 t3 t4 pressure s) :=
  have tested := (setHeat_keepsBounds (scanChannels t1 t2 t3 t4 pressure s).heat s).trans
    (.foldl testZone_keepsBounds allZones _)
  ((tested.trans (stepStopTimer_keepsBounds _)).trans (refresh_keepsBounds _)).ends

theorem execSettleComplete_ends (z : Fin 4) (s : State) : EndsBounded s (execSettleComplete z s) := by
  unfold execSettleComplete
  split
  · exact ((modifyZone_keepsBounds z _ s).trans (refresh_keepsBounds _)).ends
  · exact (KeepsBounds.refl s).ends

theorem execStopTimerFire_ends (s : State) : EndsBounded s (execStopTimerFire s) := by
  unfold execStopTimerFire
  split
  · exact ((fireStopTimer_keepsBounds s).trans (refresh_keepsBounds _)).ends
  · exact (KeepsBounds.refl s).ends

theorem execAddressCharacter_ends (v : Byte) (s : State) : EndsBounded s (execAddressCharacter v s) := by
  unfold execAddressCharacter
  split
  · exact (setReceiver_keepsBounds _ s).ends
  · exact ((linkError_keepsBounds _ s fun ⟨ha, hf, hg, hc, hl, _, ho⟩ =>
      ⟨ha, hf, hg, hc, hl, countLink_le _, ho⟩).trans (setReceiver_keepsBounds _ _)).ends
  · split
    · exact (linkError_keepsBounds _ s fun ⟨ha, hf, hg, hc, hl, hb, _⟩ =>
        ⟨ha, hf, hg, hc, hl, hb, countLink_le _⟩).ends
    · exact (KeepsBounds.refl s).ends

theorem execDataCharacter_ends (v : Byte) (s : State) : EndsBounded s (execDataCharacter v s) := by
  unfold execDataCharacter
  split
  · exact (KeepsBounds.refl s).ends
  · exact (advanceFrame_stays _ _ s).ends
  · exact (KeepsBounds.refl s).ends

theorem execFramingError_ends (s : State) : EndsBounded s (execFramingError s) := by
  unfold execFramingError
  split
  · exact (KeepsBounds.refl s).ends
  · exact ((linkError_keepsBounds _ s fun ⟨ha, _, hrest⟩ => ⟨ha, countLink_le _, hrest⟩).trans
      (setReceiver_keepsBounds _ _)).ends
  · exact (KeepsBounds.refl s).ends

theorem execGapTimeout_ends (s : State) : EndsBounded s (execGapTimeout s) := by
  unfold execGapTimeout
  split
  · exact (KeepsBounds.refl s).ends
  · exact ((linkError_keepsBounds _ s fun ⟨ha, hf, _, hrest⟩ => ⟨ha, hf, countLink_le _, hrest⟩).trans
      (setReceiver_keepsBounds _ _)).ends
  · exact (KeepsBounds.refl s).ends

theorem execReplySent_ends (s : State) : EndsBounded s (execReplySent s) := by
  have sent : KeepsBounds s { s with link := { s.link with receiver := .listen, pendingReply := none } } :=
    { counters := id }
  unfold execReplySent
  split
  · exact (KeepsBounds.refl s).ends
  · exact (KeepsBounds.refl s).ends
  · exact sent.ends

/-- Every command keeps the part within bounds. -/
theorem exec_ends (c : Instr) (s : State) : EndsBounded s (exec c s) := by
  have accepted (src : Source) (r : Request) : EndsBounded s (.next (acceptRequest src r (serve r) s)) :=
    (acceptRequest_stays src r s).ends
  cases c with
  | powerOnReset p => exact execPowerOnReset_ends p s
  | encoderChange e p => exact execEncoderChange_ends e p s
  | commit => exact execCommit_ends s
  | searchSetup => exact execSearchSetup_ends s
  | strokeGenerate => exact ((appendStroke_keepsBounds s).trans (refresh_keepsBounds _)).ends
  | markEdge active => exact execMarkEdge_ends active s
  | bladeHomeChange active => exact execBladeHomeChange_ends active s
  | bladeSlowTime => exact execBladeSlowTime_ends s
  | bladeTimeout => exact execBladeTimeout_ends s
  | eStop => exact execEStop_ends s
  | webBreak => exact execWebBreak_ends s
  | takeOffHoldChange active => exact execTakeOffHoldChange_ends active s
  | revolutionMarkerEdge u elapsed => exact execRevolutionMarkerEdge_ends u elapsed s
  | pasteConfirm => exact execPasteConfirm_ends s
  | cutConfirm => exact execCutConfirm_ends s
  | pasteTimeout => exact execPasteTimeout_ends s
  | cutTimeout => exact execCutTimeout_ends s
  | rampTimer => exact ((setLine_keepsBounds _ s).trans (refresh_keepsBounds _)).ends
  | stepPeriodEnd g => exact execStepPeriodEnd_ends g s
  | scan t1 t2 t3 t4 pressure => exact execScan_ends t1 t2 t3 t4 pressure s
  | settleComplete z => exact execSettleComplete_ends z s
  | stopTimerFire => exact execStopTimerFire_ends s
  | controlStep => exact (KeepsBounds.foldl controlZone_keepsBounds allZones s).ends
  | valveBoundary => exact (KeepsBounds.foldl (fun t z => modifyZone_keepsBounds z boundaryZone t) allZones s).ends
  | valveOnTimeEnd z => exact (modifyZone_keepsBounds z onTimeOver s).ends
  | addressCharacter v => exact execAddressCharacter_ends v s
  | dataCharacter v => exact execDataCharacter_ends v s
  | framingError => exact execFramingError_ends s
  | gapTimeout => exact execGapTimeout_ends s
  | replySent => exact execReplySent_ends s
  | eStopReleased | webBreakReleased | pasteConfirmInactive | cutConfirmInactive =>
    exact (setInputs_keepsBounds _ s).ends
  | identify src => exact accepted src .identify
  | readLink src clear => exact accepted src (.readLink clear)
  | setLimits src t v d => exact accepted src (.setLimits t v d)
  | setGeometry src g => exact accepted src (.setGeometry g)
  | setRecipe src r => exact accepted src (.setRecipe r)
  | setZoneTuning src z kp ki => exact accepted src (.setZoneTuning z kp ki)
  | setMarkCode src e n c k m => exact accepted src (.setMarkCode e n c k m)
  | setEventMask src m c => exact accepted src (.setEventMask m c)
  | loadPanel src k p => exact accepted src (.loadPanel k p)
  | cancelPanel src k => exact accepted src (.cancelPanel k)
  | releasePanel src k => exact accepted src (.releasePanel k)
  | readPanel src k => exact accepted src (.readPanel k)
  | readRing src => exact accepted src .readRing
  | start src => exact accepted src .start
  | stop src => exact accepted src .stop
  | setSpeed src v => exact accepted src (.setSpeed v)
  | trip src => exact accepted src .trip
  | clearTrip src => exact accepted src .clearTrip
  | lineReset src => exact accepted src .lineReset
  | readLine src => exact accepted src .readLine
  | heatOn src => exact accepted src .heatOn
  | heatOff src => exact accepted src .heatOff
  | readHeat src r => exact accepted src (.readHeat r)
  | rollReady src u d r t => exact accepted src (.rollReady u d r t)
  | rollRemoved src u => exact accepted src (.rollRemoved u)
  | readRolls src => exact accepted src .readRolls
  | readTracking src i => exact accepted src (.readTracking i)
  | readEvents src i => exact accepted src (.readEvents i)
  | ackEvents src c => exact accepted src (.ackEvents c)

/-- Every step keeps the part within bounds. -/
theorem step_ends (s : State) : EndsBounded s (step s) := by
  unfold step
  split
  · exact (tick_keepsBounds s).ends
  · next c rest _ =>
    intro t ht
    have taken : KeepsBounds s { s with pending := rest } := {}
    exact taken.stays.trans (exec_ends c _ t ht)

/-- Settles O6: every operation keeps positions, queues, counters and marks within their ranges, and so does every
command built of them. -/
theorem stepKeepsPositionsAndCapacity : Obligations.StepKeepsPositionsAndCapacity := by
  refine ⟨fun s t hs h => ?_, fun s t hs h => ?_, fun s t ⟨hpos, hmarks⟩ h => ?_⟩
  · exact (step_ends s t h).positions hs
  · exact (step_ends s t h).capacity hs
  · exact (step_ends s t h).marks hpos hmarks

end Sys2Proof.Machine
end

