-- ==== Sys2Proof/Proofs/Checks.lean ====
section
/-! PROOF. The checks of SET-GEOMETRY and of the pleats, in their order (GeometryAndPleatChecksInOrder). -/

namespace Sys2Proof.Machine

open Sys2Proof.Safety

/-! ### The first check that fails -/

/-- The first failing field is that of the first check found to fail (R9, R17). -/
theorem firstFailing_eq_find (l : List (Nat × Bool)) : firstFailing l = (l.find? fun c => !c.2).map (·.1) := by
  induction l with
  | nil => rfl
  | cons c rest ih =>
    obtain ⟨n, ok⟩ := c
    cases ok
    · rfl
    · exact ih

theorem within_eq (lo hi n : Nat) : within lo hi n = decide (lo ≤ n ∧ n ≤ hi) := (Bool.decide_and _ _).symm

/-- The ranges of SET-GEOMETRY's fields as lower end, upper end and value, in field order (R9). -/
def geometryBounds (g : GeometryFields) : List (Nat × Nat × Nat) :=
  [(4000, 131072, g.s), (4000, 131072, g.sb), (0, 1, g.webSense), (0, 1, g.beltSense), (100, 20000, g.ms),
    (200, 60000, g.h), (1, 1000, g.reverseLimit), (100, 100000, g.commitHorizon), (50, 5000, g.minPitch),
    (10, 2000, g.bladeSlow), (20, 5000, g.bladeTimeout), (10, 5000, g.minBar), (20, 10000, g.wideThreshold),
    (50, 50000, g.groupGap), (1, 200, g.rampStep), (1, 500, g.tripRampStep), (1000, 400000, g.infeedSteps),
    (1000, 400000, g.beltSteps), (100, 100000, g.starveThreshold), (0, 50000, g.starveHysteresis),
    (0, 60000, g.ce), (0, 60000, g.zs1), (0, 60000, g.ze1), (0, 60000, g.zs2), (0, 60000, g.ze2),
    (0, 60000, g.zs3), (0, 60000, g.ze3), (0, 60000, g.zs4), (0, 60000, g.ze4), (1, 60000, g.cx),
    (1, 100000, g.takeOff), (500, 15000, g.dArm), (400, 15000, g.dLast), (300, 15000, g.dCore),
    (0, 100000, g.seamMargin), (0, 100000, g.armLead), (100, 30000, g.pasteTimeout), (100, 30000, g.cutTimeout)]

/-- Field n's range check is the n-th: the fields are numbered in list order (R9). -/
theorem geometryRanges_eq (g : GeometryFields) : geometryRanges g =
    (geometryBounds g).mapIdx fun i x => (i + 1, decide (x.1 ≤ x.2.2 ∧ x.2.2 ≤ x.2.1)) := by
  simp only [geometryRanges, geometryBounds, within_eq, List.mapIdx_cons, List.mapIdx_nil, Nat.reduceAdd]

/-! ### Conversions (R10) -/

/-! ### The pleat checks (R36 to R38) -/

theorem fabricLength_eq (p : PanelRecord) (i : Nat) : fabricLength p i =
    if p.kind = .knife then faceWidth p i + 2 * foldDepth p i
    else if p.kind = .box then faceWidth p i + 4 * foldDepth p i else faceWidth p i := by
  unfold fabricLength
  cases p.kind <;> rfl

/-- The first stroke of a pleat: half the fabric of a BOX pleat, the whole of another (R39). -/
theorem strokeLength_first (p : PanelRecord) (i : Nat) : strokeLength p i false =
    if p.kind = .box then (fabricLength p i).toNat / 2 else (fabricLength p i).toNat := by
  unfold strokeLength
  cases p.kind <;> rfl

theorem pleatFailure_eq (p : PanelRecord) (g : GeometryFields) (i : Nat) : pleatFailure p g i =
    if faceWidth p i < 200 ∨ 10000 < faceWidth p i then some 1
    else if p.kind ≠ .flat ∧ (foldDepth p i < 100 ∨ 6000 < foldDepth p i) then some 2
    else if 6000 < takeUpRatio p i then some 3
    else if p.kind ≠ .flat ∧ strokeLength p i false * g.s / 100000 < pitchCounts g then some 4
    else none := by
  have hface : (200 ≤ faceWidth p i ∧ faceWidth p i ≤ 10000) ↔ ¬ (faceWidth p i < 200 ∨ 10000 < faceWidth p i) := by
    omega
  have hfold : (100 ≤ foldDepth p i ∧ foldDepth p i ≤ 6000) ↔ ¬ (foldDepth p i < 100 ∨ 6000 < foldDepth p i) := by
    omega
  have hexempt (P : Prop) : (p.kind = .flat ∨ ¬ P) ↔ ¬ (p.kind ≠ .flat ∧ P) := by
    rw [not_and_or, not_not]
  simp only [pleatFailure, firstFailing, beq_iff_eq, Bool.or_eq_true, Bool.and_eq_true, decide_eq_true_eq, hface, hfold,
    ← Nat.not_lt, hexempt, ite_not]

theorem pleatRefusal_eq (p : PanelRecord) (g : GeometryFields) : pleatRefusal p g =
    match pleatFailure p g 0 with
    | some c => some (c, 0)
    | none =>
      match pleatFailure p g (p.pleats - 1) with
      | some c => some (c, p.pleats - 1)
      | none => none := by
  unfold pleatRefusal
  cases pleatFailure p g 0 with
  | some c => rfl
  | none => cases pleatFailure p g (p.pleats - 1) <;> rfl

/-- Settles O53: the checks of the model are those of the spec's tables, one by one. -/
theorem geometryAndPleatChecksInOrder : Obligations.GeometryAndPleatChecksInOrder := by
  refine ⟨fun g => ?_, fun p g i => ⟨?_, pleatRefusal_eq p g⟩⟩
  · rw [geometryRefusal, firstFailing_eq_find, geometryRanges_eq, List.append_assoc]
    rfl
  · rw [pleatFailure_eq, strokeLength_first, takeUpRatio, fabricLength_eq]
    rfl

end Sys2Proof.Machine
end

