-- ==== Sys2Proof/Proofs/LinkFree.lean ====
section
/-! PROOF. Nothing outside LI reads the link: each operation commutes with a change of the link's state, so a request is
carried out as if its frame had not been counted (R179, R181). -/

namespace Sys2Proof.Machine

open Sys2Proof.Safety

-- One proof after the other: many short ones at once need more threads than the memory limit leaves room for.
set_option Elab.async false

/-- The state with another link. -/
def withLink (l : LinkInterface) (s : State) : State := { s with link := l }

section

variable (l : LinkInterface) (s : State)

/-! ### What reads a state with another link -/

@[simp] theorem withLink_pc : (withLink l s).pc = s.pc := rfl
@[simp] theorem withLink_geometry : (withLink l s).geometry = s.geometry := rfl
@[simp] theorem withLink_limits : (withLink l s).limits = s.limits := rfl
@[simp] theorem withLink_slots : (withLink l s).slots = s.slots := rfl
@[simp] theorem withLink_ps : (withLink l s).ps = s.ps := rfl
@[simp] theorem withLink_blade : (withLink l s).blade = s.blade := rfl
@[simp] theorem withLink_ru : (withLink l s).ru = s.ru := rfl
@[simp] theorem withLink_lg : (withLink l s).lg = s.lg := rfl
@[simp] theorem withLink_tu : (withLink l s).tu = s.tu := rfl
@[simp] theorem withLink_heat : (withLink l s).heat = s.heat := rfl
@[simp] theorem withLink_rolls : (withLink l s).rolls = s.rolls := rfl
@[simp] theorem withLink_link : (withLink l s).link = l := rfl
@[simp] theorem withLink_events : (withLink l s).events = s.events := rfl
@[simp] theorem withLink_inputs : (withLink l s).inputs = s.inputs := rfl
@[simp] theorem withLink_pending : (withLink l s).pending = s.pending := rfl
@[simp] theorem withLink_races : (withLink l s).races = s.races := rfl
@[simp] theorem withLink_status (k : Fin 32) : (withLink l s).status k = s.status k := rfl
@[simp] theorem withLink_panelOf (k : Fin 32) : (withLink l s).panelOf k = s.panelOf k := rfl
@[simp] theorem withLink_zone (z : Fin 4) : (withLink l s).zone z = s.zone z := rfl
@[simp] theorem withLink_recipeUses (r : Fin 8) (z : Fin 4) : (withLink l s).recipeUses r z = s.recipeUses r z := rfl
@[simp] theorem withLink_reserve : (withLink l s).reserve = s.reserve := rfl
@[simp] theorem withLink_ceiling : (withLink l s).ceiling = s.ceiling := rfl
@[simp] theorem withLink_otherZeroReason : (withLink l s).otherZeroReason = s.otherZeroReason := rfl
@[simp] theorem withLink_allOff : (withLink l s).allOff = s.allOff := rfl
@[simp] theorem withLink_stopTimerDue : (withLink l s).stopTimerDue = s.stopTimerDue := rfl
@[simp] theorem withLink_mayPlan : (withLink l s).mayPlan = s.mayPlan := rfl
@[simp] theorem withLink_planFor : (withLink l s).planFor = s.planFor := rfl
@[simp] theorem withLink_holdsCause (c : Cause) : (withLink l s).holdsCause c = s.holdsCause c := rfl
@[simp] theorem withLink_takesCause (c : Cause) : (withLink l s).takesCause c = s.takesCause c := rfl
@[simp] theorem withLink_commitReady : (withLink l s).commitReady = s.commitReady := rfl
@[simp] theorem withLink_canAppend : (withLink l s).canAppend = s.canAppend := rfl
@[simp] theorem withLink_base : (withLink l s).base = s.base := rfl
@[simp] theorem withLink_panelSlots (p : TrackRecord → Bool) : (withLink l s).panelSlots p = s.panelSlots p := rfl
@[simp] theorem withLink_overlapsZone (z : Fin 4) : (withLink l s).overlapsZone z = s.overlapsZone z := rfl
@[simp] theorem withLink_overlapsChamber : (withLink l s).overlapsChamber = s.overlapsChamber := rfl
@[simp] theorem withLink_dueSwitches (r : TrackRecord) : dueSwitches (withLink l s) r = dueSwitches s r := by
  cases r <;> rfl

/-- A choice whose two sides commute with a change of the link commutes with it. -/
theorem ite_withLink {c : Prop} [Decidable c] {a b a' b' : State} (ha : a' = withLink l a) (hb : b' = withLink l b) :
    (if c then a' else b') = withLink l (if c then a else b) := by
  split
  · exact ha
  · exact hb

/-! ### Zones and the stop timer -/

@[simp] theorem raise_withLink (c : EventClass) : raise c (withLink l s) = withLink l (raise c s) := rfl
@[simp] theorem modifyStatus_withLink (k : Fin 32) (f : SlotStatus → SlotStatus) :
    modifyStatus k f (withLink l s) = withLink l (modifyStatus k f s) := rfl
@[simp] theorem modifyZone_withLink (z : Fin 4) (f : Zone → Zone) :
    modifyZone z f (withLink l s) = withLink l (modifyZone z f s) := rfl
@[simp] theorem modifyUnwind_withLink (u : UnwindId) (f : Unwind → Unwind) :
    modifyUnwind u f (withLink l s) = withLink l (modifyUnwind u f s) := by
  cases u <;> rfl
@[simp] theorem setRecords_withLink (rs : List TrackRecord) :
    setRecords rs (withLink l s) = withLink l (setRecords rs s) := rfl

/-- A fold of operations that commute with a change of the link commutes with it. -/
theorem foldl_withLink {α : Type} {op : State → α → State}
    (h : ∀ t a, op (withLink l t) a = withLink l (op t a)) (as : List α) (s : State) :
    as.foldl op (withLink l s) = withLink l (as.foldl op s) := by
  induction as generalizing s with
  | nil => rfl
  | cons a as ih => rw [List.foldl_cons, h, ih, List.foldl_cons]

@[simp] theorem aim_withLink (mark : SlotStatus → SlotStatus) (k : Fin 32) :
    aim mark k (withLink l s) = withLink l (aim mark k s) := by
  simp only [aim, withLink_status]
  split <;> rfl

@[simp] theorem aimUnderSet_withLink (z : Fin 4) (k : Fin 32) :
    aimUnderSet z k (withLink l s) = withLink l (aimUnderSet z k s) := aim_withLink l s _ k

@[simp] theorem aimOverDwell_withLink (k : Fin 32) :
    aimOverDwell k (withLink l s) = withLink l (aimOverDwell k s) := aim_withLink l s _ k

@[simp] theorem markZonePanels_withLink (z : Fin 4) :
    markZonePanels z (withLink l s) = withLink l (markZonePanels z s) :=
  foldl_withLink l (fun t k => aimUnderSet_withLink l t z k) _ s

@[simp] theorem markChamberPanels_withLink : markChamberPanels (withLink l s) = withLink l (markChamberPanels s) :=
  foldl_withLink l (fun t k => aimOverDwell_withLink l t k) _ s

@[simp] theorem leaveIfInBand_withLink (before : ZoneState) (z : Fin 4) :
    leaveIfInBand before z (withLink l s) = withLink l (leaveIfInBand before z s) := by
  simp only [leaveIfInBand, leaveInBand, markZonePanels_withLink]
  exact ite_withLink l rfl rfl

@[simp] theorem resumeTest_withLink : resumeTest (withLink l s) = withLink l (resumeTest s) := by
  have zones : resumeZones (withLink l s) = withLink l (resumeZones s) :=
    foldl_withLink l (fun t z => modifyZone_withLink l t z resumedZone) _ s
  unfold resumeTest
  exact ite_withLink l zones rfl

@[simp] theorem standZone_withLink (z : Fin 4) : standZone (withLink l s) z = withLink l (standZone s z) := by
  simp only [standZone, withLink_zone, modifyZone_withLink, leaveIfInBand_withLink]
  split <;> rfl

@[simp] theorem fireStopTimer_withLink : fireStopTimer (withLink l s) = withLink l (fireStopTimer s) := by
  have stood := foldl_withLink l (standZone_withLink l) allZones { s with heat := { s.heat with stopFired := true } }
  simp only [fireStopTimer, withLink_heat]
  rw [← resumeTest_withLink, ← raise_withLink, ← markChamberPanels_withLink, ← stood]
  rfl

@[simp] theorem restStopTimer_withLink : restStopTimer (withLink l s) = withLink l (restStopTimer s) := by
  unfold restStopTimer
  exact ite_withLink l rfl rfl

@[simp] theorem checkStopTimer_withLink : checkStopTimer (withLink l s) = withLink l (checkStopTimer s) := by
  simp only [checkStopTimer, restStopTimer_withLink]
  exact ite_withLink l (fireStopTimer_withLink l _) rfl

@[simp] theorem clampReference_withLink : clampReference (withLink l s) = withLink l (clampReference s) := by
  unfold clampReference
  exact ite_withLink l rfl rfl

@[simp] theorem switchRecord_withLink (z : Fin 4) (r : Fin 8) :
    switchRecord z r (withLink l s) = withLink l (switchRecord z r s) := by
  simp only [switchRecord, withLink_zone, withLink_recipeUses, modifyZone_withLink, leaveIfInBand_withLink]

@[simp] theorem switchZone_withLink (z : Fin 4) (r : Fin 8) :
    switchZone z r (withLink l s) = withLink l (switchZone z r s) := by
  unfold switchZone
  refine ite_withLink l rfl ?_
  rw [switchRecord_withLink, clampReference_withLink, checkStopTimer_withLink]

/-! ### The tracking queue -/

@[simp] theorem entryTest_withLink (k : Fin 32) (z : Fin 4) :
    entryTest k (withLink l s) z = withLink l (entryTest k s z) := by
  unfold entryTest
  exact ite_withLink l rfl (aimUnderSet_withLink l s z k)

@[simp] theorem retireSlot_withLink (k : Fin 32) : retireSlot k (withLink l s) = withLink l (retireSlot k s) := by
  unfold retireSlot
  exact ite_withLink l rfl rfl

@[simp] theorem switchFor_withLink (r : TrackRecord) (zs : List (Fin 4)) :
    switchFor r zs (withLink l s) = withLink l (switchFor r zs s) := by
  cases r with
  | panel k head tail => rfl
  | seam b recipe switched => exact foldl_withLink l (fun t z => switchZone_withLink l t z recipe) zs s

@[simp] theorem forceOut_withLink (r : TrackRecord) : forceOut r (withLink l s) = withLink l (forceOut r s) := by
  cases r with
  | panel k head tail =>
    simp only [forceOut, withLink_pc, withLink_geometry]
    rw [foldl_withLink l (fun t z => aimUnderSet_withLink l t z k), retireSlot_withLink]
    rfl
  | seam b recipe switched => simp only [forceOut, switchFor_withLink]

@[simp] theorem makeRoom_withLink : makeRoom (withLink l s) = withLink l (makeRoom s) := by
  simp only [makeRoom, withLink_tu, forceOut_withLink]
  split
  · rfl
  · exact ite_withLink l rfl rfl

@[simp] theorem openRecord_withLink (k : Fin 32) : openRecord k (withLink l s) = withLink l (openRecord k s) := by
  simp only [openRecord, makeRoom_withLink, withLink_pc, withLink_tu, withLink_geometry, setRecords_withLink]
  exact foldl_withLink l (fun t z => entryTest_withLink l t k z) _ _

@[simp] theorem evaluatePlanning_withLink : evaluatePlanning (withLink l s) = withLink l (evaluatePlanning s) := by
  unfold evaluatePlanning
  exact ite_withLink l rfl rfl

/-! ### The line -/

@[simp] theorem starveTest_withLink : starveTest (withLink l s) = withLink l (starveTest s) := by
  unfold starveTest
  exact ite_withLink l rfl (ite_withLink l (ite_withLink l rfl rfl) (ite_withLink l rfl rfl))

@[simp] theorem liftFreeze_withLink : liftFreeze (withLink l s) = withLink l (liftFreeze s) :=
  starveTest_withLink l { s with lg := { s.lg with freeze := none, hold := s.inputs.takeOffHold } }

@[simp] theorem tripFreeze_withLink : tripFreeze (withLink l s) = withLink l (tripFreeze s) := by
  simp only [tripFreeze, withLink_lg]
  split
  · rfl
  · rw [← clampReference_withLink, ← liftFreeze_withLink]
    rfl

@[simp] theorem failPaste_withLink (r : SpliceRecord) : failPaste r (withLink l s) = withLink l (failPaste r s) := by
  simp only [failPaste, modifyUnwind_withLink]
  rfl

@[simp] theorem dropPlan_withLink : dropPlan (withLink l s) = withLink l (dropPlan s) := rfl

@[simp] theorem tripSplice_withLink : tripSplice (withLink l s) = withLink l (tripSplice s) := by
  simp only [tripSplice, withLink_rolls, dropPlan_withLink, failPaste_withLink]
  split
  · split <;> rfl
  · rfl

@[simp] theorem takeCause_withLink (c : Cause) : takeCause c (withLink l s) = withLink l (takeCause c s) := by
  have entered : enterTripped c (withLink l s) = withLink l (enterTripped c s) := by
    simp only [enterTripped, withLink_lg]
    rw [← tripSplice_withLink, ← tripFreeze_withLink, ← raise_withLink]
    rfl
  unfold takeCause
  exact ite_withLink l (ite_withLink l rfl rfl) entered

@[simp] theorem reportCause_withLink (c : Cause) : reportCause c (withLink l s) = withLink l (reportCause c s) := by
  have stopped (t : State) : stopAtOnce (withLink l t) = withLink l (stopAtOnce t) := rfl
  simp only [reportCause, takeCause_withLink, stopped]
  exact ite_withLink l (ite_withLink l rfl rfl) rfl

/-! ### The schedule -/

@[simp] theorem toActive_withLink (k : Fin 32) : toActive k (withLink l s) = withLink l (toActive k s) := by
  simp only [toActive, withLink_pc, modifyStatus_withLink, openRecord_withLink]

@[simp] theorem takeUp_withLink (n : Nat) (k : Fin 32) : takeUp n k (withLink l s) = takeUp n k s := by
  induction n generalizing k with
  | zero => rfl
  | succ n ih => simp only [takeUp, withLink_panelOf, withLink_ps, withLink_status, ih]

@[simp] theorem appendStroke_withLink : appendStroke (withLink l s) = withLink l (appendStroke s) := by
  have after (g : Generator) : generatorAfter g (withLink l s) = generatorAfter g s := by
    simp only [generatorAfter, withLink_panelOf, withLink_ps, withLink_geometry, takeUp_withLink]
  simp only [appendStroke, withLink_ps, withLink_panelOf, withLink_geometry, after]
  split
  · rfl
  · exact ite_withLink l rfl rfl

@[simp] theorem generate_withLink (n : Nat) : generate n (withLink l s) = withLink l (generate n s) := by
  induction n generalizing s with
  | zero => rfl
  | succ n ih =>
    simp only [generate, appendStroke_withLink, ih]
    exact ite_withLink l rfl rfl

@[simp] theorem checkGarment_withLink (k : Fin 32) :
    checkGarment k (withLink l s) = withLink l (checkGarment k s) := rfl

@[simp] theorem placePanel_withLink (k : Fin 32) (start : Nat) (reg : Registered) :
    placePanel k start reg (withLink l s) = withLink l (placePanel k start reg s) := by
  simp only [placePanel, withLink_status, modifyStatus_withLink, withLink_ps, modifyStatus_ps]
  split
  · rfl
  · conv_rhs => rw [← takeUp_withLink l]
    rfl

@[simp] theorem finishCommit_withLink (k : Fin 32) (start : Nat) (reg : Registered) :
    finishCommit k start reg (withLink l s) = withLink l (finishCommit k start reg s) := by
  simp only [finishCommit, placePanel_withLink, starveTest_withLink, toActive_withLink]
  rw [← evaluatePlanning_withLink]
  exact congrArg evaluatePlanning (ite_withLink l rfl rfl)

@[simp] theorem setUpSearch_withLink (k : Fin 32) (part : RegistrationPart) :
    setUpSearch k part (withLink l s) = withLink l (setUpSearch k part s) := by
  unfold setUpSearch
  extract_lets r s1 p2 s2 w u3 s3 r' s1' p2' s2' w' u3' s3'
  have hsearched : s3 = withLink l s3' := rfl
  have hwalked : w = w' := rfl
  rw [hsearched, hwalked]
  split
  · exact finishCommit_withLink l s3' _ _ _
  · rfl

@[simp] theorem takeSlot_withLink : takeSlot (withLink l s) = withLink l (takeSlot s) := by
  simp only [takeSlot, withLink_ps, withLink_panelOf, setUpSearch_withLink]
  split
  · simp only [commitSlot, withLink_base, withLink_status, checkGarment_withLink, finishCommit_withLink]
  · rfl

@[simp] theorem takeReady_withLink (n : Nat) : takeReady n (withLink l s) = withLink l (takeReady n s) := by
  induction n generalizing s with
  | zero => rfl
  | succ n ih =>
    simp only [takeReady, takeSlot_withLink, ih]
    exact ite_withLink l rfl rfl

@[simp] theorem refresh_withLink : refresh (withLink l s) = withLink l (refresh s) := by
  have started (t : State) : startGenerators (withLink l t) = withLink l (startGenerators t) := rfl
  simp only [refresh, settlePS, starveTest_withLink, takeReady_withLink, generate_withLink, resumeTest_withLink,
    clampReference_withLink, restStopTimer_withLink, started]

end

/-! ### A request carried out and answered (R181, R182) -/

theorem countAccepted_eq (s : State) : countAccepted s =
    withLink { s.link with counters := { s.link.counters with accepted := countLink s.link.counters.accepted } } s := rfl

/-- A request whose owner gives the state `t` and the answer `a`, as if nothing had come over the link, ends in `t` with
the frame counted and answered. -/
theorem acceptRequest_eq_answered {src : Source} {r : Request} {serve : State → State × Answer} {s t : State} {a : Answer}
    (h : serve (countAccepted s) = (countAccepted t, a)) : acceptRequest src r serve s = answered src r a t := by
  unfold acceptRequest answered replyTo
  rw [h]
  have station : (countAccepted t).station = t.station := rfl
  cases src with
  | broadcast => rfl
  | addressed tag =>
    simp only [deliver, station]
    cases t.station <;> rfl

theorem refresh_countAccepted (s : State) : refresh (countAccepted s) = countAccepted (refresh s) := by
  simp only [countAccepted_eq, refresh_withLink, refresh_frame]

theorem reportCause_countAccepted (c : Cause) (s : State) :
    reportCause c (countAccepted s) = countAccepted (reportCause c s) := by
  simp only [countAccepted_eq, reportCause_withLink, reportCause_frame]

end Sys2Proof.Machine
end

