-- ==== Sys2Proof/Proofs/Geometry.lean ====
section
/-! PROOF. SET-GEOMETRY replaces the geometry whole or is refused (SetGeometryReplacesGeometry). -/

namespace Sys2Proof.Machine

open Sys2Proof.Safety

/-! ### The state check (R12) -/

theorem busy_eq_false_iff (x : SlotState) : x.busy = false ↔ x = .free ∨ x = .done := by
  cases x <;> decide

theorem admitsGeometry_iff (s : State) : s.admitsGeometry = true ↔
    (s.lg.lineState = .unconfigured ∨ s.lg.lineState = .stopped ∨
      (s.lg.lineState = .tripped ∧ s.lg.reference = 0)) ∧
    (∀ k : Fin 32, (s.status k).state = .free ∨ (s.status k).state = .done) ∧ s.tu.records = [] := by
  have hslots : ((List.finRange 32).all fun k => !(s.status k).state.busy) = true ↔
      ∀ k : Fin 32, (s.status k).state = .free ∨ (s.status k).state = .done := by
    simp [busy_eq_false_iff]
  unfold State.admitsGeometry
  rw [Bool.and_eq_true, Bool.and_eq_true, hslots, List.isEmpty_iff, and_assoc]
  cases s.lg.lineState <;> simp

/-! ### The three outcomes (R12, R13) -/

theorem serveSetGeometry_state {g : GeometryFields} {s : State} (h : s.admitsGeometry = false) :
    serveSetGeometry g s = (s, no .state 0) := by
  simp [serveSetGeometry, h, refuse]

theorem serveSetGeometry_range {g : GeometryFields} {s : State} {n : Nat} (h : s.admitsGeometry = true)
    (hn : geometryRefusal g = some n) : serveSetGeometry g s = (s, no .range n) := by
  simp [serveSetGeometry, h, hn, refuse]

theorem serveSetGeometry_done {g : GeometryFields} {s : State} (h : s.admitsGeometry = true)
    (hn : geometryRefusal g = none) : serveSetGeometry g s =
      (refresh (restartReverseCheck (clearOldCounts (storeGeometry g s))), .done (geometryPayload g)) := by
  simp [serveSetGeometry, h, hn]

theorem restartReverseCheck_countAccepted (s : State) :
    restartReverseCheck (countAccepted s) = countAccepted (restartReverseCheck s) := by
  simp only [restartReverseCheck, reportCause_countAccepted]
  exact (apply_ite countAccepted _ _ _).symm

/-- Settles O54: the state check, the field checks and the replacement are those of the spec, and the frame that carried
the request makes no difference to them. -/
theorem setGeometryReplacesGeometry : Obligations.SetGeometryReplacesGeometry := by
  intro src g s admits say y
  have hadmits : (countAccepted s).admitsGeometry = true ↔ admits := admitsGeometry_iff s
  refine ⟨fun hno => ?_, fun hyes => ⟨fun n hn => ?_, fun hn => ?_⟩⟩
  · have hstate : (countAccepted s).admitsGeometry = false := by
      rw [← Bool.not_eq_true, hadmits]
      exact hno
    exact congrArg Host.Outcome.next (acceptRequest_eq_answered (serveSetGeometry_state hstate))
  · exact congrArg Host.Outcome.next (acceptRequest_eq_answered (serveSetGeometry_range (hadmits.mpr hyes) hn))
  · have hreplaced : serveSetGeometry g (countAccepted s) =
        (countAccepted (refresh (restartReverseCheck y)), .done (geometryPayload g)) := by
      rw [serveSetGeometry_done (hadmits.mpr hyes) hn, ← refresh_countAccepted, ← restartReverseCheck_countAccepted]
      rfl
    exact congrArg Host.Outcome.next (acceptRequest_eq_answered hreplaced)

end Sys2Proof.Machine
end

