-- ==== Sys2Proof/Proofs/Recipes.lean ====
section
/-! PROOF. SET-LIMITS, SET-ZONE-TUNING and SET-RECIPE are checked in order and stored
(LimitsTuningAndRecipesAreChecked). -/

namespace Sys2Proof.Machine

open Sys2Proof.Safety

-- One proof after the other: many short ones at once need more threads than the memory limit leaves room for.
set_option Elab.async false

/-! ### Reply fields that carry their number (R195) -/

theorem replyField_of_lt {w n : Nat} (h : n < 256 ^ w) : replyField w n = bytesOf w n := by
  rw [replyField, if_pos h]

/-- Reply fields whose numbers all fit their widths carry those numbers. -/
theorem replyFields_of_fit {fs : List (Nat × Nat)} (h : ∀ f ∈ fs, f.2 < 256 ^ f.1) :
    replyFields fs = fs.flatMap fun f => bytesOf f.1 f.2 := by
  induction fs with
  | nil => rfl
  | cons f rest ih =>
    have hrest := ih fun x hx => h x (List.mem_cons_of_mem f hx)
    simp only [replyFields, List.flatMap_cons] at hrest ⊢
    rw [hrest, replyField_of_lt (h f List.mem_cons_self)]

/-! ### SET-LIMITS (R14) -/

theorem serveSetLimits_eq (maxTemp maxSpeed minDwell : Nat) (s : State) :
    serveSetLimits maxTemp maxSpeed minDwell s =
      if s.limits.isSet = true then (s, no .locked 0)
      else if ¬ (500 ≤ maxTemp ∧ maxTemp ≤ 2500) then (s, no .range 1)
      else if ¬ (100 ≤ maxSpeed ∧ maxSpeed ≤ 6000) then (s, no .range 2)
      else if ¬ (10 ≤ minDwell ∧ minDwell ≤ 6000) then (s, no .range 3)
      else (refresh { s with
          limits := { isSet := true, maxTemp := maxTemp, maxSpeed := maxSpeed, minDwell := minDwell } },
        .done (bytesOf 2 maxTemp ++ bytesOf 2 maxSpeed ++ bytesOf 2 minDwell)) := by
  unfold serveSetLimits
  split
  · rfl
  · simp only [limitsRanges, firstFailing, within_eq, decide_eq_true_eq]
    by_cases ht : 500 ≤ maxTemp ∧ maxTemp ≤ 2500
    · by_cases hv : 100 ≤ maxSpeed ∧ maxSpeed ≤ 6000
      · by_cases hd : 10 ≤ minDwell ∧ minDwell ≤ 6000
        · have hfit : ∀ f ∈ [(2, maxTemp), (2, maxSpeed), (2, minDwell)], f.2 < 256 ^ f.1 := by
            simp; omega
          simp [ht, hv, hd, replyFields_of_fit hfit]
        · simp only [ht, hv, hd, refuse]; simp
      · simp only [ht, hv, refuse]; simp
    · simp only [ht, refuse]; simp

theorem serveSetLimits_countAccepted (maxTemp maxSpeed minDwell : Nat) (s : State) :
    serveSetLimits maxTemp maxSpeed minDwell (countAccepted s) =
      (countAccepted (serveSetLimits maxTemp maxSpeed minDwell s).1, (serveSetLimits maxTemp maxSpeed minDwell s).2) := by
  have stored (lim : Limits) : refresh { countAccepted s with limits := lim } =
      countAccepted (refresh { s with limits := lim }) := refresh_countAccepted { s with limits := lim }
  have limits : (countAccepted s).limits = s.limits := rfl
  simp only [serveSetLimits_eq, limits, stored]
  repeat' split
  all_goals rfl

/-! ### SET-ZONE-TUNING (R142) -/

theorem serveSetZoneTuning_eq (zone kp ki : Nat) (s : State) :
    serveSetZoneTuning zone kp ki s =
      if zone = 0 ∨ 4 < zone then (s, no .range 1)
      else if 1000 < kp then (s, no .range 2)
      else if 100 < ki then (s, no .range 3)
      else (modifyZone (Fin.ofNat 4 (zone - 1)) (fun zn => { zn with kp := kp, ki := ki }) s,
        .done (bytesOf 1 zone ++ bytesOf 2 kp ++ bytesOf 1 ki)) := by
  have hzone : (1 ≤ zone ∧ zone ≤ 4) ↔ ¬ (zone = 0 ∨ 4 < zone) := by omega
  have hkp : (0 ≤ kp ∧ kp ≤ 1000) ↔ ¬ 1000 < kp := by omega
  have hki : (0 ≤ ki ∧ ki ≤ 100) ↔ ¬ 100 < ki := by omega
  simp only [serveSetZoneTuning, firstFailing, within_eq, decide_eq_true_eq, hzone, hkp, hki]
  by_cases hz : zone = 0 ∨ 4 < zone
  · simp [hz, refuse]
  · by_cases hp : 1000 < kp
    · simp [hz, hp, refuse]
    · by_cases hi : 100 < ki
      · simp [hz, hp, hi, refuse]
      · have hfit : ∀ f ∈ [(1, zone), (2, kp), (1, ki)], f.2 < 256 ^ f.1 := by
          simp; omega
        simp [hz, hp, hi, replyFields_of_fit hfit]

theorem serveSetZoneTuning_countAccepted (zone kp ki : Nat) (s : State) :
    serveSetZoneTuning zone kp ki (countAccepted s) =
      (countAccepted (serveSetZoneTuning zone kp ki s).1, (serveSetZoneTuning zone kp ki s).2) := by
  simp only [serveSetZoneTuning_eq]
  repeat' split
  all_goals rfl

/-! ### SET-RECIPE (R132, R133) -/

theorem mem_allZones (z : Fin 4) : z ∈ allZones := by
  revert z; decide

theorem recipeInUse_iff (s : State) (i : Fin 8) : s.recipeInUse i = true ↔
    (∃ z : Fin 4, (s.zone z).recipe = some i) ∨
      (s.rolls.a.state ≠ .empty ∧ s.rolls.a.recipe = i) ∨ (s.rolls.b.state ≠ .empty ∧ s.rolls.b.recipe = i) ∨
      (∃ m ∈ s.rolls.seam, m.recipe = i) ∨ ∃ x ∈ s.tu.records, seamNames i x = true := by
  have hzones : s.zoneRecipes.contains i = true ↔ ∃ z : Fin 4, (s.zone z).recipe = some i := by
    simp [State.zoneRecipes, mem_allZones]
  unfold State.recipeInUse
  simp only [Bool.or_eq_true, hzones, Bool.and_eq_true, bne_iff_ne, beq_iff_eq, List.any_eq_true, or_assoc]
  cases s.rolls.seam <;> simp

/-- The ranges of fields 2 to 11 of SET-RECIPE as field number, lower end, upper end and value (R132). -/
def recipeBounds (r : RecipeFields) : List (Nat × Nat × Nat × Nat) :=
  [(2, 0, 2500, r.setpoint1), (3, 0, 2500, r.setpoint2), (4, 0, 2500, r.setpoint3), (5, 0, 2500, r.setpoint4),
    (6, 5, 200, r.band), (7, 0, 2500, r.standby), (8, 10, 6000, r.dmin), (9, 10, 3600, r.dmax),
    (10, 0, 1000, r.minPressure), (11, 1, 120, r.settle)]

theorem within_eq_not (lo hi n : Nat) : within lo hi n = !decide (n < lo ∨ hi < n) := by
  rw [within_eq, ← decide_not, decide_eq_decide]
  omega

/-- The field a SET-RECIPE is refused RANGE for is the first of its ranges that its value lies outside (R132). -/
theorem recipeRanges_firstFailing (r : RecipeFields) : firstFailing (recipeRanges r) =
    ((recipeBounds r).find? fun f => decide (f.2.2.2 < f.2.1 ∨ f.2.2.1 < f.2.2.2)).map (·.1) := by
  have hcheck : recipeRanges r = (recipeBounds r).map fun f => (f.1, !decide (f.2.2.2 < f.2.1 ∨ f.2.2.1 < f.2.2.2)) := by
    simp only [recipeRanges, recipeBounds, within_eq_not, List.map_cons, List.map_nil]
  rw [firstFailing_eq_find, hcheck, List.find?_map]
  simp [Function.comp_def]

theorem serveSetRecipe_noLimits {r : RecipeFields} {s : State} (h : s.limits.isSet = false) :
    serveSetRecipe r s = (s, no .noLimits 0) := by
  simp [serveSetRecipe, h, refuse]

theorem serveSetRecipe_index {r : RecipeFields} {s : State} (h : s.limits.isSet = true) (hi : 8 ≤ r.index) :
    serveSetRecipe r s = (s, no .range 1) := by
  simp [serveSetRecipe, h, hi.not_gt, refuse]

theorem ofNat_eq_mk {n i : Nat} [NeZero n] (h : i < n) : Fin.ofNat n i = ⟨i, h⟩ := Fin.ext (Nat.mod_eq_of_lt h)

theorem serveSetRecipe_inUse {r : RecipeFields} {s : State} (h : s.limits.isSet = true) (hi : r.index < 8)
    (hu : s.recipeInUse (Fin.ofNat 8 r.index) = true) : serveSetRecipe r s = (s, no .inUse 0) := by
  rw [ofNat_eq_mk hi] at hu
  simp [serveSetRecipe, h, hi, hu, refuse]

section

variable {r : RecipeFields} {s : State} (h : s.limits.isSet = true) (hi : r.index < 8)
  (hu : s.recipeInUse (Fin.ofNat 8 r.index) = false)

include h hi hu

theorem serveSetRecipe_range {n : Nat} (hn : firstFailing (recipeRanges r) = some n) :
    serveSetRecipe r s = (s, no .range n) := by
  rw [ofNat_eq_mk hi] at hu
  simp [serveSetRecipe, h, hi, hu, hn, refuse]

theorem serveSetRecipe_dwell (hn : firstFailing (recipeRanges r) = none)
    (hd : r.dmax * 10 < max r.dmin s.limits.minDwell) : serveSetRecipe r s = (s, no .range 9) := by
  rw [ofNat_eq_mk hi] at hu
  simp only [serveSetRecipe, h, hi, hu, hn, adjustedRecipe, hd, refuse]
  simp

theorem serveSetRecipe_done (hn : firstFailing (recipeRanges r) = none)
    (hd : max r.dmin s.limits.minDwell ≤ r.dmax * 10) : serveSetRecipe r s =
      (refresh (setRecipe (Fin.ofNat 8 r.index) (adjustedRecipe r s.limits) s),
        .done (recipePayload r.index (adjustedRecipe r s.limits) ++
          replyFields [(1, numberOfBits (adjustmentBits r s.limits))])) := by
  rw [ofNat_eq_mk hi] at hu ⊢
  have hd' : ¬ (adjustedRecipe r s.limits).dmax * 10 < (adjustedRecipe r s.limits).dmin := hd.not_gt
  simp only [serveSetRecipe, h, hi, hu, hn, hd']
  simp

end

/-- Where no range of SET-RECIPE fails, every value lies within its range (R132). -/
theorem recipeBounds_hold {r : RecipeFields} (hn : firstFailing (recipeRanges r) = none) :
    ∀ f ∈ recipeBounds r, f.2.1 ≤ f.2.2.2 ∧ f.2.2.2 ≤ f.2.2.1 := by
  rw [recipeRanges_firstFailing, Option.map_eq_none_iff, List.find?_eq_none] at hn
  intro f hf
  have := hn f hf
  simp only [decide_eq_true_eq] at this
  omega

/-- The set of adjustments as the number its character carries (R195, section 11.5). -/
theorem numberOfBits_adjustmentBits (r : RecipeFields) (lim : Limits) :
    numberOfBits (adjustmentBits r lim) =
      (if lim.maxTemp < r.setpoint1 then 2 ^ 0 else 0) + (if lim.maxTemp < r.setpoint2 then 2 ^ 1 else 0) +
      (if lim.maxTemp < r.setpoint3 then 2 ^ 2 else 0) + (if lim.maxTemp < r.setpoint4 then 2 ^ 3 else 0) +
      (if lim.maxTemp < r.standby then 2 ^ 5 else 0) + (if r.dmin < lim.minDwell then 2 ^ 6 else 0) := by
  have htoNat (p : Prop) [Decidable p] (k : Nat) : (if p then 2 ^ k else 0) = 2 ^ k * (decide p).toNat := by
    by_cases h : p <;> simp [h]
  simp only [numberOfBits, adjustmentBits, List.foldr_cons, List.foldr_nil, htoNat, Bool.toNat_false]
  omega

theorem numberOfBits_adjustmentBits_lt (r : RecipeFields) (lim : Limits) :
    numberOfBits (adjustmentBits r lim) < 256 := by
  have hbit (b : Bool) : b.toNat ≤ 1 := b.toNat_le
  simp only [numberOfBits, adjustmentBits, List.foldr_cons, List.foldr_nil, Bool.toNat_false]
  have h1 := hbit (decide (lim.maxTemp < r.setpoint1))
  have h2 := hbit (decide (lim.maxTemp < r.setpoint2))
  have h3 := hbit (decide (lim.maxTemp < r.setpoint3))
  have h4 := hbit (decide (lim.maxTemp < r.setpoint4))
  have h6 := hbit (decide (lim.maxTemp < r.standby))
  have h7 := hbit (decide (r.dmin < lim.minDwell))
  omega

/-- The characters of an accepted SET-RECIPE's reply (section 11.5). -/
theorem recipeReply_eq {r : RecipeFields} {lim : Limits} (hi : r.index < 8)
    (hn : firstFailing (recipeRanges r) = none) (htop : lim.maxTemp < 65536) (hdwell : lim.minDwell < 65536) :
    recipePayload r.index (adjustedRecipe r lim) ++ replyFields [(1, numberOfBits (adjustmentBits r lim))] =
      bytesOf 1 r.index ++ ((List.finRange 4).map fun z => bytesOf 2 ((adjustedRecipe r lim).setpoint z)).flatten ++
        bytesOf 1 r.band ++ bytesOf 2 (min r.standby lim.maxTemp) ++ bytesOf 2 (max r.dmin lim.minDwell) ++
        bytesOf 2 r.dmax ++ bytesOf 2 r.minPressure ++ bytesOf 1 r.settle ++
        bytesOf 1 (numberOfBits (adjustmentBits r lim)) := by
  have hbits := numberOfBits_adjustmentBits_lt r lim
  have hbounds := recipeBounds_hold hn
  simp only [recipeBounds, List.forall_mem_cons] at hbounds
  obtain ⟨-, -, -, -, hband, -, hdmin, hdmax, hpressure, hsettle, -⟩ := hbounds
  have hfields : recipePayload r.index (adjustedRecipe r lim) = replyFields
      [(1, r.index), (2, min r.setpoint1 lim.maxTemp), (2, min r.setpoint2 lim.maxTemp),
        (2, min r.setpoint3 lim.maxTemp), (2, min r.setpoint4 lim.maxTemp), (1, r.band),
        (2, min r.standby lim.maxTemp), (2, max r.dmin lim.minDwell), (2, r.dmax), (2, r.minPressure),
        (1, r.settle)] := rfl
  rw [hfields, replyFields_of_fit (by simp; omega), replyFields_of_fit (by simpa using hbits)]
  simp only [List.flatMap_cons, List.flatMap_nil, List.append_nil, List.append_assoc]
  have hzones : (List.finRange 4).map (fun z => bytesOf 2 ((adjustedRecipe r lim).setpoint z)) =
      [bytesOf 2 ((adjustedRecipe r lim).setpoint 0), bytesOf 2 ((adjustedRecipe r lim).setpoint 1),
        bytesOf 2 ((adjustedRecipe r lim).setpoint 2), bytesOf 2 ((adjustedRecipe r lim).setpoint 3)] := rfl
  rw [hzones]
  simp only [List.flatten_cons, List.flatten_nil, List.append_nil, List.append_assoc]
  rfl

/-- Settles O52: one equation per command for its checks, carried over the counting of the frame by
`acceptRequest_eq_answered`. -/
theorem limitsTuningAndRecipesAreChecked : Obligations.LimitsTuningAndRecipesAreChecked := by
  refine ⟨⟨fun src maxTemp maxSpeed minDwell s => ?_, fun src zone kp ki s => ?_⟩, fun src r s => ?_⟩
  · intro say
    refine congrArg Host.Outcome.next ?_
    rw [acceptRequest_eq_answered (serveSetLimits_countAccepted maxTemp maxSpeed minDwell s), serveSetLimits_eq]
    repeat' split
    all_goals rfl
  · intro say z
    refine congrArg Host.Outcome.next ?_
    rw [acceptRequest_eq_answered (serveSetZoneTuning_countAccepted zone kp ki s), serveSetZoneTuning_eq]
    repeat' split
    all_goals rfl
  · intro i top dmin stored inUse fields wrong bit adjusted say
    have haccept {t : State} {a : Answer} (h : serveSetRecipe r (countAccepted s) = (countAccepted t, a)) :
        exec (.setRecipe src r) s = .next (say a t) := congrArg Host.Outcome.next (acceptRequest_eq_answered h)
    have hused : (countAccepted s).recipeInUse i = true ↔ inUse := recipeInUse_iff s i
    have hwrong : firstFailing (recipeRanges r) = wrong := recipeRanges_firstFailing r
    refine ⟨fun h => haccept (serveSetRecipe_noLimits h), fun h hi => haccept (serveSetRecipe_index h hi),
      fun h hi hu => haccept (serveSetRecipe_inUse h hi (hused.mpr hu)), fun h hi hu => ?_⟩
    have hfree : (countAccepted s).recipeInUse i = false := Bool.not_eq_true _ ▸ mt hused.mp hu
    refine ⟨fun n hn => haccept (serveSetRecipe_range (s := countAccepted s) h hi hfree (hwrong.trans hn)),
      fun hn hd => haccept (serveSetRecipe_dwell (s := countAccepted s) h hi hfree (hwrong.trans hn) hd),
      fun hn hd htop hdwell => ?_⟩
    have hadjusted : numberOfBits (adjustmentBits r s.limits) = adjusted := by
      rw [numberOfBits_adjustmentBits]
      simp only [adjusted, bit, top, decide_eq_true_eq]
    have hdone := serveSetRecipe_done (s := countAccepted s) h hi hfree (hwrong.trans hn) hd
    have hlimits : (countAccepted s).limits = s.limits := rfl
    rw [hlimits, recipeReply_eq hi (hwrong.trans hn) htop hdwell, hadjusted] at hdone
    exact haccept (hdone.trans (congrArg (·, _) (refresh_countAccepted (setRecipe i stored s))))

end Sys2Proof.Machine
end

