-- ==== Sys2Proof/Proofs/WebEvents.lean ====
section
/-! PROOF. When each thing that waits for the web position is reached, and what each does short of its position and at it
(R59 to R89, R164, R174). -/

namespace Sys2Proof.Machine

open Sys2Proof.Safety

-- One proof after the other: many short ones at once need more threads than the memory limit leaves room for.
set_option Elab.async false

/-! ### The ring of slots (R19) -/

theorem mem_ringFrom (k j : Fin 32) : j ∈ ringFrom k := by
  refine List.mem_map.mpr ⟨j - k, List.mem_finRange _, ?_⟩
  omega

theorem ringFrom_eq_ofFn (k : Fin 32) : ringFrom k = List.ofFn fun i : Fin 32 => k + i := List.ofFn_eq_map.symm

/-- The first slot of the ring with a property is the one the least distance away with it. -/
theorem find?_ringFrom_eq_some_iff (k i : Fin 32) (p : Fin 32 → Bool) :
    (ringFrom k).find? p = some (k + i) ↔ p (k + i) = true ∧ ∀ j < i, ¬ p (k + j) = true := by
  rw [ringFrom_eq_ofFn]
  exact List.find?_ofFn_eq_some_of_injective (f := fun i => k + i) (add_right_injective k)

theorem find?_ringFrom_eq_none_iff (k : Fin 32) (p : Fin 32 → Bool) : (ringFrom k).find? p = none ↔
    ∀ j, p j = false := by
  simp only [List.find?_eq_none, mem_ringFrom, forall_const, Bool.not_eq_true]

theorem oldestCommitted_eq_none_iff (s : State) :
    s.oldestCommitted = none ↔ ∀ k : Fin 32, (s.status k).state ≠ .committed := by
  simp only [State.oldestCommitted, find?_ringFrom_eq_none_iff, beq_eq_false_iff_ne]

/-- The oldest COMMITTED slot is the first COMMITTED from the commit pointer on (R20). -/
theorem oldestCommitted_eq_some_iff (s : State) (i : Fin 32) :
    s.oldestCommitted = some (s.ps.commitPointer + i) ↔
      (s.status (s.ps.commitPointer + i)).state = .committed ∧
        ∀ j < i, ¬ (s.status (s.ps.commitPointer + j)).state = .committed := by
  simp only [State.oldestCommitted, find?_ringFrom_eq_some_iff, beq_iff_eq]

/-- The oldest COMMITTED slot lies some distance from the commit pointer on. -/
theorem exists_oldestCommitted_iff (s : State) (P : Fin 32 → Prop) : (∃ k ∈ s.oldestCommitted, P k) ↔
    ∃ i : Fin 32, (s.status (s.ps.commitPointer + i)).state = .committed ∧
      (∀ j, j < i → ¬ (s.status (s.ps.commitPointer + j)).state = .committed) ∧ P (s.ps.commitPointer + i) := by
  constructor
  · rintro ⟨k, hk, hP⟩
    have hki : k = s.ps.commitPointer + (k - s.ps.commitPointer) := (add_sub_cancel _ k).symm
    rw [hki] at hk hP
    obtain ⟨hstate, hfirst⟩ := (oldestCommitted_eq_some_iff s _).mp hk
    exact ⟨_, hstate, hfirst, hP⟩
  · rintro ⟨i, hstate, hfirst, hP⟩
    exact ⟨_, (oldestCommitted_eq_some_iff s i).mpr ⟨hstate, hfirst⟩, hP⟩

/-! ### The end of a bar group (R78) -/

theorem groupEnds_iff (s : State) : s.groupEnds = true ↔
    ∃ g, s.ru.bar = .inSpace g ∧ g.lastTrailing + groupGapCounts s.geometry.given < s.pc.webPosition := by
  unfold State.groupEnds
  cases s.ru.bar <;> simp

theorem reachGroupEnd_of_not_ends {s : State} (h : s.groupEnds = false) : reachGroupEnd s = s := by
  unfold reachGroupEnd
  split <;> simp [h]

theorem reachGroupEnd_inSpace {s : State} {g : Group} (h : s.ru.bar = .inSpace g) : reachGroupEnd s =
    if g.lastTrailing + groupGapCounts s.geometry.given < s.pc.webPosition then judgeGroup g (setBar .idle s) else s := by
  simp only [reachGroupEnd, State.groupEnds, h, decide_eq_true_eq, Nat.succ_le_iff]

theorem reachGroupEnd_of_no_space {s : State} (h : ∀ g, s.ru.bar ≠ .inSpace g) : reachGroupEnd s = s := by
  refine reachGroupEnd_of_not_ends (Bool.eq_false_iff.mpr fun hends => ?_)
  obtain ⟨g, hg, -⟩ := (groupEnds_iff s).mp hends
  exact h g hg

/-! ### The expiry of marks and the setting up of a search (R84, R45) -/

theorem anyExpired_iff (s : State) :
    s.anyExpired = true ↔ ∃ mk ∈ s.ru.marks, mk.m + msCounts s.geometry.given ≤ s.pc.webPosition := by
  simp [State.anyExpired, State.expired]

theorem expireMarks_of_none_expired {s : State} (h : s.anyExpired = false) : expireMarks s = s := by
  have hall : s.ru.marks.filter (fun mk => !s.expired mk) = s.ru.marks := by
    rw [List.filter_eq_self]
    intro mk hmk
    rw [Bool.not_eq_true', Bool.eq_false_iff]
    exact fun he => Bool.eq_false_iff.mp h (List.any_eq_true.mpr ⟨mk, hmk, he⟩)
  rw [expireMarks, hall]

theorem reachExpiry_of_not_meet {s : State} (h : s.anyExpired = false ∨ s.searchReady = false) :
    reachExpiry s = expireMarks s := by
  rw [reachExpiry, if_neg]
  rcases h with h | h <;> simp [h]

theorem searchReady_iff (s : State) : s.searchReady = true ↔
    s.commitReady = true ∧ (s.panelOf s.ps.commitPointer).registration ≠ none := by
  rw [State.searchReady, Bool.and_eq_true, Option.isSome_iff_ne_none]

/-! ### The loss of a search, and the last committed end (R88, R72) -/

theorem lossReached_iff (s : State) : s.lossReached = true ↔ ∃ r ∈ s.ps.search, r.loss ≤ s.pc.webPosition := by
  unfold State.lossReached
  cases s.ps.search <;> simp

theorem reachLoss_of_not_reached {s : State} (h : s.lossReached = false) : reachLoss s = s := by
  unfold reachLoss
  unfold State.lossReached at h
  cases hs : s.ps.search with
  | none => rfl
  | some r => simp_all

theorem reachLastEnd_eq (rises : Bool) (s : State) : reachLastEnd rises s =
    if rises = true ∧ s.ps.lastEnd = some s.pc.highWater ∧ ∀ k : Fin 32, (s.status k).state ≠ .committed then
      raise .patternEmpty s else s := by
  simp only [reachLastEnd, oldestCommitted_eq_none_iff]

theorem groupMeets_iff (rises : Bool) (s : State) : s.groupMeets rises = true ↔
    s.groupEnds = true ∧ (s.anyExpired = true ∨ (∃ r ∈ s.ps.search, r.loss ≤ s.pc.webPosition) ∨
      (rises = true ∧ s.ps.lastEnd = some s.pc.highWater)) := by
  simp only [State.groupMeets, Bool.and_eq_true, Bool.or_eq_true, lossReached_iff, beq_iff_eq, or_assoc]

/-! ### Strokes and panel boundaries (R59, R67, R68) -/

theorem strokeReachedNow_iff (s : State) :
    s.strokeReachedNow = true ↔ ∃ r ∈ s.ps.strokes.head?, r.position ≤ s.pc.webPosition := by
  unfold State.strokeReachedNow
  cases s.ps.strokes <;> simp

theorem reachStroke_of_not_reached {s : State} (h : s.strokeReachedNow = false) : reachStroke s = s := by
  unfold reachStroke
  unfold State.strokeReachedNow at h
  cases hs : s.ps.strokes with
  | nil => rfl
  | cons r rest => simp_all

/-- Slot k is ACTIVE and FLAT with its end reached (R68). -/
def FlatEnds (s : State) (k : Fin 32) : Prop :=
  (s.status k).state = .active ∧ (s.panelOf k).kind = .flat ∧ ∃ e ∈ (s.status k).endPos, e ≤ s.pc.webPosition

theorem flatEnded_eq_none_iff (s : State) : s.flatEnded = none ↔ ∀ k, ¬ FlatEnds s k := by
  rw [State.flatEnded, find?_ringFrom_eq_none_iff]
  refine forall_congr' fun k => ?_
  unfold FlatEnds
  cases (s.status k).endPos <;> simp

theorem flatEnds_of_flatEnded {s : State} {k : Fin 32} (h : s.flatEnded = some k) : FlatEnds s k := by
  have hk := List.find?_some h
  unfold FlatEnds
  cases he : (s.status k).endPos <;> simp_all

theorem flatEnded_isSome_iff (s : State) : s.flatEnded.isSome = true ↔ ∃ k, FlatEnds s k := by
  rw [Option.isSome_iff_ne_none, ne_eq, flatEnded_eq_none_iff]
  push Not
  rfl

theorem reachFlatEnd_of_none {s : State} (h : ∀ k, ¬ FlatEnds s k) : reachFlatEnd s = s := by
  simp [reachFlatEnd, (flatEnded_eq_none_iff s).mpr h]

theorem reachFlatEnd_of_unique {s : State} {k : Fin 32} (hk : FlatEnds s k) (honly : ∀ j, FlatEnds s j → j = k) :
    reachFlatEnd s = toSetting k s := by
  cases h : s.flatEnded with
  | none => exact absurd hk ((flatEnded_eq_none_iff s).mp h k)
  | some j => simp [reachFlatEnd, h, honly j (flatEnds_of_flatEnded h)]

theorem startReached_iff (s : State) : s.startReached = true ↔ ∃ b ∈ s.oldestStart, b ≤ s.pc.webPosition := by
  unfold State.startReached
  cases s.oldestStart <;> simp

theorem startReached_iff_oldest (s : State) :
    s.startReached = true ↔ ∃ k ∈ s.oldestCommitted, ∃ b ∈ (s.status k).start, b ≤ s.pc.webPosition := by
  rw [startReached_iff, State.oldestStart]
  cases s.oldestCommitted <;> simp

theorem reachStart_of_not_reached {s : State} (h : s.startReached = false) : reachStart s = s := by
  unfold reachStart
  split <;> simp [h]

theorem reachStart_of_none {s : State} (h : s.oldestCommitted = none) : reachStart s = s := by
  simp only [reachStart, h]

/-- The start of the oldest COMMITTED slot, reached or not (R67). -/
theorem reachStart_of_oldest {s : State} {k : Fin 32} (h : s.oldestCommitted = some k) : reachStart s =
    if ∃ b ∈ (s.status k).start, b ≤ s.pc.webPosition then toActive k s else s := by
  have hreached : s.startReached = true ↔ ∃ b ∈ (s.status k).start, b ≤ s.pc.webPosition := by
    simp [startReached_iff_oldest, h]
  simp only [reachStart, h, hreached]

/-! ### The seam and the fire position (R174, R164) -/

theorem seamReached_iff (s : State) : s.seamReached = true ↔ ∃ m ∈ s.rolls.seam, m.position ≤ s.pc.webPosition := by
  unfold State.seamReached
  cases s.rolls.seam <;> simp

theorem reachSeam_of_not_reached {s : State} (h : s.seamReached = false) : reachSeam s = s := by
  unfold reachSeam
  unfold State.seamReached at h
  cases hs : s.rolls.seam with
  | none => rfl
  | some m => simp_all

theorem fireReached_iff (s : State) : s.fireReached = true ↔ ∃ p ∈ s.rolls.plan, p.fire ≤ s.pc.webPosition := by
  unfold State.fireReached
  cases s.rolls.plan <;> simp

theorem reachFire_of_not_reached {s : State} (h : s.fireReached = false) : reachFire s = s := by
  unfold reachFire
  unfold State.fireReached at h
  cases hs : s.rolls.plan with
  | none => rfl
  | some p => simp_all

end Sys2Proof.Machine
end

