-- ==== Sys2Proof/Proofs/WebCounts.lean ====
section
/-! PROOF. Counts of the web encoder move the web position, up and down (WebCountsMovePosition). -/

namespace Sys2Proof.Machine

open Sys2Proof.Safety

-- One proof after the other: many short ones at once need more threads than the memory limit leaves room for.
set_option Elab.async false

/-! ### One count of an encoder (R1, R2) -/

theorem forwardStep_ne (q : ChannelPair) : forwardStep q ≠ q := by
  obtain ⟨a, b⟩ := q
  cases a <;> cases b <;> decide

theorem forwardStep_forwardStep_ne (q : ChannelPair) : forwardStep (forwardStep q) ≠ q := by
  obtain ⟨a, b⟩ := q
  cases a <;> cases b <;> decide

/-- One step of R1's table changes one channel. -/
theorem forwardStep_changes_one (q : ChannelPair) : (forwardStep q).a = q.a ∨ (forwardStep q).b = q.b := by
  obtain ⟨a, b⟩ := q
  cases a <;> cases b <;> decide

/-- A pair one count away is taken as a count in its direction (R1). -/
theorem exec_encoderChange_of_isCount {e : Encoder} {forward : Bool} {p : ChannelPair} {s : State}
    (h : isCount s e forward p) :
    exec (.encoderChange e p) s = .next (refresh (countEncoder e forward (setPair e p s))) := by
  have hstep : p ≠ s.lastPair e ∧ ¬ (p.a ≠ (s.lastPair e).a ∧ p.b ≠ (s.lastPair e).b) ∧
      ((p == forwardStep (s.lastPair e)) != s.inverted e) = forward := by
    unfold isCount at h
    split at h
    · next hinv =>
      rw [← h, hinv, beq_eq_false_iff_ne.mpr (forwardStep_forwardStep_ne p).symm]
      have hone := forwardStep_changes_one p
      exact ⟨(forwardStep_ne p).symm, fun hboth => hone.elim (fun ha => hboth.1 ha.symm) fun hb => hboth.2 hb.symm,
        by cases s.inverted e <;> rfl⟩
    · next hinv =>
      have hone := forwardStep_changes_one (s.lastPair e)
      rw [h, beq_self_eq_true]
      exact ⟨forwardStep_ne _, fun hboth => hone.elim hboth.1 hboth.2,
        by cases forward <;> cases hi : s.inverted e <;> simp_all⟩
  obtain ⟨hchange, hsingle, hdirection⟩ := hstep
  change execEncoderChange e p s = _
  rw [execEncoderChange]
  dsimp only
  rw [if_neg hchange, if_neg hsingle, hdirection]

/-! ### STARVE tested again (R99) -/

/-- STARVE's test changes nothing but LG and, with PATTERN-LOW, the pending events (R99). -/
theorem starveTest_eq_update (s : State) : ∃ l e, starveTest s = { s with lg := l, events := e } := by
  unfold starveTest
  dsimp only
  repeat' split
  all_goals exact ⟨_, _, rfl⟩

theorem starveTest_starveTest (s : State) : starveTest (starveTest s) = starveTest s := by
  have hreserve (l : Governor) : ({ s with lg := l } : State).reserve = s.reserve := rfl
  have hraised (l : Governor) : (raise .patternLow { s with lg := l }).reserve = s.reserve := rfl
  by_cases hvalid : s.geometry.valid = false
  · simp [starveTest, hvalid]
  · by_cases hstarve : s.lg.starve = true
    · by_cases hrefill : starveCounts s.geometry.given + hysteresisCounts s.geometry.given ≤ s.reserve
      · have henough : ¬ s.reserve < starveCounts s.geometry.given := by omega
        simp [starveTest, hvalid, hstarve, hrefill, hreserve, henough]
      · simp [starveTest, hvalid, hstarve, hrefill]
    · by_cases hlow : s.reserve < starveCounts s.geometry.given ∧ s.lg.freeze = none
      · have hshort : ¬ starveCounts s.geometry.given + hysteresisCounts s.geometry.given ≤ s.reserve := by omega
        simp [starveTest, hvalid, hstarve, hlow, hraised, hshort]
      · have hsame : starveTest s = s := by
          simp only [starveTest]
          rw [if_neg hvalid, if_neg hstarve, if_neg hlow]
        rw [hsame, hsame]

theorem refresh_starveTest (s : State) : refresh (starveTest s) = refresh s := by
  simp only [refresh, starveTest_starveTest]

/-- A forward web count below the top of the range (R3, R4). -/
theorem countEncoder_web_forward {p : ChannelPair} {s : State} (hroom : s.pc.webPosition < topPosition) :
    countEncoder .web true (setPair .web p s) =
      reachWebPosition (decide (s.pc.highWater < s.pc.webPosition + 1)) (starveTest { s with pc := { s.pc with
        webPosition := s.pc.webPosition + 1
        highWater := max s.pc.highWater (s.pc.webPosition + 1)
        webPair := p } }) := if_neg hroom.not_ge

/-! ### A count at which nothing waits (R3) -/

/-- Where nothing waits for the web position, a forward count that has come there does nothing more. -/
theorem reachWebPosition_of_nothing {rises : Bool} {s : State} (h : NothingAt s.pc.webPosition s)
    (hrises : rises = true → s.pc.highWater = s.pc.webPosition) : reachWebPosition rises s = s := by
  obtain ⟨hstroke, hstart, hflat, hloss, hfire, hseam, hmarks, hbar, hlast⟩ := h
  have hends : s.groupEnds = false := by
    rw [Bool.eq_false_iff, ne_eq, groupEnds_iff]
    rintro ⟨g, hg, hlt⟩
    rw [hg] at hbar
    exact hlt.not_ge hbar
  have hexpired : s.anyExpired = false := by
    rw [Bool.eq_false_iff, ne_eq, anyExpired_iff]
    exact fun ⟨mk, hmk, hle⟩ => (hmarks mk hmk).not_ge hle
  have hlost : s.lossReached = false := by
    rw [Bool.eq_false_iff, ne_eq, lossReached_iff]
    exact fun ⟨r, hr, hle⟩ => (hloss r hr).not_ge hle
  have hstroked : s.strokeReachedNow = false := by
    rw [Bool.eq_false_iff, ne_eq, strokeReachedNow_iff]
    exact fun ⟨r, hr, hle⟩ => (hstroke r hr).not_ge hle
  have hnoFlat : ∀ k, ¬ FlatEnds s k := fun k ⟨hactive, hkind, e, he, hle⟩ => (hflat k hactive hkind e he).not_ge hle
  have hstarted : s.startReached = false := by
    rw [Bool.eq_false_iff, ne_eq, startReached_iff]
    exact fun ⟨b, hb, hle⟩ => (hstart b hb).not_ge hle
  have hseamed : s.seamReached = false := by
    rw [Bool.eq_false_iff, ne_eq, seamReached_iff]
    exact fun ⟨m, hm, hle⟩ => (hseam m hm).not_ge hle
  have hfired : s.fireReached = false := by
    rw [Bool.eq_false_iff, ne_eq, fireReached_iff]
    exact fun ⟨p, hp, hle⟩ => (hfire p hp).not_ge hle
  have hwaiters : reachMarkWaiters rises s = s := by
    rw [reachMarkWaiters, reachExpiry_of_not_meet (.inl hexpired), expireMarks_of_none_expired hexpired,
      reachLoss_of_not_reached hlost, reachLastEnd_eq, if_neg]
    rintro ⟨hr, hend, -⟩
    exact hlast (hrises hr ▸ hend)
  have hmeets : s.groupMeets rises = false := by rw [State.groupMeets, hends, Bool.false_and]
  have hbounds : reachBoundaries s = s := by
    rw [reachBoundaries, reachStroke_of_not_reached hstroked, reachFlatEnd_of_none hnoFlat,
      reachStart_of_not_reached hstarted]
  simp [reachWebPosition, inEitherOrder, hmeets, reachGroupEnd_of_not_ends hends, hwaiters, hstroked, hseamed, hbounds,
    reachSeam_of_not_reached hseamed, reachFire_of_not_reached hfired]

theorem discardGroup_eq (s : State) : discardGroup s = { s with ru := { s.ru with bar := afterReverse s.ru.bar } } := by
  have hsame (h : afterReverse s.ru.bar = s.ru.bar) :
      s = { s with ru := { s.ru with bar := afterReverse s.ru.bar } } := by
    rw [h]
  unfold discardGroup
  cases hbar : s.ru.bar with
  | inBar lead group => rfl
  | inSpace g => rfl
  | idle =>
    rw [hbar] at hsame
    exact hsame rfl
  | waitLight =>
    rw [hbar] at hsame
    exact hsame rfl

/-- Settles O22: where nothing waits `reachWebPosition` does nothing, and the test of STARVE made at the count is the one
the end of the command makes. -/
theorem webCountsMovePosition : Obligations.WebCountsMovePosition := by
  refine ⟨fun p s hcount => ⟨fun hroom hnothing => ?_, fun htop => ?_⟩,
    fun p s hcount => ⟨fun hzero => ?_, fun hpos => ?_⟩⟩
  · rw [exec_encoderChange_of_isCount hcount, countEncoder_web_forward hroom]
    generalize hmoved : ({ s with pc := _ } : State) = moved
    have hw : moved.pc.webPosition = s.pc.webPosition + 1 := by rw [← hmoved]
    have hhigh : moved.pc.highWater = max s.pc.highWater (s.pc.webPosition + 1) := by rw [← hmoved]
    obtain ⟨l, e, hstarve⟩ := starveTest_eq_update moved
    have hquiet : NothingAt (starveTest moved).pc.webPosition (starveTest moved) := by
      rw [hstarve]
      subst hmoved
      exact hnothing
    rw [reachWebPosition_of_nothing hquiet, refresh_starveTest]
    intro hrise
    rw [decide_eq_true_eq] at hrise
    rw [hstarve]
    exact hhigh.trans ((max_eq_right hrise.le).trans hw.symm)
  · rw [exec_encoderChange_of_isCount hcount]
    exact congrArg (fun t => Host.Outcome.next (refresh t)) (if_pos htop)
  · rw [exec_encoderChange_of_isCount hcount]
    exact congrArg (fun t => Host.Outcome.next (refresh t)) (if_pos hzero)
  · rw [exec_encoderChange_of_isCount hcount]
    refine congrArg (fun t => Host.Outcome.next (refresh t)) ((if_neg hpos.ne').trans ?_)
    rw [discardGroup_eq]
    rfl

end Sys2Proof.Machine
end

