-- ==== Sys2Proof/Proofs/WebReaches.lean ====
section
/-! PROOF. A forward web count reaches in turn what waits for the new position (ForwardWebCountReachesWhatWaits). -/

namespace Sys2Proof.Machine

open Sys2Proof.Safety

-- One proof after the other: many short ones at once need more threads than the memory limit leaves room for.
set_option Elab.async false

/-! ### Events that meet come in one of two orders (log entry 4) -/

theorem inEitherOrder_false (first second : State → State) (s : State) :
    inEitherOrder false first second s = second (first s) := rfl

theorem inEitherOrder_true (first second : State → State) (s : State) :
    inEitherOrder true first second s = noteRace (second (first s)) ∨
      inEitherOrder true first second s = noteRace (first (second s)) := by
  unfold inEitherOrder
  cases Config.laterFirst s.races
  · exact .inl rfl
  · exact .inr rfl

/-- Two operations in either order end in one of the states that their outcomes in either order give. -/
theorem inEitherOrder_mem {first second : State → State} {f g : State → List State} (hf : ∀ x, first x ∈ f x)
    (hg : ∀ x, second x ∈ g x) (meet : Bool) (s : State) : inEitherOrder meet first second s ∈
      if meet then ((f s).flatMap g ++ (g s).flatMap f).map noteRace else (f s).flatMap g := by
  have hforward : second (first s) ∈ (f s).flatMap g := List.mem_flatMap.mpr ⟨_, hf s, hg _⟩
  have hbackward : first (second s) ∈ (g s).flatMap f := List.mem_flatMap.mpr ⟨_, hg s, hf _⟩
  cases meet with
  | false => exact hforward
  | true =>
    rw [if_pos rfl, List.mem_map]
    rcases inEitherOrder_true first second s with h | h
    · exact ⟨_, List.mem_append_left _ hforward, h.symm⟩
    · exact ⟨_, List.mem_append_right _ hbackward, h.symm⟩

theorem inEitherOrder_of_not_meet {meet : Bool} (h : meet = false) (first second : State → State) (s : State) :
    inEitherOrder meet first second s = second (first s) := by
  rw [h, inEitherOrder_false]

/-- The expiry of marks, with a search set up before it or after it at the end of the command (R84, R89). -/
theorem reachExpiry_mem (s : State) : reachExpiry s ∈ if s.anyExpired && s.searchReady then
    [expireMarks (noteRace s), expireMarks (takeSlot (noteRace s))] else [expireMarks s] := by
  unfold reachExpiry
  split
  · next hmeet =>
    have hready : (noteRace s).searchReady = true := (Bool.and_eq_true_iff.mp hmeet).2
    rw [setUpReady, if_pos hready]
    split <;> simp
  · exact List.mem_singleton_self _

/-! ### What a forward count does in turn (R3) -/

/-- A count raises the high-water mark exactly where the web position stood at it (R3). -/
theorem rises_eq {s : State} (h : PositionsInv s) :
    decide (s.pc.highWater < s.pc.webPosition + 1) = (s.pc.highWater == s.pc.webPosition) := by
  obtain ⟨hle, -, -⟩ := h
  rw [Bool.eq_iff_iff, decide_eq_true_eq, beq_iff_eq]
  omega

/-- What waits for the web position, in turn, where nothing meets. -/
theorem reachWebPosition_of_not_meet {rises : Bool} {s a : State}
    (ha : a = reachLastEnd rises (reachLoss (expireMarks (reachGroupEnd s)))) (hgroup : s.groupMeets rises = false)
    (hexpiry : (reachGroupEnd s).anyExpired = false ∨ (reachGroupEnd s).searchReady = false)
    (hfire : a.strokeReachedNow = false ∨ a.fireReached = false)
    (hseam : a.seamReached = false ∨
      (a.strokeReachedNow = false ∧ a.flatEnded = none ∧ a.startReached = false)) :
    reachWebPosition rises s = reachFire (reachSeam (reachStart (reachFlatEnd (reachStroke a)))) := by
  have hwaiters : inEitherOrder (s.groupMeets rises) reachGroupEnd (reachMarkWaiters rises) s = a := by
    rw [inEitherOrder_of_not_meet hgroup, reachMarkWaiters, reachExpiry_of_not_meet hexpiry, ha]
  have hmeetFire : (a.strokeReachedNow && a.fireReached) = false := by
    rcases hfire with h | h <;> simp [h]
  have hmeetSeam : (a.seamReached && (a.strokeReachedNow || a.flatEnded.isSome || a.startReached)) = false := by
    rcases hseam with h | ⟨h1, h2, h3⟩
    · simp [h]
    · simp [h1, h2, h3]
  rw [reachWebPosition, hwaiters]
  rw [inEitherOrder_of_not_meet hmeetFire, inEitherOrder_of_not_meet hmeetSeam, reachBoundaries]

/-- Settles O23: the count is `reachWebPosition` at the new position, its two choices of order are read off
`inEitherOrder`, and each event has its condition and its effect from the lemmas about what waits. -/
theorem forwardWebCountReachesWhatWaits : Obligations.ForwardWebCountReachesWhatWaits := by
  refine ⟨⟨fun p s hcount hroom => ?_, fun first second s => ⟨rfl, inEitherOrder_true first second s, fun _ => rfl,
    fun p s hcount hroom hinv => ?_⟩⟩, fun s => ?_, fun s => ?_⟩
  · intro rises moved ended marked bounded hinv hgroup hexpiry hfire hseam
    rw [exec_encoderChange_of_isCount hcount, countEncoder_web_forward hroom, rises_eq hinv]
    exact congrArg (fun t => Host.Outcome.next (refresh t))
      (reachWebPosition_of_not_meet rfl hgroup hexpiry hfire hseam)
  · intro rises moved orders expiry waiters boundaries bounds
    have hwaiters (x : State) : reachMarkWaiters rises x ∈ waiters x :=
      List.mem_map.mpr ⟨_, reachExpiry_mem x, rfl⟩
    have hbounds (x : State) := inEitherOrder_mem (first := reachBoundaries) (f := boundaries)
      (second := reachSeam) (g := fun y => [reachSeam y]) (fun _ => List.mem_singleton_self _)
      (fun _ => List.mem_singleton_self _)
      (x.seamReached && (x.strokeReachedNow || x.flatEnded.isSome || x.startReached)) x
    refine ⟨_, inEitherOrder_mem (fun _ => List.mem_singleton_self _) hwaiters (moved.groupMeets rises) moved, _,
      inEitherOrder_mem (g := fun x => [reachFire x]) hbounds (fun _ => List.mem_singleton_self _) _ _, ?_⟩
    rw [exec_encoderChange_of_isCount hcount, countEncoder_web_forward hroom, rises_eq hinv]
    rfl
  · intro w loses ends waits
    have hends : s.groupEnds = ends := by
      rw [Bool.eq_iff_iff, groupEnds_iff]
      simp only [ends]
      cases s.ru.bar <;> simp [w]
    have hstart : s.startReached = true ↔ ∃ i : Fin 32, waits i ∧ (∀ j, j < i → ¬ waits j) ∧
        ∃ b ∈ (s.status (s.ps.commitPointer + i)).start, b ≤ w := by
      rw [startReached_iff_oldest, exists_oldestCommitted_iff]
    exact ⟨fun rises => hends ▸ groupMeets_iff rises s, anyExpired_iff s, searchReady_iff s, strokeReachedNow_iff s,
      fireReached_iff s, seamReached_iff s, flatEnded_isSome_iff s, hstart⟩
  · refine ⟨fun g hg => reachGroupEnd_inSpace hg, reachGroupEnd_of_no_space, ⟨reachFlatEnd_of_none,
      fun k hk honly => reachFlatEnd_of_unique hk honly⟩, ⟨fun hnone => ?_, fun i hi hfirst => ?_⟩,
      fun rises => reachLastEnd_eq rises s⟩
    · refine reachStart_of_none ((oldestCommitted_eq_none_iff s).mpr fun k => ?_)
      simpa using hnone (k - s.ps.commitPointer)
    · exact reachStart_of_oldest ((oldestCommitted_eq_some_iff s i).mpr ⟨hi, hfirst⟩)

end Sys2Proof.Machine
end

