-- ==== Sys2Proof/Proofs/BeltCounts.lean ====
section
/-! PROOF. Counts of the belt encoder and double changes; what a list of zone entry tests marks
(BeltCountsAndDoubleChanges). -/

namespace Sys2Proof.Machine

open Sys2Proof.Safety

-- One proof after the other: many short ones at once need more threads than the memory limit leaves room for.
set_option Elab.async false

/-! ### What entry tests mark (R122, R29) -/

/-- The slot takes quality marks: it is ACTIVE or SETTING (R29). -/
def SlotStatus.held (st : SlotStatus) : Bool := st.state == .active || st.state == .setting

/-- `t` is `s` after the entry tests of the zones z on the slots k with `marks k z`: UNDER-SET(z) is added where the slot is
ACTIVE or SETTING and the zone not IN-BAND, and nothing else changes (R122, R29). -/
structure EntryTested (marks : Fin 32 → Fin 4 → Bool) (s t : State) : Prop where
  rest : t = { s with slots := t.slots }
  panel : ∀ k, t.panelOf k = s.panelOf k
  status : ∀ k, t.status k = { s.status k with underSet := (t.status k).underSet }
  bits : ∀ k z, (t.status k).underSet.getLsbD z.val = ((s.status k).underSet.getLsbD z.val ||
    ((s.status k).held && (s.zone z).state != .inBand && marks k z))

theorem EntryTested.refl (s : State) : EntryTested (fun _ _ => false) s s where
  rest := rfl
  panel _ := rfl
  status _ := rfl
  bits _ _ := by simp

theorem EntryTested.zone {marks : Fin 32 → Fin 4 → Bool} {s t : State} (h : EntryTested marks s t) (z : Fin 4) :
    t.zone z = s.zone z := by
  rw [h.rest]; rfl

theorem EntryTested.held {marks : Fin 32 → Fin 4 → Bool} {s t : State} (h : EntryTested marks s t) (k : Fin 32) :
    (t.status k).held = (s.status k).held := by
  rw [h.status k]; rfl

theorem EntryTested.trans {m n : Fin 32 → Fin 4 → Bool} {s t u : State} (h₁ : EntryTested m s t)
    (h₂ : EntryTested n t u) : EntryTested (fun k z => m k z || n k z) s u where
  rest := by rw [h₂.rest, h₁.rest]
  panel k := (h₂.panel k).trans (h₁.panel k)
  status k := by
    have hstatus := h₂.status k
    rw [h₁.status k] at hstatus
    exact hstatus
  bits k z := by
    rw [h₂.bits, h₁.bits, h₁.zone, h₁.held, Bool.and_or_distrib_left, Bool.or_assoc]

theorem EntryTested.congr {m n : Fin 32 → Fin 4 → Bool} {s t : State} (h : EntryTested m s t)
    (hmn : ∀ k z, m k z = n k z) : EntryTested n s t := by
  obtain rfl : m = n := funext fun k => funext fun z => hmn k z
  exact h

/-- A list of operations, each of which makes the entry tests `marks a`. -/
theorem EntryTested.foldl {α : Type} {op : State → α → State} {marks : α → Fin 32 → Fin 4 → Bool} {P : State → Prop}
    (hop : ∀ s a, P s → EntryTested (marks a) s (op s a)) (hP : ∀ s x, P s → P { s with slots := x }) (l : List α)
    (s : State) (hs : P s) : EntryTested (fun k z => l.any fun a => marks a k z) s (l.foldl op s) := by
  induction l generalizing s with
  | nil => exact .refl s
  | cons a l ih =>
    have first := hop s a hs
    have hs' : P (op s a) := first.rest ▸ hP s _ hs
    exact (first.trans (ih _ hs')).congr fun k z => by rw [List.any_cons]

theorem zoneBit_getLsbD (y z : Fin 4) : (zoneBit y).getLsbD z.val = (z == y) := by
  revert y z; decide

/-- One quality mark UNDER-SET(z) aimed at slot k (R29). -/
theorem aimUnderSet_status (z : Fin 4) (k j : Fin 32) (s : State) : (aimUnderSet z k s).status j =
    if (s.status j).held = true ∧ k = j then { s.status j with underSet := (s.status j).underSet ||| zoneBit z }
    else s.status j := by
  have hmodified : (modifyStatus k (fun st => { st with underSet := st.underSet ||| zoneBit z }) s).status j =
      if k = j then { s.status j with underSet := (s.status j).underSet ||| zoneBit z } else s.status j := by
    split
    · next h => subst h; exact status_modifyStatus_same k _ s
    · next h => exact status_modifyStatus_other (Ne.symm h) _ s
  unfold aimUnderSet aim SlotStatus.held
  by_cases hkj : k = j
  · subst hkj
    cases hstate : (s.status k).state <;> simp
  · cases hstate : (s.status k).state <;> simp [hkj, hmodified]

theorem aimUnderSet_panelOf (z : Fin 4) (k j : Fin 32) (s : State) :
    (aimUnderSet z k s).panelOf j = s.panelOf j := by
  unfold aimUnderSet aim
  split <;> simp

theorem aimUnderSet_rest (z : Fin 4) (k : Fin 32) (s : State) :
    aimUnderSet z k s = { s with slots := (aimUnderSet z k s).slots } := by
  unfold aimUnderSet aim
  split <;> rfl

theorem entryTest_tested (k : Fin 32) (z : Fin 4) (s : State) :
    EntryTested (fun j y => k == j && y == z) s (entryTest k s z) := by
  unfold entryTest
  split
  · next hband =>
    refine { EntryTested.refl s with bits := fun j y => ?_ }
    by_cases hy : y = z
    · simp [hy, hband]
    · simp [hy]
  · next hband =>
    have hbits (j : Fin 32) (y : Fin 4) := congrArg (fun st => st.underSet.getLsbD y.val) (aimUnderSet_status z k j s)
    refine ⟨aimUnderSet_rest z k s, fun j => aimUnderSet_panelOf z k j s, fun j => ?_, fun j y => (hbits j y).trans ?_⟩
    · rw [aimUnderSet_status]
      split <;> rfl
    · by_cases hmarks : (s.status j).held = true ∧ k = j
      · rw [if_pos hmarks]
        obtain ⟨hheld, rfl⟩ := hmarks
        rw [BitVec.getLsbD_or, zoneBit_getLsbD, hheld]
        by_cases hy : y = z
        · simp [hy, bne_iff_ne.mpr hband]
        · simp [beq_false_of_ne hy]
      · simp only [hmarks, if_false]
        rw [not_and] at hmarks
        cases hheld : (s.status j).held
        · simp
        · simp [hmarks hheld]

/-- The entry tests of a list of zones on slot k. -/
theorem entryTests_tested (k : Fin 32) (zs : List (Fin 4)) (s : State) :
    EntryTested (fun j y => k == j && decide (y ∈ zs)) s (zs.foldl (entryTest k) s) := by
  refine (EntryTested.foldl (P := fun _ => True) (fun s z _ => entryTest_tested k z s) (fun _ _ _ => trivial) zs s
    trivial).congr fun j y => ?_
  rw [Bool.eq_iff_iff]
  simp [and_comm]

/-- The entry tests a reverse belt count at belt position `b` makes on a record (R122, R126). -/
def reverseMarks (g : GeometryFields) (b : Nat) (x : TrackRecord) (k : Fin 32) (z : Fin 4) : Bool :=
  match x with
  | .panel j _ (some e) => (j == k) && decide (e + zeCounts g z = b)
  | .panel _ _ none => false
  | .seam _ _ _ => false

/-- The entry tests a forward belt count at belt position `b` makes on a record (R122). -/
def forwardMarks (g : GeometryFields) (b : Nat) (x : TrackRecord) (k : Fin 32) (z : Fin 4) : Bool :=
  match x with
  | .panel j head _ => (j == k) && decide (head + zsCounts g z = b)
  | .seam _ _ _ => false

theorem entriesReverse_tested (s : State) (x : TrackRecord) :
    EntryTested (reverseMarks s.geometry.given s.pc.beltPosition x) s (entriesReverse s x) := by
  match x with
  | .panel k head (some e) =>
    refine (entryTests_tested k _ s).congr fun j y => ?_
    have hreach : (s.pc.beltPosition : Int) - e = zeCounts s.geometry.given y ↔
        e + zeCounts s.geometry.given y = s.pc.beltPosition := by omega
    simp [reverseMarks, tailDistance, mem_allZones, hreach]
  | .panel k head none => exact .refl s
  | .seam pos r sw => exact .refl s

theorem entriesForward_tested (s : State) (x : TrackRecord) :
    EntryTested (forwardMarks s.geometry.given s.pc.beltPosition x) s (entriesForward s x) := by
  match x with
  | .panel k head tail =>
    refine (entryTests_tested k _ s).congr fun j y => ?_
    have hreach : (s.pc.beltPosition : Int) - head = zsCounts s.geometry.given y ↔
        head + zsCounts s.geometry.given y = s.pc.beltPosition := by omega
    simp [forwardMarks, headDistance, mem_allZones, hreach]
  | .seam pos r sw => exact .refl s

theorem foldl_entriesReverse_tested (xs : List TrackRecord) (s : State) :
    EntryTested (fun k z => xs.any fun x => reverseMarks s.geometry.given s.pc.beltPosition x k z) s
      (xs.foldl entriesReverse s) :=
  EntryTested.foldl (P := fun t => t.geometry = s.geometry ∧ t.pc = s.pc)
    (fun t x ⟨hg, hpc⟩ => by rw [← hg, ← hpc]; exact entriesReverse_tested t x) (fun _ _ h => h) xs s ⟨rfl, rfl⟩

theorem foldl_entriesForward_tested (xs : List TrackRecord) (s : State) :
    EntryTested (fun k z => xs.any fun x => forwardMarks s.geometry.given s.pc.beltPosition x k z) s
      (xs.foldl entriesForward s) :=
  EntryTested.foldl (P := fun t => t.geometry = s.geometry ∧ t.pc = s.pc)
    (fun t x ⟨hg, hpc⟩ => by rw [← hg, ← hpc]; exact entriesForward_tested t x) (fun _ _ h => h) xs s ⟨rfl, rfl⟩

/-! ### Counts of the belt encoder (R6) -/

theorem setRecords_self {s : State} {rs : List TrackRecord} (h : s.tu.records = rs) : setRecords rs s = s := by
  subst h; rfl

theorem trackForward_of_empty {s : State} (h : s.tu.records = []) : trackForward s = s := by
  simp [trackForward, switchSeams, retireAtTakeOff, h, setRecords_self h]

theorem trackReverse_of_empty {s : State} (h : s.tu.records = []) : trackReverse s = s := by
  rw [trackReverse, h, List.foldl_nil]

theorem countEncoder_belt_forward {p : ChannelPair} {s : State} (hroom : s.pc.beltPosition < topPosition) :
    countEncoder .belt true (setPair .belt p s) =
      trackForward { s with pc := { s.pc with beltPosition := s.pc.beltPosition + 1, beltPair := p } } :=
  if_neg hroom.not_ge

theorem countEncoder_belt_forward_top {p : ChannelPair} {s : State} (htop : topPosition ≤ s.pc.beltPosition) :
    countEncoder .belt true (setPair .belt p s) = { s with pc := { s.pc with beltPair := p } } :=
  if_pos htop

theorem countEncoder_belt_reverse {p : ChannelPair} {s : State} (hpos : 0 < s.pc.beltPosition) :
    countEncoder .belt false (setPair .belt p s) =
      trackReverse { s with pc := { s.pc with beltPosition := s.pc.beltPosition - 1, beltPair := p } } :=
  if_neg hpos.ne'

theorem countEncoder_belt_reverse_zero {p : ChannelPair} {s : State} (hzero : s.pc.beltPosition = 0) :
    countEncoder .belt false (setPair .belt p s) = { s with pc := { s.pc with beltPair := p } } :=
  if_pos hzero

theorem exec_encoderChange_same (e : Encoder) (s : State) : exec (.encoderChange e (s.lastPair e)) s = .next s :=
  if_pos rfl

/-- A change of both channels reports ENCODER and counts nothing (R2). -/
theorem exec_encoderChange_double {e : Encoder} {p : ChannelPair} {s : State} (ha : p.a ≠ (s.lastPair e).a)
    (hb : p.b ≠ (s.lastPair e).b) :
    exec (.encoderChange e p) s = .next (refresh (reportCause .encoder (setPair e p s))) := by
  have hchange : p ≠ s.lastPair e := fun h => ha (congrArg ChannelPair.a h)
  change execEncoderChange e p s = _
  rw [execEncoderChange]
  dsimp only
  rw [if_neg hchange, if_pos ⟨ha, hb⟩]

/-- Settles O24: each case of the count is an equation of its own, and the entry tests of a reverse count are
`foldl_entriesReverse_tested`. -/
theorem beltCountsAndDoubleChanges : Obligations.BeltCountsAndDoubleChanges := by
  refine ⟨⟨fun p s hempty => ⟨fun hcount => ?_, fun hcount => ?_⟩, fun p s hstop => ?_⟩,
    fun e p s => ⟨fun hsame => ?_, fun ha hb => ?_⟩, fun p s hcount hpos => ?_⟩
  · rw [exec_encoderChange_of_isCount hcount]
    by_cases hroom : s.pc.beltPosition < topPosition
    · rw [countEncoder_belt_forward hroom, if_pos hroom]
      exact congrArg (fun t => Host.Outcome.next (refresh t)) (trackForward_of_empty hempty)
    · rw [countEncoder_belt_forward_top (not_lt.mp hroom), if_neg hroom]
  · rw [exec_encoderChange_of_isCount hcount]
    rcases Nat.eq_zero_or_pos s.pc.beltPosition with hzero | hpos
    · have hstill : s.pc.beltPosition - 1 = s.pc.beltPosition := by omega
      rw [countEncoder_belt_reverse_zero hzero, hstill]
    · rw [countEncoder_belt_reverse hpos]
      exact congrArg (fun t => Host.Outcome.next (refresh t)) (trackReverse_of_empty hempty)
  · rcases hstop with ⟨hcount, htop⟩ | ⟨hcount, hzero⟩
    · rw [exec_encoderChange_of_isCount hcount, countEncoder_belt_forward_top htop]
    · rw [exec_encoderChange_of_isCount hcount, countEncoder_belt_reverse_zero hzero]
  · rw [hsame]
    exact exec_encoderChange_same e s
  · rw [exec_encoderChange_double ha hb]
    cases e <;> rfl
  · intro b moved u
    have tested := foldl_entriesReverse_tested s.tu.records moved
    refine ⟨?_, tested.rest, fun k => ⟨tested.panel k, tested.status k, fun z => tested.bits k z⟩⟩
    rw [exec_encoderChange_of_isCount hcount, countEncoder_belt_reverse hpos]

end Sys2Proof.Machine
end

