-- ==== Sys2Proof/Proofs/BeltTracking.lean ====
section
/-! PROOF. A forward belt count tests, switches and retires the records of the tracking queue
(for ForwardBeltCountTracksRecords). -/

namespace Sys2Proof.Machine

open Sys2Proof.Safety

-- One proof after the other: many short ones at once need more threads than the memory limit leaves room for.
set_option Elab.async false

/-! ### What a recipe switch leaves alone: the panels, and the counts of PANEL-DONE and GARMENT-DONE -/

/-- The panel records of the slots with the counts of PANEL-DONE and GARMENT-DONE. -/
def panelView (s : State) : (Fin 32 → PanelRecord) × Nat × Nat :=
  (s.panelOf, s.eventCount .panelDone, s.eventCount .garmentDone)

theorem panelView_of_slots_events {s t : State} (hslots : t.slots = s.slots) (hevents : t.events = s.events) :
    panelView t = panelView s := by
  simp only [panelView, funext_iff, Prod.mk.injEq, State.panelOf, State.slot, State.eventCount, hslots, hevents]
  simp

theorem panelView_raise {c : EventClass} (hp : .panelDone ≠ c) (hg : .garmentDone ≠ c) (s : State) :
    panelView (raise c s) = panelView s := by
  rw [panelView, eventCount_raise_other hp, eventCount_raise_other hg]
  rfl

theorem panelView_modifyStatus (k : Fin 32) (f : SlotStatus → SlotStatus) (s : State) :
    panelView (modifyStatus k f s) = panelView s := by
  have hpanels : (modifyStatus k f s).panelOf = s.panelOf := funext fun j => panelOf_modifyStatus j k f s
  rw [panelView, hpanels]
  rfl

theorem panelView_aim (mark : SlotStatus → SlotStatus) (k : Fin 32) (s : State) :
    panelView (aim mark k s) = panelView s := by
  unfold aim
  cases (s.status k).state <;> simp only [panelView_modifyStatus]

theorem panelView_leaveInBand (z : Fin 4) (s : State) : panelView (leaveInBand z s) = panelView s :=
  (panelView_raise (by decide) (by decide) _).trans (foldl_keeps panelView _ (fun t k => panelView_aim _ k t) _ s)

theorem panelView_leaveIfInBand (before : ZoneState) (z : Fin 4) (s : State) :
    panelView (leaveIfInBand before z s) = panelView s := by
  unfold leaveIfInBand
  split
  · exact panelView_leaveInBand z s
  · rfl

theorem panelView_modifyZone (z : Fin 4) (f : Zone → Zone) (s : State) : panelView (modifyZone z f s) = panelView s := rfl

theorem panelView_standZone (s : State) (z : Fin 4) : panelView (standZone s z) = panelView s := by
  have hleave := (panelView_leaveIfInBand (s.zone z).state z _).trans
    (panelView_modifyZone z (fun zn => { zn with state := .standby, settle := none }) s)
  unfold standZone
  split
  all_goals simp_all

theorem panelView_resumeTest (s : State) : panelView (resumeTest s) = panelView s :=
  panelView_of_slots_events (by simp) (by simp)

theorem panelView_restStopTimer (s : State) : panelView (restStopTimer s) = panelView s :=
  panelView_of_slots_events (by simp) (by simp)

theorem panelView_clampReference (s : State) : panelView (clampReference s) = panelView s :=
  panelView_of_slots_events (by simp) (by simp)

theorem panelView_fireStopTimer (s : State) : panelView (fireStopTimer s) = panelView s := by
  have hstand := foldl_keeps panelView standZone panelView_standZone allZones
    { s with heat := { s.heat with stopFired := true } }
  have hmark (t : State) : panelView (markChamberPanels t) = panelView t :=
    foldl_keeps panelView _ (fun t k => panelView_aim _ k t) _ t
  rw [fireStopTimer, panelView_resumeTest, panelView_raise (by decide) (by decide), hmark, hstand]
  rfl

theorem panelView_checkStopTimer (s : State) : panelView (checkStopTimer s) = panelView s := by
  unfold checkStopTimer
  split
  · rw [panelView_fireStopTimer, panelView_restStopTimer]
  · exact panelView_restStopTimer s

theorem panelView_switchZone (z : Fin 4) (r : Fin 8) (s : State) : panelView (switchZone z r s) = panelView s := by
  unfold switchZone switchRecord
  split
  · rfl
  · rw [panelView_checkStopTimer, panelView_clampReference, panelView_leaveIfInBand, panelView_modifyZone]

theorem panelView_switchFor (x : TrackRecord) (zs : List (Fin 4)) (s : State) :
    panelView (switchFor x zs s) = panelView s := by
  cases x with
  | panel k head tail => rfl
  | seam pos r sw => exact foldl_keeps panelView _ (fun t z => panelView_switchZone z r t) zs s

/-! ### Slots retired at the take-off (R120, R33) -/

/-- A count that holds at 255, raised `m` times (R188). -/
def raisedBy (n m : Nat) : Nat := if m = 0 then n else min 255 (n + m)

theorem raisedBy_raisedBy (n a b : Nat) : raisedBy (raisedBy n a) b = raisedBy n (a + b) := by
  unfold raisedBy
  split_ifs <;> omega

/-- `t` is `s` once the slots `gone` are retired: each is DONE, with a PANEL-DONE, and a GARMENT-DONE where its panel has
LAST set (R120, R33). -/
structure Retired (gone : List (Fin 32)) (s t : State) : Prop where
  rest : t = { s with slots := t.slots, events := t.events }
  panel : ∀ k, t.panelOf k = s.panelOf k
  status : ∀ k, t.status k = if k ∈ gone then { s.status k with state := .done } else s.status k
  panelDone : t.eventCount .panelDone = raisedBy (s.eventCount .panelDone) gone.length
  garmentDone : t.eventCount .garmentDone =
    raisedBy (s.eventCount .garmentDone) (gone.filter fun k => (s.panelOf k).last).length
  others : ∀ c, c ≠ .panelDone → c ≠ .garmentDone → t.eventCount c = s.eventCount c

theorem Retired.refl (s : State) : Retired [] s s := ⟨rfl, fun _ => rfl, fun _ => rfl, rfl, rfl, fun _ _ _ => rfl⟩

theorem Retired.trans {a b : List (Fin 32)} {s t u : State} (h₁ : Retired a s t) (h₂ : Retired b t u) :
    Retired (a ++ b) s u where
  rest := by rw [h₂.rest, h₁.rest]
  panel k := (h₂.panel k).trans (h₁.panel k)
  status k := by
    rw [h₂.status, h₁.status]
    by_cases ha : k ∈ a <;> by_cases hb : k ∈ b <;> simp [ha, hb]
  panelDone := by rw [h₂.panelDone, h₁.panelDone, raisedBy_raisedBy, List.length_append]
  garmentDone := by
    rw [h₂.garmentDone, h₁.garmentDone, raisedBy_raisedBy, List.filter_append, List.length_append]
    simp only [h₁.panel]
  others c hp hg := (h₂.others c hp hg).trans (h₁.others c hp hg)

theorem retireSlot_retired (k : Fin 32) (s : State) : Retired [k] s (retireSlot k s) := by
  have hstatus (j : Fin 32) : (modifyStatus k (fun st => { st with state := .done }) s).status j =
      if j ∈ [k] then { s.status j with state := .done } else s.status j := by
    by_cases hj : j = k
    · subst hj
      simp
    · simp [hj, status_modifyStatus_other hj]
  have hone (n : Nat) : countUp 255 n = raisedBy n 1 := rfl
  unfold retireSlot
  dsimp only
  split
  · next hlast =>
    refine ⟨rfl, fun j => by simp, fun j => by simpa using hstatus j, ?_, ?_, fun c hp hg => ?_⟩
    · rw [eventCount_raise_other (by decide), eventCount_raise_same]
      rfl
    · rw [eventCount_raise_same, eventCount_raise_other (by decide)]
      simp [hlast, hone]
    · rw [eventCount_raise_other hg, eventCount_raise_other hp]
      simp
  · next hlast =>
    refine ⟨rfl, fun j => by simp, fun j => by simpa using hstatus j, ?_, ?_, fun c hp hg => ?_⟩
    · rw [eventCount_raise_same]
      rfl
    · rw [eventCount_raise_other (by decide)]
      simp [hlast, raisedBy]
    · rw [eventCount_raise_other hp]
      simp

theorem foldl_retireSlot_retired (ks : List (Fin 32)) (s : State) :
    Retired ks s (ks.foldl (fun t k => retireSlot k t) s) := by
  induction ks generalizing s with
  | nil => exact .refl s
  | cons k ks ih => exact (retireSlot_retired k s).trans (ih _)

theorem retireSlot_setRecords (k : Fin 32) (rs : List TrackRecord) (s : State) :
    retireSlot k (setRecords rs s) = setRecords rs (retireSlot k s) := by
  have hpanel : (setRecords rs s).panelOf k = s.panelOf k := rfl
  unfold retireSlot
  rw [hpanel]
  dsimp only
  split <;> rfl

theorem foldl_retireSlot_setRecords (ks : List (Fin 32)) (rs : List TrackRecord) (s : State) :
    ks.foldl (fun t k => retireSlot k t) (setRecords rs s) = setRecords rs (ks.foldl (fun t k => retireSlot k t) s) := by
  induction ks generalizing s with
  | nil => rfl
  | cons k ks ih => rw [List.foldl_cons, retireSlot_setRecords, ih, List.foldl_cons]

/-! ### A forward belt count in one formula (R6, log entry 5) -/

theorem atTakeOff_addSwitched (s : State) (zs : List (Fin 4)) (x : TrackRecord) :
    atTakeOff s (addSwitched zs x) = atTakeOff s x := by
  match x with
  | .panel k head (some e) => rfl
  | .panel k head none => rfl
  | .seam pos r sw => rfl

theorem slot?_addSwitched (zs : List (Fin 4)) (x : TrackRecord) : (addSwitched zs x).slot? = x.slot? := by
  cases x <;> rfl

/-- The records that leave at the take-off retire the slots they name, oldest first. -/
theorem foldl_leaveAtTakeOff (xs : List TrackRecord) (s : State) :
    xs.foldl leaveAtTakeOff s = (xs.filterMap TrackRecord.slot?).foldl (fun t k => retireSlot k t) s := by
  induction xs generalizing s with
  | nil => rfl
  | cons x xs ih => cases x <;> exact ih _

theorem dueSwitches_congr {s t : State} (hpc : t.pc = s.pc) (hg : t.geometry = s.geometry) :
    dueSwitches t = dueSwitches s := by
  funext x
  cases x with
  | panel k head tail => rfl
  | seam pos r sw => simp only [dueSwitches, hpc, hg]

theorem atTakeOff_congr {s t : State} (hpc : t.pc = s.pc) (hg : t.geometry = s.geometry) :
    atTakeOff t = atTakeOff s := by
  funext x
  match x with
  | .panel k head (some e) => simp only [atTakeOff, hpc, hg]
  | .panel k head none => rfl
  | .seam pos r sw => simp only [atTakeOff, hpc, hg]

/-- The entry tests of a forward belt count on every record (R122). -/
def testEntries (s : State) : State := s.tu.records.foldl entriesForward s

/-- The switches that are due at the belt position of `s`, oldest record first, carried out on `t` (R124). -/
def makeSwitches (s t : State) : State := s.tu.records.foldl (fun u x => switchFor x (dueSwitches s x) u) t

theorem makeSwitches_pc (s t : State) : (makeSwitches s t).pc = t.pc :=
  foldl_keeps State.pc _ (fun u x => by simp) _ t

theorem makeSwitches_geometry (s t : State) : (makeSwitches s t).geometry = t.geometry :=
  foldl_keeps State.geometry _ (fun u x => by simp) _ t

theorem makeSwitches_tu (s t : State) : (makeSwitches s t).tu = t.tu :=
  foldl_keeps State.tu _ (fun u x => by simp) _ t

theorem panelView_makeSwitches (s t : State) : panelView (makeSwitches s t) = panelView t :=
  foldl_keeps panelView _ (fun u x => panelView_switchFor x _ u) _ t

/-- The slots of the PANEL records that have reached the take-off, oldest first (R120). -/
def goneSlots (s : State) : List (Fin 32) := s.panelSlots (atTakeOff s)

/-- What a forward belt count leaves in the tracking queue (R120, R124, R125). -/
def keptRecords (s : State) : List TrackRecord :=
  (s.tu.records.filter fun x => !atTakeOff s x).map fun x => addSwitched (dueSwitches s x) x

/-- A forward belt count makes the entry tests, then the switches, then the retirements. -/
theorem trackForward_eq (s : State) : trackForward s = setRecords (keptRecords s)
    ((goneSlots s).foldl (fun t k => retireSlot k t) (makeSwitches s (testEntries s))) := by
  have htested : testEntries s = { s with slots := (testEntries s).slots } :=
    (foldl_entriesForward_tested s.tu.records s).rest
  have hpc : (testEntries s).pc = s.pc := by rw [htested]
  have hgeometry : (testEntries s).geometry = s.geometry := by rw [htested]
  have htu : (testEntries s).tu = s.tu := by rw [htested]
  have hseams : switchSeams (testEntries s) = setRecords (s.tu.records.map fun x => addSwitched (dueSwitches s x) x)
      (makeSwitches s (testEntries s)) := by
    rw [switchSeams, dueSwitches_congr hpc hgeometry, htu]
    rfl
  have hat (rs : List TrackRecord) : atTakeOff (setRecords rs (makeSwitches s (testEntries s))) = atTakeOff s :=
    atTakeOff_congr ((makeSwitches_pc s _).trans hpc) ((makeSwitches_geometry s _).trans hgeometry)
  have hkept (rs : List TrackRecord) :
      (rs.map fun x => addSwitched (dueSwitches s x) x).filter (fun x => !atTakeOff s x) =
      (rs.filter fun x => !atTakeOff s x).map fun x => addSwitched (dueSwitches s x) x := by
    rw [List.filter_map]
    simp only [Function.comp_def, atTakeOff_addSwitched]
  have hgone : ((s.tu.records.map fun x => addSwitched (dueSwitches s x) x).filter (atTakeOff s)).filterMap
      TrackRecord.slot? = goneSlots s := by
    rw [List.filter_map, List.filterMap_map, List.filterMap_filter]
    simp only [Function.comp_def, atTakeOff_addSwitched, slot?_addSwitched]
    rfl
  change retireAtTakeOff (switchSeams (testEntries s)) = _
  rw [hseams, retireAtTakeOff, hat, foldl_leaveAtTakeOff]
  change setRecords ((s.tu.records.map fun x => addSwitched (dueSwitches s x) x).filter fun x => !atTakeOff s x)
    (((List.filter (atTakeOff s) (s.tu.records.map fun x => addSwitched (dueSwitches s x) x)).filterMap
      TrackRecord.slot?).foldl (fun t k => retireSlot k t) _) = _
  rw [hkept, hgone, foldl_retireSlot_setRecords]
  rfl

theorem testEntries_tested (s : State) : EntryTested
    (fun k z => s.tu.records.any fun x => forwardMarks s.geometry.given s.pc.beltPosition x k z) s (testEntries s) :=
  foldl_entriesForward_tested s.tu.records s

theorem panelView_testEntries (s : State) : panelView (testEntries s) = panelView s := by
  have tested := testEntries_tested s
  have hpanels : (testEntries s).panelOf = s.panelOf := funext tested.panel
  rw [panelView, hpanels, tested.rest]
  rfl

/-- The slots retired by a forward belt count, after its entry tests and switches. -/
theorem trackForward_retired (s : State) : Retired (goneSlots s) (makeSwitches s (testEntries s))
    ((goneSlots s).foldl (fun t k => retireSlot k t) (makeSwitches s (testEntries s))) :=
  foldl_retireSlot_retired _ _

theorem panelView_tracked (s : State) : panelView (makeSwitches s (testEntries s)) = panelView s :=
  (panelView_makeSwitches s _).trans (panelView_testEntries s)

theorem tracked_panelOf (k : Fin 32) (s : State) : (makeSwitches s (testEntries s)).panelOf k = s.panelOf k :=
  congrArg (fun v => v.1 k) (panelView_tracked s)

theorem tracked_panelDone (s : State) :
    (makeSwitches s (testEntries s)).eventCount .panelDone = s.eventCount .panelDone :=
  congrArg (fun v => v.2.1) (panelView_tracked s)

theorem tracked_garmentDone (s : State) :
    (makeSwitches s (testEntries s)).eventCount .garmentDone = s.eventCount .garmentDone :=
  congrArg (fun v => v.2.2) (panelView_tracked s)

theorem tracked_tu (s : State) : (makeSwitches s (testEntries s)).tu = s.tu := by
  rw [makeSwitches_tu, (testEntries_tested s).rest]

theorem trackForward_panelOf (k : Fin 32) (s : State) : (trackForward s).panelOf k = s.panelOf k := by
  rw [trackForward_eq]
  exact ((trackForward_retired s).panel k).trans (tracked_panelOf k s)

theorem trackForward_status (k : Fin 32) (s : State) : (trackForward s).status k =
    if k ∈ goneSlots s then { (makeSwitches s (testEntries s)).status k with state := .done }
    else (makeSwitches s (testEntries s)).status k := by
  rw [trackForward_eq]
  exact (trackForward_retired s).status k

theorem trackForward_tu (s : State) : (trackForward s).tu = { s.tu with records := keptRecords s } := by
  rw [trackForward_eq, (trackForward_retired s).rest]
  exact congrArg (fun tu : Tracker => { tu with records := keptRecords s }) (tracked_tu s)

theorem trackForward_panelDone (s : State) :
    (trackForward s).eventCount .panelDone = raisedBy (s.eventCount .panelDone) (goneSlots s).length := by
  rw [trackForward_eq]
  exact (trackForward_retired s).panelDone.trans (congrArg (raisedBy · _) (tracked_panelDone s))

theorem trackForward_garmentDone (s : State) : (trackForward s).eventCount .garmentDone =
    raisedBy (s.eventCount .garmentDone) ((goneSlots s).filter fun k => (s.panelOf k).last).length := by
  have hcount := (trackForward_retired s).garmentDone
  simp only [tracked_panelOf, tracked_garmentDone] at hcount
  rw [trackForward_eq]
  exact hcount

theorem trackForward_eventCount_other {c : EventClass} (hp : c ≠ .panelDone) (hg : c ≠ .garmentDone) (s : State) :
    (trackForward s).eventCount c = (makeSwitches s (testEntries s)).eventCount c := by
  rw [trackForward_eq]
  exact (trackForward_retired s).others c hp hg

theorem trackForward_rest (s : State) : trackForward s = { makeSwitches s (testEntries s) with
    slots := (trackForward s).slots, tu := (trackForward s).tu, events := (trackForward s).events } := by
  rw [trackForward_eq, (trackForward_retired s).rest]
  rfl

end Sys2Proof.Machine
end

