-- ==== Sys2Proof/Proofs/BeltRecords.lean ====
section
/-! PROOF. A forward belt count with one PANEL record, with one SEAM record and with any records
(ForwardBeltCountTracksRecords). -/

namespace Sys2Proof.Machine

open Sys2Proof.Safety

-- One proof after the other: many short ones at once need more threads than the memory limit leaves room for.
set_option Elab.async false

/-! ### With any records -/

/-- The zones a record is due to switch at belt position `b` (R124). -/
def dueAt (g : GeometryFields) (b : Nat) (x : TrackRecord) : List (Fin 4) :=
  match x with
  | .seam pos _ sw => allZones.filter fun z => !sw.getLsbD z.val && decide (pos + (zsCounts g z + zeCounts g z) / 2 ≤ b)
  | .panel _ _ _ => []

/-- Whether a record has reached the take-off at belt position `b` (R120, R125). -/
def leavesAt (g : GeometryFields) (b : Nat) (x : TrackRecord) : Bool :=
  match x with
  | .panel _ _ (some e) => decide (e + toCounts g ≤ b)
  | .panel _ _ none => false
  | .seam pos _ _ => decide (pos + toCounts g ≤ b)

theorem dueSwitches_eq (s : State) (x : TrackRecord) :
    dueSwitches s x = dueAt s.geometry.given s.pc.beltPosition x := by
  cases x with
  | panel k head tail => rfl
  | seam pos r sw =>
    unfold dueSwitches dueAt
    refine List.filter_congr fun z _ => ?_
    have hreach : (midpoint s.geometry.given z : Int) ≤ s.pc.beltPosition - pos ↔
        pos + (zsCounts s.geometry.given z + zeCounts s.geometry.given z) / 2 ≤ s.pc.beltPosition := by
      unfold midpoint
      omega
    rw [decide_eq_decide.mpr hreach]

theorem atTakeOff_eq (s : State) (x : TrackRecord) :
    atTakeOff s x = leavesAt s.geometry.given s.pc.beltPosition x := by
  match x with
  | .panel k head (some e) =>
    refine decide_eq_decide.mpr ?_
    simp only [tailDistance]
    omega
  | .panel k head none => rfl
  | .seam pos r sw =>
    refine decide_eq_decide.mpr ?_
    simp only [headDistance]
    omega

theorem mem_goneSlots_iff (k : Fin 32) (s : State) :
    k ∈ goneSlots s ↔ ∃ x ∈ s.tu.records, atTakeOff s x = true ∧ x.slot? = some k := by
  simp [goneSlots, State.panelSlots]

/-! ### With nothing due to PS -/

theorem settlePS_of_quiet {s : State} (h : QuietPS s) : settlePS s = s := by
  obtain ⟨hready, happend⟩ := h
  simp [settlePS, takeReady, generate, strokeCapacity, hready, happend]

theorem panelView_starveTest (s : State) : panelView (starveTest s) = panelView s := by
  have hraise (t : State) := panelView_raise (c := .patternLow) (by decide) (by decide) t
  have hlg (l : Governor) : panelView { s with lg := l } = panelView s := rfl
  unfold starveTest
  dsimp only
  split_ifs <;> simp only [hraise, hlg]

theorem panelView_startGenerators (s : State) : panelView (startGenerators s) = panelView s := rfl

/-- With PS quiet, the end of a command leaves the slots, the tracking queue and the PANEL-DONE and GARMENT-DONE counts. -/
theorem refresh_of_quiet {s : State} (h : QuietPS s) :
    (refresh s).slots = s.slots ∧ (refresh s).tu = s.tu ∧ panelView (refresh s) = panelView s := by
  have hstarved : QuietPS (starveTest s) := by
    obtain ⟨l, e, hstarve⟩ := starveTest_eq_update s
    rw [hstarve]
    exact h
  rw [refresh, settlePS_of_quiet hstarved]
  refine ⟨by simp, by simp, ?_⟩
  rw [panelView_startGenerators, panelView_restStopTimer, panelView_clampReference, panelView_resumeTest,
    panelView_starveTest]

/-- PS stays without a slot to take where no slot has come to wait and nothing else of R45 has changed. -/
theorem commitReady_false_of {s t : State} (hps : t.ps = s.ps) (hgeometry : t.geometry = s.geometry)
    (hweb : t.pc.webPosition = s.pc.webPosition)
    (hstate : ∀ k, (t.status k).state = .queued → (s.status k).state = .queued)
    (hreg : ∀ k, (t.status k).registration = (s.status k).registration) (h : s.commitReady = false) :
    t.commitReady = false := by
  have hahead : t.committedAhead = s.committedAhead := by
    simp only [State.committedAhead, hps, hweb]
  rw [Bool.eq_false_iff] at h ⊢
  refine fun hready => h ?_
  simp only [State.commitReady, Bool.and_eq_true, beq_iff_eq, hps, hgeometry, hahead, hreg] at hready ⊢
  exact ⟨⟨hstate _ hready.1.1, hready.1.2⟩, hready.2⟩

theorem EntryTested.status_of_unmarked {marks : Fin 32 → Fin 4 → Bool} {s t : State} (h : EntryTested marks s t)
    {k : Fin 32} (hk : ∀ z, marks k z = false) : t.status k = s.status k := by
  have hset : (t.status k).underSet = (s.status k).underSet := by
    refine BitVec.eq_of_getLsbD_eq fun i hi => ?_
    simpa [hk] using h.bits k ⟨i, hi⟩
  rw [h.status k, hset]

theorem slot_eq_of {s t : State} {k : Fin 32} (hpanel : t.panelOf k = s.panelOf k) (hstatus : t.status k = s.status k) :
    t.slot k = s.slot k := by
  cases ht : t.slot k
  cases hs : s.slot k
  simp_all [State.panelOf, State.status]

/-! ### With one record -/

section

variable {s : State} {k : Fin 32} {head : Nat} {tail : Option Nat} (h : s.tu.records = [.panel k head tail])

include h

theorem goneSlots_of_panel : goneSlots s = if atTakeOff s (.panel k head tail) then [k] else [] := by
  unfold goneSlots State.panelSlots
  rw [h]
  cases hat : atTakeOff s (.panel k head tail) <;> simp [hat, TrackRecord.slot?]

theorem keptRecords_of_panel :
    keptRecords s = if atTakeOff s (.panel k head tail) then [] else [.panel k head tail] := by
  unfold keptRecords
  rw [h]
  cases hat : atTakeOff s (.panel k head tail) <;> simp [hat, addSwitched]

theorem makeSwitches_of_panel (t : State) : makeSwitches s t = t := by
  rw [makeSwitches, h]
  rfl

theorem testEntries_of_panel :
    EntryTested (fun j z => forwardMarks s.geometry.given s.pc.beltPosition (.panel k head tail) j z) s (testEntries s) := by
  refine (testEntries_tested s).congr fun j z => ?_
  rw [h, List.any_cons, List.any_nil, Bool.or_false]

/-- What a forward belt count makes of the status of each slot while one PANEL record is tracked. -/
theorem trackForward_status_of_panel (j : Fin 32) : (trackForward s).status j =
    if atTakeOff s (.panel k head tail) = true ∧ j = k then { (testEntries s).status j with state := .done }
    else (testEntries s).status j := by
  rw [trackForward_status, makeSwitches_of_panel h, goneSlots_of_panel h]
  cases atTakeOff s (.panel k head tail) <;> simp

theorem trackForward_rest_of_panel : trackForward s = { s with
    slots := (trackForward s).slots, tu := (trackForward s).tu, events := (trackForward s).events } := by
  refine (trackForward_rest s).trans ?_
  rw [makeSwitches_of_panel h, (testEntries_tested s).rest]

theorem trackForward_quiet_of_panel (hquiet : QuietPS s) : QuietPS (trackForward s) := by
  obtain ⟨hready, happend⟩ := hquiet
  have hrest := trackForward_rest_of_panel h
  have hps : (trackForward s).ps = s.ps := by rw [hrest]
  refine ⟨commitReady_false_of hps (by rw [hrest]) (by rw [hrest]) (fun j => ?_) (fun j => ?_) hready, ?_⟩
  · rw [trackForward_status_of_panel h, (testEntries_tested s).status j]
    split
    · exact fun hdone => nomatch hdone
    · exact id
  · rw [trackForward_status_of_panel h, (testEntries_tested s).status j]
    split <;> rfl
  · simpa only [State.canAppend, hps] using happend

end

section

variable {s : State} {pos : Nat} {r : Fin 8} {sw : ZoneSet} (h : s.tu.records = [.seam pos r sw])

include h

theorem trackForward_of_seam : trackForward s =
    setRecords (if atTakeOff s (.seam pos r sw) then []
        else [addSwitched (dueSwitches s (.seam pos r sw)) (.seam pos r sw)])
      ((dueSwitches s (.seam pos r sw)).foldl (fun u z => switchZone z r u) s) := by
  have htested : testEntries s = s := by
    rw [testEntries, h]
    rfl
  have hgone : goneSlots s = [] := by
    unfold goneSlots State.panelSlots
    rw [h]
    simp [TrackRecord.slot?]
  have hkept : keptRecords s = if atTakeOff s (.seam pos r sw) then []
      else [addSwitched (dueSwitches s (.seam pos r sw)) (.seam pos r sw)] := by
    unfold keptRecords
    rw [h]
    cases hat : atTakeOff s (.seam pos r sw) <;> simp [hat]
  rw [trackForward_eq, htested, hgone, hkept, makeSwitches, h]
  rfl

end

/-- Settles O25, from `trackForward_eq`: the entry tests are an `EntryTested`, the switches leave the panels and the counts
of PANEL-DONE and GARMENT-DONE, and the retirements are a `Retired`. -/
theorem forwardBeltCountTracksRecords : Obligations.ForwardBeltCountTracksRecords := by
  refine ⟨fun p s k head tail hrecords hquiet hcount hroom => ?_, fun p s pos r sw hrecords hcount hroom => ?_,
    fun p s hcount hroom => ?_⟩
  · intro b gone held
    let moved : State := { s with pc := { s.pc with beltPosition := b, beltPair := p } }
    have hgone : atTakeOff moved (.panel k head tail) = gone := by cases tail <;> rfl
    have hmoved : moved.tu.records = [.panel k head tail] := hrecords
    have tested := testEntries_of_panel hmoved
    obtain ⟨hslots, htu, hview⟩ := refresh_of_quiet (trackForward_quiet_of_panel hmoved hquiet)
    have hslot (j : Fin 32) : (refresh (trackForward moved)).slot j = (trackForward moved).slot j := by
      simp only [State.slot, hslots]
    have hstatus (j : Fin 32) : (refresh (trackForward moved)).status j =
        if gone = true ∧ j = k then { (testEntries moved).status j with state := .done }
        else (testEntries moved).status j := by
      rw [State.status, hslot, ← State.status, trackForward_status_of_panel hmoved, hgone]
    have hpanel (j : Fin 32) : (refresh (trackForward moved)).panelOf j = s.panelOf j := by
      rw [State.panelOf, hslot, ← State.panelOf, trackForward_panelOf]
      rfl
    have hset : ((refresh (trackForward moved)).status k).underSet = ((testEntries moved).status k).underSet := by
      rw [hstatus]
      split <;> rfl
    have hretired : goneSlots moved = if gone then [k] else [] := hgone ▸ goneSlots_of_panel hmoved
    refine ⟨refresh (trackForward moved), ?_, ?_, ?_, fun j hj => ?_, hpanel k, ?_, fun z => ?_, ?_, ?_⟩
    · rw [exec_encoderChange_of_isCount hcount, countEncoder_belt_forward hroom]
    · rw [(refresh_frame _).1, trackForward_rest_of_panel hmoved]
    · rw [htu, trackForward_tu, keptRecords_of_panel hmoved, hgone]
    · refine slot_eq_of (hpanel j) ?_
      rw [hstatus, if_neg fun h => hj h.2]
      exact tested.status_of_unmarked fun z => by simp [forwardMarks, hj.symm]
    · have hown := hstatus k
      simp only [and_true] at hown
      rw [hset, hown, tested.status k]
      cases gone <;> rfl
    · have hreach : head + zsCounts s.geometry.given z = b ↔ (b : Int) - head = zsCounts s.geometry.given z := by omega
      have hmarks : forwardMarks s.geometry.given b (.panel k head tail) k z =
          decide ((b : Int) - head = zsCounts s.geometry.given z) := by
        simp only [forwardMarks, beq_self_eq_true, Bool.true_and, decide_eq_decide.mpr hreach]
      rw [hset]
      refine (tested.bits k z).trans (congrArg ((s.status k).underSet.getLsbD z.val || ·) ?_)
      rw [Bool.and_right_comm]
      exact congrArg (fun m => held && m && _) hmarks
    · refine (congrArg (fun v => v.2.1) hview).trans ((trackForward_panelDone moved).trans ?_)
      rw [hretired]
      cases gone <;> rfl
    · refine (congrArg (fun v => v.2.2) hview).trans ((trackForward_garmentDone moved).trans ?_)
      have hlast : (moved.panelOf k).last = (s.panelOf k).last := rfl
      rw [hretired, ← hlast]
      cases gone <;> cases h : (moved.panelOf k).last <;> simp [h] <;> rfl
  · intro d due moved
    rw [exec_encoderChange_of_isCount hcount, countEncoder_belt_forward hroom]
    have hkept : (if atTakeOff moved (.seam pos r sw) then []
          else [addSwitched (dueSwitches moved (.seam pos r sw)) (.seam pos r sw)]) =
        if (toCounts s.geometry.given : Int) ≤ d then []
        else [.seam pos r (due.foldl (fun acc z => acc ||| BitVec.twoPow 4 z.val) sw)] :=
      if_congr decide_eq_true_iff rfl rfl
    have htu : (due.foldl (fun u z => switchZone z r u) moved).tu = s.tu :=
      foldl_keeps State.tu _ (fun u z => by simp) due moved
    have hstored (rs : List TrackRecord) : setRecords rs (due.foldl (fun u z => switchZone z r u) moved) =
        { due.foldl (fun u z => switchZone z r u) moved with tu := { s.tu with records := rs } } := by
      rw [setRecords, htu]
    refine congrArg (fun t => Host.Outcome.next (refresh t)) ((trackForward_of_seam (s := moved) hrecords).trans ?_)
    rw [hkept]
    exact hstored _
  · intro g b moved tested due switched leaves named gone more u
    have hexec : exec (.encoderChange .belt p) s = .next (refresh u) := by
      rw [exec_encoderChange_of_isCount hcount, countEncoder_belt_forward hroom]
    have hleaves (x : TrackRecord) : atTakeOff moved x = leaves x := atTakeOff_eq moved x
    have hdue (x : TrackRecord) : dueSwitches moved x = due x := dueSwitches_eq moved x
    have hentries : EntryTested (fun k z => s.tu.records.any fun x => forwardMarks g b x k z) moved tested :=
      testEntries_tested moved
    have hswitched : makeSwitches moved (testEntries moved) = switched := by
      refine congrArg (fun op => s.tu.records.foldl op tested) (funext fun v => funext fun x => ?_)
      cases x with
      | panel k head tail => rfl
      | seam pos r sw => exact congrArg (fun zs => zs.foldl (fun v z => switchZone z r v) v) (hdue _)
    have hkept : keptRecords moved = (s.tu.records.filter fun x => !leaves x).map fun x => match x with
        | .seam pos r sw => .seam pos r ((due x).foldl (fun acc z => acc ||| BitVec.twoPow 4 z.val) sw)
        | .panel k head tail => .panel k head tail := by
      unfold keptRecords
      simp only [hleaves, hdue]
      refine List.map_congr_left fun x _ => ?_
      cases x <;> rfl
    have hgone : goneSlots moved = gone := by
      refine List.filterMap_congr fun x _ => ?_
      rw [hleaves]
      cases x with
      | panel k head tail => rfl
      | seam pos r sw => exact ite_self _
    have hnamed (k : Fin 32) : s.tu.records.any (named k) = true ↔ k ∈ goneSlots moved := by
      rw [mem_goneSlots_iff, List.any_eq_true]
      refine exists_congr fun x => and_congr_right fun _ => ?_
      rw [hleaves]
      cases x <;> simp [named, TrackRecord.slot?]
    refine ⟨hexec, fun k => ⟨hentries.status k, fun z => hentries.bits k z⟩, hentries.rest,
      fun k => ⟨trackForward_panelOf k moved, ?_⟩, ?_, ?_, ?_, fun c hp hg => ?_, ?_⟩
    · rw [← hswitched, if_congr (hnamed k) rfl rfl]
      exact trackForward_status k moved
    · exact (trackForward_tu moved).trans (congrArg (fun rs => { s.tu with records := rs }) hkept)
    · exact hgone ▸ trackForward_panelDone moved
    · exact hgone ▸ trackForward_garmentDone moved
    · exact hswitched ▸ trackForward_eventCount_other hp hg moved
    · exact hswitched ▸ trackForward_rest moved

end Sys2Proof.Machine
end

