-- ==== Sys2Proof/Proofs/OverfullPattern.lean ====
section
/-! PROOF. A stroke queue over its size of R50 satisfies the pattern's invariant, and a commit there breaks it (refutes
StepKeepsPattern). -/

namespace Sys2Proof.Machine

open Sys2Proof.Safety

-- One proof after the other: many short ones at once need more threads than the memory limit leaves room for.
set_option Elab.async false

/-! ### The state -/

/-- A geometry that passes every check of SET-GEOMETRY, at 100,000 web counts per metre. -/
def fineGeometry : GeometryFields :=
  { s := 100000, sb := 20000, webSense := 0, beltSense := 0, ms := 1800, h := 9500, reverseLimit := 50,
    commitHorizon := 1000, minPitch := 300, bladeSlow := 60, bladeTimeout := 250, minBar := 40, wideThreshold := 120,
    groupGap := 800, rampStep := 20, tripRampStep := 50, infeedSteps := 50000, beltSteps := 20000,
    starveThreshold := 4000, starveHysteresis := 1000, ce := 600, zs1 := 600, ze1 := 1300, zs2 := 1350, ze2 := 2100,
    zs3 := 2150, ze3 := 2850, zs4 := 2900, ze4 := 3600, cx := 3600, takeOff := 4500, dArm := 2500, dLast := 1800,
    dCore := 1200, seamMargin := 1000, armLead := 500, pasteTimeout := 2000, cutTimeout := 1500 }

/-- A KNIFE panel of `n` pleats alike, each 400 web counts of fabric under `fineGeometry`. -/
def evenPanel (n : Nat) : PanelRecord := { clearedPanel with pleats := n, f0 := 200, d0 := 100 }

/-- A slot COMMITTED from position 10 with a panel of 65 strokes. -/
def longSlot : Slot :=
  { panel := evenPanel 65
    status := { clearedStatus with state := .committed, panelCounts := 26000, start := some 10, endPos := some 26010 } }

/-- A slot QUEUED with a panel of one stroke. -/
def shortSlot : Slot :=
  { panel := evenPanel 1, status := { clearedStatus with state := .queued, panelCounts := 400 } }

/-- Slot 0 COMMITTED with all its 65 strokes in the stroke queue, one more than R50 lets it hold, and an idle generator.
`PatternInv` puts no bound on the queue of an idle generator. PS may commit slot 1, and a COMMIT waits. -/
def overfull : State := { State.reset with
  geometry := { valid := true, given := fineGeometry }
  slots := (State.reset.slots.set 0 longSlot).set 1 shortSlot
  ps := { clearedSequencer with
    commitPointer := 1, lastEnd := some 26010, strokes := strokesFrom (evenPanel 65) 100000 65 (takenUp 0 10) }
  pending := [.commit] }

/-- `overfull` after the COMMIT: the generator is at work on slot 1, and the queue, with no room, still holds 65. -/
def overfullCommitted : State := refresh (commitSlot 1 { overfull with pending := [] })

/-! ### It satisfies the invariant -/

theorem overfull_ring : RingInv overfull := by
  refine ⟨?_, ?_, ?_, ?_, ?_⟩ <;> decide

theorem overfull_strokes : StrokesInv overfull := by
  refine ⟨?_, ?_, ?_, ?_⟩ <;> decide

theorem overfull_pattern : PatternInv overfull :=
  ⟨by decide, by decide, by decide, overfull_ring, by decide, by decide, overfull_strokes⟩

/-! ### One step breaks it -/

/-- Under the invariant a generator at work waits for room: the queue is exactly full (R52). -/
theorem strokes_length_of_generator {s : State} {g : Generator} (h : PatternInv s) (hg : s.ps.generator = some g) :
    s.ps.strokes.length = strokeCapacity := by
  obtain ⟨-, -, -, -, -, -, -, -, -, hwaits⟩ := h
  obtain ⟨-, -, -, hfull⟩ := hwaits g hg
  exact hfull

theorem step_overfull : step overfull = .next overfullCommitted := rfl

theorem overfullCommitted_generator : overfullCommitted.ps.generator = some (takenUp 1 26010) := by decide

theorem overfullCommitted_strokes : overfullCommitted.ps.strokes.length = 65 := by decide

/-- Refutes O7: in `overfull` the invariant holds, and the COMMIT that waits puts the generator to work beside a queue
of 65 strokes, where `StrokesInv` asks for exactly the 64 of R50. -/
theorem not_stepKeepsPattern : ¬ Obligations.StepKeepsPattern := by
  rintro ⟨hstep, -⟩
  have hkept : PatternInv overfullCommitted :=
    hstep overfull overfullCommitted overfull_pattern (by decide) step_overfull
  have hfull := strokes_length_of_generator hkept overfullCommitted_generator
  rw [overfullCommitted_strokes] at hfull
  exact absurd hfull (by decide)

end Sys2Proof.Machine
end

