-- ==== Sys2Proof/Proofs/Reads.lean ====
section
/-! PROOF. The reading requests answer their payloads, of the lengths of section 11.5, and change nothing but the link
(ReadsAnswerAndChangeNothing). -/

namespace Sys2Proof.Machine

open Sys2Proof.Safety

-- One proof after the other: many short ones at once need more threads than the memory limit leaves room for.
set_option Elab.async false

/-! ### The lengths of the payloads (section 11.5) -/

@[simp] theorem length_bytesOf (w n : Nat) : (bytesOf w n).length = w := by
  induction w with
  | zero => rfl
  | succ w ih => simp [bytesOf, ih]

@[simp] theorem length_replyFields (fs : List (Nat × Nat)) : (replyFields fs).length = (fs.map (·.1)).sum := by
  simp [replyFields, replyField, List.length_flatMap]

/-- Records of one width, one after the other. -/
theorem length_flatMap_of_forall {α β : Type} {l : List α} {f : α → List β} {w : Nat}
    (h : ∀ a ∈ l, (f a).length = w) : (l.flatMap f).length = l.length * w := by
  rw [List.length_flatMap, List.map_congr_left h, List.map_const', List.sum_replicate, smul_eq_mul]

theorem length_readRingPayload (s : State) : (readRingPayload s).length = 33 := by
  simp [readRingPayload, Function.comp_def]

theorem length_panelPayload (p : PanelRecord) : (panelPayload p).length = 26 := by
  unfold panelPayload
  cases p.registration <;> simp

theorem length_statusPayload (st : SlotStatus) : (statusPayload st).length = 50 := by
  simp [statusPayload]

theorem length_readPanelPayload (k : Fin 32) (s : State) : (readPanelPayload k s).length = 77 := by
  simp [readPanelPayload, length_panelPayload, length_statusPayload]

theorem length_headPayload (rs : List StrokeRecord) : (headPayload rs).length = 13 := by
  cases rs <;> simp [headPayload]

theorem length_inFlightPayload (r : Option StrokeInFlight) : (inFlightPayload r).length = 12 := by
  cases r <;> simp [inFlightPayload]

theorem length_marksPayload (ms : List Mark) : (marksPayload ms).length = 56 := by
  refine length_flatMap_of_forall (w := 7) fun i _ => ?_
  cases ms[i]? <;> simp

theorem length_searchPayload (r : Option SearchRecord) : (searchPayload r).length = 14 := by
  cases r <;> simp [searchPayload]

theorem length_readLinePayload (s : State) : (readLinePayload s).length = 164 := by
  simp [readLinePayload, length_headPayload, length_inFlightPayload, length_marksPayload, length_searchPayload]

theorem length_zonePayload (s : State) (z : Fin 4) : (zonePayload s z).length = 20 := by
  simp [zonePayload]

theorem length_recipePayload (i : Nat) (r : Recipe) : (recipePayload i r).length = 19 := by
  simp [recipePayload]

theorem length_readHeatPayload (r : Fin 8) (s : State) : (readHeatPayload r s).length = 116 := by
  have hzones : (allZones.flatMap (zonePayload s)).length = 4 * 20 :=
    length_flatMap_of_forall fun z _ => length_zonePayload s z
  simp [readHeatPayload, hzones, length_recipePayload]

theorem length_unwindPayload (u : Unwind) : (unwindPayload u).length = 9 := by
  simp [unwindPayload]

theorem length_planPayload (p : Option SplicePlan) : (planPayload p).length = 14 := by
  cases p <;> simp [planPayload]

theorem length_splicePayload (r : Option SpliceRecord) : (splicePayload r).length = 15 := by
  cases r <;> simp [splicePayload]

theorem length_seamPayload (m : Option SeamInFlight) : (seamPayload m).length = 7 := by
  cases m <;> simp [seamPayload]

theorem length_readRollsPayload (s : State) : (readRollsPayload s).length = 56 := by
  simp [readRollsPayload, length_unwindPayload, length_planPayload, length_splicePayload, length_seamPayload]

theorem length_trackPayload (s : State) (r : TrackRecord) : (trackPayload s r).length = 27 := by
  cases r <;> simp [trackPayload]

theorem length_readTrackingPayload (i : Nat) (s : State) :
    (readTrackingPayload i s).length = 9 + 27 * min 8 (s.tu.records.length - i) := by
  have hpage : (((s.tu.records.drop i).take 8).flatMap (trackPayload s)).length =
      ((s.tu.records.drop i).take 8).length * 27 := length_flatMap_of_forall fun r _ => length_trackPayload s r
  simp [readTrackingPayload, hpage, Nat.mul_comm]

theorem length_readEventsPayload (i : Nat) (s : State) : (readEventsPayload i s).length = 7 + 2 * min 8 (14 - i) := by
  rw [readEventsPayload, List.length_append, length_replyFields, length_flatMap_of_forall (w := 2) fun c _ => by simp]
  simp [Nat.mul_comm]

/-! ### The longest payloads do not see the link -/

section

variable (l : LinkInterface) (s : State)

@[simp] theorem withLink_dwellLimit : (withLink l s).dwellLimit = s.dwellLimit := rfl
@[simp] theorem withLink_zeroReasonBits : (withLink l s).zeroReasonBits = s.zeroReasonBits := rfl
@[simp] theorem withLink_bindingReasons : (withLink l s).bindingReasons = s.bindingReasons := rfl
@[simp] theorem withLink_target : (withLink l s).target = s.target := rfl
@[simp] theorem withLink_ratio : (withLink l s).ratio = s.ratio := rfl
@[simp] theorem withLink_infeedSpeed : (withLink l s).infeedSpeed = s.infeedSpeed := rfl
@[simp] theorem withLink_heatReason : (withLink l s).heatReason = s.heatReason := rfl
@[simp] theorem withLink_headerPressure : (withLink l s).headerPressure = s.headerPressure := rfl
@[simp] theorem withLink_recipe (r : Fin 8) : (withLink l s).recipe r = s.recipe r := rfl
@[simp] theorem zonePayload_withLink : zonePayload (withLink l s) = zonePayload s := rfl

theorem readLinePayload_withLink : readLinePayload (withLink l s) = readLinePayload s := by
  simp only [readLinePayload, withLink_pc, withLink_limits, withLink_ps, withLink_blade, withLink_ru, withLink_lg,
    withLink_inputs, withLink_dwellLimit, withLink_zeroReasonBits, withLink_bindingReasons, withLink_target,
    withLink_ratio, withLink_infeedSpeed, withLink_reserve]

theorem readHeatPayload_withLink (r : Fin 8) : readHeatPayload r (withLink l s) = readHeatPayload r s := by
  simp [readHeatPayload]

end

/-! ### What the owners answer (R27, R150, R128, R190) -/

theorem serveReadPanel_of_lt (k : Fin 32) (s : State) : serveReadPanel k.val s = (s, .done (readPanelPayload k s)) :=
  dif_pos k.isLt

theorem serveReadPanel_of_ge {k : Nat} (h : 32 ≤ k) (s : State) : serveReadPanel k s = (s, no .range 0) :=
  dif_neg h.not_gt

theorem serveReadHeat_of_lt (r : Fin 8) (s : State) : serveReadHeat r.val s = (s, .done (readHeatPayload r s)) :=
  dif_pos r.isLt

theorem serveReadHeat_of_ge {r : Nat} (h : 8 ≤ r) (s : State) : serveReadHeat r s = (s, no .range 1) :=
  dif_neg h.not_gt

/-- The answer of a READ-TRACKING from an index that exists: DONE-MORE while records remain beyond the page (R128). -/
def trackingAnswer (i : Nat) (s : State) : Answer :=
  if i + 8 < s.tu.records.length then .doneMore (readTrackingPayload i s) else .done (readTrackingPayload i s)

theorem serveReadTracking_of_gt {i : Nat} (h : 23 < i) (s : State) : serveReadTracking i s = (s, no .range 1) :=
  if_pos h

theorem serveReadTracking_of_le {i : Nat} (h : i ≤ 23) (s : State) :
    serveReadTracking i s = (s, trackingAnswer i s) := by
  rw [serveReadTracking, if_neg h.not_gt]
  exact (apply_ite (Prod.mk s) _ _ _).symm

/-- The answer of a READ-EVENTS from a class that exists: DONE-MORE while classes remain beyond the page (R190). -/
def eventsAnswer (i : Nat) (s : State) : Answer :=
  if i + 8 < 14 then .doneMore (readEventsPayload i s) else .done (readEventsPayload i s)

theorem serveReadEvents_of_gt {i : Nat} (h : 13 < i) (s : State) : serveReadEvents i s = (s, no .range 1) :=
  if_pos h

theorem serveReadEvents_of_le {i : Nat} (h : i ≤ 13) (s : State) : serveReadEvents i s = (s, eventsAnswer i s) := by
  rw [serveReadEvents, if_neg h.not_gt]
  exact (apply_ite (Prod.mk s) _ _ _).symm

/-! ### The commands -/

/-- A request whose owner leaves every state as it is, with an answer that does not depend on the counting of the frame,
changes nothing but the link. -/
theorem exec_read {c : Instr} {src : Source} {r : Request} {serve : State → State × Answer} {s : State}
    (a : State → Answer) (hexec : exec c s = .next (acceptRequest src r serve s)) (hserve : ∀ t, serve t = (t, a t))
    (hanswer : a (countAccepted s) = a s) : exec c s = .next (answered src r (a s) s) := by
  rw [hexec, acceptRequest_eq_answered ((hserve _).trans (congrArg _ hanswer))]

/-- Settles O19: each reading request is an `exec_read`, and the payloads have the lengths of their layouts. -/
theorem readsAnswerAndChangeNothing : Obligations.ReadsAnswerAndChangeNothing := by
  refine ⟨fun src s => ?_, fun src i s => ?_⟩
  · have hline : readLinePayload (countAccepted s) = readLinePayload s := readLinePayload_withLink _ s
    have hheat (r : Fin 8) : readHeatPayload r (countAccepted s) = readHeatPayload r s :=
      readHeatPayload_withLink _ s r
    exact ⟨exec_read (fun t => .done (readRingPayload t)) rfl (fun _ => rfl) rfl,
      exec_read (fun t => .done (readLinePayload t)) rfl (fun _ => rfl) (congrArg _ hline),
      exec_read (fun t => .done (readRollsPayload t)) rfl (fun _ => rfl) rfl,
      fun k => exec_read (fun t => .done (readPanelPayload k t)) rfl (serveReadPanel_of_lt k) rfl,
      fun r => exec_read (fun t => .done (readHeatPayload r t)) rfl (serveReadHeat_of_lt r) (congrArg _ (hheat r)),
      fun _ hk => exec_read (fun _ => no .range 0) rfl (serveReadPanel_of_ge hk) rfl,
      fun _ hr => exec_read (fun _ => no .range 1) rfl (serveReadHeat_of_ge hr) rfl,
      length_readRingPayload s, length_readRollsPayload s, fun k => length_readPanelPayload k s,
      fun r => length_readHeatPayload r s, fun _ => length_readLinePayload s⟩
  · exact ⟨fun h => exec_read (fun _ => no .range 1) rfl (serveReadTracking_of_gt h) rfl,
      fun h => exec_read (trackingAnswer i) rfl (serveReadTracking_of_le h) rfl,
      fun h => exec_read (fun _ => no .range 1) rfl (serveReadEvents_of_gt h) rfl,
      fun h => exec_read (eventsAnswer i) rfl (serveReadEvents_of_le h) rfl,
      length_readTrackingPayload i s, length_readEventsPayload i s⟩

end Sys2Proof.Machine
end

