-- ==== Sys2Proof/Proofs/Panels.lean ====
section
/-! PROOF. LOAD-PANEL, CANCEL-PANEL and RELEASE-PANEL check in order, queue the panel and free the slot
(PanelRequestsQueueAndFreeSlots). -/

namespace Sys2Proof.Machine

open Sys2Proof.Safety

-- One proof after the other: many short ones at once need more threads than the memory limit leaves room for.
set_option Elab.async false

/-! ### The fields and the records of LOAD-PANEL (R17, R18, R22) -/

/-- The range checks of LOAD-PANEL, each as the range it says (R17, R18). -/
theorem panelRanges_eq (p : PanelFields) : panelRanges p =
    [(1, decide (p.garment ≤ 65535)), (2, decide (p.first ≤ 1)), (3, decide (p.last ≤ 1)),
      (4, decide (p.kind ≤ 2)), (5, decide (1 ≤ p.pleats ∧ p.pleats ≤ 255)),
      (6, decide (200 ≤ p.f0 ∧ p.f0 ≤ 10000)), (7, decide (p.kind = 2 ∨ (100 ≤ p.d0 ∧ p.d0 ≤ 6000))),
      (8, decide (-500 ≤ p.df ∧ p.df ≤ 500)), (9, decide (p.kind = 2 ∨ (-500 ≤ p.dd ∧ p.dd ≤ 500))),
      (10, decide (p.gap ≤ 200000)), (11, decide (p.direction ≤ 1)), (12, decide (p.registered ≤ 1)),
      (13, decide (¬ p.registered = 1 ∨ p.entry ≤ 5)), (14, decide (¬ p.registered = 1 ∨ p.offset ≤ 500000)),
      (15, decide (¬ p.registered = 1 ∨ (1000 ≤ p.window ∧ p.window ≤ 1000000)))] := by
  simp only [panelRanges, within_eq, Nat.zero_le, true_and, beq_eq_decide, ← decide_not, ← Bool.decide_or,
    ← Bool.decide_and]

theorem kindOfNumber_eq (n : Nat) : kindOfNumber n = if n = 0 then .knife else if n = 1 then .box else .flat := by
  match n with
  | 0 => rfl
  | 1 => rfl
  | n + 2 => rfl

/-- The panel record LOAD-PANEL stores (R17, R18). -/
theorem panelOfFields_eq (p : PanelFields) : panelOfFields p =
    { garment := p.garment
      first := decide (p.first = 1)
      last := decide (p.last = 1)
      kind := if p.kind = 0 then .knife else if p.kind = 1 then .box else .flat
      pleats := p.pleats
      f0 := p.f0
      d0 := if p.kind = 2 then 0 else p.d0
      df := p.df
      dd := if p.kind = 2 then 0 else p.dd
      gap := p.gap
      direction := if p.direction = 1 then .right else .left
      registration := if p.registered = 1 then
          some { entry := Fin.ofNat 6 p.entry, offset := p.offset, window := p.window }
        else none } := by
  simp only [panelOfFields, kindOfNumber_eq, beq_eq_decide, decide_eq_true_eq]

/-- The status record of the panel just loaded (R22, R42). -/
theorem queuedStatus_panelOfFields (p : PanelFields) (scale : Nat) : queuedStatus (panelOfFields p) scale =
    { clearedStatus with
      state := .queued
      gapCounts := (p.gap * scale + 50000) / 100000
      panelCounts := panelCountsOf (panelOfFields p) scale
      registration := if p.registered = 1 then none else some .notRequired } := by
  unfold queuedStatus
  by_cases h : p.registered = 1 <;> simp [panelOfFields, h, countsOfHundredths, roundHalfUp]

/-- The reply of an accepted LOAD-PANEL, its counts fitting their fields (R23, R195). -/
theorem loadReply_of_fit {st : SlotStatus} (h : st.gapCounts + st.panelCounts < 16777216) : loadReply st =
    bytesOf 3 st.gapCounts ++ bytesOf 3 st.panelCounts ++ bytesOf 3 (st.gapCounts + st.panelCounts) := by
  have hfit : ∀ f ∈ [(3, st.gapCounts), (3, st.panelCounts), (3, st.gapCounts + st.panelCounts)],
      f.2 < 256 ^ f.1 := by
    simp; omega
  exact (replyFields_of_fit hfit).trans (by simp)

theorem evaluatePlanning_countAccepted (s : State) :
    evaluatePlanning (countAccepted s) = countAccepted (evaluatePlanning s) := by
  simp only [countAccepted_eq, evaluatePlanning_withLink, evaluatePlanning_frame]

/-- Loading a slot does not see the counting of the frame. -/
theorem loadSlot_countAccepted (k : Fin 32) (p : PanelRecord) (s : State) :
    loadSlot k p (countAccepted s) = countAccepted (loadSlot k p s) := by
  unfold loadSlot
  rw [apply_ite countAccepted, ← evaluatePlanning_countAccepted]
  rfl

/-! ### The outcomes of LOAD-PANEL in its order of checks (R23) -/

theorem serveLoadPanel_noGeom {slot : Nat} {p : PanelFields} {s : State} (h : s.geometry.valid = false) :
    serveLoadPanel slot p s = (s, no .noGeom 0) := by
  simp [serveLoadPanel, h, refuse]

theorem serveLoadPanel_noSlot {slot : Nat} {p : PanelFields} {s : State} (h : s.geometry.valid = true)
    (hslot : 32 ≤ slot) : serveLoadPanel slot p s = (s, no .range 0) := by
  simp [serveLoadPanel, h, hslot.not_gt, refuse]

section

variable {slot : Nat} {p : PanelFields} {s : State} (h : s.geometry.valid = true) (hslot : slot < 32)

include h hslot

theorem serveLoadPanel_taken (hstate : (s.status (Fin.ofNat 32 slot)).state ≠ .free) :
    serveLoadPanel slot p s = (s, no .slot 0) := by
  rw [ofNat_eq_mk hslot] at hstate
  simp [serveLoadPanel, h, hslot, hstate, refuse]

variable (hfree : (s.status (Fin.ofNat 32 slot)).state = .free)

include hfree

theorem serveLoadPanel_range {n : Nat} (hn : firstFailing (panelRanges p) = some n) :
    serveLoadPanel slot p s = (s, no .range n) := by
  rw [ofNat_eq_mk hslot] at hfree
  simp [serveLoadPanel, h, hslot, hfree, hn, refuse]

theorem serveLoadPanel_geometry {x : Nat × Nat} (hn : firstFailing (panelRanges p) = none)
    (hx : pleatRefusal (panelOfFields p) s.geometry.given = some x) :
    serveLoadPanel slot p s = (s, .refused .geometry [x.1, x.2]) := by
  rw [ofNat_eq_mk hslot] at hfree
  simp [serveLoadPanel, h, hslot, hfree, hn, hx]

theorem serveLoadPanel_done (hn : firstFailing (panelRanges p) = none)
    (hx : pleatRefusal (panelOfFields p) s.geometry.given = none) :
    serveLoadPanel slot p s = (refresh (loadSlot (Fin.ofNat 32 slot) (panelOfFields p) s),
      .done (loadReply (queuedStatus (panelOfFields p) s.geometry.given.s))) := by
  rw [ofNat_eq_mk hslot] at hfree ⊢
  simp [serveLoadPanel, h, hslot, hfree, hn, hx]

end

/-! ### CANCEL-PANEL and RELEASE-PANEL (R24, R26) -/

theorem serveCancelPanel_eq (slot : Nat) (s : State) : serveCancelPanel slot s =
    if 31 < slot then (s, no .range 0)
    else if (s.status (Fin.ofNat 32 slot)).state = .queued ∧
        (s.status (Fin.ofNat 32 slot)).registration ≠ some .searching then
      (refresh (freeSlot (Fin.ofNat 32 slot) s), .done [])
    else (s, no .slot 0) := by
  by_cases h : slot < 32
  · have hslot : ¬ 31 < slot := by omega
    rw [serveCancelPanel, dif_pos h, if_neg hslot, ofNat_eq_mk h]
    rfl
  · have hslot : 31 < slot := by omega
    rw [serveCancelPanel, dif_neg h, if_pos hslot]
    rfl

theorem serveReleasePanel_eq (slot : Nat) (s : State) : serveReleasePanel slot s =
    if 31 < slot then (s, no .range 0)
    else if (s.status (Fin.ofNat 32 slot)).state = .done then (refresh (freeSlot (Fin.ofNat 32 slot) s), .done [])
    else (s, no .slot 0) := by
  by_cases h : slot < 32
  · have hslot : ¬ 31 < slot := by omega
    rw [serveReleasePanel, dif_pos h, if_neg hslot, ofNat_eq_mk h]
    rfl
  · have hslot : 31 < slot := by omega
    rw [serveReleasePanel, dif_neg h, if_pos hslot]
    rfl

theorem freeSlot_eq (k : Fin 32) (s : State) : freeSlot k s = { s with
    slots := s.slots.set k.val { panel := s.panelOf k, status := clearedStatus } k.isLt } := rfl

theorem refresh_freeSlot_countAccepted (k : Fin 32) (s : State) :
    refresh (freeSlot k (countAccepted s)) = countAccepted (refresh (freeSlot k s)) :=
  refresh_countAccepted (freeSlot k s)

theorem serveCancelPanel_countAccepted (slot : Nat) (s : State) : serveCancelPanel slot (countAccepted s) =
    (countAccepted (serveCancelPanel slot s).1, (serveCancelPanel slot s).2) := by
  have status (k : Fin 32) : (countAccepted s).status k = s.status k := rfl
  simp only [serveCancelPanel_eq, refresh_freeSlot_countAccepted, status]
  repeat' split
  all_goals rfl

theorem serveReleasePanel_countAccepted (slot : Nat) (s : State) : serveReleasePanel slot (countAccepted s) =
    (countAccepted (serveReleasePanel slot s).1, (serveReleasePanel slot s).2) := by
  have status (k : Fin 32) : (countAccepted s).status k = s.status k := rfl
  simp only [serveReleasePanel_eq, refresh_freeSlot_countAccepted, status]
  repeat' split
  all_goals rfl

/-! ### The commands -/

/-- Settles O60: each outcome of the three requests is one of the equations above, carried over the counting of the
frame by `acceptRequest_eq_answered`. -/
theorem panelRequestsQueueAndFreeSlots : Obligations.PanelRequestsQueueAndFreeSlots := by
  refine ⟨fun src slot p s => ?_, fun src slot s => ?_⟩
  · intro say k g flat part checks wrong panel gaps counts status y
    have haccept {t : State} {a : Answer} (h : serveLoadPanel slot p (countAccepted s) = (countAccepted t, a)) :
        exec (.loadPanel src slot p) s = .next (say a t) := congrArg Host.Outcome.next (acceptRequest_eq_answered h)
    have hwrong : firstFailing (panelRanges p) = wrong := by
      rw [firstFailing_eq_find, panelRanges_eq]
    have hpanel : panelOfFields p = panel := panelOfFields_eq p
    have hstatus : queuedStatus panel g.s = status := by
      have hqueued := queuedStatus_panelOfFields p g.s
      rw [hpanel] at hqueued
      exact hqueued
    refine ⟨fun h => haccept (serveLoadPanel_noGeom h), fun h hslot => haccept (serveLoadPanel_noSlot h hslot),
      fun h hslot hstate => haccept (serveLoadPanel_taken (s := countAccepted s) h hslot hstate),
      fun h hslot hfree => ⟨fun n hn => ?_, fun x hx hn => ?_, fun hn hx hfit => ?_⟩⟩
    · exact haccept (serveLoadPanel_range (s := countAccepted s) h hslot hfree (hwrong.trans hn))
    · exact haccept (serveLoadPanel_geometry (s := countAccepted s) h hslot hfree (hwrong.trans hn) (hpanel ▸ hx))
    · have hloaded : loadSlot k panel s = if k = s.ps.commitPointer then evaluatePlanning y else y := by
        unfold loadSlot
        rw [hstatus]
        rfl
      have hreply : loadReply (queuedStatus panel g.s) =
          bytesOf 3 gaps ++ bytesOf 3 counts ++ bytesOf 3 (gaps + counts) := by
        rw [hstatus]
        exact loadReply_of_fit hfit
      have hdone := serveLoadPanel_done (s := countAccepted s) h hslot hfree (hwrong.trans hn) (hpanel ▸ hx)
      rw [loadSlot_countAccepted, refresh_countAccepted, hpanel] at hdone
      exact haccept (hdone.trans
        (congrArg₂ (fun t reply => (countAccepted (refresh t), Answer.done reply)) hloaded hreply))
  · intro k freed
    have hfreed : refresh (freeSlot k s) = freed := congrArg refresh (freeSlot_eq k s)
    refine ⟨congrArg Host.Outcome.next ?_, congrArg Host.Outcome.next ?_⟩
    · refine (acceptRequest_eq_answered (serveCancelPanel_countAccepted slot s)).trans ?_
      rw [serveCancelPanel_eq, hfreed]
      repeat' split
      all_goals rfl
    · refine (acceptRequest_eq_answered (serveReleasePanel_countAccepted slot s)).trans ?_
      rw [serveReleasePanel_eq, hfreed]
      repeat' split
      all_goals rfl

end Sys2Proof.Machine
end

