-- ==== Sys2Proof/Proofs/Reserve.lean ====
section
/-! PROOF. The pattern reserve is the run of QUEUED slots from the commit pointer on, beyond what is committed
(ReserveIsWorkedOut). -/

namespace Sys2Proof.Machine

open Sys2Proof.Safety

-- One proof after the other: many short ones at once need more threads than the memory limit leaves room for.
set_option Elab.async false

/-- The ring from slot k on, by distance (R16). -/
theorem ringFrom_eq_range (k : Fin 32) : ringFrom k = (List.range 32).map fun i => k + Fin.ofNat 32 i := rfl

/-- A run of `n` members with a property, at the front of a list given by index. -/
theorem takeWhile_map_range {α : Type} {f : Nat → α} {p : α → Bool} {n m : Nat} (hrun : ∀ i < n, p (f i) = true)
    (hend : n = m ∨ n < m ∧ p (f n) = false) : ((List.range m).map f).takeWhile p = (List.range n).map f := by
  have hfront : ∀ a ∈ (List.range n).map f, p a = true := by simpa using hrun
  rcases hend with rfl | ⟨hlt, hstop⟩
  · rwa [List.takeWhile_eq_self_iff]
  · obtain ⟨r, rfl⟩ := Nat.exists_eq_add_of_lt hlt
    rw [Nat.add_assoc, List.range_add, List.map_append, List.takeWhile_append_of_pos hfront, List.range_succ_eq_map]
    simp [hstop]

/-- The committed pattern ahead, no committed end counting as one at 0 (R44). -/
theorem committedAhead_eq (s : State) : s.committedAhead = s.ps.lastEnd.getD 0 - s.pc.webPosition := by
  unfold State.committedAhead
  cases s.ps.lastEnd <;> simp

/-- Settles O29: the slots that count are a run of QUEUED ones at the front of the ring. -/
theorem reserveIsWorkedOut : Obligations.ReserveIsWorkedOut := by
  intro n s ahead hqueued hend
  have hrun : (ringFrom s.ps.commitPointer).takeWhile (fun k => (s.status k).state == .queued) =
      (List.range n).map fun i => s.ps.commitPointer + Fin.ofNat 32 i := by
    rw [ringFrom_eq_range]
    exact takeWhile_map_range (fun i hi => beq_iff_eq.mpr (hqueued i hi))
      (hend.imp_right (And.imp_right beq_eq_false_iff_ne.mpr))
  have hplanned : s.reserve = s.committedAhead +
      ((List.range n).map fun i => (ahead i).gapCounts + (ahead i).panelCounts).sum := by
    rw [State.reserve, hrun, List.map_map]
    rfl
  rw [hplanned, committedAhead_eq]
  omega

end Sys2Proof.Machine
end

