-- ==== Sys2Proof/Proofs/Strokes.lean ====
section
/-! PROOF. The strokes of a panel: the accumulator in closed form, and what STROKE_GENERATE appends
(LastStrokeLiesAtPanelEnd, StrokeGenerateAppendsNextStroke). -/

namespace Sys2Proof.Machine

open Sys2Proof.Safety

-- One proof after the other: many short ones at once need more threads than the memory limit leaves room for.
set_option Elab.async false

/-! ### The fabric length of a panel (R36, R41) -/

/-- How much longer each pleat's fabric is than the one before (R36). -/
def lengthStep (p : PanelRecord) : Int :=
  match p.kind with
  | .knife => p.df + 2 * p.dd
  | .box => p.df + 4 * p.dd
  | .flat => p.df

theorem fabricLength_eq_add (p : PanelRecord) (i : Nat) : fabricLength p i = fabricLength p 0 + i * lengthStep p := by
  unfold fabricLength lengthStep faceWidth foldDepth
  cases p.kind <;> push_cast <;> ring

/-- The whole fabric length of a panel's first `n` pleats, in hundredths (R41). -/
def wholeLength (p : PanelRecord) (n : Nat) : Nat := ∑ i ∈ Finset.range n, (fabricLength p i).toNat

/-- The pleats' fabric lengths are an arithmetic progression. -/
theorem two_mul_wholeLength {p : PanelRecord} {n : Nat} (hlen : ∀ i < n, 0 ≤ fabricLength p i) (hn : 0 < n) :
    2 * wholeLength p n = n * ((fabricLength p 0).toNat + (fabricLength p (n - 1)).toNat) := by
  have hprogression (m : Nat) : 2 * ∑ i ∈ Finset.range m, fabricLength p i =
      m * (2 * fabricLength p 0 + (m - 1) * lengthStep p) := by
    induction m with
    | zero => simp
    | succ m ih =>
      rw [Finset.sum_range_succ, mul_add, ih, fabricLength_eq_add p m]
      push_cast
      ring
  have hcast : (wholeLength p n : Int) = ∑ i ∈ Finset.range n, fabricLength p i := by
    rw [wholeLength, Nat.cast_sum]
    exact Finset.sum_congr rfl fun i hi => Int.toNat_of_nonneg (hlen i (Finset.mem_range.mp hi))
  zify
  rw [hcast, hprogression, Int.toNat_of_nonneg (hlen 0 hn), Int.toNat_of_nonneg (hlen (n - 1) (by omega)),
    fabricLength_eq_add p (n - 1), Nat.cast_sub hn]
  push_cast
  ring

/-- The panel counts are the whole fabric length in web counts, rounded half up (R41). -/
theorem panelCountsOf_eq {p : PanelRecord} (hlen : ∀ i < p.pleats, 0 ≤ fabricLength p i) (hp : 0 < p.pleats)
    (scale : Nat) : panelCountsOf p scale = (wholeLength p p.pleats * scale + 50000) / 100000 := by
  rw [panelCountsOf, ← two_mul_wholeLength hlen hp, Nat.mul_div_cancel_left _ two_pos]

/-! ### The generator after some strokes of its panel (R39, R40) -/

/-- The generator after `i` strokes of the panel it has taken up (R51). -/
abbrev generatorAt (p : PanelRecord) (scale : Nat) (k : Fin 32) (start i : Nat) : Generator :=
  (advanced p scale)^[i] (takenUp k start)

theorem generatorAt_zero (p : PanelRecord) (scale : Nat) (k : Fin 32) (start : Nat) :
    generatorAt p scale k start 0 = takenUp k start := rfl

theorem generatorAt_succ (p : PanelRecord) (scale : Nat) (k : Fin 32) (start i : Nat) :
    generatorAt p scale k start (i + 1) = advanced p scale (generatorAt p scale k start i) :=
  Function.iterate_succ_apply' _ _ _

theorem strokesFrom_eq_map (p : PanelRecord) (scale n : Nat) (g : Generator) :
    strokesFrom p scale n g = (List.range n).map fun i => nextStroke p scale ((advanced p scale)^[i] g) := by
  induction n generalizing g with
  | zero => rfl
  | succ n ih => simp [strokesFrom, ih, List.range_succ_eq_map, Function.comp_def]

/-- A BOX panel has two strokes a pleat, a KNIFE panel one (R39). -/
theorem strokeCount_eq {p : PanelRecord} (hkind : p.kind ≠ .flat) :
    strokeCount p = if p.kind = .box then 2 * p.pleats else p.pleats := by
  unfold strokeCount
  cases h : p.kind <;> simp_all

/-- The pleat and the half of stroke `i` (R39). -/
theorem generatorAt_stroke (p : PanelRecord) (scale : Nat) (k : Fin 32) (start i : Nat) :
    (generatorAt p scale k start i).pleat = (if p.kind = .box then i / 2 else i) ∧
    (generatorAt p scale k start i).secondHalf = decide (p.kind = .box ∧ i % 2 = 1) := by
  induction i with
  | zero => simp [generatorAt_zero]
  | succ i ih =>
    obtain ⟨hpleat, hhalf⟩ := ih
    rw [generatorAt_succ]
    by_cases hbox : p.kind = .box
    · rcases Nat.mod_two_eq_zero_or_one i with hi | hi <;>
        simp [advanced, hpleat, hhalf, hbox, hi, Nat.succ_div, Nat.succ_mod_two_eq_one_iff,
          Nat.dvd_iff_mod_eq_zero]
    · simp [advanced, hpleat, hhalf, hbox]

/-- Stroke `i` is the panel's last exactly where its count says so (R39). -/
theorem lastStroke_generatorAt {p : PanelRecord} (hkind : p.kind ≠ .flat) (scale : Nat) (k : Fin 32) (start i : Nat) :
    lastStroke p (generatorAt p scale k start i) = decide (i + 1 = strokeCount p) := by
  obtain ⟨hpleat, hhalf⟩ := generatorAt_stroke p scale k start i
  rw [strokeCount_eq hkind, lastStroke, hpleat, hhalf]
  cases h : p.kind with
  | knife => simp [beq_eq_decide]
  | box => simp [beq_eq_decide, ← Bool.decide_and]; omega
  | flat => exact absurd h hkind

/-- The fabric gathered by the first `i` strokes, in hundredths (R39). -/
def gathered (p : PanelRecord) : Nat → Nat
  | 0 => 0
  | i + 1 => gathered p i + strokeLength p (if p.kind = .box then i / 2 else i) (decide (p.kind = .box ∧ i % 2 = 1))

/-- The two strokes of a BOX pleat gather its fabric between them, the one of a KNIFE pleat all of it (R39). -/
theorem gathered_pleats {p : PanelRecord} (n : Nat) :
    gathered p (if p.kind = .box then 2 * n else n) = wholeLength p n := by
  induction n with
  | zero => simp [gathered, wholeLength]
  | succ n ih =>
    rw [wholeLength, Finset.sum_range_succ, ← wholeLength, ← ih]
    cases h : p.kind with
    | knife => simp [gathered, strokeLength, h]
    | flat => simp [gathered, strokeLength, h]
    | box =>
      have hhalf : (2 * n + 1) / 2 = n := by omega
      simp [gathered, strokeLength, h, Nat.mul_succ, hhalf]
      omega

/-- The accumulator drops nothing: position and residue together are the start and the fabric gathered (R40). -/
theorem generatorAt_position (p : PanelRecord) (scale : Nat) (k : Fin 32) (start i : Nat) :
    100000 * (generatorAt p scale k start i).position + (generatorAt p scale k start i).residue =
      100000 * start + (gathered p i * scale + 50000) ∧ (generatorAt p scale k start i).residue < 100000 := by
  induction i with
  | zero => simp [generatorAt_zero, gathered]
  | succ i ih =>
    obtain ⟨hsum, -⟩ := ih
    obtain ⟨hpleat, hhalf⟩ := generatorAt_stroke p scale k start i
    rw [generatorAt_succ]
    simp only [advanced, accumulated, hpleat, hhalf, gathered, Nat.add_mul]
    omega

/-- Settles O33: the position after the last stroke is that of the whole fabric length, by `generatorAt_position`. -/
theorem lastStrokeLiesAtPanelEnd : Obligations.LastStrokeLiesAtPanelEnd := by
  intro p scale start k hkind hpleats hlen strokes
  have hcount : 0 < strokeCount p := by
    rw [strokeCount_eq hkind]
    split <;> omega
  obtain ⟨n, hn⟩ := Nat.exists_eq_succ_of_ne_zero hcount.ne'
  have hstrokes : strokes = (List.range n).map (fun i => nextStroke p scale (generatorAt p scale k start i)) ++
      [nextStroke p scale (generatorAt p scale k start n)] := by
    simp only [strokes, strokesFrom_eq_map, hn, List.range_succ, List.map_append, List.map_singleton]
  have hlast (i : Nat) : (nextStroke p scale (generatorAt p scale k start i)).last = decide (i = n) := by
    simp [nextStroke, lastStroke_generatorAt hkind, hn]
  have hposition : (nextStroke p scale (generatorAt p scale k start n)).position =
      start + panelCountsOf p scale := by
    obtain ⟨hsum, hresidue⟩ := generatorAt_position p scale k start (strokeCount p)
    have hwhole : gathered p (strokeCount p) = wholeLength p p.pleats := by
      rw [strokeCount_eq hkind, gathered_pleats]
    have hnext : (nextStroke p scale (generatorAt p scale k start n)).position =
        (generatorAt p scale k start (strokeCount p)).position := by
      rw [hn, generatorAt_succ]
      rfl
    rw [hnext, panelCountsOf_eq hlen hpleats, ← hwhole]
    omega
  rw [hstrokes, hn]
  refine ⟨?_, by simp [hposition]⟩
  simp only [List.map_append, List.map_map, List.map_singleton, Function.comp_def, hlast, decide_true]
  congr 1
  refine List.eq_replicate_iff.mpr ⟨by simp, fun b hb => ?_⟩
  obtain ⟨i, hi, rfl⟩ := List.mem_map.mp hb
  simpa using (List.mem_range.mp hi).ne

/-! ### The next panel the generator takes up (R51) -/

/-- The first KNIFE or BOX panel from slot k on up to the commit pointer, where there are slots between (R51). -/
theorem takeUp_eq_find {n : Nat} {k : Fin 32} {s : State} (hk : k ≠ s.ps.commitPointer)
    (hn : (s.ps.commitPointer - k).val ≤ n) : takeUp n k s =
    (((List.range (s.ps.commitPointer - k).val).map fun i => k + Fin.ofNat 32 i).find?
      fun j => decide ((s.panelOf j).kind ≠ .flat)).map fun j => takenUp j ((s.status j).start.getD 0) := by
  induction n generalizing k with
  | zero => omega
  | succ n ih =>
    have hlater : (s.ps.commitPointer - k).val = (s.ps.commitPointer - (k + 1)).val + 1 := by omega
    have hshift (i : Nat) : k + Fin.ofNat 32 (i + 1) = k + 1 + Fin.ofNat 32 i := by
      ext
      simp [Fin.val_add, Fin.ofNat]
      omega
    rw [hlater, List.range_succ_eq_map, List.map_cons, List.map_map, List.find?_cons]
    simp only [Function.comp_def, hshift, takeUp]
    have hzero : k + Fin.ofNat 32 0 = k := add_zero k
    rw [hzero]
    by_cases hflat : (s.panelOf k).kind = .flat
    · simp only [hflat, if_true, ne_eq, not_true, decide_false]
      split
      · next hend => simp [hend]
      · next hend => exact ih hend (by omega)
    · simp [hflat]

/-- After a panel's last stroke the generator takes up the next KNIFE or BOX panel committed, or is idle (R51). -/
theorem generatorAfter_of_last {g : Generator} {s : State} (h : lastStroke (s.panelOf g.slot) g = true) :
    generatorAfter g s =
    (((List.range (s.ps.commitPointer - (g.slot + 1)).val).map fun i => g.slot + 1 + Fin.ofNat 32 i).find?
      fun j => decide ((s.panelOf j).kind ≠ .flat)).map fun j => takenUp j ((s.status j).start.getD 0) := by
  rw [generatorAfter, if_pos h]
  split
  · next hend => simp [hend]
  · next hend => exact takeUp_eq_find hend (by omega)

/-! ### The stroke appended (R49, R52) -/

theorem appendStroke_of_idle_or_full {s : State} (h : s.ps.generator = none ∨ 64 ≤ s.ps.strokes.length) :
    appendStroke s = s := by
  unfold appendStroke
  split
  · rfl
  · next g hg => rw [if_neg (by simpa [hg, strokeCapacity] using h)]

theorem appendStroke_of_room {s : State} {g : Generator} (hg : s.ps.generator = some g)
    (hroom : s.ps.strokes.length < 64) : appendStroke s = { s with ps := { s.ps with
      strokes := s.ps.strokes ++ [nextStroke (s.panelOf g.slot) s.geometry.given.s g]
      generator := generatorAfter g s } } := by
  simp only [appendStroke, hg]
  exact if_pos hroom

theorem strokeLength_eq (p : PanelRecord) (i : Nat) (secondHalf : Bool) : strokeLength p i secondHalf =
    if p.kind = .box then
      (if secondHalf then (fabricLength p i).toNat - (fabricLength p i).toNat / 2 else (fabricLength p i).toNat / 2)
    else (fabricLength p i).toNat := by
  unfold strokeLength
  cases p.kind <;> cases secondHalf <;> rfl

theorem lastStroke_eq (p : PanelRecord) (g : Generator) :
    lastStroke p g = ((g.pleat + 1 == p.pleats) && (p.kind != .box || g.secondHalf)) := by
  unfold lastStroke
  cases p.kind <;> simp [Bool.and_comm]

/-- Settles O32: `appendStroke` in its two cases, with the generator of `generatorAfter_of_last` after a last stroke. -/
theorem strokeGenerateAppendsNextStroke : Obligations.StrokeGenerateAppendsNextStroke := by
  intro s
  refine ⟨fun h => congrArg (Host.Outcome.next ∘ refresh) (appendStroke_of_idle_or_full h), ?_⟩
  intro g hg hroom p l f stroke x last later
  have hx : accumulated p s.geometry.given.s g = x := by
    rw [accumulated, strokeLength_eq]
  have hlast : lastStroke p g = last := lastStroke_eq p g
  have hnext : nextStroke p s.geometry.given.s g =
      { position := g.position + x / 100000
        direction := if p.kind = .box ∧ g.secondHalf = true then opposite p.direction else p.direction
        slot := g.slot
        pleat := g.pleat
        part := if p.kind = .box then (if g.secondHalf then .secondHalf else .firstHalf) else .whole
        last := last
        q := (1000 * l + f / 2) / f } := by
    rw [nextStroke, hx, hlast]
    rfl
  have hafter : generatorAfter g s = if last then
        (later.find? fun k => decide ((s.panelOf k).kind ≠ .flat)).map fun k => takenUp k ((s.status k).start.getD 0)
      else some
        { slot := g.slot
          pleat := if p.kind = .box ∧ g.secondHalf = false then g.pleat else g.pleat + 1
          secondHalf := decide (p.kind = .box) && !g.secondHalf
          residue := x % 100000
          position := g.position + x / 100000 } := by
    by_cases h : lastStroke p g = true
    · rw [generatorAfter_of_last h, ← hlast, if_pos h]
    · rw [generatorAfter, if_neg h, ← hlast, if_neg h, advanced, ← hx]
  change Host.Outcome.next (refresh (appendStroke s)) = _
  rw [appendStroke_of_room hg hroom, hafter, hnext]

end Sys2Proof.Machine
end

