-- ==== Sys2Proof/Proofs/SlotKept.lean ====
section
/-! PROOF. What marks, switches and retirements leave of a slot that has no record of its own, and the opening of its
PANEL record (R29, R67, R117, R119). -/

namespace Sys2Proof.Machine

open Sys2Proof.Safety

-- One proof after the other: many short ones at once need more threads than the memory limit leaves room for.
set_option Elab.async false

/-! ### Quality marks and nothing else -/

/-- From `s` to `t` slot k gains quality marks and nothing else: UNDER-SET, and OVER-DWELL only where a PANEL record of
`s` names it (R29, R121). -/
structure SlotKept (k : Fin 32) (s t : State) : Prop where
  panel : t.panelOf k = s.panelOf k
  status : t.status k =
    { s.status k with underSet := (t.status k).underSet, overDwell := (t.status k).overDwell }
  dwell : (∀ x ∈ s.tu.records, x.slot? ≠ some k) → (t.status k).overDwell = (s.status k).overDwell

/-- Slot k gains quality marks and nothing else, and the tracking queue stays. -/
structure MarksOnly (k : Fin 32) (s t : State) : Prop extends SlotKept k s t where
  tu : t.tu = s.tu

section

variable {k : Fin 32} {s t u : State}

theorem MarksOnly.of_slots (hslots : t.slots = s.slots) (htu : t.tu = s.tu) : MarksOnly k s t := by
  have hslot : t.slot k = s.slot k := by simp only [State.slot, hslots]
  have hstatus : t.status k = s.status k := congrArg Slot.status hslot
  exact ⟨⟨congrArg Slot.panel hslot, by rw [hstatus], fun _ => by rw [hstatus]⟩, htu⟩

theorem MarksOnly.refl (k : Fin 32) (s : State) : MarksOnly k s s := .of_slots rfl rfl

theorem MarksOnly.trans (h₁ : MarksOnly k s t) (h₂ : MarksOnly k t u) : MarksOnly k s u where
  panel := h₂.panel.trans h₁.panel
  status := by
    have hstatus := h₂.status
    rw [h₁.status] at hstatus
    exact hstatus
  dwell hnamed := (h₂.dwell (h₁.tu ▸ hnamed)).trans (h₁.dwell hnamed)
  tu := h₂.tu.trans h₁.tu

theorem MarksOnly.foldl {α : Type} {op : State → α → State} {l : List α}
    (hop : ∀ t, t.tu = s.tu → ∀ a ∈ l, MarksOnly k t (op t a)) : MarksOnly k s (l.foldl op s) := by
  induction l generalizing s with
  | nil => exact .refl k s
  | cons a l ih =>
    have first := hop s rfl a List.mem_cons_self
    exact first.trans (ih fun t ht b hb => hop t (ht.trans first.tu) b (List.mem_cons_of_mem a hb))

/-! ### Marks -/

theorem aim_status_other {j : Fin 32} (h : k ≠ j) (mark : SlotStatus → SlotStatus) (s : State) :
    (aim mark j s).status k = s.status k := by
  unfold aim
  split <;> simp [status_modifyStatus_other h]

theorem aim_panelOf (mark : SlotStatus → SlotStatus) (j : Fin 32) (s : State) :
    (aim mark j s).panelOf k = s.panelOf k := by
  unfold aim
  split <;> simp

theorem aimUnderSet_marksOnly (k : Fin 32) (z : Fin 4) (j : Fin 32) (s : State) :
    MarksOnly k s (aimUnderSet z j s) where
  panel := aimUnderSet_panelOf z j k s
  status := by
    rw [aimUnderSet_status]
    split <;> rfl
  dwell _ := by
    rw [aimUnderSet_status]
    split <;> rfl
  tu := by simp

theorem aimOverDwell_status_same (k : Fin 32) (s : State) : (aimOverDwell k s).status k =
    { s.status k with overDwell := ((aimOverDwell k s).status k).overDwell } := by
  unfold aimOverDwell aim
  split <;> simp

theorem aimOverDwell_marksOnly (k : Fin 32) {j : Fin 32} {s : State} (h : ∃ x ∈ s.tu.records, x.slot? = some j) :
    MarksOnly k s (aimOverDwell j s) := by
  have htu : (aimOverDwell j s).tu = s.tu := by simp
  by_cases hk : k = j
  · subst hk
    refine ⟨⟨aim_panelOf _ k s, ?_, fun hnamed => ?_⟩, htu⟩
    · rw [aimOverDwell_status_same]
    · obtain ⟨x, hx, hslot⟩ := h
      exact absurd hslot (hnamed x hx)
  · have hstatus : (aimOverDwell j s).status k = s.status k := aim_status_other hk _ s
    exact ⟨⟨aim_panelOf _ j s, by rw [hstatus], fun _ => by rw [hstatus]⟩, htu⟩

theorem markZonePanels_marksOnly (k : Fin 32) (z : Fin 4) (s : State) : MarksOnly k s (markZonePanels z s) :=
  .foldl fun t _ j _ => aimUnderSet_marksOnly k z j t

theorem markChamberPanels_marksOnly (k : Fin 32) (s : State) : MarksOnly k s (markChamberPanels s) := by
  refine .foldl fun t ht j hj => aimOverDwell_marksOnly k ?_
  obtain ⟨x, hx, hslot⟩ := List.mem_filterMap.mp hj
  rw [ht]
  refine ⟨x, hx, ?_⟩
  split at hslot
  · exact hslot
  · cases hslot

/-! ### Zones and the stop timer -/

theorem leaveIfInBand_marksOnly (k : Fin 32) (before : ZoneState) (z : Fin 4) (s : State) :
    MarksOnly k s (leaveIfInBand before z s) := by
  unfold leaveIfInBand
  split
  · exact (markZonePanels_marksOnly k z s).trans (.of_slots rfl rfl)
  · exact .refl k s

theorem modifyZone_marksOnly (k : Fin 32) (z : Fin 4) (f : Zone → Zone) (s : State) :
    MarksOnly k s (modifyZone z f s) := .of_slots rfl rfl

theorem standZone_marksOnly (k : Fin 32) (s : State) (z : Fin 4) : MarksOnly k s (standZone s z) := by
  unfold standZone
  split
  case h_4 | h_5 | h_6 => exact .refl k s
  all_goals exact (modifyZone_marksOnly k z _ s).trans (leaveIfInBand_marksOnly k _ z _)

theorem fireStopTimer_marksOnly (k : Fin 32) (s : State) : MarksOnly k s (fireStopTimer s) := by
  have hfired : MarksOnly k s { s with heat := { s.heat with stopFired := true } } := .of_slots rfl rfl
  have hstood := hfired.trans (.foldl (l := allZones) fun t _ z _ => standZone_marksOnly k t z)
  have hmarked := hstood.trans (markChamberPanels_marksOnly k _)
  exact hmarked.trans (.of_slots (by simp [fireStopTimer]) (by simp [fireStopTimer]))

theorem checkStopTimer_marksOnly (k : Fin 32) (s : State) : MarksOnly k s (checkStopTimer s) := by
  have hrest : MarksOnly k s (restStopTimer s) := .of_slots (by simp) (by simp)
  unfold checkStopTimer
  split
  · exact hrest.trans (fireStopTimer_marksOnly k _)
  · exact hrest

theorem switchZone_marksOnly (k : Fin 32) (z : Fin 4) (r : Fin 8) (s : State) : MarksOnly k s (switchZone z r s) := by
  unfold switchZone switchRecord
  split
  · exact .refl k s
  · have hclamp (t : State) : MarksOnly k t (clampReference t) := .of_slots (by simp) (by simp)
    exact (((modifyZone_marksOnly k z _ s).trans (leaveIfInBand_marksOnly k _ z _)).trans (hclamp _)).trans
      (checkStopTimer_marksOnly k _)

theorem switchFor_marksOnly (k : Fin 32) (x : TrackRecord) (zs : List (Fin 4)) (s : State) :
    MarksOnly k s (switchFor x zs s) := by
  cases x with
  | panel j head tail => exact .refl k s
  | seam b r switched => exact .foldl fun t _ z _ => switchZone_marksOnly k z r t

/-! ### Room in the tracking queue (R119) -/

theorem retireSlot_marksOnly {j : Fin 32} (h : k ≠ j) (s : State) : MarksOnly k s (retireSlot j s) := by
  have hretired := retireSlot_retired j s
  have hstatus : (retireSlot j s).status k = s.status k := by simp [hretired.status, h]
  exact ⟨⟨hretired.panel k, by rw [hstatus], fun _ => by rw [hstatus]⟩, by simp⟩

/-- A record forced out does no more than mark a slot it does not name (R119). -/
theorem forceOut_marksOnly {x : TrackRecord} (h : x.slot? ≠ some k) (s : State) : MarksOnly k s (forceOut x s) := by
  cases x with
  | seam b r switched => exact switchFor_marksOnly k (.seam b r switched) _ s
  | panel j head tail =>
    have hother : k ≠ j := fun hk => h (congrArg some hk.symm)
    exact (MarksOnly.foldl fun t _ z _ => aimUnderSet_marksOnly k z j t).trans (retireSlot_marksOnly hother _)

theorem makeRoom_of_room (h : s.tu.records.length < trackCapacity) : makeRoom s = s := by
  unfold makeRoom
  split
  · rfl
  · next hrecords => rw [if_neg (hrecords ▸ h.not_ge)]

theorem makeRoom_of_full {oldest : TrackRecord} {rest : List TrackRecord} (h : s.tu.records = oldest :: rest)
    (hfull : trackCapacity ≤ s.tu.records.length) : makeRoom s = { forceOut oldest s with
      tu := { records := rest, forced := countUp 255 s.tu.forced } } := by
  have htu : (forceOut oldest s).tu = s.tu := by simp
  rw [h] at hfull
  simp only [makeRoom, h, if_pos hfull, htu]

/-- A full queue has an oldest record. -/
theorem exists_oldest_of_full (h : trackCapacity ≤ s.tu.records.length) :
    ∃ oldest rest, s.tu.records = oldest :: rest :=
  List.exists_cons_of_ne_nil (List.ne_nil_of_length_pos (Nat.lt_of_lt_of_le (by decide) h))

theorem makeRoom_records (s : State) :
    (makeRoom s).tu.records = s.tu.records ∨ (makeRoom s).tu.records = s.tu.records.tail := by
  rcases Nat.lt_or_ge s.tu.records.length trackCapacity with hroom | hfull
  · exact .inl (by rw [makeRoom_of_room hroom])
  · obtain ⟨oldest, rest, hrecords⟩ := exists_oldest_of_full hfull
    exact .inr (by rw [makeRoom_of_full hrecords hfull, hrecords, List.tail_cons])

theorem makeRoom_slotKept (h : Spared k s) : SlotKept k s (makeRoom s) := by
  rcases Nat.lt_or_ge s.tu.records.length trackCapacity with hroom | hfull
  · rw [makeRoom_of_room hroom]
    exact (MarksOnly.refl k s).toSlotKept
  · obtain ⟨oldest, rest, hrecords⟩ := exists_oldest_of_full hfull
    have hspared : oldest.slot? ≠ some k := by simpa [hrecords] using h.resolve_left hfull.not_gt
    obtain ⟨hpanel, hstatus, hdwell⟩ := (forceOut_marksOnly hspared s).toSlotKept
    rw [makeRoom_of_full hrecords hfull]
    exact ⟨hpanel, hstatus, hdwell⟩

/-! ### The opening of a PANEL record (R67, R117) -/

/-- TU's record of slot k at its opening, behind the records `rs` (R117). -/
def openedRecord (k : Fin 32) (belt : Nat) (rs : List TrackRecord) : TrackRecord :=
  .panel k (max belt (queueFloor rs)) none

theorem openRecord_tested (k : Fin 32) (s : State) : ∃ marks, EntryTested marks
    (setRecords ((makeRoom s).tu.records ++ [openedRecord k (makeRoom s).pc.beltPosition (makeRoom s).tu.records])
      (makeRoom s)) (openRecord k s) :=
  ⟨_, entryTests_tested k _ _⟩

theorem openRecord_records (k : Fin 32) (s : State) : (openRecord k s).tu.records =
    (makeRoom s).tu.records ++ [openedRecord k s.pc.beltPosition (makeRoom s).tu.records] := by
  obtain ⟨marks, htested⟩ := openRecord_tested k s
  rw [htested.rest]
  simp [setRecords]

/-- The newest record is slot k's, open, at the belt position or the floor of the queue it joins (R117). -/
theorem openRecord_newest (k : Fin 32) (s : State) :
    ∃ head ∈ [max s.pc.beltPosition (queueFloor s.tu.records), max s.pc.beltPosition (queueFloor s.tu.records.tail)],
      (openRecord k s).tu.records.getLast? = some (.panel k head none) := by
  rw [openRecord_records, List.getLast?_concat]
  refine ⟨_, ?_, rfl⟩
  rcases makeRoom_records s with h | h <;> simp [h]

theorem openRecord_slotKept (h : Spared k s) : SlotKept k s (openRecord k s) := by
  have hroom := makeRoom_slotKept h
  obtain ⟨marks, htested⟩ := openRecord_tested k s
  have hstatus : (openRecord k s).status k =
    { (makeRoom s).status k with underSet := ((openRecord k s).status k).underSet } := htested.status k
  have hdwell : ((openRecord k s).status k).overDwell = ((makeRoom s).status k).overDwell := by rw [hstatus]
  refine ⟨(htested.panel k).trans hroom.panel, ?_, fun hnamed => hdwell.trans (hroom.dwell hnamed)⟩
  rw [hroom.status] at hstatus
  rw [hdwell]
  exact hstatus

end

end Sys2Proof.Machine
end

