-- ==== Sys2Proof/Proofs/Commits.lean ====
section
/-! PROOF. A commit: the garment check, the panel placed, and its start reached or not (CommitFixesPanelWhenReady). -/

namespace Sys2Proof.Machine

open Sys2Proof.Safety

-- One proof after the other: many short ones at once need more threads than the memory limit leaves room for.
set_option Elab.async false

/-! ### The garment check (R32) -/

theorem garmentCheck_eq (p : PanelRecord) (opened : Option Nat) : garmentCheck p opened =
    (if p.first then opened.isSome else opened != some p.garment, if p.last then none else some p.garment) := by
  unfold garmentCheck
  cases p.first <;> cases opened <;> rfl

/-- GARMENT-BREAK as the check finds it (R32). -/
def garmentBreaks (k : Fin 32) (s : State) : Bool :=
  if (s.panelOf k).first then s.ps.openGarment.isSome else s.ps.openGarment != some (s.panelOf k).garment

/-- The open garment once the panel of slot k is checked (R32). -/
def garmentAfter (k : Fin 32) (s : State) : Option Nat :=
  if (s.panelOf k).last then none else some (s.panelOf k).garment

theorem checkGarment_eq (k : Fin 32) (s : State) : checkGarment k s =
    modifyStatus k (fun st => { st with garmentBreak := garmentBreaks k s })
      { s with ps := { s.ps with openGarment := garmentAfter k s } } := by
  rw [checkGarment, garmentCheck_eq]
  rfl

theorem checkGarment_ps (k : Fin 32) (s : State) :
    (checkGarment k s).ps = { s.ps with openGarment := garmentAfter k s } := by
  rw [checkGarment_eq, modifyStatus_ps]

theorem checkGarment_panelOf (k j : Fin 32) (s : State) : (checkGarment k s).panelOf j = s.panelOf j := by
  rw [checkGarment_eq, panelOf_modifyStatus]
  rfl

theorem checkGarment_status (k : Fin 32) (s : State) :
    (checkGarment k s).status k = { s.status k with garmentBreak := garmentBreaks k s } := by
  rw [checkGarment_eq, status_modifyStatus_same]
  rfl

theorem checkGarment_slot_other {j k : Fin 32} (h : j ≠ k) (s : State) : (checkGarment k s).slot j = s.slot j := by
  rw [checkGarment_eq, modifyStatus, slot_setSlot_other h]
  rfl

/-! ### The panel placed (R46, R51) -/

/-- The status record of a slot committed from `start` (R46). -/
def placedStatus (start : Nat) (reg : Registered) (st : SlotStatus) : SlotStatus :=
  { st with
    state := .committed, start := some start, endPos := some (start + st.panelCounts), registration := some reg }

/-- A slot just committed is the only one from itself up to the commit pointer (R51). -/
theorem takeUp_of_newest {k : Fin 32} {s : State} (h : s.ps.commitPointer = k + 1) : takeUp 32 k s =
    if (s.panelOf k).kind = .flat then none else some (takenUp k ((s.status k).start.getD 0)) := by
  have hone : (s.ps.commitPointer - k).val = 1 := by omega
  rw [takeUp_eq_find (by omega) (by omega), hone]
  by_cases hflat : (s.panelOf k).kind = .flat <;> simp [hflat, List.range_succ]

theorem placePanel_ps (k : Fin 32) (start : Nat) (reg : Registered) (s : State) : (placePanel k start reg s).ps =
    { s.ps with
      commitPointer := k + 1
      lastEnd := some (start + (s.status k).panelCounts)
      search := none
      generator := if s.ps.generator.isSome then s.ps.generator
        else if (s.panelOf k).kind = .flat then none else some (takenUp k start) } := by
  have hpanel (q : Sequencer) (f : SlotStatus → SlotStatus) :
      ({ modifyStatus k f s with ps := q } : State).panelOf k = s.panelOf k := panelOf_modifyStatus k k f s
  have hstatus (q : Sequencer) (f : SlotStatus → SlotStatus) :
      ({ modifyStatus k f s with ps := q } : State).status k = f (s.status k) := status_modifyStatus_same k f s
  rw [placePanel]
  dsimp only
  rw [takeUp_of_newest rfl, hpanel, hstatus]
  cases hg : s.ps.generator <;> simp [hg]

theorem placePanel_eq (k : Fin 32) (start : Nat) (reg : Registered) (s : State) : placePanel k start reg s =
    { modifyStatus k (placedStatus start reg) s with ps := (placePanel k start reg s).ps } := rfl

theorem placePanel_panelOf (k : Fin 32) (start : Nat) (reg : Registered) (s : State) :
    (placePanel k start reg s).panelOf k = s.panelOf k := by
  rw [placePanel_eq]
  exact panelOf_modifyStatus k k _ s

theorem placePanel_status (k : Fin 32) (start : Nat) (reg : Registered) (s : State) :
    (placePanel k start reg s).status k = placedStatus start reg (s.status k) := by
  rw [placePanel_eq]
  exact status_modifyStatus_same k _ s

theorem placePanel_slot_other {j k : Fin 32} (h : j ≠ k) (start : Nat) (reg : Registered) (s : State) :
    (placePanel k start reg s).slot j = s.slot j := by
  rw [placePanel_eq]
  exact slot_setSlot_other h _ s

/-! ### The end of a commit (R46, R55, R67, R161) -/

/-- Slot k placed, with STARVE tested at the new reserve (R46, R55). -/
def placed (k : Fin 32) (start : Nat) (reg : Registered) (s : State) : State :=
  starveTest (placePanel k start reg s)

section

variable {k : Fin 32} {start : Nat} {reg : Registered} {s : State}

theorem placed_pc : (placed k start reg s).pc = s.pc := by simp [placed]

theorem placed_tu : (placed k start reg s).tu = s.tu := by simp [placed]

theorem finishCommit_eq : finishCommit k start reg s =
    evaluatePlanning (if start ≤ s.pc.webPosition then toActive k (placed k start reg s)
      else placed k start reg s) := by
  have hpc : (starveTest (placePanel k start reg s)).pc = s.pc := by simp
  rw [finishCommit, hpc]
  rfl

theorem finishCommit_of_ahead (h : s.pc.webPosition < start) :
    finishCommit k start reg s = evaluatePlanning (placed k start reg s) := by
  rw [finishCommit_eq, if_neg h.not_ge]

theorem finishCommit_of_reached (h : start ≤ s.pc.webPosition) :
    finishCommit k start reg s = evaluatePlanning (toActive k (placed k start reg s)) := by
  rw [finishCommit_eq, if_pos h]

theorem evaluatePlanning_slot (j : Fin 32) (s : State) : (evaluatePlanning s).slot j = s.slot j := by
  simp only [State.slot, evaluatePlanning_frame]

theorem placed_slot (j : Fin 32) : (placed k start reg s).slot j = (placePanel k start reg s).slot j := by
  simp only [placed, State.slot, starveTest_frame]

theorem finishCommit_ps : (finishCommit k start reg s).ps = (placePanel k start reg s).ps := by
  rw [finishCommit_eq]
  split <;> simp [toActive, placed]

/-- A start not yet reached leaves the tracking queue and the slots as the placing has them (R20). -/
theorem finishCommit_ahead (h : s.pc.webPosition < start) : (finishCommit k start reg s).tu = s.tu ∧
    ∀ j, (finishCommit k start reg s).slot j = (placePanel k start reg s).slot j := by
  rw [finishCommit_of_ahead h]
  exact ⟨by simp [placed_tu], fun j => (evaluatePlanning_slot j _).trans (placed_slot j)⟩

/-- The status record of the slot once the commit is over, the start reached or not, but for its quality marks. -/
def committedStatus (start : Nat) (reg : Registered) (s : State) (st : SlotStatus) : SlotStatus :=
  { placedStatus start reg st with
    state := if start ≤ s.pc.webPosition then .active else .committed
    beltHead := if start ≤ s.pc.webPosition then some s.pc.beltPosition else st.beltHead }

/-- A slot whose start is reached as it is committed becomes ACTIVE, and no more than marked by room made for its record
(R20, R67). -/
theorem toActive_slotKept (h : Spared k s) : SlotKept k
    (modifyStatus k (fun st => { st with state := .active, beltHead := some s.pc.beltPosition }) s) (toActive k s) :=
  openRecord_slotKept h

theorem finishCommit_slot (h : Spared k s) :
    (finishCommit k start reg s).panelOf k = s.panelOf k ∧
    (finishCommit k start reg s).status k = { committedStatus start reg s (s.status k) with
      underSet := ((finishCommit k start reg s).status k).underSet
      overDwell := ((finishCommit k start reg s).status k).overDwell } ∧
    ((∀ x ∈ s.tu.records, x.slot? ≠ some k) →
      ((finishCommit k start reg s).status k).overDwell = (s.status k).overDwell) := by
  have hpanel : (placed k start reg s).panelOf k = s.panelOf k :=
    (congrArg Slot.panel (placed_slot k)).trans (placePanel_panelOf k start reg s)
  have hstatus : (placed k start reg s).status k = placedStatus start reg (s.status k) :=
    (congrArg Slot.status (placed_slot k)).trans (placePanel_status k start reg s)
  by_cases hreached : start ≤ s.pc.webPosition
  · have hslot : (finishCommit k start reg s).slot k = (toActive k (placed k start reg s)).slot k := by
      rw [finishCommit_of_reached hreached, evaluatePlanning_slot]
    have hspared : Spared k (placed k start reg s) := by rwa [Spared, placed_tu]
    obtain ⟨hkept, hmarked, hdwell⟩ := toActive_slotKept hspared
    rw [panelOf_modifyStatus, hpanel] at hkept
    rw [status_modifyStatus_same, hstatus, placed_pc] at hmarked hdwell
    rw [modifyStatus_tu, placed_tu] at hdwell
    simp only [State.panelOf, State.status, hslot, committedStatus, if_pos hreached] at hkept hmarked hdwell ⊢
    exact ⟨hkept, hmarked, hdwell⟩
  · have hslot : (finishCommit k start reg s).slot k = (placed k start reg s).slot k := by
      rw [finishCommit_of_ahead (Nat.lt_of_not_le hreached), evaluatePlanning_slot]
    have hsame : (finishCommit k start reg s).status k = placedStatus start reg (s.status k) :=
      (congrArg Slot.status hslot).trans hstatus
    rw [hsame, committedStatus, if_neg hreached, if_neg hreached]
    exact ⟨(congrArg Slot.panel hslot).trans hpanel, rfl, fun _ => rfl⟩

/-- A start already reached has the slot's PANEL record newest in the tracking queue (R67, R117). -/
theorem finishCommit_newest (h : start ≤ s.pc.webPosition) :
    ∃ head ∈ [max s.pc.beltPosition (queueFloor s.tu.records), max s.pc.beltPosition (queueFloor s.tu.records.tail)],
      (finishCommit k start reg s).tu.records.getLast? = some (.panel k head none) := by
  obtain ⟨head, hhead, hnewest⟩ := openRecord_newest k
    (modifyStatus k (fun st => { st with state := .active, beltHead := some s.pc.beltPosition }) (placed k start reg s))
  rw [modifyStatus_pc, modifyStatus_tu, placed_pc, placed_tu] at hhead
  refine ⟨head, hhead, ?_⟩
  simp only [finishCommit_of_reached h, evaluatePlanning_frame, toActive, placed_pc, hnewest]

end

/-! ### What PS may take (R45, R48) -/

theorem commitReady_iff (s : State) : s.commitReady = true ↔
    (s.status s.ps.commitPointer).state = .queued ∧ (s.status s.ps.commitPointer).registration ≠ some .searching ∧
      s.ps.lastEnd.getD 0 - s.pc.webPosition ≤ horizonCounts s.geometry.given := by
  simp only [State.commitReady, committedAhead_eq, Bool.and_eq_true, beq_iff_eq, bne_iff_ne, decide_eq_true_eq,
    and_assoc]

theorem exec_commit_of_ready {s : State} (h : s.commitReady = true)
    (hpanel : (s.panelOf s.ps.commitPointer).registration = none) :
    exec .commit s = .next (refresh (commitSlot s.ps.commitPointer s)) := by
  change execCommit s = _
  simp only [execCommit, h, hpanel]

theorem exec_searchSetup_of_ready {s : State} {part : RegistrationPart} (h : s.commitReady = true)
    (hpanel : (s.panelOf s.ps.commitPointer).registration = some part) :
    exec .searchSetup s = .next (refresh (setUpSearch s.ps.commitPointer part s)) := by
  change execSearchSetup s = _
  simp only [execSearchSetup, h, hpanel]

theorem exec_commit_of_not {s : State}
    (h : s.commitReady = false ∨ (s.panelOf s.ps.commitPointer).registration ≠ none) : exec .commit s = .next s := by
  change execCommit s = _
  unfold execCommit
  split <;> simp_all

theorem exec_searchSetup_of_not {s : State}
    (h : s.commitReady = false ∨ (s.panelOf s.ps.commitPointer).registration = none) :
    exec .searchSetup s = .next s := by
  change execSearchSetup s = _
  unfold execSearchSetup
  split <;> simp_all

/-! ### An unregistered panel (R46) -/

/-- The start of slot k's panel, or the earliest one a mark may give it: the base and the gap (R46, R85). -/
def firstStart (k : Fin 32) (s : State) : Nat := s.base + (s.status k).gapCounts

theorem modifyStatus_modifyStatus (k : Fin 32) (f g : SlotStatus → SlotStatus) (s : State) :
    modifyStatus k f (modifyStatus k g s) = modifyStatus k (f ∘ g) s := by
  rw [modifyStatus, status_modifyStatus_same, panelOf_modifyStatus]
  simp only [modifyStatus, setSlot, Vector.set_set, Function.comp_apply]

section

variable {k : Fin 32} {s : State}

theorem commitSlot_eq : commitSlot k s = finishCommit k (firstStart k s) .notRequired (checkGarment k s) := rfl

theorem commitSlot_ps : (commitSlot k s).ps =
    { commitPointer := k + 1
      lastEnd := some (firstStart k s + (s.status k).panelCounts)
      openGarment := garmentAfter k s
      generator := if s.ps.generator.isSome then s.ps.generator
        else if (s.panelOf k).kind = .flat then none else some (takenUp k (firstStart k s))
      strokes := s.ps.strokes
      search := none } := by
  rw [commitSlot_eq, finishCommit_ps, placePanel_ps, checkGarment_status, checkGarment_ps, checkGarment_panelOf]

theorem spared_of_not_named (h : ∀ x ∈ s.tu.records, x.slot? ≠ some k) : Spared k s := by
  unfold Spared
  cases hrecords : s.tu.records with
  | nil => exact .inl (by decide)
  | cons x rest => exact .inr (h x (by simp [hrecords]))

theorem commitSlot_slot (hnamed : ∀ x ∈ s.tu.records, x.slot? ≠ some k) :
    (commitSlot k s).panelOf k = s.panelOf k ∧
    (commitSlot k s).status k = { committedStatus (firstStart k s) .notRequired s (s.status k) with
      underSet := ((commitSlot k s).status k).underSet
      garmentBreak := garmentBreaks k s } := by
  have htu : (checkGarment k s).tu = s.tu := by simp
  have hpc : (checkGarment k s).pc = s.pc := by simp
  have hnamed' : ∀ x ∈ (checkGarment k s).tu.records, x.slot? ≠ some k := htu ▸ hnamed
  obtain ⟨hpanel, hstatus, hdwell⟩ :=
    finishCommit_slot (start := firstStart k s) (reg := .notRequired) (spared_of_not_named hnamed')
  rw [hdwell hnamed', checkGarment_status, committedStatus, hpc] at hstatus
  exact ⟨hpanel.trans (checkGarment_panelOf k k s), hstatus⟩

theorem commitSlot_ahead (h : s.pc.webPosition < firstStart k s) : (commitSlot k s).tu = s.tu ∧
    ((commitSlot k s).status k).underSet = (s.status k).underSet ∧
    ∀ j, j ≠ k → (commitSlot k s).slot j = s.slot j := by
  have hpc : (checkGarment k s).pc = s.pc := by simp
  rw [← hpc] at h
  obtain ⟨htu, hslots⟩ := finishCommit_ahead (k := k) (reg := .notRequired) h
  rw [← commitSlot_eq] at htu hslots
  have hstatus : (commitSlot k s).status k = placedStatus (firstStart k s) .notRequired ((checkGarment k s).status k) :=
    (congrArg Slot.status (hslots k)).trans (placePanel_status k _ _ _)
  refine ⟨htu.trans (by simp), by rw [hstatus, checkGarment_status]; rfl, fun j hj => ?_⟩
  rw [hslots, placePanel_slot_other hj, checkGarment_slot_other hj]

theorem commitSlot_newest (h : firstStart k s ≤ s.pc.webPosition) :
    ∃ head ∈ [max s.pc.beltPosition (queueFloor s.tu.records), max s.pc.beltPosition (queueFloor s.tu.records.tail)],
      (commitSlot k s).tu.records.getLast? = some (.panel k head none) := by
  have hpc : (checkGarment k s).pc = s.pc := by simp
  have htu : (checkGarment k s).tu = s.tu := by simp
  rw [← hpc] at h
  have hnewest := finishCommit_newest (k := k) (reg := .notRequired) h
  rwa [hpc, htu] at hnewest

/-- The panel checked and placed at once: one new status record, and PS (R32, R46). -/
theorem placePanel_checkGarment (start : Nat) (reg : Registered) : placePanel k start reg (checkGarment k s) =
    { s with
      ps := (placePanel k start reg (checkGarment k s)).ps
      slots := s.slots.set k.val
        { panel := s.panelOf k
          status := { placedStatus start reg (s.status k) with garmentBreak := garmentBreaks k s } } k.isLt } := by
  rw [placePanel_eq, checkGarment_eq, modifyStatus_modifyStatus]
  rfl

theorem commitSlot_eq_placed : commitSlot k s =
    let placed := starveTest { s with
      ps := (commitSlot k s).ps
      slots := s.slots.set k.val
        { panel := s.panelOf k
          status := { placedStatus (firstStart k s) .notRequired (s.status k) with
            garmentBreak := garmentBreaks k s } } k.isLt }
    evaluatePlanning (if firstStart k s ≤ s.pc.webPosition then toActive k placed else placed) := by
  have hpc : (checkGarment k s).pc = s.pc := by simp
  have hps : (commitSlot k s).ps = (placePanel k (firstStart k s) .notRequired (checkGarment k s)).ps := finishCommit_ps
  rw [hps, ← placePanel_checkGarment, commitSlot_eq, finishCommit_eq, hpc]
  rfl

end

/-- Settles O30: `commitSlot`, part by part, and PS with no slot to take. -/
theorem commitFixesPanelWhenReady : Obligations.CommitFixesPanelWhenReady := by
  refine ⟨fun s => ?_, fun s => ?_⟩
  · intro k p start stop t hnamed hqueued hsearching hpanel hhorizon
    have hready : s.commitReady = true := (commitReady_iff s).mpr ⟨hqueued, hsearching, hhorizon⟩
    obtain ⟨hkept, hstatus⟩ := commitSlot_slot hnamed
    have hbreak : (t.status k).garmentBreak = garmentBreaks k s := by rw [hstatus]
    obtain ⟨hpc, hgeometry, hlimits, hblade, hru, hlink, hinputs, -, -⟩ := commitSlot_frame k s
    refine ⟨exec_commit_of_ready hready hpanel, commitSlot_ps, hkept, hstatus, commitSlot_ahead, commitSlot_newest,
      hpc, hgeometry, hlimits, hru, hblade, hlink, hinputs, ?_⟩
    rw [hbreak]
    exact commitSlot_eq_placed
  · intro st
    refine ⟨fun h => ?_, fun h => exec_commit_of_not (.inr h), fun h => exec_searchSetup_of_not (.inr h)⟩
    have hnot : s.commitReady = false := by
      rw [Bool.eq_false_iff, ne_eq, commitReady_iff]
      rintro ⟨hqueued, hsearching, hhorizon⟩
      rcases h with h | h | h
      · exact h hqueued
      · exact hsearching h
      · exact h.not_ge hhorizon
    exact ⟨exec_commit_of_not (.inl hnot), exec_searchSetup_of_not (.inl hnot)⟩

end Sys2Proof.Machine
end

