-- ==== Sys2Proof/Proofs/Searches.lean ====
section
/-! PROOF. SEARCH_SETUP sets up the search and walks the mark queue (SearchSetupWalksMarkQueue). -/

namespace Sys2Proof.Machine

open Sys2Proof.Safety

-- One proof after the other: many short ones at once need more threads than the memory limit leaves room for.
set_option Elab.async false

/-! ### The walk of the mark queue (R86) -/

/-- The walk accepts the first mark of the entry that lies far enough on. Of the marks before it those of other entries
stay and those of the entry are skipped; the marks after it stay (R86). -/
theorem walkMarks_eq (e : Fin 6) (P : Mark → Prop) [DecidablePred P] (l : List Mark) :
    let good := fun mk : Mark => decide (mk.entry = e ∧ P mk)
    let early := l.takeWhile fun mk => !good mk
    walkMarks e (fun mk => decide (P mk)) l =
      (early.filter (fun mk => mk.entry ≠ e) ++ (l.dropWhile fun mk => !good mk).tail,
        (early.filter fun mk => mk.entry = e).length, l.find? good) := by
  induction l with
  | nil => rfl
  | cons mk rest ih =>
    dsimp only at ih
    by_cases hentry : mk.entry = e
    · by_cases hfar : P mk
      · simp [walkMarks, hentry, hfar]
      · simp [walkMarks, hentry, hfar, ih]
    · simp [walkMarks, hentry, ih]

/-! ### The search set up (R47, R85) -/

/-- The walk of the mark queue that ends the setting up of slot k's search (R86). -/
def setUpWalk (k : Fin 32) (part : RegistrationPart) (s : State) : List Mark × Nat × Option Mark :=
  walkMarks part.entry
    (fun mk => decide ((searchFor k part s).earliest ≤ registeredStart s (searchFor k part s) mk)) s.ru.marks

/-- The status record of the slot once its search is set up and `n` marks are skipped (R32, R47, R86). -/
def searchingStatus (k : Fin 32) (n : Nat) (s : State) : SlotStatus :=
  { s.status k with
    registration := some .searching
    garmentBreak := garmentBreaks k s
    marksSkipped := min 255 ((s.status k).marksSkipped + n) }

/-- Slot k's search set up and the mark queue walked, with nothing committed yet (R47, R85, R86). -/
def searchSetUp (k : Fin 32) (part : RegistrationPart) (s : State) : State :=
  countSkipped k (setUpWalk k part s).2.1
    (modifyStatus k (fun st => { st with registration := some .searching })
      (checkGarment k { s with
        ps := { s.ps with search := some (searchFor k part s) }
        ru := { s.ru with marks := (setUpWalk k part s).1 } }))

section

variable {k : Fin 32} {part : RegistrationPart} {s : State}

theorem searchSetUp_status : (searchSetUp k part s).status k = searchingStatus k (setUpWalk k part s).2.1 s := by
  rw [searchSetUp, countSkipped, status_modifyStatus_same, status_modifyStatus_same, checkGarment_status]
  rfl

theorem searchSetUp_ps : (searchSetUp k part s).ps =
    { s.ps with openGarment := garmentAfter k s, search := some (searchFor k part s) } := by
  simp only [searchSetUp, countSkipped_frame, modifyStatus_ps, checkGarment_ps]
  rfl

theorem searchSetUp_slot_other {j : Fin 32} (h : j ≠ k) : (searchSetUp k part s).slot j = s.slot j :=
  (slot_setSlot_other h _ _).trans ((slot_setSlot_other h _ _).trans (checkGarment_slot_other h s))

theorem setUpSearch_of_no_mark (h : (setUpWalk k part s).2.2 = none) :
    setUpSearch k part s = searchSetUp k part s := by
  unfold setUpSearch
  dsimp only
  split
  · next mk hmk => exact absurd (hmk.symm.trans h) (Option.some_ne_none mk)
  · rfl

/-- The first mark that fits commits the slot at the start it gives (R86). -/
theorem setUpSearch_of_mark {mk : Mark} (h : (setUpWalk k part s).2.2 = some mk) : setUpSearch k part s =
    finishCommit k (registeredStart s (searchFor k part s) mk) (.registered mk.m) (searchSetUp k part s) := by
  unfold setUpSearch
  dsimp only
  split
  · next mk' hmk =>
    obtain rfl : mk' = mk := Option.some.inj (hmk.symm.trans h)
    rfl
  · next hmk => exact absurd (h.symm.trans hmk) (Option.some_ne_none mk)

end

/-- Settles O31: the walk is `walkMarks_eq`; with no mark nothing is committed, and with one `finishCommit` commits the
slot at the start it gives. -/
theorem searchSetupWalksMarkQueue : Obligations.SearchSetupWalksMarkQueue := by
  intro s part hpart k g base earliest offset window good early skipped stay t hspared hqueued hsearching hhorizon _
  have hready : s.commitReady = true := (commitReady_iff s).mpr ⟨hqueued, hsearching, hhorizon⟩
  have hwalk : setUpWalk k part s = (stay ++ (s.ru.marks.dropWhile fun mk => !decide (good mk)).tail,
      (early.filter fun mk => mk.entry = part.entry).length, s.ru.marks.find? fun mk => decide (good mk)) :=
    walkMarks_eq part.entry (fun mk => earliest ≤ mk.m + msCounts g + offset) s.ru.marks
  have hstatus : (searchSetUp k part s).status k =
      searchingStatus k (early.filter fun mk => mk.entry = part.entry).length s := by
    rw [searchSetUp_status, hwalk]
  have hru : (searchSetUp k part s).ru =
      { s.ru with marks := stay ++ (s.ru.marks.dropWhile fun mk => !decide (good mk)).tail } := by
    simp [searchSetUp, hwalk]
  have htu : (searchSetUp k part s).tu = s.tu := by simp [searchSetUp]
  have hpc : (searchSetUp k part s).pc = s.pc := by simp [searchSetUp]
  obtain ⟨htpc, hgeometry, -, hblade, hlink, -, -, -⟩ := setUpSearch_frame k part s
  refine ⟨exec_searchSetup_of_ready hready hpart, htpc, hgeometry, hblade, hlink, ?_⟩
  cases hmark : s.ru.marks.find? (fun mk => decide (good mk)) with
  | none =>
    have ht : t = searchSetUp k part s := setUpSearch_of_no_mark (by rw [hwalk, hmark])
    have hnone : (s.ru.marks.dropWhile fun mk => !decide (good mk)) = [] := by
      rw [List.dropWhile_eq_nil_iff]
      simpa using hmark
    rw [ht, hru, searchSetUp_ps, hstatus, hnone]
    exact ⟨rfl, rfl, rfl, fun _ => ⟨by simp, hqueued, rfl, rfl, rfl, rfl, fun j hj => searchSetUp_slot_other hj⟩,
      fun mk h => absurd h.symm (Option.some_ne_none mk)⟩
  | some mk =>
    let start := mk.m + msCounts g + offset
    have ht : t = finishCommit k start (.registered mk.m) (searchSetUp k part s) :=
      setUpSearch_of_mark (by rw [hwalk, hmark])
    have hspared' : Spared k (searchSetUp k part s) := by rwa [Spared, htu]
    obtain ⟨-, hcommitted, -⟩ := finishCommit_slot (start := start) (reg := .registered mk.m) hspared'
    have hps : t.ps = (placePanel k start (.registered mk.m) (searchSetUp k part s)).ps := by
      rw [ht, finishCommit_ps]
    rw [placePanel_ps, hstatus, searchSetUp_ps] at hps
    rw [← ht, hstatus, committedStatus, hpc] at hcommitted
    have htru : t.ru = (searchSetUp k part s).ru := by simp [ht]
    rw [hps, hcommitted, htru, hru]
    refine ⟨rfl, rfl, rfl, fun h => absurd h (Option.some_ne_none mk), fun mk' h => ?_⟩
    obtain rfl : mk = mk' := Option.some.inj h
    exact ⟨rfl, rfl, rfl, rfl, rfl, rfl, rfl, rfl⟩

end Sys2Proof.Machine
end

