-- ==== Sys2Proof/Proofs/IdleStep.lean ====
section
/-! PROOF. A step on an empty queue of commands lets one millisecond pass (EmptyQueueLetsOneMillisecondPass). -/

namespace Sys2Proof.Machine

-- One proof after the other: many short ones at once need more threads than the memory limit leaves room for.
set_option Elab.async false

/-- The time of a stroke in flight rises until an expiry waits to be taken: the timeout, or the slow time not yet
notified (R61). -/
theorem strokeTick_eq (r : StrokeInFlight) : strokeTick r =
    if r.time < r.timeout ∧ (r.notified = true ∨ r.time < r.slowTime) then { r with time := r.time + 1 } else r := by
  have hwaits : (r.timeout ≤ r.time ∨ (r.notified = false ∧ r.slowTime ≤ r.time)) ↔
      ¬ (r.time < r.timeout ∧ (r.notified = true ∨ r.time < r.slowTime)) := by
    cases r.notified
    · simp only [Bool.false_eq_true, true_and, false_or]
      omega
    · simp
  simp only [strokeTick, hwaits, ite_not]

/-- The time of a splice record rises until its timeout waits to be taken (R166). -/
theorem spliceTick_eq (r : SpliceRecord) :
    spliceTick r = if r.time < r.timeout then { r with time := r.time + 1 } else r := by
  simp only [spliceTick, ← Nat.not_lt, ite_not]

theorem step_of_empty {s : State} (h : s.pending = []) : step s = .next (tick s) := by
  rw [step, h]

/-- Settles O2: a step on an empty queue is a tick, by the two record ticks. -/
theorem emptyQueueLetsOneMillisecondPass : Obligations.EmptyQueueLetsOneMillisecondPass := by
  intro s hempty
  rw [step_of_empty hempty, tick, funext strokeTick_eq, funext spliceTick_eq]

end Sys2Proof.Machine
end

