-- ==== Sys2Proof/Proofs/Blade.lean ====
section
/-! PROOF. The blade's input, its two timers and the strokes reached (BladeHomeAndTimersActOnBlade,
StrokeReachedIsDealtWith). -/

namespace Sys2Proof.Machine

-- One proof after the other: many short ones at once need more threads than the memory limit leaves room for.
set_option Elab.async false

/-! ### BLADE-HOME (R58) -/

/-- BLADE-HOME inactive takes the blade from HOME to AWAY and from FIRED to RETURNING (R58). -/
theorem bladeLeaves_eq (s : State) : bladeLeaves s =
    if s.blade.state = .home then raise .strokeFault { s with blade := { s.blade with state := .away } }
    else if s.blade.state = .fired then { s with blade := { s.blade with state := .returning } }
    else s := by
  unfold bladeLeaves
  cases s.blade.state <;> rfl

/-- BLADE-HOME active takes the blade HOME from AWAY, and from RETURNING with its stroke complete (R58). -/
theorem bladeReturns_eq (s : State) : bladeReturns s =
    if s.blade.state = .away then { s with blade := { s.blade with state := .home } }
    else if s.blade.state = .returning then
      { s with blade := { s.blade with state := .home, inFlight := none } }
    else s := by
  unfold bladeReturns
  cases s.blade.state <;> rfl

theorem exec_bladeHomeChange_same {active : Bool} {s : State} (h : active = s.inputs.bladeHome) :
    exec (.bladeHomeChange active) s = .next s :=
  if_pos h

theorem exec_bladeHomeChange_of_ne {active : Bool} {s : State} (h : active ≠ s.inputs.bladeHome) :
    exec (.bladeHomeChange active) s = .next (
      if active then bladeReturns { s with inputs := { s.inputs with bladeHome := active } }
      else bladeLeaves { s with inputs := { s.inputs with bladeHome := active } }) :=
  if_neg h

/-! ### The two timers of a stroke in flight (R61) -/

section

variable {s : State}

theorem exec_bladeSlowTime_of_none (h : s.blade.inFlight = none) : exec .bladeSlowTime s = .next s := by
  change execBladeSlowTime s = _
  rw [execBladeSlowTime, h]

theorem exec_bladeSlowTime_of_some {r : StrokeInFlight} (h : s.blade.inFlight = some r) : exec .bladeSlowTime s =
    if r.notified then .next s
    else .next (raise .strokeFault { s with blade := { s.blade with
      inFlight := some { r with notified := true, time := max r.time r.slowTime } } }) := by
  change execBladeSlowTime s = _
  simp only [execBladeSlowTime, h]

theorem exec_bladeTimeout_of_none (h : s.blade.inFlight = none) : exec .bladeTimeout s = .next s := by
  change execBladeTimeout s = _
  rw [execBladeTimeout, h]

theorem exec_bladeTimeout_of_some {r : StrokeInFlight} (h : s.blade.inFlight = some r) : exec .bladeTimeout s =
    .next (refresh (reportCause .stroke { s with blade := { s.blade with
      inFlight := none, state := if s.inputs.bladeHome then .home else .away } })) := by
  change execBladeTimeout s = _
  simp only [execBladeTimeout, h]

end

/-- Settles O34: a change of level by `bladeReturns_eq` or `bladeLeaves_eq`, and each timer by whether a stroke is in
flight. -/
theorem bladeHomeAndTimersActOnBlade : Obligations.BladeHomeAndTimersActOnBlade := by
  refine ⟨fun active s => ⟨exec_bladeHomeChange_same, fun hchange => ?_⟩, fun s => ⟨fun hnone => ?_, fun r hsome => ?_⟩⟩
  · rw [exec_bladeHomeChange_of_ne hchange]
    cases active with
    | true => simp [bladeReturns_eq]
    | false => simp [bladeLeaves_eq]
  · exact ⟨exec_bladeSlowTime_of_none hnone, exec_bladeTimeout_of_none hnone⟩
  · have hslow := exec_bladeSlowTime_of_some hsome
    exact ⟨fun hnotified => hslow.trans (if_pos hnotified),
      fun hnotified => hslow.trans (if_neg (Bool.not_eq_true _ ▸ hnotified)), exec_bladeTimeout_of_some hsome⟩

/-! ### A stroke reached (R59 to R68) -/

theorem immediateTrip_iff (s : State) : s.immediateTrip = true ↔
    s.holdsCause .eStop = true ∨ s.holdsCause .webBreak = true ∨ s.holdsCause .encoder = true := by
  simp only [State.immediateTrip, Bool.or_eq_true, or_assoc]

theorem strokeReachedNow_of_cons {r : StrokeRecord} {rest : List StrokeRecord} {s : State}
    (h : s.ps.strokes = r :: rest) : s.strokeReachedNow = decide (r.position ≤ s.pc.webPosition) := by
  simp only [State.strokeReachedNow, h]

theorem reachStroke_of_reached {r : StrokeRecord} {rest : List StrokeRecord} {s : State}
    (h : s.ps.strokes = r :: rest) (hreached : r.position ≤ s.pc.webPosition) :
    reachStroke s = strokeReached r rest s := by
  simp only [reachStroke, h, if_pos hreached]

/-- A stroke is skipped: counted missed, with STROKE-FAULT raised, and at a second miss in a row STROKE is reported
(R63, R64). -/
theorem skipStroke_eq (r : StrokeRecord) (s : State) : skipStroke r s =
    if s.blade.misses = 0 then raise .strokeFault { countMissed r s with blade := { s.blade with misses := 1 } }
    else reportCause .stroke (raise .strokeFault { countMissed r s with blade := { s.blade with misses := 2 } }) := rfl

/-- A stroke is withheld, fired or skipped (R59, R66, R60, R63). -/
theorem dealStroke_eq (r : StrokeRecord) (s : State) : dealStroke r s =
    if s.holdsCause .eStop = true ∨ s.holdsCause .webBreak = true ∨ s.holdsCause .encoder = true then countMissed r s
    else if s.blade.state = .home then fireStroke r s
    else skipStroke r s := by
  simp only [dealStroke, immediateTrip_iff]

/-- Settles O35: the head of the queue waits for its position, and is then dealt with by the trip record and the blade's
state. -/
theorem strokeReachedIsDealtWith : Obligations.StrokeReachedIsDealtWith := by
  intro r rest s hstrokes
  refine ⟨fun hahead => reachStroke_of_not_reached ?_, fun hreached => ?_⟩
  · rw [strokeReachedNow_of_cons hstrokes, decide_eq_false (Nat.not_le_of_lt hahead)]
  · intro t missed fired dealt
    have hdealt : dealStroke r t = dealt := by
      rw [dealStroke_eq, skipStroke_eq]
      rfl
    rw [reachStroke_of_reached hstrokes hreached, strokeReached, hdealt]

end Sys2Proof.Machine
end

