-- ==== Sys2Proof/Proofs/Boundaries.lean ====
section
/-! PROOF. Panel boundaries, room in a full tracking queue, a seam added, and the floor of the queue
(BoundariesAndFullTrackingQueue). -/

namespace Sys2Proof.Machine

-- One proof after the other: many short ones at once need more threads than the memory limit leaves room for.
set_option Elab.async false

/-! ### Slots that an operation does not mark (R29) -/

theorem slot_eq_of_parts {k : Fin 32} {s t : State} (hpanel : t.panelOf k = s.panelOf k)
    (hstatus : t.status k = s.status k) : t.slot k = s.slot k := by
  unfold State.panelOf at hpanel
  unfold State.status at hstatus
  cases hs : s.slot k
  cases ht : t.slot k
  simp_all

/-- Entry tests on other slots leave a slot alone. -/
theorem EntryTested.slot_of_unmarked {marks : Fin 32 → Fin 4 → Bool} {s t : State} (h : EntryTested marks s t)
    {k : Fin 32} (hk : ∀ z, marks k z = false) : t.slot k = s.slot k := by
  have hset : (t.status k).underSet = (s.status k).underSet :=
    BitVec.eq_of_getLsbD_eq fun i hi => by simpa [hk] using h.bits k ⟨i, hi⟩
  refine slot_eq_of_parts (h.panel k) ?_
  rw [h.status k, hset]

theorem modifyStatus_slot_other {j k : Fin 32} (h : j ≠ k) (f : SlotStatus → SlotStatus) (s : State) :
    (modifyStatus k f s).slot j = s.slot j :=
  slot_setSlot_other h _ s

theorem Retired.slot_of_not_mem {gone : List (Fin 32)} {s t : State} (h : Retired gone s t) {k : Fin 32}
    (hk : k ∉ gone) : t.slot k = s.slot k :=
  slot_eq_of_parts (h.panel k) ((h.status k).trans (if_neg hk))

/-! ### UNDER-SET marks of several zones (R29) -/

/-- A set with the given zones added (R195). -/
def withZones (zs : List (Fin 4)) (set : ZoneSet) : ZoneSet := zs.foldl (fun acc z => acc ||| zoneBit z) set

theorem withZones_getLsbD (zs : List (Fin 4)) (set : ZoneSet) (z : Fin 4) :
    (withZones zs set).getLsbD z.val = (set.getLsbD z.val || decide (z ∈ zs)) := by
  unfold withZones
  induction zs generalizing set with
  | nil => simp
  | cons y zs ih =>
    rw [List.foldl_cons, ih, BitVec.getLsbD_or, zoneBit_getLsbD, Bool.or_assoc, List.decide_mem_cons]

theorem modifyStatus_of_fixed {k : Fin 32} {f : SlotStatus → SlotStatus} {s : State}
    (h : f (s.status k) = s.status k) : modifyStatus k f s = s := by
  have hslot : { panel := s.panelOf k, status := s.status k } = s.slot k := rfl
  rw [modifyStatus, h, hslot, setSlot, State.slot, Vector.set_getElem_self]

/-- The status record with UNDER-SET of the given zones added where the slot is ACTIVE or SETTING (R29). -/
def markedUnderSet (zs : List (Fin 4)) (st : SlotStatus) : SlotStatus :=
  { st with underSet := if st.held then withZones zs st.underSet else st.underSet }

theorem markedUnderSet_of_held {st : SlotStatus} (zs : List (Fin 4)) (h : st.held = true) :
    markedUnderSet zs st = { st with underSet := withZones zs st.underSet } := by
  rw [markedUnderSet, if_pos h]

theorem markedUnderSet_of_not_held {st : SlotStatus} (zs : List (Fin 4)) (h : st.held = false) :
    markedUnderSet zs st = st := by
  rw [markedUnderSet, if_neg (Bool.not_eq_true _ ▸ h)]

theorem markedUnderSet_getLsbD (zs : List (Fin 4)) (st : SlotStatus) (z : Fin 4) :
    (markedUnderSet zs st).underSet.getLsbD z.val =
      (st.underSet.getLsbD z.val || (st.held && decide (z ∈ zs))) := by
  cases hheld : st.held with
  | true => rw [markedUnderSet_of_held zs hheld, withZones_getLsbD, Bool.true_and]
  | false => rw [markedUnderSet_of_not_held zs hheld, Bool.false_and, Bool.or_false]

theorem markedUnderSet_nil (st : SlotStatus) : markedUnderSet [] st = st := by
  unfold markedUnderSet
  split <;> rfl

theorem markedUnderSet_cons (z : Fin 4) (zs : List (Fin 4)) (st : SlotStatus) :
    markedUnderSet zs (markedUnderSet [z] st) = markedUnderSet (z :: zs) st := by
  cases hheld : st.held with
  | true =>
    rw [markedUnderSet_of_held _ hheld, markedUnderSet_of_held _ hheld]
    exact markedUnderSet_of_held zs hheld
  | false => simp only [markedUnderSet_of_not_held _ hheld]

theorem aimUnderSet_eq (z : Fin 4) (k : Fin 32) (s : State) :
    aimUnderSet z k s = modifyStatus k (markedUnderSet [z]) s := by
  unfold aimUnderSet aim
  cases hstate : (s.status k).state
  case active | setting =>
    have hheld : (s.status k).held = true := by simp [SlotStatus.held, hstate]
    simp only [modifyStatus, markedUnderSet_of_held _ hheld]
    rfl
  all_goals
    exact (modifyStatus_of_fixed (markedUnderSet_of_not_held _ (by simp [SlotStatus.held, hstate]))).symm

theorem foldl_aimUnderSet (k : Fin 32) (zs : List (Fin 4)) (s : State) :
    zs.foldl (fun t z => aimUnderSet z k t) s = modifyStatus k (markedUnderSet zs) s := by
  induction zs generalizing s with
  | nil => exact (modifyStatus_of_fixed (markedUnderSet_nil _)).symm
  | cons z zs ih =>
    rw [List.foldl_cons, ih, aimUnderSet_eq, modifyStatus_modifyStatus]
    exact congrArg (modifyStatus k · s) (funext (markedUnderSet_cons z zs))

/-! ### Room in a full tracking queue (R119) -/

theorem allZones_eq : allZones = List.finRange 4 := by decide

theorem full_of_cons {oldest : TrackRecord} {rest : List TrackRecord} {s : State}
    (h : s.tu.records = oldest :: rest) (hfull : 23 ≤ rest.length) : trackCapacity ≤ s.tu.records.length := by
  rw [h]
  exact Nat.succ_le_succ hfull

/-- A SEAM record forced out switches the zones it has not switched, zone 1 first (R119). -/
theorem makeRoom_of_seam {pos : Nat} {r : Fin 8} {sw : ZoneSet} {rest : List TrackRecord} {s : State}
    (h : s.tu.records = .seam pos r sw :: rest) (hfull : 23 ≤ rest.length) : makeRoom s =
      { ((List.finRange 4).filter fun z => !sw.getLsbD z.val).foldl (fun u z => switchZone z r u) s with
        tu := { records := rest, forced := min 255 (s.tu.forced + 1) } } := by
  rw [makeRoom_of_full h (full_of_cons h hfull), forceOut, allZones_eq]
  rfl

/-- The zones that the tail of a PANEL record has not passed at belt position `belt` (R119). -/
def zonesNotPassed (g : GeometryFields) (belt : Nat) (x : TrackRecord) : List (Fin 4) :=
  allZones.filter fun z => decide (tailDistance belt x ≤ (zeCounts g z : Int))

theorem mem_zonesNotPassed (g : GeometryFields) (belt : Nat) (x : TrackRecord) (z : Fin 4) :
    z ∈ zonesNotPassed g belt x ↔ tailDistance belt x ≤ (zeCounts g z : Int) := by
  simp [zonesNotPassed, mem_allZones]

/-- A PANEL record forced out marks its slot UNDER-SET for the zones its tail has not passed, and retires it (R119). -/
theorem makeRoom_of_panel {k : Fin 32} {head : Nat} {tail : Option Nat} {rest : List TrackRecord} {s : State}
    (h : s.tu.records = .panel k head tail :: rest) (hfull : 23 ≤ rest.length) : makeRoom s =
      { retireSlot k (modifyStatus k
          (markedUnderSet (zonesNotPassed s.geometry.given s.pc.beltPosition (.panel k head tail))) s) with
        tu := { records := rest, forced := countUp 255 s.tu.forced } } := by
  rw [makeRoom_of_full h (full_of_cons h hfull), forceOut, foldl_aimUnderSet]
  rfl

/-- What the forced retirement of a PANEL record leaves (R119, R33). -/
theorem makeRoom_panel_outcome {k : Fin 32} {head : Nat} {tail : Option Nat} {rest : List TrackRecord} {s : State}
    (h : s.tu.records = .panel k head tail :: rest) (hfull : 23 ≤ rest.length) :
    let t := makeRoom s
    let d := tailDistance s.pc.beltPosition (.panel k head tail)
    t.tu = { records := rest, forced := min 255 (s.tu.forced + 1) } ∧
    t.status k = { s.status k with state := .done, underSet := (t.status k).underSet } ∧
    (∀ z : Fin 4, (t.status k).underSet.getLsbD z.val =
      ((s.status k).underSet.getLsbD z.val || ((s.status k).held && decide (d ≤ zeCounts s.geometry.given z)))) ∧
    (∀ j : Fin 32, j ≠ k → t.slot j = s.slot j) ∧
    t.eventCount .panelDone = min 255 (s.eventCount .panelDone + 1) ∧
    t.eventCount .garmentDone = (if (s.panelOf k).last then min 255 (s.eventCount .garmentDone + 1)
      else s.eventCount .garmentDone) ∧
    t = { s with slots := t.slots, tu := t.tu, events := t.events } := by
  intro t d
  let zs := zonesNotPassed s.geometry.given s.pc.beltPosition (.panel k head tail)
  let marked := modifyStatus k (markedUnderSet zs) s
  have hretired : Retired [k] marked (retireSlot k marked) := retireSlot_retired k marked
  have ht : t = { retireSlot k marked with tu := { records := rest, forced := countUp 255 s.tu.forced } } :=
    makeRoom_of_panel h hfull
  have hstatus : t.status k = { markedUnderSet zs (s.status k) with state := .done } := by
    have hdone := hretired.status k
    rw [if_pos List.mem_cons_self, status_modifyStatus_same] at hdone
    rw [ht]
    exact hdone
  refine ⟨by rw [ht]; rfl, by rw [hstatus]; rfl, fun z => ?_, fun j hj => ?_, ?_, ?_, ?_⟩
  · rw [hstatus]
    refine (markedUnderSet_getLsbD zs _ z).trans ?_
    rw [decide_eq_decide.mpr (mem_zonesNotPassed _ _ _ z)]
  · have hslot : t.slot j = (retireSlot k marked).slot j := by rw [ht]; rfl
    rw [hslot, hretired.slot_of_not_mem (by simpa using hj), modifyStatus_slot_other hj]
  · have hcount : t.eventCount .panelDone = (retireSlot k marked).eventCount .panelDone := by rw [ht]; rfl
    exact hcount.trans hretired.panelDone
  · have hcount : t.eventCount .garmentDone = (retireSlot k marked).eventCount .garmentDone := by rw [ht]; rfl
    rw [hcount, hretired.garmentDone]
    cases hlast : (s.panelOf k).last <;> simp [hlast, raisedBy, marked]
  · rw [ht, hretired.rest]
    rfl

/-! ### A start reached (R67, R117) -/

/-- The zones that start within the head distance of slot k's record at its opening are tested (R117, R122). -/
theorem openRecord_tested_starts (k : Fin 32) (s : State) :
    let y := makeRoom s
    let head := max s.pc.beltPosition (queueFloor y.tu.records)
    EntryTested (fun j z => k == j && decide (head + zsCounts s.geometry.given z ≤ s.pc.beltPosition))
      (setRecords (y.tu.records ++ [.panel k head none]) y) (openRecord k s) := by
  intro y head
  have hpc : (makeRoom s).pc = s.pc := by simp
  have hgeometry : (makeRoom s).geometry = s.geometry := by simp
  rw [openRecord]
  simp only [hpc, hgeometry]
  refine (entryTests_tested k _ _).congr fun j z => congrArg (k == j && ·) (decide_eq_decide.mpr ?_)
  rw [List.mem_filter, decide_eq_true_iff, and_iff_right (mem_allZones z)]
  change (_ : Int) ≤ (s.pc.beltPosition : Int) - head ↔ _
  omega

/-- The slot's status record as its start is reached (R67). -/
def activeStatus (belt : Nat) (st : SlotStatus) : SlotStatus := { st with state := .active, beltHead := some belt }

theorem toActive_eq (k : Fin 32) (s : State) :
    toActive k s = openRecord k (modifyStatus k (activeStatus s.pc.beltPosition) s) := rfl

/-- A start reached opens the slot's record in the room made for it, and changes no slot but its own (R67, R117). -/
theorem toActive_outcome (k : Fin 32) (s : State) :
    let y := makeRoom (modifyStatus k (activeStatus s.pc.beltPosition) s)
    let t := toActive k s
    let head := max s.pc.beltPosition (queueFloor y.tu.records)
    t.tu = { y.tu with records := y.tu.records ++ [.panel k head none] } ∧
    t.status k = { y.status k with underSet := (t.status k).underSet } ∧
    (∀ z : Fin 4, (t.status k).underSet.getLsbD z.val = ((y.status k).underSet.getLsbD z.val ||
      ((y.status k).held && decide (head + zsCounts s.geometry.given z ≤ s.pc.beltPosition) &&
        (y.zone z).state != .inBand))) ∧
    t = { y with slots := t.slots, tu := t.tu } ∧ ∀ j : Fin 32, j ≠ k → t.slot j = y.slot j := by
  intro y t head
  have htested : EntryTested (fun j z => k == j && decide (head + zsCounts s.geometry.given z ≤ s.pc.beltPosition))
      (setRecords (y.tu.records ++ [.panel k head none]) y) t :=
    openRecord_tested_starts k (modifyStatus k (activeStatus s.pc.beltPosition) s)
  refine ⟨by rw [htested.rest]; rfl, htested.status k, fun z => ?_, by rw [htested.rest]; rfl, fun j hj => ?_⟩
  · rw [htested.bits k z, beq_self_eq_true, Bool.true_and, Bool.and_right_comm]
    rfl
  · exact htested.slot_of_unmarked fun z => by rw [beq_false_of_ne hj.symm, Bool.false_and]

/-- The same with room in the tracking queue: only the slots and the queue change (R67, R117). -/
theorem toActive_of_room {k : Fin 32} {s : State} (hroom : s.tu.records.length < 24) :
    let head := max s.pc.beltPosition (queueFloor s.tu.records)
    let t := toActive k s
    t.tu.records = s.tu.records ++ [.panel k head none] ∧ t.tu.forced = s.tu.forced ∧
    t.status k = { activeStatus s.pc.beltPosition (s.status k) with underSet := (t.status k).underSet } ∧
    (∀ z : Fin 4, (t.status k).underSet.getLsbD z.val = ((s.status k).underSet.getLsbD z.val ||
      (decide ((zsCounts s.geometry.given z : Int) ≤ (s.pc.beltPosition : Int) - head) &&
        (s.zone z).state != .inBand))) ∧
    t = { s with slots := t.slots, tu := t.tu } ∧ ∀ j : Fin 32, j ≠ k → t.slot j = s.slot j := by
  have hy : makeRoom (modifyStatus k (activeStatus s.pc.beltPosition) s) =
      modifyStatus k (activeStatus s.pc.beltPosition) s := makeRoom_of_room hroom
  obtain ⟨htu, hstatus, hbits, hrest, hothers⟩ := toActive_outcome k s
  rw [hy] at htu hstatus hbits hrest hothers
  rw [status_modifyStatus_same] at hstatus hbits
  have hrecords := congrArg Tracker.records htu
  have hforced := congrArg Tracker.forced htu
  intro head t
  refine ⟨hrecords, hforced, hstatus, fun z => ?_, hrest, fun j hj => ?_⟩
  · have hreach : (zsCounts s.geometry.given z : Int) ≤ (s.pc.beltPosition : Int) - head ↔
        head + zsCounts s.geometry.given z ≤ s.pc.beltPosition := by omega
    rw [decide_eq_decide.mpr hreach]
    exact hbits z
  · rw [hothers j hj, modifyStatus_slot_other hj]

/-! ### A seam added (R123) -/

theorem dueSwitches_added (b : Nat) (r : Fin 8) (s : State) : dueSwitches s (.seam b r 0) =
    allZones.filter fun z =>
      decide ((zsCounts s.geometry.given z + zeCounts s.geometry.given z) / 2 + b ≤ s.pc.beltPosition) := by
  rw [dueSwitches_eq]
  exact List.filter_congr fun z _ => by simp [Nat.add_comm b]

/-- A seam added takes the room made for it and switches the zones it has already reached (R123). -/
theorem addSeam_eq (r : Fin 8) (s : State) :
    let y := makeRoom s
    let b := max s.pc.beltPosition (queueFloor y.tu.records)
    let due := allZones.filter fun z =>
      decide ((zsCounts s.geometry.given z + zeCounts s.geometry.given z) / 2 + b ≤ s.pc.beltPosition)
    addSeam r s = due.foldl (fun u z => switchZone z r u)
      (setRecords (y.tu.records ++ [.seam b r (withZones due 0)]) y) := by
  have hpc : (makeRoom s).pc = s.pc := by simp
  have hgeometry : (makeRoom s).geometry = s.geometry := by simp
  simp only [addSeam, dueSwitches_added, hpc, hgeometry]
  rfl

/-! ### The floor of the queue (R117) -/

theorem panelFloor_eq_none {x : TrackRecord} (h : x.slot? = none) : panelFloor x = none := by
  cases x with
  | panel k head tail => cases h
  | seam b r sw => rfl

theorem panelFloor_panel (k : Fin 32) (head : Nat) (tail : Option Nat) :
    panelFloor (.panel k head tail) = some (tail.getD head) := by
  cases tail <;> rfl

theorem queueFloor_newest_open (older : List TrackRecord) (k : Fin 32) (head : Nat) :
    queueFloor (older ++ [.panel k head none]) = head := by
  rw [queueFloor, List.getLast?_concat]

theorem queueFloor_newest_closed (older : List TrackRecord) (k : Fin 32) (head tail : Nat) :
    queueFloor (older ++ [.panel k head (some tail)]) = tail := by
  rw [queueFloor, List.getLast?_concat]

/-- With a SEAM record newest the floor is the larger of its position and what the PANEL records give (R117). -/
theorem queueFloor_newest_seam (older : List TrackRecord) (b : Nat) (r : Fin 8) (sw : ZoneSet) :
    queueFloor (older ++ [.seam b r sw]) = max b ((older.filterMap panelFloor).getLast?.getD 0) := by
  have hseam : panelFloor (.seam b r sw) = none := rfl
  rw [queueFloor, List.getLast?_concat, List.filterMap_append]
  simp [hseam]

theorem filterMap_panelFloor_of_seams {xs : List TrackRecord} (h : ∀ x ∈ xs, x.slot? = none) :
    xs.filterMap panelFloor = [] :=
  List.filterMap_eq_nil_iff.mpr fun x hx => panelFloor_eq_none (h x hx)

/-- Settles O36: a start reached by `toActive_of_room` and `toActive_outcome`, a forced retirement by
`makeRoom_panel_outcome` and `makeRoom_of_seam`, a seam by `addSeam_eq`, and the floor by its newest record. -/
theorem boundariesAndFullTrackingQueue : Obligations.BoundariesAndFullTrackingQueue := by
  refine ⟨fun k s => ⟨toActive_of_room, rfl⟩,
    ⟨fun s => ⟨makeRoom_of_room, fun k head tail rest hrecords hfull => ?_, fun _ _ _ _ => makeRoom_of_seam⟩,
      toActive_outcome, addSeam_eq⟩,
    rfl, fun older => ⟨queueFloor_newest_open older, queueFloor_newest_closed older, fun b r sw hseams => ?_,
      fun k head tail seams b r sw hseams => ?_⟩⟩
  · have houtcome := makeRoom_panel_outcome hrecords hfull
    cases tail <;> exact houtcome
  · rw [queueFloor_newest_seam, filterMap_panelFloor_of_seams hseams]
    exact Nat.max_zero b
  · rw [queueFloor_newest_seam, List.filterMap_append, List.filterMap_cons, panelFloor_panel,
      filterMap_panelFloor_of_seams hseams, List.getLast?_concat]
    rfl

end Sys2Proof.Machine
end

