-- ==== Sys2Proof/Proofs/CommitEvents.lean ====
section
/-! PROOF. The event classes that a commit may raise; the count of every other class stays (R99, R138, R146, R33,
R188). -/

namespace Sys2Proof.Machine

-- One proof after the other: many short ones at once need more threads than the memory limit leaves room for.
set_option Elab.async false

theorem eventCount_of_events {s t : State} (h : t.events = s.events) (c : EventClass) :
    t.eventCount c = s.eventCount c := by
  rw [State.eventCount, State.eventCount, h]

section

variable {c : EventClass}

/-! ### A recipe switch raises ZONE and DWELL (R138, R146) -/

theorem leaveIfInBand_eventCount (hzone : c ≠ .zone) (before : ZoneState) (z : Fin 4) (s : State) :
    (leaveIfInBand before z s).eventCount c = s.eventCount c := by
  unfold leaveIfInBand leaveInBand
  split
  · rw [eventCount_raise_other hzone]
    exact eventCount_of_events (by simp) c
  · rfl

theorem standZone_eventCount (hzone : c ≠ .zone) (s : State) (z : Fin 4) :
    (standZone s z).eventCount c = s.eventCount c := by
  unfold standZone
  split
  case h_4 | h_5 | h_6 => rfl
  all_goals exact leaveIfInBand_eventCount hzone _ z _

theorem fireStopTimer_eventCount (hzone : c ≠ .zone) (hdwell : c ≠ .dwell) (s : State) :
    (fireStopTimer s).eventCount c = s.eventCount c := by
  let fired : State := { s with heat := { s.heat with stopFired := true } }
  have hstood : (allZones.foldl standZone fired).eventCount c = s.eventCount c :=
    foldl_keeps (·.eventCount c) standZone (standZone_eventCount hzone) allZones fired
  calc (fireStopTimer s).eventCount c
    _ = (raise .dwell (markChamberPanels (allZones.foldl standZone fired))).eventCount c :=
        eventCount_of_events (by simp [fireStopTimer, fired]) c
    _ = (markChamberPanels (allZones.foldl standZone fired)).eventCount c := eventCount_raise_other hdwell _
    _ = (allZones.foldl standZone fired).eventCount c := eventCount_of_events (by simp) c
    _ = s.eventCount c := hstood

theorem clampReference_eventCount (s : State) : (clampReference s).eventCount c = s.eventCount c :=
  eventCount_of_events (by simp) c

theorem checkStopTimer_eventCount (hzone : c ≠ .zone) (hdwell : c ≠ .dwell) (s : State) :
    (checkStopTimer s).eventCount c = s.eventCount c := by
  have hrest : (restStopTimer s).eventCount c = s.eventCount c := eventCount_of_events (by simp) c
  unfold checkStopTimer
  split
  · exact (fireStopTimer_eventCount hzone hdwell _).trans hrest
  · exact hrest

theorem switchZone_eventCount (hzone : c ≠ .zone) (hdwell : c ≠ .dwell) (z : Fin 4) (r : Fin 8) (s : State) :
    (switchZone z r s).eventCount c = s.eventCount c := by
  unfold switchZone switchRecord
  split
  · rfl
  · rw [checkStopTimer_eventCount hzone hdwell, clampReference_eventCount, leaveIfInBand_eventCount hzone,
      modifyZone_eventCount]

theorem switchFor_eventCount (hzone : c ≠ .zone) (hdwell : c ≠ .dwell) (x : TrackRecord) (zs : List (Fin 4))
    (s : State) : (switchFor x zs s).eventCount c = s.eventCount c := by
  cases x with
  | panel k head tail => rfl
  | seam b r switched =>
    exact foldl_keeps (·.eventCount c) _ (fun t z => switchZone_eventCount hzone hdwell z r t) zs s

/-! ### A forced retirement raises PANEL-DONE and GARMENT-DONE as well (R119, R33) -/

theorem forceOut_eventCount (hzone : c ≠ .zone) (hdwell : c ≠ .dwell) (hpanel : c ≠ .panelDone)
    (hgarment : c ≠ .garmentDone) (x : TrackRecord) (s : State) : (forceOut x s).eventCount c = s.eventCount c := by
  cases x with
  | seam b r switched => exact switchFor_eventCount hzone hdwell (.seam b r switched) _ s
  | panel k head tail =>
    have hmarked (zs : List (Fin 4)) : (zs.foldl (fun t z => aimUnderSet z k t) s).eventCount c = s.eventCount c :=
      foldl_keeps (·.eventCount c) _ (fun t z => eventCount_of_events (by simp) c) zs s
    exact ((retireSlot_retired k _).others c hpanel hgarment).trans (hmarked _)

theorem makeRoom_eventCount (hzone : c ≠ .zone) (hdwell : c ≠ .dwell) (hpanel : c ≠ .panelDone)
    (hgarment : c ≠ .garmentDone) (s : State) : (makeRoom s).eventCount c = s.eventCount c := by
  rcases Nat.lt_or_ge s.tu.records.length trackCapacity with hroom | hfull
  · rw [makeRoom_of_room hroom]
  · obtain ⟨oldest, rest, hrecords⟩ := exists_oldest_of_full hfull
    rw [makeRoom_of_full hrecords hfull]
    exact forceOut_eventCount hzone hdwell hpanel hgarment oldest s

theorem toActive_eventCount (hzone : c ≠ .zone) (hdwell : c ≠ .dwell) (hpanel : c ≠ .panelDone)
    (hgarment : c ≠ .garmentDone) (k : Fin 32) (s : State) : (toActive k s).eventCount c = s.eventCount c := by
  let started := modifyStatus k (fun st => { st with state := .active, beltHead := some s.pc.beltPosition }) s
  obtain ⟨marks, htested⟩ := openRecord_tested k started
  have hevents : (openRecord k started).events = (makeRoom started).events := by rw [htested.rest]; rfl
  rw [toActive, eventCount_of_events hevents, makeRoom_eventCount hzone hdwell hpanel hgarment]
  rfl

/-! ### A commit raises PATTERN-LOW as well (R55, R99) -/

theorem starveTest_eventCount (hlow : c ≠ .patternLow) (s : State) :
    (starveTest s).eventCount c = s.eventCount c := by
  unfold starveTest
  dsimp only
  split_ifs
  · rfl
  · rfl
  · rfl
  · exact eventCount_raise_other hlow _
  · rfl

end

/-- A commit raises no REG-LOST. -/
theorem finishCommit_regLost (k : Fin 32) (start : Nat) (reg : Registered) (s : State) :
    (finishCommit k start reg s).eventCount .regLost = s.eventCount .regLost := by
  have hplaced : (placed k start reg s).eventCount .regLost = s.eventCount .regLost :=
    (starveTest_eventCount (by decide) _).trans (eventCount_of_events (by simp) _)
  have hplanning (t : State) : (evaluatePlanning t).eventCount .regLost = t.eventCount .regLost :=
    eventCount_of_events (by simp) _
  rw [finishCommit_eq, hplanning]
  split
  · rw [toActive_eventCount (by decide) (by decide) (by decide) (by decide), hplaced]
  · exact hplaced

end Sys2Proof.Machine
end

