-- ==== Sys2Proof/Proofs/SearchEnds.lean ====
section
/-! PROOF. A running search ends at its loss position or at a mark, and marks expire (SearchEndsAtMarkOrLoss). -/

namespace Sys2Proof.Machine

open Sys2Proof.Safety

-- One proof after the other: many short ones at once need more threads than the memory limit leaves room for.
set_option Elab.async false

/-! ### A slot committed by a search (R86, R88) -/

/-- `t` is `s` once a search has committed slot k at `start`, registered as `reg` says; the events are left open. -/
structure SearchCommitted (k : Fin 32) (start : Nat) (reg : Registered) (s t : State) : Prop where
  state : (t.status k).state = if start ≤ s.pc.webPosition then .active else .committed
  registration : (t.status k).registration = some reg
  startsAt : (t.status k).start = some start
  endPos : (t.status k).endPos = some (start + (s.status k).panelCounts)
  search : t.ps.search = none
  commitPointer : t.ps.commitPointer = k + 1
  lastEnd : t.ps.lastEnd = some (start + (s.status k).panelCounts)
  ru : t.ru = s.ru
  pc : t.pc = s.pc

theorem finishCommit_committed {k : Fin 32} {start : Nat} {reg : Registered} {s : State} (h : Spared k s) :
    SearchCommitted k start reg s (finishCommit k start reg s) := by
  obtain ⟨-, hstatus, -⟩ := finishCommit_slot (start := start) (reg := reg) h
  have hps := (finishCommit_ps (k := k) (start := start) (reg := reg) (s := s)).trans (placePanel_ps k start reg s)
  exact
    { state := by rw [hstatus]; rfl
      registration := by rw [hstatus]; rfl
      startsAt := by rw [hstatus]; rfl
      endPos := by rw [hstatus]; rfl
      search := by rw [hps]
      commitPointer := by rw [hps]
      lastEnd := by rw [hps]
      ru := by simp
      pc := by simp }

/-! ### The loss position (R88) -/

theorem reachLoss_of_reached {s : State} {r : SearchRecord} (h : s.ps.search = some r)
    (hreached : r.loss ≤ s.pc.webPosition) :
    reachLoss s = finishCommit r.slot r.loss .lost (raise .regLost s) := by
  simp only [reachLoss, h, if_pos hreached, loseSearch]

theorem reachLoss_of_ahead {s : State} {r : SearchRecord} (h : s.ps.search = some r)
    (hahead : s.pc.webPosition < r.loss) : reachLoss s = s := by
  simp only [reachLoss, h, if_neg hahead.not_ge]

/-! ### The judgement of a mark (R87) -/

theorem judgeMark_of_early {r : SearchRecord} {mk : Mark} {s : State} (h : registeredStart s r mk < r.earliest) :
    judgeMark r mk s = countSkipped r.slot 1 s := by
  rw [judgeMark, if_neg h.not_ge]

theorem judgeMark_of_far {r : SearchRecord} {mk : Mark} {s : State} (h : r.earliest ≤ registeredStart s r mk) :
    judgeMark r mk s = finishCommit r.slot (registeredStart s r mk) (.registered mk.m) s := by
  rw [judgeMark, if_pos h, acceptMark]

/-! ### The expiry of marks (R84) -/

theorem expireMarks_eq (s : State) : expireMarks s = { s with ru := { s.ru with
    marks := s.ru.marks.filter fun mk => decide (s.pc.webPosition < mk.m + msCounts s.geometry.given) } } := by
  simp only [expireMarks, State.expired, ← decide_not, Nat.not_le]

/-- Settles O27: both ends of a search are `finishCommit`, which raises no REG-LOST of its own. -/
theorem searchEndsAtMarkOrLoss : Obligations.SearchEndsAtMarkOrLoss := by
  refine ⟨fun s r hsearch hspared =>
    ⟨fun hahead => ?_, fun hreached => ?_, fun mk => ⟨fun hearly => ?_, fun hfar => ?_⟩⟩, expireMarks_eq⟩
  · exact reachLoss_of_ahead hsearch hahead
  · intro t stop
    have ht : t = finishCommit r.slot r.loss .lost (raise .regLost s) := reachLoss_of_reached hsearch hreached
    have hlost : SearchCommitted r.slot r.loss .lost (raise .regLost s) t := ht ▸ finishCommit_committed hspared
    have hraised : t.eventCount .regLost = min 255 (s.eventCount .regLost + 1) := by
      rw [ht, finishCommit_regLost, eventCount_raise_same, countUp]
    exact ⟨hlost.state.trans (if_pos hreached), hlost.registration, hlost.startsAt, hlost.endPos, hlost.search,
      hlost.commitPointer, hlost.lastEnd, hlost.ru, hlost.pc, hraised⟩
  · exact judgeMark_of_early hearly
  · obtain ⟨hstate, hregistration, hstart, hend, hnone, hpointer, hlast, hru, hpc⟩ :=
      finishCommit_committed (start := registeredStart s r mk) (reg := .registered mk.m) hspared
    rw [judgeMark_of_far hfar]
    exact ⟨hstate, hregistration, hstart, hend, hnone, hpointer, hlast, hru, hpc, finishCommit_regLost _ _ _ _⟩

end Sys2Proof.Machine
end

