-- ==== Sys2Proof/Proofs/MarkCodes.lean ====
section
/-! PROOF. SET-MARK-CODE is checked in order and replaces one entry (SetMarkCodeReplacesEntry). -/

namespace Sys2Proof.Machine

open Sys2Proof.Safety

theorem bytesOf_one (n : Nat) : bytesOf 1 n = [BitVec.ofNat 8 n] := by
  rw [bytesOf, pow_zero, Nat.div_one, bytesOf]

theorem serveSetMarkCode_of_ge {entry enabled count code mask : Nat} (h : 6 ≤ entry) (s : State) :
    serveSetMarkCode entry enabled count code mask s = (s, no .range 1) := by
  rw [serveSetMarkCode, dif_neg h.not_gt, refuse]

/-- The state with entry i of the code table replaced (R80). -/
def withCode (i : Fin 6) (e : CodeEntry) (s : State) : State :=
  { s with ru := { s.ru with codes := s.ru.codes.set i.val e i.isLt } }

theorem withCode_countAccepted (i : Fin 6) (e : CodeEntry) (s : State) :
    withCode i e (countAccepted s) = countAccepted (withCode i e s) := rfl

theorem serveSetMarkCode_of_lt (i : Fin 6) (enabled count code mask : Nat) (s : State) :
    serveSetMarkCode i.val enabled count code mask s =
      if 2 ≤ enabled then (s, no .range 2)
      else if count = 0 ∨ 9 ≤ count then (s, no .range 3)
      else if 2 ^ count ≤ code then (s, no .range 4)
      else if 2 ^ count ≤ mask then (s, no .range 5)
      else (withCode i { enabled := enabled == 1, count := count, code := code, mask := mask } s,
        .done (bytesOf 1 i.val ++ bytesOf 1 enabled ++ bytesOf 1 count ++ bytesOf 1 code ++ bytesOf 1 mask)) := by
  have hcount : (count < 1 ∨ 8 < count) ↔ (count = 0 ∨ 9 ≤ count) := by omega
  simp only [serveSetMarkCode, dif_pos i.isLt, hcount, bytesOf_one]
  rfl

theorem serveSetMarkCode_countAccepted (i : Fin 6) (enabled count code mask : Nat) (s : State) :
    serveSetMarkCode i.val enabled count code mask (countAccepted s) =
      (countAccepted (serveSetMarkCode i.val enabled count code mask s).1,
        (serveSetMarkCode i.val enabled count code mask s).2) := by
  simp only [serveSetMarkCode_of_lt, withCode_countAccepted]
  split_ifs <;> rfl

/-- Settles O38: the checks are those of `serveSetMarkCode_of_lt`, carried over the counting of the frame by
`acceptRequest_eq_answered`. -/
theorem setMarkCodeReplacesEntry : Obligations.SetMarkCodeReplacesEntry := by
  intro src entry enabled count code mask s r c
  refine ⟨fun hentry => ?_, fun i hi => ?_⟩
  · exact congrArg Host.Outcome.next (acceptRequest_eq_answered (serveSetMarkCode_of_ge hentry (countAccepted s)))
  · subst hi
    refine congrArg Host.Outcome.next ?_
    rw [acceptRequest_eq_answered (serveSetMarkCode_countAccepted i enabled count code mask s), serveSetMarkCode_of_lt]
    split_ifs <;> rfl

end Sys2Proof.Machine
end

