-- ==== Sys2Proof/Proofs/MarkGroups.lean ====
section
/-! PROOF. Mark edges measure bars, and an ended group is judged (MarkEdgesAndGroups). -/

namespace Sys2Proof.Machine

-- One proof after the other: many short ones at once need more threads than the memory limit leaves room for.
set_option Elab.async false

/-! ### The match of a group (R81) -/

/-- A group fits a code table entry: enabled, of its bar count, and with the entry's bits wherever its mask has one. -/
def Fits (g : Group) (e : CodeEntry) : Prop :=
  e.enabled = true ∧ e.count = g.count ∧
    ∀ b : Fin 64, e.mask.testBit b.val = true → g.bits.testBit b.val = e.code.testBit b.val

/-- Two numbers agree under a mask of 64 bits where their difference under it is 0. -/
theorem land_xor_eq_zero_iff {x y mask : Nat} (h : mask < 2 ^ 64) :
    Nat.land (Nat.xor x y) mask = 0 ↔
      ∀ b : Fin 64, mask.testBit b.val = true → x.testBit b.val = y.testBit b.val := by
  have hbit (i : Nat) : (Nat.land (Nat.xor x y) mask).testBit i = ((x.testBit i ^^ y.testBit i) && mask.testBit i) := by
    rw [← Nat.testBit_xor, ← Nat.testBit_and]
    rfl
  constructor
  · intro hzero b hb
    have hdiffer := hbit b.val
    rw [hzero, Nat.zero_testBit, hb, Bool.and_true] at hdiffer
    simpa using hdiffer.symm
  · intro hagree
    refine Nat.eq_of_testBit_eq fun i => ?_
    rw [hbit, Nat.zero_testBit]
    cases hi : mask.testBit i with
    | false => exact Bool.and_false _
    | true =>
      have hlt : i < 64 := (Nat.pow_lt_pow_iff_right (by decide)).mp ((Nat.ge_two_pow_of_testBit hi).trans_lt h)
      rw [hagree ⟨i, hlt⟩ hi, Bool.xor_self, Bool.false_and]

theorem entryMatches_iff {g : Group} {e : CodeEntry} (h : e.mask < 2 ^ 64) : entryMatches g e = true ↔ Fits g e := by
  simp only [entryMatches, Fits, Bool.and_eq_true, beq_iff_eq, land_xor_eq_zero_iff h, and_assoc]

section

variable {g : Group} {s : State} (hmask : ∀ i : Fin 6, (s.ru.codes[i.val]'i.isLt).mask < 2 ^ 64)

include hmask

theorem matchingEntry_eq_none_iff :
    s.matchingEntry g = none ↔ ∀ i : Fin 6, ¬ Fits g (s.ru.codes[i.val]'i.isLt) := by
  simp only [State.matchingEntry, List.find?_eq_none, List.mem_finRange, forall_const, entryMatches_iff (hmask _)]

/-- The entry a group matches is the lowest that it fits (R81). -/
theorem matchingEntry_eq_some_iff (i : Fin 6) : s.matchingEntry g = some i ↔
    Fits g (s.ru.codes[i.val]'i.isLt) ∧ ∀ j < i, ¬ Fits g (s.ru.codes[j.val]'j.isLt) := by
  simp only [← entryMatches_iff (hmask _)]
  exact List.find?_ofFn_eq_some_of_injective (f := fun i : Fin 6 => i) Function.injective_id

end

/-! ### The judgement of a group (R81 to R83) -/

theorem judgeGroup_of_overlong {g : Group} {s : State} (h : g.overlong = true) :
    judgeGroup g s = raise .markFault s := by
  rw [judgeGroup, if_pos h]

section

variable {g : Group} {s : State} (h : g.overlong = false)

include h

theorem judgeGroup_of_no_entry (hnone : s.matchingEntry g = none) : judgeGroup g s = s := by
  simp [judgeGroup, h, hnone]

theorem judgeGroup_of_entry {i : Fin 6} (hsome : s.matchingEntry g = some i) :
    judgeGroup g s = screenMark { entry := i, m := g.first } s := by
  simp [judgeGroup, h, hsome]

end

theorem offerMark_of_searched {mk : Mark} {r : SearchRecord} {s : State} (hsearch : s.ps.search = some r)
    (hentry : r.entry = mk.entry) : offerMark mk s = judgeMark r mk s := by
  simp only [offerMark, hsearch, hentry, if_true]

theorem offerMark_of_not_searched {mk : Mark} {s : State} (h : ∀ r ∈ s.ps.search, r.entry ≠ mk.entry) :
    offerMark mk s = queueMark mk s := by
  unfold offerMark
  split
  · next r hsearch => rw [if_neg (h r hsearch).symm]
  · rfl

/-! ### A bar ends (R76 to R78) -/

theorem toNat_decide_eq_ite (p : Prop) [Decidable p] : (decide p).toNat = if p then 1 else 0 := by
  split_ifs with h <;> simp [h]

/-- A bar with no group open is noise, or opens a group. -/
theorem endBar_alone (lead : Nat) (s : State) : endBar lead none s =
    if s.pc.webPosition - lead < minBarCounts s.geometry.given then setBar .idle s
    else setBar (.inSpace
      { first := lead, lastTrailing := s.pc.webPosition, count := 1,
        bits := if wideCounts s.geometry.given ≤ s.pc.webPosition - lead then 1 else 0, overlong := false }) s := by
  simp only [endBar, keepBar, toNat_decide_eq_ite]

/-- A bar with a group open is noise, which ends the group where it lies beyond the gap, or joins the group. -/
theorem endBar_joining (lead : Nat) (g : Group) (s : State) : endBar lead (some g) s =
    if s.pc.webPosition - lead < minBarCounts s.geometry.given then
      if g.lastTrailing + groupGapCounts s.geometry.given < s.pc.webPosition then judgeGroup g (setBar .idle s)
      else setBar (.inSpace g) s
    else if g.count < 8 then
      setBar (.inSpace { g with
        lastTrailing := s.pc.webPosition
        count := g.count + 1
        bits := 2 * g.bits + if wideCounts s.geometry.given ≤ s.pc.webPosition - lead then 1 else 0 }) s
    else setBar (.inSpace { g with lastTrailing := s.pc.webPosition, overlong := true }) s := by
  simp only [endBar, keepBar, toNat_decide_eq_ite]
  split_ifs <;> rfl

/-! ### The edges of MARK (R75, R76, log entry 10) -/

/-- The state with MARK at another level. -/
def withMark (active : Bool) (s : State) : State := { s with inputs := { s.inputs with mark := active } }

theorem exec_markEdge_of_same {active : Bool} {s : State} (h : active = s.inputs.mark) :
    exec (.markEdge active) s = .next s := by
  change execMarkEdge active s = _
  rw [execMarkEdge, if_pos h]

theorem exec_markEdge_of_edge {active : Bool} {s : State} (h : active ≠ s.inputs.mark) :
    exec (.markEdge active) s = .next (refresh (
      if s.geometry.valid = false then setBar (restingBar active) (withMark active s)
      else if active then leadingEdge (withMark active s) else trailingEdge (withMark active s))) := by
  change execMarkEdge active s = _
  rw [execMarkEdge, if_neg h]
  rfl

theorem setBar_of_same {b : BarState} {s : State} (h : s.ru.bar = b) : setBar b s = s := by
  subst h
  rfl

section

variable {s : State}

theorem leadingEdge_of_idle (h : s.ru.bar = .idle) : leadingEdge s = setBar (.inBar s.pc.webPosition none) s := by
  simp only [leadingEdge, h]

/-- A leading edge ends an open group where the space before it exceeds the gap, and keeps it open otherwise. -/
theorem leadingEdge_of_inSpace {g : Group} (h : s.ru.bar = .inSpace g) : leadingEdge s =
    if groupGapCounts s.geometry.given < s.pc.webPosition - g.lastTrailing then
      judgeGroup g (setBar (.inBar s.pc.webPosition none) s)
    else setBar (.inBar s.pc.webPosition (some g)) s := by
  simp only [leadingEdge, h]

theorem leadingEdge_of_inBar {lead : Nat} {group : Option Group} (h : s.ru.bar = .inBar lead group) :
    leadingEdge s = s := by
  simp only [leadingEdge, h]

theorem leadingEdge_of_waitLight (h : s.ru.bar = .waitLight) : leadingEdge s = s := by
  simp only [leadingEdge, h]

theorem trailingEdge_of_inBar {lead : Nat} {group : Option Group} (h : s.ru.bar = .inBar lead group) :
    trailingEdge s = endBar lead group s := by
  simp only [trailingEdge, h]

theorem trailingEdge_of_waitLight (h : s.ru.bar = .waitLight) : trailingEdge s = setBar .idle s := by
  simp only [trailingEdge, h]

theorem trailingEdge_of_idle (h : s.ru.bar = .idle) : trailingEdge s = s := by
  simp only [trailingEdge, h]

theorem trailingEdge_of_inSpace {g : Group} (h : s.ru.bar = .inSpace g) : trailingEdge s = s := by
  simp only [trailingEdge, h]

end

/-- Settles O37: an edge is `leadingEdge` or `trailingEdge` with MARK at its new level, by the bar measurement it finds;
an ended group is judged by the lowest entry it fits. -/
theorem markEdgesAndGroups : Obligations.MarkEdgesAndGroups := by
  refine ⟨fun active s => ⟨exec_markEdge_of_same, fun hedge => ?_⟩, fun g s => ?_⟩
  · intro here gap t
    have hsame {b : BarState} (hb : s.ru.bar = b) : withMark active s = t b :=
      (setBar_of_same (s := withMark active s) hb).symm
    have hbar {b : BarState} (hb : s.ru.bar = b) : (withMark active s).ru.bar = b := hb
    rw [exec_markEdge_of_edge hedge]
    refine congrArg (fun u => Host.Outcome.next (refresh u)) (ite_congr rfl (fun _ => rfl) fun _ => ?_)
    cases active with
    | true =>
      rw [if_pos rfl]
      cases hb : s.ru.bar with
      | idle => exact leadingEdge_of_idle (hbar hb)
      | inSpace g => exact leadingEdge_of_inSpace (hbar hb)
      | inBar lead group => exact (leadingEdge_of_inBar (hbar hb)).trans (hsame hb)
      | waitLight => exact (leadingEdge_of_waitLight (hbar hb)).trans (hsame hb)
    | false =>
      rw [if_neg Bool.false_ne_true]
      cases hb : s.ru.bar with
      | inBar lead group =>
        rw [trailingEdge_of_inBar (hbar hb)]
        cases group with
        | none => exact endBar_alone lead (withMark false s)
        | some g => exact endBar_joining lead g (withMark false s)
      | waitLight => exact trailingEdge_of_waitLight (hbar hb)
      | idle => exact (trailingEdge_of_idle (hbar hb)).trans (hsame hb)
      | inSpace g => exact (trailingEdge_of_inSpace (hbar hb)).trans (hsame hb)
  · intro fits hmask
    refine ⟨judgeGroup_of_overlong, fun hshort hnone => ?_, fun i hshort hi hfirst => ?_⟩
    · exact judgeGroup_of_no_entry hshort ((matchingEntry_eq_none_iff hmask).mpr hnone)
    · intro t
      have hjudged : judgeGroup g s = screenMark { entry := i, m := g.first } s :=
        judgeGroup_of_entry hshort ((matchingEntry_eq_some_iff hmask i).mpr ⟨hi, hfirst⟩)
      rw [hjudged]
      refine ⟨fun ⟨l, hl, hle⟩ => screenMark_of_read hl hle, fun hnew => ?_⟩
      rw [screenMark_of_new hnew]
      refine ⟨fun hpast => if_pos hpast, fun hahead r hsearch hentry => ?_, fun hahead hother => ?_⟩
      · rw [if_neg hahead.not_ge]
        exact offerMark_of_searched hsearch hentry
      · rw [if_neg hahead.not_ge]
        exact offerMark_of_not_searched hother

end Sys2Proof.Machine
end

