-- ==== Sys2Proof/Proofs/Starve.lean ====
section
/-! PROOF. The test of STARVE, the ceiling and the resumption of zones, each in one formula (R97 to R99, R104, R147). -/

namespace Sys2Proof.Machine

open Sys2Proof.Safety

-- One proof after the other: many short ones at once need more threads than the memory limit leaves room for.
set_option Elab.async false

/-! ### STARVE (R99) -/

/-- Whether STARVE is in force once the pattern reserve has been tested (R99). -/
def State.starves (s : State) : Bool :=
  if s.geometry.valid = false then s.lg.starve
  else if s.lg.starve then
    decide (s.reserve < starveCounts s.geometry.given + hysteresisCounts s.geometry.given)
  else decide (s.reserve < starveCounts s.geometry.given ∧ s.lg.freeze = none)

/-- STARVE set to a value, with PATTERN-LOW where it enters force (R99). -/
def setStarve (b : Bool) (s : State) : State :=
  if s.lg.starve = false ∧ b = true then raise .patternLow { s with lg := { s.lg with starve := b } }
  else { s with lg := { s.lg with starve := b } }

theorem starveTest_eq (s : State) : starveTest s = setStarve s.starves s := by
  have same (b : Bool) (h : s.lg.starve = b) : ({ s with lg := { s.lg with starve := b } } : State) = s := by
    subst h; rfl
  unfold starveTest State.starves setStarve
  dsimp only
  by_cases hvalid : s.geometry.valid = false
  · simp [hvalid]
  · cases hstarve : s.lg.starve
    · by_cases hlow : s.reserve < starveCounts s.geometry.given ∧ s.lg.freeze = none
      · simp [hvalid, hlow]
      · simp [hvalid, hlow, same false hstarve]
    · by_cases hrefill : starveCounts s.geometry.given + hysteresisCounts s.geometry.given ≤ s.reserve
      · simp [hvalid, hrefill, hrefill.not_gt]
      · simp [hvalid, hrefill, Nat.lt_of_not_le hrefill, same true hstarve]

section

variable (b : Bool) (s : State)

theorem setStarve_lg : (setStarve b s).lg = { s.lg with starve := b } := by
  unfold setStarve
  split <;> rfl

theorem setStarve_eq_update :
    setStarve b s = { s with lg := { s.lg with starve := b }, events := (setStarve b s).events } := by
  unfold setStarve
  split <;> rfl

theorem setStarve_eventCount (c : EventClass) : (setStarve b s).eventCount c =
    if c = .patternLow ∧ s.lg.starve = false ∧ b = true then min 255 (s.eventCount c + 1) else s.eventCount c := by
  unfold setStarve
  by_cases henters : s.lg.starve = false ∧ b = true
  · by_cases hc : c = .patternLow
    · subst hc
      rw [if_pos henters, if_pos ⟨rfl, henters⟩]
      exact eventCount_raise_same .patternLow _
    · rw [if_pos henters, if_neg fun h => hc h.1]
      exact eventCount_raise_other hc _
  · rw [if_neg henters, if_neg fun h => henters h.2]
    rfl

theorem setStarve_masks : (setStarve b s).events.mask1 = s.events.mask1 ∧
    (setStarve b s).events.mask2 = s.events.mask2 := by
  unfold setStarve
  split <;> exact ⟨rfl, rfl⟩

end

theorem starveTest_lg (s : State) : (starveTest s).lg = { s.lg with starve := s.starves } := by
  rw [starveTest_eq, setStarve_lg]

/-! ### The ceiling (R97, R104) -/

/-- What the ceiling is worked out from (R97, R144). -/
theorem ceiling_congr {s t : State} (hgeometry : t.geometry = s.geometry) (hlimits : t.limits = s.limits)
    (hzones : ∀ z, (t.zone z).recipe = (s.zone z).recipe) (hrecipes : t.heat.recipes = s.heat.recipes)
    (hfeeding : t.feedingRecipe = s.feedingRecipe) (hhost : t.lg.hostSpeed = s.lg.hostSpeed) :
    t.ceiling = s.ceiling := by
  have hrecipe (r : Fin 8) : t.recipe r = s.recipe r := by simp only [State.recipe, hrecipes]
  have hdmin : t.largestDmin = s.largestDmin := by
    simp only [State.largestDmin, State.zoneRecipes, hzones, hfeeding, hrecipe]
  have hdwell : t.dwellLimit = s.dwellLimit := by
    simp only [State.dwellLimit, hdmin, hgeometry]
  simp only [State.ceiling, hdwell, hlimits, hhost]

theorem clampReference_lg (s : State) : (clampReference s).lg = { s.lg with
    reference := if s.lg.freeze = none ∧ s.ceiling < s.lg.reference then s.ceiling else s.lg.reference
    lineState := if (s.lg.freeze = none ∧ s.ceiling < s.lg.reference) ∧ s.ceiling = 0 ∧ s.lg.lineState = .stopping
      then .stopped else s.lg.lineState } := by
  unfold clampReference
  by_cases hover : s.lg.freeze = none ∧ s.ceiling < s.lg.reference
  · rw [if_pos hover, if_pos hover]
    simp only [hover, true_and, and_comm]
  · rw [if_neg hover, if_neg hover, if_neg fun h => hover h.1]

theorem clampReference_eq (s : State) : clampReference s = { s with lg := (clampReference s).lg } := by
  unfold clampReference
  split <;> rfl

/-! ### The zones in STANDBY (R147) -/

theorem resumedZone_eq (zn : Zone) :
    resumedZone zn = if zn.state = .standby then { zn with state := .warming, settle := none } else zn := by
  unfold resumedZone
  cases h : zn.state <;> simp

theorem vector_four_ext {α : Type} {v w : Vector α 4} (h : ∀ z : Fin 4, v[z.val] = w[z.val]) : v = w :=
  Vector.ext fun i hi => h ⟨i, hi⟩

/-- One change made to each of the four zones is made to all of them at once. -/
theorem foldl_modifyZone (f : Zone → Zone) (s : State) :
    allZones.foldl (fun t z => modifyZone z f t) s =
      { s with heat := { s.heat with zones := s.heat.zones.map f } } := by
  have hzones : (allZones.foldl (fun t z => modifyZone z f t) s).heat.zones = s.heat.zones.map f := by
    refine vector_four_ext fun z => ?_
    fin_cases z <;> simp [allZones, modifyZone, State.zone]
  rw [← hzones]
  rfl

theorem resumeZones_eq (s : State) : resumeZones s = { s with
    heat := { s.heat with
      zones := s.heat.zones.map fun zn =>
        if zn.state = .standby then { zn with state := .warming, settle := none } else zn } } := by
  unfold resumeZones
  rw [foldl_modifyZone, funext resumedZone_eq]

end Sys2Proof.Machine
end

