-- ==== Sys2Proof/Proofs/Causes.lean ====
section
/-! PROOF. A trip cause reported to LG: what becomes of the line, the rolls and the events (CauseIsTakenIntoTripRecord). -/

namespace Sys2Proof.Machine

open Sys2Proof.Safety

-- One proof after the other: many short ones at once need more threads than the memory limit leaves room for.
set_option Elab.async false

/-! ### The freeze ends in TRIPPED (R102, R104) -/

/-- The freeze removed and a deferred STOP forgotten, with HOLD as its input says (R102). -/
def unfrozen (s : State) : State :=
  { s with lg := { s.lg with freeze := none, deferredStop := false, hold := s.inputs.takeOffHold } }

theorem tripFreeze_of_none {s : State} (h : s.lg.freeze = none) :
    tripFreeze s = { s with lg := { s.lg with freeze := none, deferredStop := false } } := by
  simp only [tripFreeze, h]

theorem tripFreeze_of_some {s : State} (h : s.lg.freeze ≠ none) :
    tripFreeze s = clampReference (setStarve (unfrozen s).starves (unfrozen s)) := by
  rw [← starveTest_eq]
  unfold tripFreeze
  split
  · next hnone => exact absurd hnone h
  · rfl

theorem ceiling_setStarve (b : Bool) (s : State) : (setStarve b s).ceiling = s.ceiling := by
  unfold setStarve
  split <;> rfl

/-- The governor once the freeze, if there is one, has ended in TRIPPED (R102, R104). -/
theorem tripFreeze_lg {s : State} (htripped : s.lg.lineState = .tripped) : (tripFreeze s).lg = { s.lg with
    freeze := none
    deferredStop := false
    hold := if s.lg.freeze ≠ none then s.inputs.takeOffHold else s.lg.hold
    starve := if s.lg.freeze ≠ none then (unfrozen s).starves else s.lg.starve
    reference := if s.lg.freeze ≠ none ∧ s.ceiling < s.lg.reference then s.ceiling else s.lg.reference } := by
  by_cases hfreeze : s.lg.freeze = none
  · rw [tripFreeze_of_none hfreeze]
    simp [hfreeze]
  · have hceiling : (unfrozen s).ceiling = s.ceiling := rfl
    rw [tripFreeze_of_some hfreeze, clampReference_lg, ceiling_setStarve, setStarve_lg, hceiling]
    simp [hfreeze, unfrozen, htripped]

theorem tripFreeze_events {s : State} : (tripFreeze s).events =
    if s.lg.freeze ≠ none then (setStarve (unfrozen s).starves (unfrozen s)).events else s.events := by
  by_cases hfreeze : s.lg.freeze = none
  · rw [tripFreeze_of_none hfreeze, if_neg (not_not_intro hfreeze)]
  · rw [tripFreeze_of_some hfreeze, if_pos hfreeze]
    simp

/-! ### The splice in TRIPPED (R163, R169) -/

/-- The splice record abandoned, where it is in PASTE (R169). -/
def State.pasteRecord (s : State) : Option SpliceRecord := s.rolls.splice.filter fun r => r.phase == .paste

theorem tripSplice_eq (s : State) : tripSplice s = match s.pasteRecord with
    | some r => failPaste r (dropPlan s)
    | none => dropPlan s := by
  unfold tripSplice State.pasteRecord
  cases hsplice : s.rolls.splice with
  | none => rfl
  | some r => cases hphase : r.phase <;> simp [Option.filter, hphase]

theorem failPaste_eventCount (r : SpliceRecord) (s : State) (c : EventClass) : (failPaste r s).eventCount c =
    if c = .spliceFail then min 255 (s.eventCount c + 1) else s.eventCount c := by
  unfold failPaste
  dsimp only
  by_cases hc : c = .spliceFail
  · subst hc
    rw [if_pos rfl, eventCount_raise_same]
    simp [countUp, State.eventCount]
  · rw [if_neg hc, eventCount_raise_other hc]
    simp [State.eventCount]

theorem tripSplice_eventCount (s : State) (c : EventClass) : (tripSplice s).eventCount c =
    if c = .spliceFail ∧ s.pasteRecord ≠ none then min 255 (s.eventCount c + 1) else s.eventCount c := by
  rw [tripSplice_eq]
  cases hpaste : s.pasteRecord with
  | none => simp [State.eventCount]
  | some r =>
    rw [failPaste_eventCount]
    simp [State.eventCount]

theorem tripSplice_masks (s : State) : (tripSplice s).events.mask1 = s.events.mask1 ∧
    (tripSplice s).events.mask2 = s.events.mask2 := by
  rw [tripSplice_eq]
  cases s.pasteRecord with
  | none => exact ⟨rfl, rfl⟩
  | some r => simp [failPaste]

/-- The rolls once the line has tripped: the plan dropped, and a splice in PASTE abandoned (R163, R169). -/
theorem tripSplice_rolls (s : State) : (tripSplice s).rolls = match s.pasteRecord with
    | some r => { (modifyUnwind r.new failedRoll s).rolls with plan := none, splice := none }
    | none => { s.rolls with plan := none } := by
  rw [tripSplice_eq]
  cases s.pasteRecord with
  | none => rfl
  | some r => cases hnew : r.new <;> simp [failPaste, modifyUnwind, dropPlan, hnew]

/-! ### A primary cause (R106) -/

/-- The line TRIPPED on a primary cause, with TRIP raised (R106). -/
def recordTrip (c : Cause) (s : State) : State :=
  raise .trip { s with lg := { s.lg with lineState := .tripped, primary := some c, further := 0 } }

/-- The trip of a primary cause, step by step: the line, its freeze, the splice (R106). -/
theorem enterTripped_eq (c : Cause) (s : State) : enterTripped c s = tripSplice (tripFreeze (recordTrip c s)) := rfl

/-- STARVE as a trip leaves it: tested again where a freeze ends (R102). -/
def State.starvesTripped (s : State) : Bool :=
  if ¬ (s.geometry.valid = true ∧ s.lg.freeze ≠ none) then s.lg.starve
  else if s.lg.starve then
    decide (s.reserve < starveCounts s.geometry.given + hysteresisCounts s.geometry.given)
  else decide (s.reserve < starveCounts s.geometry.given)

theorem starves_unfrozen (c : Cause) (s : State) (h : s.lg.freeze ≠ none) :
    (unfrozen (recordTrip c s)).starves = s.starvesTripped := by
  have hreserve : (unfrozen (recordTrip c s)).reserve = s.reserve := rfl
  have hgeometry : (unfrozen (recordTrip c s)).geometry = s.geometry := rfl
  have hstarve : (unfrozen (recordTrip c s)).lg.starve = s.lg.starve := rfl
  have hfreeze : (unfrozen (recordTrip c s)).lg.freeze = none := rfl
  unfold State.starves State.starvesTripped
  rw [hreserve, hgeometry, hstarve, hfreeze]
  cases s.geometry.valid <;> simp [h]

theorem enterTripped_lg (c : Cause) (s : State) : (enterTripped c s).lg = { s.lg with
    lineState := .tripped
    primary := some c
    further := 0
    freeze := none
    deferredStop := false
    hold := if s.lg.freeze ≠ none then s.inputs.takeOffHold else s.lg.hold
    starve := s.starvesTripped
    reference := if s.lg.freeze ≠ none ∧ s.ceiling < s.lg.reference then s.ceiling else s.lg.reference } := by
  have hceiling : (recordTrip c s).ceiling = s.ceiling := rfl
  have hfreeze : (recordTrip c s).lg.freeze = s.lg.freeze := rfl
  have hstarve : (if s.lg.freeze ≠ none then (unfrozen (recordTrip c s)).starves else s.lg.starve) =
      s.starvesTripped := by
    by_cases h : s.lg.freeze = none
    · simp [h, State.starvesTripped]
    · rw [if_pos h, starves_unfrozen c s h]
  have hsplice : (enterTripped c s).lg = (tripFreeze (recordTrip c s)).lg := by simp only [enterTripped_eq, tripSplice_frame]
  rw [hsplice, tripFreeze_lg rfl, hceiling, hfreeze, ← hstarve]
  rfl

theorem enterTripped_eventCount (c : Cause) (s : State) (k : EventClass) : (enterTripped c s).eventCount k =
    if k = .trip ∨ (k = .patternLow ∧ s.lg.starve = false ∧ s.starvesTripped = true) ∨
      (k = .spliceFail ∧ s.pasteRecord ≠ none) then min 255 (s.eventCount k + 1) else s.eventCount k := by
  have hpaste : (tripFreeze (recordTrip c s)).pasteRecord = s.pasteRecord := by
    simp [State.pasteRecord, recordTrip]
  have htrip : (recordTrip c s).eventCount k =
      if k = .trip then min 255 (s.eventCount k + 1) else s.eventCount k := by
    by_cases hk : k = .trip
    · rw [if_pos hk, hk]
      exact eventCount_raise_same _ _
    · rw [if_neg hk]
      exact eventCount_raise_other hk _
  have hlow : (tripFreeze (recordTrip c s)).eventCount k =
      if k = .patternLow ∧ s.lg.starve = false ∧ s.starvesTripped = true then
        min 255 ((recordTrip c s).eventCount k + 1) else (recordTrip c s).eventCount k := by
    by_cases h : s.lg.freeze = none
    · have hsame : ¬ (k = .patternLow ∧ s.lg.starve = false ∧ s.starvesTripped = true) := by
        simp +contextual [State.starvesTripped, h]
      rw [if_neg hsame]
      exact eventCount_of_events (by rw [tripFreeze_events]; exact if_neg (not_not_intro h)) k
    · rw [← starves_unfrozen c s h]
      have hevents : (tripFreeze (recordTrip c s)).events =
          (setStarve (unfrozen (recordTrip c s)).starves (unfrozen (recordTrip c s))).events := by
        rw [tripFreeze_events]
        exact if_pos h
      exact (eventCount_of_events hevents k).trans (setStarve_eventCount _ _ k)
  rw [enterTripped_eq, tripSplice_eventCount, hpaste, hlow, htrip]
  cases k <;> simp

theorem enterTripped_masks (c : Cause) (s : State) : (enterTripped c s).events.mask1 = s.events.mask1 ∧
    (enterTripped c s).events.mask2 = s.events.mask2 := by
  have hmasks : (tripFreeze (recordTrip c s)).events.mask1 = s.events.mask1 ∧
      (tripFreeze (recordTrip c s)).events.mask2 = s.events.mask2 := by
    rw [tripFreeze_events]
    split
    · exact setStarve_masks _ (unfrozen (recordTrip c s))
    · exact ⟨rfl, rfl⟩
  rw [enterTripped_eq, (tripSplice_masks _).1, (tripSplice_masks _).2]
  exact hmasks

theorem enterTripped_rolls (c : Cause) (s : State) : (enterTripped c s).rolls = match s.pasteRecord with
    | some r => { (modifyUnwind r.new failedRoll s).rolls with plan := none, splice := none }
    | none => { s.rolls with plan := none } := by
  have hrolls : (tripFreeze (recordTrip c s)).rolls = s.rolls := by simp [recordTrip]
  have hmodify (u : UnwindId) : (modifyUnwind u failedRoll (tripFreeze (recordTrip c s))).rolls =
      (modifyUnwind u failedRoll s).rolls := by
    cases u <;> simp [modifyUnwind, recordTrip]
  rw [enterTripped_eq, tripSplice_rolls, State.pasteRecord, hrolls]
  simp only [hmodify]
  rfl

/-! ### A cause reported (R105 to R107) -/

theorem immediate_eq (c : Cause) : c.immediate = (c == .eStop || c == .webBreak || c == .encoder) := by
  cases c <;> rfl

/-- The governor with its reference at 0 and both step generators idle, where a cause is immediate (R107). -/
def Governor.stoppedBy (c : Cause) (g : Governor) : Governor :=
  if c.immediate then { g with reference := 0, infeedPeriod := none, beltPeriod := none } else g

theorem reportCause_of_not_taken {c : Cause} {s : State} (h : s.takesCause c = false) : reportCause c s = s := by
  simp [reportCause, h]

theorem reportCause_of_taken {c : Cause} {s : State} (h : s.takesCause c = true) :
    reportCause c s = { takeCause c s with lg := (takeCause c s).lg.stoppedBy c } := by
  unfold reportCause Governor.stoppedBy
  rw [if_pos h]
  split <;> rfl

theorem takesCause_iff (c : Cause) (s : State) : s.takesCause c = true ↔
    (c = .heat → s.lg.lineState ≠ .unconfigured ∧ s.lg.lineState ≠ .stopped) := by
  unfold State.takesCause
  split <;> simp_all

theorem reportCause_of_tripped {s : State} (c : Cause) (h : s.lg.lineState = .tripped) : reportCause c s = { s with
    lg := Governor.stoppedBy c { s.lg with
      further := if s.lg.primary = some c ∨ s.lg.further.getLsbD c.number = true then s.lg.further
        else s.lg.further ||| BitVec.twoPow 10 c.number } } := by
  have htaken : s.takesCause c = true := (takesCause_iff c s).mpr fun _ => by simp [h]
  have hholds : s.holdsCause c = true ↔ s.lg.primary = some c ∨ s.lg.further.getLsbD c.number = true := by
    simp [State.holdsCause]
  rw [reportCause_of_taken htaken, takeCause, if_pos h]
  by_cases hheld : s.holdsCause c = true
  · rw [if_pos hheld, if_pos (hholds.mp hheld)]
  · rw [if_neg hheld, if_neg (mt hholds.mpr hheld)]

/-- Outside TRIPPED a cause that is taken is the primary cause of a trip (R106, R107). -/
theorem reportCause_of_trip {c : Cause} {s : State} (htaken : s.takesCause c = true) (h : s.lg.lineState ≠ .tripped) :
    reportCause c s = { enterTripped c s with lg := (enterTripped c s).lg.stoppedBy c } := by
  rw [reportCause_of_taken htaken, takeCause, if_neg h]

theorem eq_update_line_rolls_events {s t : State} (hpc : t.pc = s.pc) (hgeometry : t.geometry = s.geometry)
    (hlimits : t.limits = s.limits) (hslots : t.slots = s.slots) (hps : t.ps = s.ps) (hblade : t.blade = s.blade)
    (hru : t.ru = s.ru) (htu : t.tu = s.tu) (hheat : t.heat = s.heat) (hlink : t.link = s.link)
    (hinputs : t.inputs = s.inputs) (hpending : t.pending = s.pending) (hraces : t.races = s.races) :
    t = { s with lg := t.lg, rolls := t.rolls, events := t.events } := by
  cases s
  cases t
  simp_all

/-- Settles O39: outside TRIPPED the cause is `reportCause_of_trip`, read off part by part, and in TRIPPED it is
`reportCause_of_tripped`. -/
theorem causeIsTakenIntoTripRecord : Obligations.CauseIsTakenIntoTripRecord := by
  intro c s now stop
  have hstop : stop = Governor.stoppedBy c := by
    funext g
    simp only [stop, now, Governor.stoppedBy, immediate_eq]
  refine ⟨fun hheat hrest => reportCause_of_not_taken ?_, fun h => ?_, fun h hheat => ?_⟩
  · rw [Bool.eq_false_iff, ne_eq, takesCause_iff]
    exact fun htaken => hrest.elim (htaken hheat).1 (htaken hheat).2
  · rw [hstop, reportCause_of_tripped c h]
  · intro t low held tested
    have htaken : s.takesCause c = true := (takesCause_iff c s).mpr fun hc => by
      rcases hheat hc with h | h <;> simp [h]
    have ht : t = { enterTripped c s with lg := (enterTripped c s).lg.stoppedBy c } := reportCause_of_trip htaken h
    obtain ⟨hpc, hgeometry, hlimits, hslots, hps, hblade, hru, htu, hheat', hlink, hinputs, hpending, hraces⟩ :=
      reportCause_frame c s
    have hevents (k : EventClass) : t.eventCount k = (enterTripped c s).eventCount k := by rw [ht]; rfl
    have hstarve : t.lg.starve = s.starvesTripped := by
      have hkept (g : Governor) : (g.stoppedBy c).starve = g.starve := by
        unfold Governor.stoppedBy
        split <;> rfl
      rw [ht]
      exact (hkept _).trans (by rw [enterTripped_lg])
    have hrolls : t.rolls = (enterTripped c s).rolls := by rw [ht]
    have hpaste : s.pasteRecord = s.rolls.splice.filter fun r => r.phase == .paste := rfl
    refine ⟨eq_update_line_rolls_events hpc hgeometry hlimits hslots hps hblade hru htu hheat' hlink hinputs hpending
      hraces, ?_, ?_, ?_, fun k htrip hlow hfail => ?_, ?_, ?_, fun hnone => ?_, fun r hr hcut => ?_,
      fun r hr hphase => ?_, ?_, ?_⟩
    · rw [ht, hstop, enterTripped_lg]
      rfl
    · rw [hevents, enterTripped_eventCount, hstarve]
      simp
    · rw [hevents, enterTripped_eventCount]
      simp
    · rw [hevents, enterTripped_eventCount, if_neg]
      rintro (rfl | ⟨rfl, -⟩ | ⟨rfl, hne⟩)
      · exact htrip rfl
      · exact hlow rfl
      · rw [hpaste, ne_eq, Option.filter_eq_none_iff] at hne
        exact hne fun r hr => by simpa using hfail rfl r hr
    · rw [ht]
      exact (enterTripped_masks c s).1
    · rw [ht]
      exact (enterTripped_masks c s).2
    · rw [hrolls, enterTripped_rolls, hpaste, hnone]
      rfl
    · rw [hrolls, enterTripped_rolls, hpaste, Option.mem_def.mp hr]
      simp [Option.filter, hcut]
    · have hsome : s.pasteRecord = some r := by rw [hpaste, Option.mem_def.mp hr]; simp [Option.filter, hphase]
      have hunwinds : t.rolls = { (modifyUnwind r.new failedRoll s).rolls with plan := none, splice := none } := by
        rw [hrolls, enterTripped_rolls, hsome]
      have hunwind (u : UnwindId) : t.unwind u = (modifyUnwind r.new failedRoll s).unwind u := by
        cases u <;> simp [State.unwind, hunwinds]
      refine ⟨hunwinds, ?_, ?_, ?_⟩
      · rw [hunwind, unwind_modifyUnwind_same]
        rfl
      · rw [hunwind, unwind_modifyUnwind_otherStand]
      · rw [hevents, enterTripped_eventCount, hsome]
        simp
    · rw [hrolls, enterTripped_rolls]
      cases s.pasteRecord <;> rfl
    · rw [hrolls, enterTripped_rolls]
      cases s.pasteRecord with
      | none => rfl
      | some r =>
        obtain ⟨new, _⟩ := r
        cases new <;> rfl

end Sys2Proof.Machine
end

