-- ==== Sys2Proof/Proofs/LineKept.lean ====
section
/-! PROOF. What an operation keeps of the line, the heat and the slots: the invariants of R92 to R109, R134 and R106, what
only the named commands undo (R14, R8, R4, R139), and that no PANEL record names a QUEUED slot. One relation, `Keeps`,
is proved once for each shared operation. -/

namespace Sys2Proof.Machine

open Sys2Proof.Safety

-- One proof after the other: many short ones at once need more threads than the memory limit leaves room for.
set_option Elab.async false

/-! ### The relation -/

/-- What a command may undo, where no other does (R93, R109, R194, R193, R136, R23). -/
structure Undoing where
  /-- The line may come to RUNNING. -/
  runs : Bool := false
  /-- The line may leave TRIPPED. -/
  clears : Bool := false
  /-- The limits and the geometry may go. -/
  forgets : Bool := false
  /-- The high-water mark may fall. -/
  rewinds : Bool := false
  /-- A zone may leave FAULT. -/
  cools : Bool := false
  /-- A slot may come to QUEUED. -/
  loads : Bool := false

/-- The line: the invariants of StepKeepsLineState, and what only START, CLEAR-TRIP and a power-on reset undo. -/
structure LineKept (m : Undoing) (s t : State) : Prop where
  invs : TripInv s ∧ FreezeInv s ∧ ConfiguredInv s → TripInv t ∧ FreezeInv t ∧ ConfiguredInv t
  rest : TripInv s ∧ RestInv s → TripInv t ∧ RestInv t
  runs : m.runs = false → t.lg.lineState = .running → s.lg.lineState = .running
  trips : m.clears = false → s.lg.lineState = .tripped → t.lg.lineState = .tripped
  valid : m.forgets = false → s.geometry.valid = true → t.geometry.valid = true

/-- The heat and the limits: the invariant of the zones, and what only HEAT-OFF and a power-on reset undo. -/
structure HeatKept (m : Undoing) (s t : State) : Prop where
  inv : HeatInv s → HeatInv t
  limits : m.forgets = false → s.limits.isSet = true → t.limits = s.limits
  faults : m.cools = false → s.heat.heatOn = true → t.heat.heatOn = true ∧
    ∀ z : Fin 4, (s.zone z).state = .fault → (t.zone z).state = .fault ∧ (t.zone z).fault = (s.zone z).fault

/-- No PANEL record names a QUEUED slot; every run has it (R115). -/
def NoneQueued (s : State) : Prop :=
  ∀ x ∈ s.tu.records, ∀ k : Fin 32, x.slot? = some k → (s.status k).state ≠ .queued

/-- The slots: none comes to QUEUED, and none that is QUEUED to have a PANEL record (R23, R115). -/
structure SlotsKept (m : Undoing) (s t : State) : Prop where
  queued : m.loads = false → ∀ k : Fin 32, (t.status k).state = .queued → (s.status k).state = .queued
  names : m.loads = false → NoneQueued s → NoneQueued t

/-- What every operation keeps of the line, the heat and the slots. The obligations a plain update has are closed by the
frame lemmas. -/
structure Keeps (m : Undoing) (s t : State) : Prop where
  line : LineKept m s t
  heat : HeatKept m s t
  slots : SlotsKept m s t
  mark : m.rewinds = false → s.pc.highWater ≤ t.pc.highWater

section

variable {m : Undoing} {s t u : State}

theorem LineKept.trans (h : LineKept m s t) (k : LineKept m t u) : LineKept m s u where
  invs := k.invs ∘ h.invs
  rest := k.rest ∘ h.rest
  runs hm hu := h.runs hm (k.runs hm hu)
  trips hm hs := k.trips hm (h.trips hm hs)
  valid hm hs := k.valid hm (h.valid hm hs)

theorem HeatKept.trans (h : HeatKept m s t) (k : HeatKept m t u) : HeatKept m s u where
  inv := k.inv ∘ h.inv
  limits hm hs := by
    have hset := h.limits hm hs
    rw [k.limits hm (by rw [hset]; exact hs), hset]
  faults hm hs := by
    obtain ⟨hon, hfaults⟩ := h.faults hm hs
    obtain ⟨hon', hfaults'⟩ := k.faults hm hon
    refine ⟨hon', fun z hz => ?_⟩
    obtain ⟨hstate, hcause⟩ := hfaults z hz
    exact ⟨(hfaults' z hstate).1, (hfaults' z hstate).2.trans hcause⟩

theorem SlotsKept.trans (h : SlotsKept m s t) (k : SlotsKept m t u) : SlotsKept m s u where
  queued hm j hj := h.queued hm j (k.queued hm j hj)
  names hm := k.names hm ∘ h.names hm

theorem Keeps.trans (h : Keeps m s t) (k : Keeps m t u) : Keeps m s u where
  line := h.line.trans k.line
  heat := h.heat.trans k.heat
  slots := h.slots.trans k.slots
  mark hm := (h.mark hm).trans (k.mark hm)

/-! ### Updates that change nothing of a part -/

/-- The fields of LG that the invariants of the line speak of. -/
def Governor.core (g : Governor) : LineState × Nat × Option Nat × Bool × Option Cause × CauseSet :=
  (g.lineState, g.reference, g.freeze, g.deferredStop, g.primary, g.further)

theorem LineKept.of_core (hlg : t.lg.core = s.lg.core) (hvalid : t.geometry.valid = s.geometry.valid) :
    LineKept m s t := by
  simp only [Governor.core, Prod.mk.injEq] at hlg
  obtain ⟨hstate, hreference, hfreeze, hdeferred, hprimary, hfurther⟩ := hlg
  constructor <;>
    simp only [TripInv, FreezeInv, ConfiguredInv, RestInv, State.holdsCause, hstate, hreference, hfreeze, hdeferred,
      hprimary, hfurther, hvalid, imp_self, implies_true]

theorem HeatKept.of_zones (hlimits : t.limits = s.limits) (hrecipes : t.heat.recipes = s.heat.recipes)
    (hzones : t.heat.zones = s.heat.zones) (hon : t.heat.heatOn = s.heat.heatOn) : HeatKept m s t := by
  refine ⟨?_, fun _ _ => hlimits, fun _ hs => ⟨hon.trans hs, fun z hz => ?_⟩⟩
  · simp only [HeatInv, State.zone, State.recipe, hlimits, hrecipes, hzones, imp_self]
  · simp only [State.zone, hzones] at hz ⊢
    exact ⟨hz, trivial⟩

/-- No slot comes to QUEUED, and each PANEL record names a slot named before or one that is not QUEUED. -/
theorem SlotsKept.of_named
    (hqueued : m.loads = false → ∀ k : Fin 32, (t.status k).state = .queued → (s.status k).state = .queued)
    (hnamed : ∀ x ∈ t.tu.records, ∀ k : Fin 32, x.slot? = some k →
      (∃ y ∈ s.tu.records, y.slot? = some k) ∨ (s.status k).state ≠ .queued) : SlotsKept m s t where
  queued := hqueued
  names hm hs x hx k hk := by
    refine fun hstate => absurd (hqueued hm k hstate) ?_
    rcases hnamed x hx k hk with ⟨y, hy, hky⟩ | hother
    · exact hs y hy k hky
    · exact hother

theorem SlotsKept.of_slots (hslots : t.slots = s.slots) (htu : t.tu = s.tu) : SlotsKept m s t :=
  .of_named (fun _ k => by simp only [State.status, State.slot, hslots, imp_self])
    fun x hx k hk => .inl ⟨x, htu ▸ hx, hk⟩

/-- Marks on the slots make none QUEUED (R29). -/
theorem SlotsKept.of_marks (h : ∀ k, MarksOnly k s t) : SlotsKept m s t :=
  .of_named (fun _ k => by rw [(h k).status]; exact id) fun x hx k hk => .inl ⟨x, (h 0).tu ▸ hx, hk⟩

end

/-- A plain update of the state: what it changes, `Keeps` does not speak of. -/
structure Plain (s t : State) : Prop where
  line : t.lg.core = s.lg.core := by simp
  valid : t.geometry.valid = s.geometry.valid := by simp
  limits : t.limits = s.limits := by simp
  recipes : t.heat.recipes = s.heat.recipes := by simp
  zones : t.heat.zones = s.heat.zones := by simp
  on : t.heat.heatOn = s.heat.heatOn := by simp
  slots : t.slots = s.slots := by simp
  tu : t.tu = s.tu := by simp
  mark : t.pc.highWater = s.pc.highWater := by simp

section

variable {m : Undoing}

theorem Plain.keeps {s t : State} (h : Plain s t) : Keeps m s t where
  line := .of_core h.line h.valid
  heat := .of_zones h.limits h.recipes h.zones h.on
  slots := .of_slots h.slots h.tu
  mark _ := h.mark.ge

theorem Keeps.refl (s : State) : Keeps m s s := Plain.keeps {}

theorem Keeps.foldl {α : Type} {op : State → α → State} (h : ∀ s a, Keeps m s (op s a)) (l : List α) (s : State) :
    Keeps m s (l.foldl op s) := by
  induction l generalizing s with
  | nil => exact .refl s
  | cons a l ih => exact (h s a).trans (ih (op s a))

/-! ### Plain updates -/

theorem raise_keeps (c : EventClass) (s : State) : Keeps m s (raise c s) := Plain.keeps {}
theorem modifyUnwind_keeps (u : UnwindId) (f : Unwind → Unwind) (s : State) : Keeps m s (modifyUnwind u f s) :=
  Plain.keeps {}
theorem setRolls_keeps (r : Rolls) (s : State) : Keeps m s { s with rolls := r } := Plain.keeps {}
theorem setInputs_keeps (i : Inputs) (s : State) : Keeps m s { s with inputs := i } := Plain.keeps {}
theorem setBlade_keeps (b : Blade) (s : State) : Keeps m s { s with blade := b } := Plain.keeps {}
theorem setRu_keeps (r : Registrar) (s : State) : Keeps m s { s with ru := r } := Plain.keeps {}
theorem setPs_keeps (p : Sequencer) (s : State) : Keeps m s { s with ps := p } := Plain.keeps {}
theorem setEvents_keeps (e : EventUnit) (s : State) : Keeps m s { s with events := e } := Plain.keeps {}
theorem setCore_keeps (g : Governor) (s : State) (h : g.core = s.lg.core) : Keeps m s { s with lg := g } :=
  Plain.keeps { line := h }
theorem noteRace_keeps (s : State) : Keeps m s (noteRace s) := Plain.keeps {}
theorem setBar_keeps (b : BarState) (s : State) : Keeps m s (setBar b s) := Plain.keeps {}
theorem evaluatePlanning_keeps (s : State) : Keeps m s (evaluatePlanning s) := Plain.keeps {}
theorem failPaste_keeps (r : SpliceRecord) (s : State) : Keeps m s (failPaste r s) := Plain.keeps {}
theorem endCut_keeps (r : SpliceRecord) (s : State) : Keeps m s (endCut r s) := Plain.keeps {}
theorem reachLastEnd_keeps (rising : Bool) (s : State) : Keeps m s (reachLastEnd rising s) := Plain.keeps {}
theorem generate_keeps (n : Nat) (s : State) : Keeps m s (generate n s) := Plain.keeps {}
theorem appendStroke_keeps (s : State) : Keeps m s (appendStroke s) := Plain.keeps {}
theorem startGenerators_keeps (s : State) : Keeps m s (startGenerators s) := Plain.keeps { line := rfl }
theorem restStopTimer_keeps (s : State) : Keeps m s (restStopTimer s) := by
  unfold restStopTimer
  split
  · exact Plain.keeps {}
  · exact .refl s
theorem starveTest_keeps (s : State) : Keeps m s (starveTest s) :=
  Plain.keeps { line := by rw [starveTest_lg]; rfl }

/-! ### Slots -/

theorem Keeps.of_marks {s t : State} (h : ∀ k, MarksOnly k s t) (hlg : t.lg = s.lg := by simp)
    (hheat : t.heat = s.heat := by simp) (hgeometry : t.geometry = s.geometry := by simp)
    (hlimits : t.limits = s.limits := by simp) (hpc : t.pc = s.pc := by simp) : Keeps m s t where
  line := .of_core (by rw [hlg]) (by rw [hgeometry])
  heat := .of_zones hlimits (by rw [hheat]) (by rw [hheat]) (by rw [hheat])
  slots := .of_marks h
  mark _ := by rw [hpc]

/-- One status record changed, and the slot not made QUEUED. -/
theorem modifyStatus_keeps (k : Fin 32) (f : SlotStatus → SlotStatus) (s : State)
    (h : m.loads = false → (f (s.status k)).state = .queued → (s.status k).state = .queued) :
    Keeps m s (modifyStatus k f s) where
  line := .of_core rfl rfl
  heat := .of_zones rfl rfl rfl rfl
  slots := by
    refine .of_named (fun hm j hj => ?_) fun x hx j hj => .inl ⟨x, hx, hj⟩
    by_cases hjk : j = k
    · subst hjk
      rw [status_modifyStatus_same] at hj
      exact h hm hj
    · rwa [status_modifyStatus_other hjk] at hj
  mark _ := le_rfl

theorem aimUnderSet_keeps (z : Fin 4) (k : Fin 32) (s : State) : Keeps m s (aimUnderSet z k s) :=
  .of_marks fun j => aimUnderSet_marksOnly j z k s

theorem aimSplice_keeps (k : Fin 32) (s : State) : Keeps m s (aimSplice k s) := by
  unfold aimSplice aim
  split
  case h_1 | h_2 => exact modifyStatus_keeps k _ s fun _ => id
  all_goals exact .refl s

theorem entryTest_keeps (k : Fin 32) (s : State) (z : Fin 4) : Keeps m s (entryTest k s z) := by
  unfold entryTest
  split
  · exact .refl s
  · exact aimUnderSet_keeps z k s

theorem retireSlot_keeps (k : Fin 32) (s : State) : Keeps m s (retireSlot k s) := by
  have done : Keeps m s (raise .panelDone (modifyStatus k (fun st => { st with state := .done }) s)) :=
    (modifyStatus_keeps k _ s fun _ h => SlotState.noConfusion h).trans
      (raise_keeps _ _)
  unfold retireSlot
  split
  · exact done.trans (raise_keeps _ _)
  · exact done

theorem markSeamPanels_keeps (s : State) : Keeps m s (markSeamPanels s) :=
  .foldl (fun t k => aimSplice_keeps k t) _ s

/-- The records replaced by some of those of an earlier state, marked or not. -/
theorem Keeps.setRecords {s t : State} (h : Keeps m s t) {rs : List TrackRecord}
    (hrs : ∀ x ∈ rs, ∃ y ∈ s.tu.records, y.slot? = x.slot?) : Keeps m s (setRecords rs t) where
  line := h.line.trans (.of_core rfl rfl)
  heat := h.heat.trans (.of_zones rfl rfl rfl rfl)
  slots := .of_named h.slots.queued fun x hx k hk => by
    obtain ⟨y, hy, hslot⟩ := hrs x hx
    exact .inl ⟨y, hy, hslot.trans hk⟩
  mark := h.mark

end

end Sys2Proof.Machine
end

