-- ==== Sys2Proof/Proofs/KeptOperations.lean ====
section
/-! PROOF. Each operation shared between the commands keeps the line, the heat and the slots (R29 to R126). -/

namespace Sys2Proof.Machine

open Sys2Proof.Safety

-- One proof after the other: many short ones at once need more threads than the memory limit leaves room for.
set_option Elab.async false

section

variable {m : Undoing}

/-! ### Zones (R134, R138, R146 to R148) -/

/-- A zone record within R134: nothing on in OFF and FAULT, duty and I at most 1,000 thousandths. -/
def Zone.Fits (zn : Zone) : Prop :=
  (zn.state = .off ∨ zn.state = .fault →
    zn.duty = 0 ∧ zn.integral = 0 ∧ zn.onTime = 0 ∧ zn.valveOpen = false) ∧
  zn.duty ≤ 1000 ∧ zn.integral ≤ 1000

/-- A change of a zone record that keeps it within R134, and in FAULT with its cause. -/
structure ZoneKept (m : Undoing) (zn zn' : Zone) : Prop where
  fits : zn.Fits → zn'.Fits
  fault : m.cools = false → zn.state = .fault → zn'.state = .fault ∧ zn'.fault = zn.fault

/-- Every zone changed as `ZoneKept` allows, with the heat switch, the recipes and the limits left alone. -/
theorem HeatKept.of_each {s t : State} (hlimits : t.limits = s.limits) (hrecipes : t.heat.recipes = s.heat.recipes)
    (hon : t.heat.heatOn = s.heat.heatOn) (hzones : ∀ z, ZoneKept m (s.zone z) (t.zone z)) : HeatKept m s t := by
  refine ⟨fun ⟨hfits, hstored, hunset⟩ => ⟨fun z => (hzones z).fits (hfits z), ?_, ?_⟩, fun _ _ => hlimits,
    fun hm hs => ⟨hon.trans hs, fun z => (hzones z).fault hm⟩⟩
  · simpa only [State.recipe, hrecipes, hlimits] using hstored
  · rwa [hlimits]

theorem ZoneKept.refl (zn : Zone) : ZoneKept m zn zn := ⟨id, fun _ h => ⟨h, rfl⟩⟩

theorem modifyZone_keeps {z : Fin 4} {f : Zone → Zone} {s : State} (h : ZoneKept m (s.zone z) (f (s.zone z))) :
    Keeps m s (modifyZone z f s) where
  line := .of_core rfl rfl
  heat := .of_each rfl rfl rfl fun y => by
    by_cases hy : y = z
    · subst hy
      rwa [zone_modifyZone_same]
    · rw [zone_modifyZone_other hy]
      exact .refl _
  slots := .of_slots rfl rfl
  mark _ := le_rfl

/-- A zone that is neither OFF nor in FAULT and stays so with its duty and I. -/
theorem ZoneKept.of_on {zn zn' : Zone} (hstate : zn.state ≠ .fault) (hoff : zn'.state ≠ .off)
    (hfault : zn'.state ≠ .fault) (hduty : zn'.duty = zn.duty) (hintegral : zn'.integral = zn.integral) :
    ZoneKept m zn zn' where
  fits := fun ⟨_, hle, hle'⟩ => ⟨fun h => (h.elim hoff hfault).elim, hduty ▸ hle, hintegral ▸ hle'⟩
  fault _ h := absurd h hstate

/-- A zone with nothing on that was not in FAULT. -/
theorem ZoneKept.of_cold {zn zn' : Zone} (hstate : m.cools = false → zn.state ≠ .fault) (hduty : zn'.duty = 0)
    (hintegral : zn'.integral = 0) (htime : zn'.onTime = 0) (hvalve : zn'.valveOpen = false) : ZoneKept m zn zn' where
  fits _ := ⟨fun _ => ⟨hduty, hintegral, htime, hvalve⟩, by omega, by omega⟩
  fault hm h := absurd h (hstate hm)

/-- A zone whose state, duty, I and valve stay as they are. -/
theorem ZoneKept.of_same {zn zn' : Zone} (hstate : zn'.state = zn.state) (hfault : zn'.fault = zn.fault)
    (hduty : zn'.duty = zn.duty) (hintegral : zn'.integral = zn.integral) (htime : zn'.onTime = zn.onTime)
    (hvalve : zn'.valveOpen = zn.valveOpen) : ZoneKept m zn zn' where
  fits h := by rwa [Zone.Fits, hstate, hduty, hintegral, htime, hvalve]
  fault _ h := ⟨hstate.trans h, hfault⟩

theorem resumedZone_kept (zn : Zone) : ZoneKept m zn (resumedZone zn) := by
  rw [resumedZone_eq]
  split
  · next h => exact .of_on (by simp [h]) (by simp) (by simp) rfl rfl
  · exact .refl zn

theorem switchedZone_kept (used : Bool) (r : Fin 8) (zn : Zone) : ZoneKept m zn (switchedZone used r zn) := by
  unfold switchedZone
  split
  case h_1 h => exact ⟨fun _ => by simp [Zone.Fits], fun _ hfault => by simp [h] at hfault⟩
  case h_2 | h_6 | h_11 => exact .of_same rfl rfl rfl rfl rfl rfl
  case h_3 h | h_4 h => exact .of_on (by simp [h]) (by simp [h]) (by simp [h]) rfl rfl
  case h_5 h => exact .of_on (by simp [h]) (by simp) (by simp) rfl rfl
  case h_7 h | h_8 h | h_9 h | h_10 h => exact .of_cold (fun _ => by simp [h]) rfl rfl rfl rfl

theorem leaveIfInBand_keeps (before : ZoneState) (z : Fin 4) (s : State) : Keeps m s (leaveIfInBand before z s) :=
  .of_marks fun k => leaveIfInBand_marksOnly k before z s

theorem markChamberPanels_keeps (s : State) : Keeps m s (markChamberPanels s) :=
  .of_marks fun k => markChamberPanels_marksOnly k s

theorem resumeZones_keeps (s : State) : Keeps m s (resumeZones s) :=
  .foldl (fun _ _ => modifyZone_keeps (resumedZone_kept _)) allZones s

theorem resumeTest_keeps (s : State) : Keeps m s (resumeTest s) := by
  unfold resumeTest
  split
  · exact resumeZones_keeps s
  · exact .refl s

theorem standZone_keeps (s : State) (z : Fin 4) : Keeps m s (standZone s z) := by
  unfold standZone
  split
  case h_4 | h_5 | h_6 => exact .refl s
  case h_1 h | h_2 h | h_3 h =>
    exact (modifyZone_keeps (.of_on (by simp [h]) (by simp) (by simp) rfl rfl)).trans (leaveIfInBand_keeps _ z _)

theorem fireStopTimer_keeps (s : State) : Keeps m s (fireStopTimer s) :=
  have fired : Keeps m s { s with heat := { s.heat with stopFired := true } } := Plain.keeps {}
  have stood := fired.trans (.foldl standZone_keeps allZones _)
  ((stood.trans (markChamberPanels_keeps _)).trans (raise_keeps .dwell _)).trans (resumeTest_keeps _)

theorem checkStopTimer_keeps (s : State) : Keeps m s (checkStopTimer s) := by
  unfold checkStopTimer
  split
  · exact (restStopTimer_keeps s).trans (fireStopTimer_keeps _)
  · exact restStopTimer_keeps s

/-! ### The line (R95, R101 to R107) -/

/-- A change of the line alone. -/
theorem LineKept.keeps {s t : State} (h : LineKept m s t) (hheat : t.heat = s.heat := by simp)
    (hlimits : t.limits = s.limits := by simp) (hpc : t.pc = s.pc := by simp) (hslots : t.slots = s.slots := by simp)
    (htu : t.tu = s.tu := by simp) : Keeps m s t where
  line := h
  heat := .of_zones hlimits (by rw [hheat]) (by rw [hheat]) (by rw [hheat])
  slots := .of_slots hslots htu
  mark _ := by rw [hpc]

/-- A new reference, with STOPPING becoming STOPPED where it is 0, keeps the line where it is 0 at rest (R92, R107). -/
theorem LineKept.of_reference {s t : State} {v : Nat}
    (hv : TripInv s → RestInv s → RestInv { s with lg := { s.lg with reference := v } })
    (hgeometry : t.geometry = s.geometry) (hlg : t.lg.core = Governor.core { s.lg with
      reference := v, lineState := if s.lg.lineState = .stopping ∧ v = 0 then .stopped else s.lg.lineState }) :
    LineKept m s t := by
  simp only [Governor.core, Prod.mk.injEq] at hlg
  obtain ⟨hstate, hreference, hfreeze, hdeferred, hprimary, hfurther⟩ := hlg
  by_cases hstops : s.lg.lineState = .stopping ∧ v = 0
  · rw [if_pos hstops] at hstate
    obtain ⟨hstopping, rfl⟩ := hstops
    clear hv
    constructor <;>
      simp_all [TripInv, FreezeInv, ConfiguredInv, RestInv, State.holdsCause]
  · rw [if_neg hstops] at hstate
    refine ⟨?_, fun ⟨htrip, hrest⟩ => ⟨?_, ?_⟩, ?_, ?_, ?_⟩
    · simp only [TripInv, FreezeInv, ConfiguredInv, hstate, hfreeze, hdeferred, hprimary, hfurther, hgeometry, imp_self]
    · simpa only [TripInv, hstate, hprimary, hfurther] using htrip
    · simpa only [RestInv, State.holdsCause, hstate, hprimary, hfurther, hreference] using hv htrip hrest
    · simp [hstate]
    · simp [hstate]
    · simp [hgeometry]

theorem restInv_of_le {s : State} {v : Nat} (hv : v ≤ s.lg.reference) (h : RestInv s) :
    RestInv { s with lg := { s.lg with reference := v } } :=
  fun hdemand => Nat.le_zero.mp (hv.trans (h hdemand).le)

theorem clampReference_keeps (s : State) : Keeps m s (clampReference s) := by
  unfold clampReference
  split
  · next h =>
    refine LineKept.keeps ?_
    exact .of_reference (fun _ => restInv_of_le h.2.le) rfl rfl
  · exact .refl s

/-- STOP acts on a line in RUNNING outside a freeze (R95). -/
theorem stopLine_kept {s : State} (hrunning : s.lg.lineState = .running) (hfreeze : s.lg.freeze = none) :
    LineKept m s (stopLine s) := by
  by_cases hzero : s.lg.reference = 0 <;>
    constructor <;>
    simp_all [stopLine, TripInv, FreezeInv, ConfiguredInv, RestInv, State.holdsCause]

/-- The freeze ends, and a STOP deferred during it acts in RUNNING (R102). -/
theorem liftFreeze_stop_kept (s : State) : LineKept m s (takeDeferredStop (liftFreeze s)) := by
  obtain ⟨b, hlift⟩ : ∃ b, (liftFreeze s).lg = { s.lg with
      freeze := none, hold := s.inputs.takeOffHold, starve := b } := ⟨_, by rw [liftFreeze, starveTest_lg]⟩
  have hvalid : (takeDeferredStop (liftFreeze s)).geometry.valid = s.geometry.valid := by simp
  by_cases hstop : s.lg.deferredStop = true ∧ s.lg.lineState = .running
  · have stopped : LineKept m s { s with lg := { s.lg with
        freeze := none, deferredStop := false
        lineState := if s.lg.reference = 0 then .stopped else .stopping } } := by
      by_cases hzero : s.lg.reference = 0 <;>
        constructor <;>
        simp_all [TripInv, FreezeInv, ConfiguredInv, RestInv, State.holdsCause]
    exact stopped.trans (.of_core (by simp [takeDeferredStop, hlift, hstop, stopLine, Governor.core]) hvalid)
  · have lifted : LineKept m s { s with lg := { s.lg with freeze := none } } := by
      constructor <;>
        simp_all [TripInv, FreezeInv, ConfiguredInv, RestInv, State.holdsCause]
    exact lifted.trans (.of_core (by simp [takeDeferredStop, hlift, hstop, Governor.core]) hvalid)

theorem spliceOver_keeps (s : State) : Keeps m s (spliceOver s) := by
  unfold spliceOver
  split
  · exact .refl s
  · exact (liftFreeze_stop_kept s).keeps.trans (clampReference_keeps _)

theorem freezeSpeed_keeps (s : State) : Keeps m s (freezeSpeed s) := by
  refine LineKept.keeps ?_
  unfold freezeSpeed
  split
  · exact .of_core rfl rfl
  · exact .of_core rfl rfl
  · next hstate hfreeze =>
    constructor <;>
      simp_all [TripInv, FreezeInv, ConfiguredInv, RestInv, State.holdsCause]

theorem fireSplice_keeps (kind : SpliceKind) (new : UnwindId) (s : State) : Keeps m s (fireSplice kind new s) :=
  ((modifyUnwind_keeps new _ s).trans (setRolls_keeps _ _)).trans (freezeSpeed_keeps _)

/-! ### Trips (R105 to R107) -/

theorem Cause.number_injective {c d : Cause} (h : c.number = d.number) : c = d := by
  revert h; cases c <;> cases d <;> decide

theorem holdsCause_iff (s : State) (c : Cause) :
    s.holdsCause c = true ↔ s.lg.primary = some c ∨ s.lg.further.getLsbD c.number = true := by
  simp [State.holdsCause]

/-- The reference is 0 at rest and while an immediate cause is recorded (R92, R107). -/
theorem restInv_iff (s : State) : RestInv s ↔
    (s.lg.lineState = .unconfigured ∨ s.lg.lineState = .stopped ∨
      (∃ e : Cause, e.immediate = true ∧ s.holdsCause e = true) → s.lg.reference = 0) := by
  have hcause : (∃ e : Cause, e.immediate = true ∧ s.holdsCause e = true) ↔
      s.holdsCause .eStop = true ∨ s.holdsCause .webBreak = true ∨ s.holdsCause .encoder = true := by
    constructor
    · rintro ⟨e, himmediate, hholds⟩
      cases e <;> simp_all [Cause.immediate]
    · rintro (h | h | h)
      · exact ⟨.eStop, rfl, h⟩
      · exact ⟨.webBreak, rfl, h⟩
      · exact ⟨.encoder, rfl, h⟩
  rw [hcause]

theorem core_stoppedBy (c : Cause) (g : Governor) : (g.stoppedBy c).core =
    Governor.core { g with reference := if c.immediate then 0 else g.reference } := by
  unfold Governor.stoppedBy
  split <;> rfl

/-- LG with a further cause recorded, and the reference 0 where the cause is immediate (R106, R107). -/
def furtherLine (c : Cause) (g : Governor) : Governor :=
  { g with further := g.further ||| BitVec.twoPow 10 c.number, reference := if c.immediate then 0 else g.reference }

theorem furtherLine_bit {c e : Cause} (g : Governor) (h : e ≠ c) :
    (furtherLine c g).further.getLsbD e.number = g.further.getLsbD e.number := by
  have hnumber : ¬ c.number = e.number := fun hce => h (Cause.number_injective hce.symm)
  simp [furtherLine, BitVec.getLsbD_twoPow, hnumber]

theorem furtherLine_tripInv {c : Cause} {s : State} (htripped : s.lg.lineState = .tripped)
    (hnew : ¬ s.holdsCause c = true) (h : TripInv s) : TripInv { s with lg := furtherLine c s.lg } := by
  obtain ⟨hiff, -, hother⟩ := h
  refine ⟨hiff, fun hnone => absurd hnone (hiff.mp htripped), fun e he => ?_⟩
  have hne : e ≠ c := fun hec => hnew ((holdsCause_iff s c).mpr (.inl (hec ▸ he)))
  rw [furtherLine_bit s.lg hne]
  exact hother e he

theorem furtherLine_restInv (c : Cause) {s : State} (htripped : s.lg.lineState = .tripped) (h : RestInv s) :
    RestInv { s with lg := furtherLine c s.lg } := by
  rw [restInv_iff] at h ⊢
  rintro (hstate | hstate | ⟨e, himmediate, hholds⟩)
  · exact absurd (htripped.symm.trans hstate) (by decide)
  · exact absurd (htripped.symm.trans hstate) (by decide)
  by_cases hc : c.immediate = true
  · simp [furtherLine, hc]
  · have hne : e ≠ c := fun hec => hc (hec ▸ himmediate)
    rw [holdsCause_iff] at hholds
    have hbefore : s.holdsCause e = true := (holdsCause_iff s e).mpr (by rwa [← furtherLine_bit s.lg hne])
    simpa [furtherLine, hc] using h (.inr (.inr ⟨e, himmediate, hbefore⟩))

/-- A further cause joins the trip record (R106, R107). -/
theorem furtherCause_kept {c : Cause} {s : State} (htripped : s.lg.lineState = .tripped)
    (hnew : ¬ s.holdsCause c = true) : LineKept m s { s with lg := Governor.stoppedBy c { s.lg with
      further := s.lg.further ||| BitVec.twoPow 10 c.number } } := by
  have joined : LineKept m s { s with lg := furtherLine c s.lg } :=
    ⟨fun ⟨ht, hf, hc⟩ => ⟨furtherLine_tripInv htripped hnew ht, hf, hc⟩,
      fun ⟨ht, hr⟩ => ⟨furtherLine_tripInv htripped hnew ht, furtherLine_restInv c htripped hr⟩, fun _ => id,
      fun _ => id, fun _ => id⟩
  exact joined.trans (.of_core (core_stoppedBy c _) rfl)

/-- LG tripped by its primary cause, the reference 0 where the cause is immediate and `v` otherwise (R102, R106, R107). -/
def trippedLine (c : Cause) (v : Nat) (g : Governor) : Governor :=
  { g with
    lineState := .tripped, primary := some c, further := 0, freeze := none, deferredStop := false
    reference := if c.immediate then 0 else v }

theorem trippedLine_kept (c : Cause) (v : Nat) (s : State) : LineKept m s { s with lg := trippedLine c v s.lg } := by
  have htrip : TripInv { s with lg := trippedLine c v s.lg } := by simp [TripInv, trippedLine]
  have hrest : RestInv { s with lg := trippedLine c v s.lg } := by
    rw [restInv_iff]
    rintro (hstate | hstate | ⟨e, himmediate, hholds⟩)
    · simp [trippedLine] at hstate
    · simp [trippedLine] at hstate
    · obtain rfl : c = e := by simpa [holdsCause_iff, trippedLine] using hholds
      simp [trippedLine, himmediate]
  exact ⟨fun _ => ⟨htrip, by simp [FreezeInv, trippedLine], by simp [ConfiguredInv, trippedLine]⟩,
    fun _ => ⟨htrip, hrest⟩, fun _ hrunning => by simp [trippedLine] at hrunning, fun _ _ => rfl, fun _ => id⟩

/-- A primary cause trips the line (R106, R107). -/
theorem enterTripped_kept (c : Cause) (s : State) : LineKept m s
    { enterTripped c s with lg := (enterTripped c s).lg.stoppedBy c } := by
  obtain ⟨v, hv⟩ : ∃ v, Governor.core ((enterTripped c s).lg.stoppedBy c) = Governor.core (trippedLine c v s.lg) :=
    ⟨_, by rw [core_stoppedBy, enterTripped_lg]; rfl⟩
  exact (trippedLine_kept c v s).trans (.of_core hv (by simp))

theorem reportCause_keeps (c : Cause) (s : State) : Keeps m s (reportCause c s) := by
  refine LineKept.keeps ?_
  cases htaken : s.takesCause c with
  | false =>
    rw [reportCause_of_not_taken htaken]
    exact .of_core rfl rfl
  | true =>
    by_cases htripped : s.lg.lineState = .tripped
    · rw [reportCause_of_taken htaken, takeCause, if_pos htripped]
      by_cases hheld : s.holdsCause c = true
      · rw [if_pos hheld]
        exact .of_reference (v := if c.immediate then 0 else s.lg.reference)
          (fun _ => restInv_of_le (by split <;> simp)) rfl (by rw [core_stoppedBy]; simp [Governor.core, htripped])
      · rw [if_neg hheld]
        exact furtherCause_kept htripped hheld
    · rw [reportCause_of_trip htaken htripped]
      exact enterTripped_kept c s

/-! ### Recipe switches and the tracking queue (R117 to R126, R148) -/

theorem switchRecord_keeps (z : Fin 4) (r : Fin 8) (s : State) : Keeps m s (switchRecord z r s) :=
  (modifyZone_keeps (switchedZone_kept _ r _)).trans (leaveIfInBand_keeps _ z _)

theorem switchZone_keeps (z : Fin 4) (r : Fin 8) (s : State) : Keeps m s (switchZone z r s) := by
  unfold switchZone
  split
  · exact .refl s
  · exact ((switchRecord_keeps z r s).trans (clampReference_keeps _)).trans (checkStopTimer_keeps _)

theorem switchAllZones_keeps (r : Fin 8) (s : State) : Keeps m s (switchAllZones r s) := by
  have each (t : State) (z : Fin 4) : Keeps m t (if (t.zone z).recipe = some r then t else switchRecord z r t) := by
    split
    · exact .refl t
    · exact switchRecord_keeps z r t
  unfold switchAllZones
  split
  · exact .refl s
  · exact ((Keeps.foldl each allZones s).trans (clampReference_keeps _)).trans (checkStopTimer_keeps _)

theorem switchFor_keeps (x : TrackRecord) (zs : List (Fin 4)) (s : State) : Keeps m s (switchFor x zs s) := by
  cases x with
  | panel k head tail => exact .refl s
  | seam b r switched => exact .foldl (fun t z => switchZone_keeps z r t) zs s

theorem forceOut_keeps (x : TrackRecord) (s : State) : Keeps m s (forceOut x s) := by
  cases x with
  | panel k head tail =>
    exact (Keeps.foldl (fun t z => aimUnderSet_keeps z k t) _ s).trans (retireSlot_keeps k _)
  | seam b r switched => exact switchFor_keeps (.seam b r switched) _ s

theorem setForced_keeps (n : Nat) (s : State) : Keeps m s { s with tu := { s.tu with forced := n } } where
  line := .of_core rfl rfl
  heat := .of_zones rfl rfl rfl rfl
  slots := .of_named (fun _ _ => id) fun x hx _ hk => .inl ⟨x, hx, hk⟩
  mark _ := le_rfl

theorem makeRoom_keeps (s : State) : Keeps m s (makeRoom s) := by
  rcases Nat.lt_or_ge s.tu.records.length trackCapacity with hroom | hfull
  · rw [makeRoom_of_room hroom]
    exact .refl s
  · obtain ⟨oldest, rest, hrecords⟩ := exists_oldest_of_full hfull
    rw [makeRoom_of_full hrecords hfull]
    have dropped : Keeps m s (setRecords rest (forceOut oldest s)) :=
      (forceOut_keeps oldest s).setRecords fun x hx => ⟨x, by simp [hrecords, hx], rfl⟩
    exact dropped.trans (setForced_keeps _ _)

/-- A record put at the end of the queue, naming no slot or one that is not QUEUED. -/
theorem appendRecord_keeps {x : TrackRecord} {s : State}
    (h : m.loads = false → ∀ k : Fin 32, x.slot? = some k → (s.status k).state ≠ .queued) :
    Keeps m s (setRecords (s.tu.records ++ [x]) s) where
  line := .of_core rfl rfl
  heat := .of_zones rfl rfl rfl rfl
  slots :=
    { queued := fun _ _ => id
      names := fun hm hs y hy k hk => by
        rcases List.mem_append.mp hy with hy | hy
        · exact hs y hy k hk
        · rw [List.mem_singleton.mp hy] at hk
          exact h hm k hk }
  mark _ := le_rfl

theorem openRecord_keeps {k : Fin 32} {s : State} (h : (s.status k).state ≠ .queued) :
    Keeps m s (openRecord k s) := by
  have room : Keeps m s (makeRoom s) := makeRoom_keeps s
  refine (room.trans (appendRecord_keeps fun hm j hj => ?_)).trans (.foldl (entryTest_keeps k) _ _)
  obtain rfl : k = j := Option.some.inj hj
  exact fun hqueued => h (room.slots.queued hm _ hqueued)

theorem slot?_closedAt (k : Fin 32) (belt : Nat) (x : TrackRecord) : (closedAt k belt x).slot? = x.slot? := by
  unfold closedAt
  split
  · split <;> rfl
  · rfl
  · rfl

theorem closeRecord_keeps (k : Fin 32) (s : State) : Keeps m s (closeRecord k s) := by
  refine (Keeps.refl s).setRecords fun x hx => ?_
  obtain ⟨y, hy, rfl⟩ := List.mem_map.mp hx
  exact ⟨y, hy, (slot?_closedAt k _ y).symm⟩

theorem addSeam_keeps (r : Fin 8) (s : State) : Keeps m s (addSeam r s) := by
  unfold addSeam
  dsimp only
  refine ((makeRoom_keeps s).trans (appendRecord_keeps fun _ k hk => ?_)).trans (switchFor_keeps _ _ _)
  rw [slot?_addSwitched] at hk
  exact nomatch hk

theorem entriesForward_keeps (s : State) (x : TrackRecord) : Keeps m s (entriesForward s x) := by
  cases x with
  | panel k head tail => exact .foldl (entryTest_keeps k) _ s
  | seam b r switched => exact .refl s

theorem entriesReverse_keeps (s : State) (x : TrackRecord) : Keeps m s (entriesReverse s x) := by
  match x with
  | .panel k _ (some _) => exact .foldl (entryTest_keeps k) _ s
  | .panel _ _ none => exact .refl s
  | .seam _ _ _ => exact .refl s

theorem leaveAtTakeOff_keeps (s : State) (x : TrackRecord) : Keeps m s (leaveAtTakeOff s x) := by
  cases x with
  | panel k head tail => exact retireSlot_keeps k s
  | seam b r switched => exact .refl s

theorem trackForward_keeps (s : State) : Keeps m s (trackForward s) := by
  have entered : Keeps m s (s.tu.records.foldl entriesForward s) := .foldl entriesForward_keeps _ s
  have switched (t : State) : Keeps m t (switchSeams t) :=
    (Keeps.foldl (fun u x => switchFor_keeps x _ u) t.tu.records t).setRecords fun x hx => by
      obtain ⟨y, hy, rfl⟩ := List.mem_map.mp hx
      exact ⟨y, hy, (slot?_addSwitched _ y).symm⟩
  have retired (t : State) : Keeps m t (retireAtTakeOff t) :=
    (Keeps.foldl leaveAtTakeOff_keeps _ t).setRecords fun x hx => ⟨x, List.mem_of_mem_filter hx, rfl⟩
  exact (entered.trans (switched _)).trans (retired _)

theorem trackReverse_keeps (s : State) : Keeps m s (trackReverse s) := .foldl entriesReverse_keeps _ s

/-! ### The blade and the panel boundaries (R59 to R68) -/

theorem toActive_keeps (k : Fin 32) (s : State) : Keeps m s (toActive k s) := by
  refine (modifyStatus_keeps k _ s fun _ h => SlotState.noConfusion h).trans (openRecord_keeps ?_)
  rw [status_modifyStatus_same]
  simp

theorem toSetting_keeps (k : Fin 32) (s : State) : Keeps m s (toSetting k s) :=
  (modifyStatus_keeps k _ s fun _ h => SlotState.noConfusion h).trans (closeRecord_keeps k _)

theorem countMissed_keeps (r : StrokeRecord) (s : State) : Keeps m s (countMissed r s) :=
  modifyStatus_keeps r.slot _ s fun _ => id

theorem fireStroke_keeps (r : StrokeRecord) (s : State) : Keeps m s (fireStroke r s) :=
  (modifyStatus_keeps r.slot _ s fun _ => id).trans (setBlade_keeps _ _)

theorem missOne_keeps (s : State) : Keeps m s (missOne s) := by
  unfold missOne
  split
  · exact setBlade_keeps _ s
  · exact (setBlade_keeps _ s).trans (reportCause_keeps _ _)

theorem dealStroke_keeps (r : StrokeRecord) (s : State) : Keeps m s (dealStroke r s) := by
  unfold dealStroke
  split
  · exact countMissed_keeps r s
  · split
    · exact fireStroke_keeps r s
    · exact ((countMissed_keeps r s).trans (raise_keeps _ _)).trans (missOne_keeps _)

theorem strokeReached_keeps (r : StrokeRecord) (rest : List StrokeRecord) (s : State) :
    Keeps m s (strokeReached r rest s) := by
  have left := (setPs_keeps (m := m) { s.ps with strokes := rest } s).trans (dealStroke_keeps r _)
  unfold strokeReached
  dsimp only
  split
  · exact left.trans (toSetting_keeps r.slot _)
  · exact left

theorem reachStroke_keeps (s : State) : Keeps m s (reachStroke s) := by
  unfold reachStroke
  split
  · exact .refl s
  · split
    · exact strokeReached_keeps _ _ s
    · exact .refl s

theorem reachFlatEnd_keeps (s : State) : Keeps m s (reachFlatEnd s) := by
  unfold reachFlatEnd
  split
  · exact toSetting_keeps _ s
  · exact .refl s

theorem reachStart_keeps (s : State) : Keeps m s (reachStart s) := by
  unfold reachStart
  split
  · split
    · exact toActive_keeps _ s
    · exact .refl s
  · exact .refl s

theorem reachBoundaries_keeps (s : State) : Keeps m s (reachBoundaries s) :=
  ((reachStroke_keeps s).trans (reachFlatEnd_keeps _)).trans (reachStart_keeps _)

/-! ### The schedule (R45 to R52, R85 to R88) -/

theorem checkGarment_keeps (k : Fin 32) (s : State) : Keeps m s (checkGarment k s) := by
  rw [checkGarment_eq]
  exact (setPs_keeps { s.ps with openGarment := garmentAfter k s } s).trans (modifyStatus_keeps k _ _ fun _ => id)

theorem placePanel_keeps (k : Fin 32) (start : Nat) (reg : Registered) (s : State) :
    Keeps m s (placePanel k start reg s) := by
  rw [placePanel_eq]
  exact (modifyStatus_keeps k _ s fun _ h => SlotState.noConfusion h).trans (setPs_keeps _ _)

theorem placed_keeps (k : Fin 32) (start : Nat) (reg : Registered) (s : State) :
    Keeps m s (placed k start reg s) := (placePanel_keeps k start reg s).trans (starveTest_keeps _)

theorem placed_finishCommit_keeps (k : Fin 32) (start : Nat) (reg : Registered) (s : State) :
    Keeps m (placed k start reg s) (finishCommit k start reg s) := by
  rw [finishCommit_eq]
  split
  · exact (toActive_keeps k _).trans (evaluatePlanning_keeps _)
  · exact evaluatePlanning_keeps _

theorem finishCommit_keeps (k : Fin 32) (start : Nat) (reg : Registered) (s : State) :
    Keeps m s (finishCommit k start reg s) :=
  (placed_keeps k start reg s).trans (placed_finishCommit_keeps k start reg s)

theorem commitSlot_keeps (k : Fin 32) (s : State) : Keeps m s (commitSlot k s) :=
  (checkGarment_keeps k s).trans (finishCommit_keeps _ _ _ _)

theorem countSkipped_keeps (k : Fin 32) (n : Nat) (s : State) : Keeps m s (countSkipped k n s) :=
  modifyStatus_keeps k _ s fun _ => id

theorem searchSetUp_keeps (k : Fin 32) (part : RegistrationPart) (s : State) : Keeps m s (searchSetUp k part s) :=
  have searched : Keeps m s { s with
      ps := { s.ps with search := some (searchFor k part s) }
      ru := { s.ru with marks := (setUpWalk k part s).1 } } := Plain.keeps {}
  ((searched.trans (checkGarment_keeps k _)).trans (modifyStatus_keeps k _ _ fun _ => id)).trans
    (countSkipped_keeps k _ _)

theorem setUpSearch_keeps (k : Fin 32) (part : RegistrationPart) (s : State) : Keeps m s (setUpSearch k part s) := by
  cases hmark : (setUpWalk k part s).2.2 with
  | none =>
    rw [setUpSearch_of_no_mark hmark]
    exact searchSetUp_keeps k part s
  | some mk =>
    rw [setUpSearch_of_mark hmark]
    exact (searchSetUp_keeps k part s).trans (finishCommit_keeps _ _ _ _)

theorem takeSlot_keeps (s : State) : Keeps m s (takeSlot s) := by
  unfold takeSlot
  split
  · exact commitSlot_keeps _ s
  · exact setUpSearch_keeps _ _ s

theorem reachLoss_keeps (s : State) : Keeps m s (reachLoss s) := by
  unfold reachLoss
  split
  · split
    · exact (raise_keeps _ s).trans (finishCommit_keeps _ _ _ _)
    · exact .refl s
  · exact .refl s

theorem takeReady_keeps (n : Nat) (s : State) : Keeps m s (takeReady n s) := by
  induction n generalizing s with
  | zero => exact .refl s
  | succ n ih =>
    unfold takeReady
    split
    · exact (takeSlot_keeps s).trans (ih _)
    · exact .refl s

theorem refresh_keeps (s : State) : Keeps m s (refresh s) :=
  have settled := ((starveTest_keeps s).trans (takeReady_keeps 32 _)).trans (generate_keeps strokeCapacity _)
  have held := (settled.trans (resumeTest_keeps _)).trans (clampReference_keeps _)
  (held.trans (restStopTimer_keeps _)).trans (startGenerators_keeps _)

/-! ### Marks and groups (R79 to R84) -/

theorem judgeMark_keeps (r : SearchRecord) (mk : Mark) (s : State) : Keeps m s (judgeMark r mk s) := by
  unfold judgeMark
  split
  · exact finishCommit_keeps _ _ _ s
  · exact countSkipped_keeps _ _ s

theorem queueMark_keeps (mk : Mark) (s : State) : Keeps m s (queueMark mk s) := by
  unfold queueMark
  split
  · exact raise_keeps _ s
  · exact setRu_keeps _ s

theorem offerMark_keeps (mk : Mark) (s : State) : Keeps m s (offerMark mk s) := by
  unfold offerMark
  split
  · split
    · exact judgeMark_keeps _ mk s
    · exact queueMark_keeps mk s
  · exact queueMark_keeps mk s

theorem screenMark_keeps (mk : Mark) (s : State) : Keeps m s (screenMark mk s) := by
  have seen := setRu_keeps (m := m) { s.ru with lastMark := some mk.m } s
  by_cases hnew : ∀ l ∈ s.ru.lastMark, l < mk.m
  · rw [screenMark_of_new hnew]
    split
    · exact seen.trans (raise_keeps _ _)
    · exact seen.trans (offerMark_keeps mk _)
  · push Not at hnew
    obtain ⟨l, hl, hle⟩ := hnew
    rw [screenMark_of_read hl hle]
    exact .refl s

theorem judgeGroup_keeps (g : Group) (s : State) : Keeps m s (judgeGroup g s) := by
  unfold judgeGroup
  split
  · exact raise_keeps _ s
  · split
    · exact screenMark_keeps _ s
    · exact .refl s

theorem endBar_keeps (lead : Nat) (group : Option Group) (s : State) : Keeps m s (endBar lead group s) := by
  unfold endBar
  dsimp only
  split
  · split
    · exact setBar_keeps _ s
    · split
      · exact (setBar_keeps _ s).trans (judgeGroup_keeps _ _)
      · exact setBar_keeps _ s
  · exact setBar_keeps _ s

theorem leadingEdge_keeps (s : State) : Keeps m s (leadingEdge s) := by
  unfold leadingEdge
  dsimp only
  split
  · exact setBar_keeps _ s
  · split
    · exact (setBar_keeps _ s).trans (judgeGroup_keeps _ _)
    · exact setBar_keeps _ s
  · exact .refl s
  · exact .refl s

theorem trailingEdge_keeps (s : State) : Keeps m s (trailingEdge s) := by
  unfold trailingEdge
  split
  · exact endBar_keeps _ _ s
  · exact setBar_keeps _ s
  · exact .refl s
  · exact .refl s

theorem discardGroup_keeps (s : State) : Keeps m s (discardGroup s) := by
  rw [discardGroup_eq]
  exact setRu_keeps _ s

theorem reachGroupEnd_keeps (s : State) : Keeps m s (reachGroupEnd s) := by
  unfold reachGroupEnd
  split
  · split
    · exact (setBar_keeps _ s).trans (judgeGroup_keeps _ _)
    · exact .refl s
  · exact .refl s
  · exact .refl s
  · exact .refl s

/-! ### Counts of the encoders (R3 to R6) -/

theorem inEitherOrder_keeps {first second : State → State} (hfirst : ∀ s, Keeps m s (first s))
    (hsecond : ∀ s, Keeps m s (second s)) (meet : Bool) (s : State) :
    Keeps m s (inEitherOrder meet first second s) := by
  rcases inEitherOrder_cases meet first second s with h | h | h <;> rw [h]
  · exact ((hsecond s).trans (hfirst _)).trans (noteRace_keeps _)
  · exact ((hfirst s).trans (hsecond _)).trans (noteRace_keeps _)
  · exact (hfirst s).trans (hsecond _)

theorem reachExpiry_keeps (s : State) : Keeps m s (reachExpiry s) := by
  have expired (t : State) : Keeps m t (expireMarks t) := setRu_keeps _ t
  have ready (t : State) : Keeps m t (setUpReady t) := by
    unfold setUpReady
    split
    · exact takeSlot_keeps t
    · exact .refl t
  unfold reachExpiry
  split
  · split
    · exact ((noteRace_keeps s).trans (ready _)).trans (expired _)
    · exact (noteRace_keeps s).trans (expired _)
  · exact expired s

theorem reachSeam_keeps (s : State) : Keeps m s (reachSeam s) := by
  unfold reachSeam
  split
  · exact .refl s
  · split
    · exact (((markSeamPanels_keeps s).trans (addSeam_keeps _ _)).trans (setRolls_keeps _ _)).trans
        (evaluatePlanning_keeps _)
    · exact .refl s

theorem reachFire_keeps (s : State) : Keeps m s (reachFire s) := by
  unfold reachFire
  split
  · exact .refl s
  · split
    · split
      · exact fireSplice_keeps _ _ s
      · exact setRolls_keeps _ s
    · exact .refl s

theorem reachWebPosition_keeps (rising : Bool) (s : State) : Keeps m s (reachWebPosition rising s) := by
  unfold reachWebPosition
  exact (inEitherOrder_keeps reachGroupEnd_keeps
    (fun t => ((reachExpiry_keeps t).trans (reachLoss_keeps _)).trans (reachLastEnd_keeps rising _)) _ s).trans
    (inEitherOrder_keeps (fun t => inEitherOrder_keeps reachBoundaries_keeps reachSeam_keeps _ t) reachFire_keeps _ _)

/-- A position moved with the high-water mark kept or raised. -/
theorem setPc_keeps (p : PositionCounters) (s : State) (h : s.pc.highWater ≤ p.highWater) :
    Keeps m s { s with pc := p } where
  line := .of_core rfl rfl
  heat := .of_zones rfl rfl rfl rfl
  slots := .of_slots rfl rfl
  mark _ := h

theorem webForward_keeps (s : State) : Keeps m s (webForward s) := by
  unfold webForward
  split
  · exact .refl s
  · exact ((setPc_keeps
      { s.pc with webPosition := s.pc.webPosition + 1, highWater := max s.pc.highWater (s.pc.webPosition + 1) } s
      (le_max_left _ _)).trans (starveTest_keeps _)).trans (reachWebPosition_keeps _ _)

theorem webReverse_keeps (s : State) : Keeps m s (webReverse s) := by
  have back := (setPc_keeps (m := m) { s.pc with webPosition := s.pc.webPosition - 1 } s le_rfl).trans
    (discardGroup_keeps _)
  unfold webReverse
  split
  · exact .refl s
  · dsimp only
    split
    · exact back.trans (reportCause_keeps _ _)
    · exact back

theorem beltForward_keeps (s : State) : Keeps m s (beltForward s) := by
  unfold beltForward
  split
  · exact .refl s
  · exact (setPc_keeps { s.pc with beltPosition := s.pc.beltPosition + 1 } s le_rfl).trans (trackForward_keeps _)

theorem beltReverse_keeps (s : State) : Keeps m s (beltReverse s) := by
  unfold beltReverse
  split
  · exact .refl s
  · exact (setPc_keeps { s.pc with beltPosition := s.pc.beltPosition - 1 } s le_rfl).trans (trackReverse_keeps _)

theorem countEncoder_keeps (e : Encoder) (forward : Bool) (s : State) : Keeps m s (countEncoder e forward s) := by
  match e, forward with
  | .web, true => exact webForward_keeps s
  | .web, false => exact webReverse_keeps s
  | .belt, true => exact beltForward_keeps s
  | .belt, false => exact beltReverse_keeps s

theorem setPair_keeps (e : Encoder) (p : ChannelPair) (s : State) : Keeps m s (setPair e p s) := by
  cases e
  · exact setPc_keeps _ s le_rfl
  · exact setPc_keeps _ s le_rfl

end

end Sys2Proof.Machine
end

