-- ==== Sys2Proof/Proofs/LineRequests.lean ====
section
/-! PROOF. START, STOP, SET-SPEED, TRIP and CLEAR-TRIP, and the field inputs of the line (StartChecksAndRuns,
StopAndSetSpeedActByState, TripAndClearTrip, FieldInputsReachTheLine). -/

namespace Sys2Proof.Machine

open Sys2Proof.Safety

-- One proof after the other: many short ones at once need more threads than the memory limit leaves room for.
set_option Elab.async false

/-! ### What the requests test -/

theorem feeds_iff (u : Unwind) : u.feeds = true ↔ u.state = .running ∨ u.state = .low := by
  unfold Unwind.feeds
  cases u.state <;> simp

theorem feeding_eq_none_iff (s : State) : s.feeding = none ↔ s.rolls.a.feeds = false ∧ s.rolls.b.feeds = false := by
  unfold State.feeding
  cases s.rolls.a.feeds <;> cases s.rolls.b.feeds <;> simp

theorem anyFault_iff (s : State) : s.anyFault = true ↔ ∃ z : Fin 4, (s.zone z).state = .fault := by
  simp [State.anyFault, mem_allZones]

/-- A request whose owner does not see the counting of the frame is answered with what the owner gives. -/
theorem acceptRequest_of_blind {src : Source} {r : Request} {serve : State → State × Answer} {s : State}
    (h : serve (countAccepted s) = (countAccepted (serve s).1, (serve s).2)) :
    acceptRequest src r serve s = answered src r (serve s).2 (serve s).1 :=
  acceptRequest_eq_answered h

/-! ### START (R93, R94) -/

theorem startLine_eq (s : State) : startLine s = { s with
    lg := { s.lg with lineState := .running, deferredStop := false }
    heat := { s.heat with zones := s.heat.zones.map fun zn =>
      if zn.state = .standby then { zn with state := .warming, settle := none } else zn } } :=
  resumeZones_eq _

/-- The checks of START in the order of R93. -/
theorem serveStart_eq (s : State) : serveStart s =
    if s.limits.isSet = false then (s, no .noLimits 0)
    else if s.lg.lineState = .unconfigured ∨ s.geometry.valid = false then (s, no .noGeom 0)
    else if s.lg.lineState = .tripped then (s, no .state 0)
    else if s.lg.lineState = .running then (refresh (startLine s), .done [])
    else if s.feeding = none then (s, no .roll 0)
    else if s.heat.heatOn = false ∨ s.anyFault = true then (s, no .heat 0)
    else if s.inputs.bladeHome = false then (s, no .blade 0)
    else (refresh (startLine s), .done []) := by
  unfold serveStart
  by_cases hvalid : s.geometry.valid = false
  · simp [hvalid, refuse]
  · cases s.lg.lineState <;> simp [hvalid, refuse]

theorem refresh_startLine_countAccepted (s : State) :
    refresh (startLine (countAccepted s)) = countAccepted (refresh (startLine s)) := by
  rw [← refresh_countAccepted, startLine_eq, startLine_eq]
  rfl

theorem serveStart_countAccepted (s : State) :
    serveStart (countAccepted s) = (countAccepted (serveStart s).1, (serveStart s).2) := by
  have feeding : (countAccepted s).feeding = s.feeding := rfl
  have anyFault : (countAccepted s).anyFault = s.anyFault := rfl
  have rest : (countAccepted s).limits = s.limits ∧ (countAccepted s).lg = s.lg ∧
      (countAccepted s).geometry = s.geometry ∧ (countAccepted s).heat = s.heat ∧
      (countAccepted s).inputs = s.inputs := ⟨rfl, rfl, rfl, rfl, rfl⟩
  simp only [serveStart_eq, refresh_startLine_countAccepted, feeding, anyFault, rest]
  repeat' split
  all_goals rfl

/-- Settles O42: the checks are those of `serveStart_eq`. -/
theorem startChecksAndRuns : Obligations.StartChecksAndRuns := by
  intro src s feeds run
  change Host.Outcome.next (acceptRequest src .start serveStart s) = _
  have hrun : answered src .start (.done []) (refresh (startLine s)) = run := by rw [startLine_eq]
  have hfeeding : s.feeding = none ↔ ¬ feeds s.rolls.a ∧ ¬ feeds s.rolls.b := by
    simp only [feeding_eq_none_iff, ← Bool.not_eq_true, feeds_iff, feeds]
  rw [acceptRequest_of_blind (serveStart_countAccepted s), serveStart_eq]
  simp only [anyFault_iff, hfeeding, ← hrun]
  repeat' split
  all_goals rfl

/-! ### STOP and SET-SPEED (R95, R96) -/

theorem stopEffect_eq (s : State) : stopEffect s =
    if s.lg.lineState = .running then
      if s.lg.freeze = none then refresh (stopLine s) else { s with lg := { s.lg with deferredStop := true } }
    else s := by
  unfold stopEffect
  cases s.lg.lineState <;> cases s.lg.freeze <;> simp

theorem serveStop_countAccepted (s : State) :
    serveStop (countAccepted s) = (countAccepted (serveStop s).1, (serveStop s).2) := by
  have stopped : refresh (stopLine (countAccepted s)) = countAccepted (refresh (stopLine s)) :=
    refresh_countAccepted (stopLine s)
  have lg : (countAccepted s).lg = s.lg := rfl
  simp only [serveStop, stopEffect_eq, stopped, lg]
  repeat' split
  all_goals rfl

theorem serveSetSpeed_countAccepted (speed : Nat) (s : State) :
    serveSetSpeed speed (countAccepted s) = (countAccepted (serveSetSpeed speed s).1, (serveSetSpeed speed s).2) := by
  have limits : (countAccepted s).limits = s.limits := rfl
  rw [serveSetSpeed, serveSetSpeed, limits]
  split
  · rfl
  · dsimp only
    rw [← refresh_countAccepted]
    congr 2

theorem serveSetSpeed_of_set {speed : Nat} {s : State} (h : s.limits.isSet = true) (hspeed : speed < 65536) :
    serveSetSpeed speed s = (refresh { s with lg := { s.lg with hostSpeed := min speed s.limits.maxSpeed } },
      .done (bytesOf 2 (min speed s.limits.maxSpeed))) := by
  have hfit : ∀ f ∈ [(2, min speed s.limits.maxSpeed)], f.2 < 256 ^ f.1 := by simp; omega
  simp [serveSetSpeed, h, replyFields_of_fit hfit]

/-- Settles O43, by the case equations of STOP and SET-SPEED. -/
theorem stopAndSetSpeedActByState : Obligations.StopAndSetSpeedActByState := by
  intro src speed s
  refine ⟨?_, fun hunset => ?_, fun hset hspeed => ?_⟩
  · change Host.Outcome.next (acceptRequest src .stop serveStop s) = _
    rw [acceptRequest_of_blind (serveStop_countAccepted s), serveStop, stopEffect_eq]
    rfl
  · change Host.Outcome.next (acceptRequest src (.setSpeed speed) (serveSetSpeed speed) s) = _
    rw [acceptRequest_of_blind (serveSetSpeed_countAccepted speed s), serveSetSpeed, if_pos hunset]
    rfl
  · change Host.Outcome.next (acceptRequest src (.setSpeed speed) (serveSetSpeed speed) s) = _
    rw [acceptRequest_of_blind (serveSetSpeed_countAccepted speed s), serveSetSpeed_of_set hset hspeed]

/-! ### TRIP and CLEAR-TRIP (R108, R109) -/

theorem mayClearTrip_iff (s : State) : s.mayClearTrip = true ↔
    s.lg.lineState = .tripped ∧ s.lg.reference = 0 ∧ s.inputs.eStop = false ∧ s.inputs.webBreak = false ∧
      ∀ z : Fin 4, (s.zone z).state ≠ .fault := by
  have hfault : s.anyFault = false ↔ ∀ z : Fin 4, (s.zone z).state ≠ .fault := by
    simp only [← Bool.not_eq_true, anyFault_iff, not_exists, ne_eq]
  simp only [State.mayClearTrip, Bool.and_eq_true, beq_iff_eq, Bool.not_eq_true', hfault, and_assoc]

theorem serveTrip_countAccepted (s : State) :
    serveTrip (countAccepted s) = (countAccepted (serveTrip s).1, (serveTrip s).2) := by
  simp only [serveTrip, reportCause_countAccepted, refresh_countAccepted]

theorem serveClearTrip_countAccepted (s : State) :
    serveClearTrip (countAccepted s) = (countAccepted (serveClearTrip s).1, (serveClearTrip s).2) := by
  have cleared : clearTrip (countAccepted s) = countAccepted (clearTrip s) :=
    evaluatePlanning_countAccepted { s with
      lg := { s.lg with
        primary := none, further := 0, lineState := if s.geometry.valid then .stopped else .unconfigured }
      blade := { s.blade with misses := 0 } }
  have mayClear : (countAccepted s).mayClearTrip = s.mayClearTrip := rfl
  simp only [serveClearTrip, mayClear, cleared, refresh_countAccepted]
  split
  all_goals rfl

/-- Settles O44: what CLEAR-TRIP tests is `mayClearTrip_iff`. -/
theorem tripAndClearTrip : Obligations.TripAndClearTrip := by
  intro src s
  constructor
  · change Host.Outcome.next (acceptRequest src .trip serveTrip s) = _
    rw [acceptRequest_of_blind (serveTrip_countAccepted s), serveTrip]
  · change Host.Outcome.next (acceptRequest src .clearTrip serveClearTrip s) = _
    rw [acceptRequest_of_blind (serveClearTrip_countAccepted s), serveClearTrip]
    simp only [mayClearTrip_iff, clearTrip]
    split
    all_goals rfl

/-! ### The field inputs (R98, R101, R105, R109) -/

theorem holdAfter_eq (active : Bool) (g : Governor) : holdAfter active g = (active && (g.freeze.isNone || g.hold)) := by
  unfold holdAfter
  cases active <;> cases g.freeze <;> simp

/-- Settles O40: HOLD is `holdAfter_eq`, and an input already active is left alone. -/
theorem fieldInputsReachTheLine : Obligations.FieldInputsReachTheLine := by
  intro s
  refine ⟨?_, ?_, rfl, rfl, rfl, rfl, fun active => ?_⟩
  · change execEStop s = _
    unfold execEStop
    split <;> rfl
  · change execWebBreak s = _
    unfold execWebBreak
    split <;> rfl
  · change execTakeOffHoldChange active s = _
    rw [execTakeOffHoldChange, holdAfter_eq]

end Sys2Proof.Machine
end

