-- ==== Sys2Proof/Proofs/RampAndLimits.lean ====
section
/-! PROOF. The target and the ramp, the step periods and the limits (RampAndStepTimersDriveTheLine). -/

namespace Sys2Proof.Machine

open Sys2Proof.Safety

-- One proof after the other: many short ones at once need more threads than the memory limit leaves room for.
set_option Elab.async false

/-! ### The ramp (R98, R100, R103) -/

theorem otherZeroReason_eq_false_iff (s : State) :
    s.otherZeroReason = false ↔ s.lg.hold = false ∧ s.trackFull = false ∧ s.lg.starve = false := by
  simp only [State.otherZeroReason, Bool.or_eq_false_iff, and_assoc]

theorem target_eq (s : State) : s.target =
    if s.lg.lineState = .running ∨ s.lg.lineState = .stopping then
      match s.lg.freeze with
      | some f => f
      | none =>
        if s.lg.lineState = .running ∧ s.lg.hold = false ∧ s.trackFull = false ∧ s.heatReason = false ∧
            s.lg.starve = false then s.ceiling else 0
    else 0 := by
  have hzero : s.zeroReason = true ↔ ¬ (s.lg.hold = false ∧ s.trackFull = false ∧ s.heatReason = false ∧
      s.lg.starve = false) := by
    simp only [State.zeroReason, State.otherZeroReason, Bool.or_eq_true]
    cases s.lg.hold <;> cases s.trackFull <;> cases s.heatReason <;> cases s.lg.starve <;> decide
  have hrunning : (if s.zeroReason then 0 else s.ceiling) =
      if s.lg.hold = false ∧ s.trackFull = false ∧ s.heatReason = false ∧ s.lg.starve = false then s.ceiling else 0 := by
    simp only [hzero, ite_not]
  unfold State.target
  cases s.lg.lineState <;> cases s.lg.freeze <;> simp only [hrunning] <;> simp

theorem rampStepNow_eq (s : State) : s.rampStepNow =
    if s.lg.lineState = .running ∨ s.lg.lineState = .stopping then s.geometry.given.rampStep
    else if s.lg.lineState = .tripped ∧ ¬ s.immediateTrip = true then s.geometry.given.tripRampStep else 0 := by
  unfold State.rampStepNow
  cases s.lg.lineState <;> cases s.immediateTrip <;> simp

/-- The target is reached where it lies no more than a step away (R103). -/
theorem moveToward_eq (target step v : Nat) : moveToward target step v =
    if target ≤ v + step ∧ v ≤ target + step then target else if v < target then v + step else v - step := by
  unfold moveToward
  split_ifs <;> omega

/-! ### The step periods (R71, R110, R111) -/

theorem infeedStepPeriod_eq (s : State) : s.infeedStepPeriod =
    if s.geometry.valid = false ∨ s.infeedSpeed * s.geometry.given.infeedSteps < 160000 then none
    else some (min 65535 (max 20 (roundHalfUp 10000000000 (s.infeedSpeed * s.geometry.given.infeedSteps)))) := by
  cases hvalid : s.geometry.valid <;> simp [State.infeedStepPeriod, stepPeriod, hvalid]

theorem beltStepPeriod_eq (s : State) : s.beltStepPeriod =
    if s.geometry.valid = false ∨ s.lg.reference * s.geometry.given.beltSteps < 160000 then none
    else some (min 65535 (max 20 (roundHalfUp 10000000000 (s.lg.reference * s.geometry.given.beltSteps)))) := by
  cases hvalid : s.geometry.valid <;> simp [State.beltStepPeriod, stepPeriod, hvalid]

/-! ### The limits (R97, R98, R127, R143 to R145) -/

theorem largest_le_iff (ns : List Nat) (d : Nat) : largest ns ≤ d ↔ ∀ n ∈ ns, n ≤ d := by
  have hfold (a : Nat) : ns.foldl max a ≤ d ↔ a ≤ d ∧ ∀ n ∈ ns, n ≤ d := by
    induction ns generalizing a with
    | nil => simp
    | cons n ns ih => simp [ih, and_assoc]
  simpa [largest] using hfold 0

theorem largest_eq_of_mem {ns : List Nat} {d : Nat} (hd : d ∈ ns) (hle : ∀ e ∈ ns, e ≤ d) : largest ns = d :=
  le_antisymm ((largest_le_iff ns d).mpr hle) ((largest_le_iff ns _).mp le_rfl d hd)

theorem largest_eq_zero {ns : List Nat} (h : ∀ n ∈ ns, n = 0) : largest ns = 0 :=
  Nat.le_zero.mp ((largest_le_iff ns 0).mpr fun n hn => (h n hn).le)

theorem heatReason_iff (s : State) : s.heatReason = true ↔
    ∃ z : Fin 4, ((s.zone z).state = .warming ∨ (s.zone z).state = .standby) ∧
      ∃ r ∈ (s.zone z).recipe, (s.recipe r).setpoint z ≠ 0 := by
  have hused (z : Fin 4) : s.zoneUsed z = true ↔ ∃ r ∈ (s.zone z).recipe, (s.recipe r).setpoint z ≠ 0 := by
    unfold State.zoneUsed State.recipeUses
    cases (s.zone z).recipe <;> simp
  simp [State.heatReason, mem_allZones, hused]

theorem trackFull_of_none {s : State} (h : s.oldestCommitted = none) : s.trackFull = false := by
  simp [State.trackFull, State.oldestStart, h]

theorem trackFull_iff_of_some {s : State} {k : Fin 32} (h : s.oldestCommitted = some k) :
    s.trackFull = true ↔ trackCapacity ≤ s.tu.records.length ∧
      ∃ b ∈ (s.status k).start, b ≤ s.pc.webPosition + horizonCounts s.geometry.given := by
  simp only [State.trackFull, State.oldestStart, h, Option.bind_some, Bool.and_eq_true, decide_eq_true_eq]
  cases (s.status k).start <;> simp

theorem feedingRecipe_eq (s : State) : s.feedingRecipe =
    if s.rolls.a.state = .running ∨ s.rolls.a.state = .low then some s.rolls.a.recipe
    else if s.rolls.b.state = .running ∨ s.rolls.b.state = .low then some s.rolls.b.recipe else none := by
  simp only [← feeds_iff]
  unfold State.feedingRecipe State.feeding
  split
  · rfl
  · split <;> rfl

theorem dwellLimit_of_none {s : State} (h : s.geometry.valid = false ∨ s.largestDmin = 0) : s.dwellLimit = none :=
  if_pos h

theorem dwellLimit_of_some {s : State} (hvalid : s.geometry.valid = true) (hmin : s.largestDmin ≠ 0) :
    s.dwellLimit = some (chamberLength s.geometry.given * 100 / s.largestDmin) :=
  if_neg fun h => h.elim (fun hinvalid => absurd (hvalid.symm.trans hinvalid) (by decide)) hmin

/-- Settles O41, by an equation for each of the numbers. -/
theorem rampAndStepTimersDriveTheLine : Obligations.RampAndStepTimersDriveTheLine := by
  refine ⟨fun s => ?_, fun s => ?_, fun s => ?_⟩ <;> dsimp only
  · change execRampTimer s = _
    cases hfreeze : s.lg.freeze with
    | none => simp only [execRampTimer, ramp, moveToward_eq, target_eq, rampStepNow_eq, immediateTrip_iff, hfreeze]
    | some f => simp only [execRampTimer, ramp, moveToward_eq, target_eq, rampStepNow_eq, immediateTrip_iff, hfreeze]
  · have infeed : exec (.stepPeriodEnd .infeed) s = execStepPeriodEnd .infeed s := rfl
    have belt : exec (.stepPeriodEnd .belt) s = execStepPeriodEnd .belt s := rfl
    simp only [infeed, belt, execStepPeriodEnd, infeedStepPeriod_eq, beltStepPeriod_eq]
    refine ⟨fun hidle => ?_, fun hrun => ?_, fun hidle => ?_, fun hrun => ?_⟩
    · rw [hidle]
    · obtain ⟨p, hp⟩ := Option.ne_none_iff_exists'.mp hrun
      simp only [hp]
      rfl
    · rw [hidle]
    · obtain ⟨p, hp⟩ := Option.ne_none_iff_exists'.mp hrun
      simp only [hp]
      rfl
  · have hnone (h : ∀ i, ¬ (s.status (s.ps.commitPointer + i)).state = .committed) : s.oldestCommitted = none :=
      (oldestCommitted_eq_none_iff s).mpr fun k => by simpa using h (k - s.ps.commitPointer)
    rw [← feedingRecipe_eq s, ← allZones_eq]
    refine ⟨heatReason_iff s, fun h => trackFull_of_none (hnone h), fun i hi hfirst => ?_, rfl, fun h => ?_,
      fun hvalid d hd hpos hle => ?_, fun h => ?_, fun d hd hle => ?_, fun h => ?_, fun d hd => ?_⟩
    · exact trackFull_iff_of_some ((oldestCommitted_eq_some_iff s i).mpr ⟨hi, hfirst⟩)
    · exact dwellLimit_of_none (h.imp_right largest_eq_zero)
    · have hlargest : s.largestDmin = d := largest_eq_of_mem hd hle
      rw [dwellLimit_of_some hvalid (hlargest ▸ hpos), hlargest, chamberLength]
    · exact congrArg largest h
    · exact largest_eq_of_mem hd hle
    · simp only [State.ceiling, h]
    · simp only [State.ceiling, hd]

end Sys2Proof.Machine
end

