-- ==== Sys2Proof/Proofs/QuietSequencer.lean ====
section
/-! PROOF. PS takes and appends what is due until nothing is, and what that leaves of the pattern reserve
(R45, R48, R52, R54). -/

namespace Sys2Proof.Machine

open Sys2Proof.Safety

-- One proof after the other: many short ones at once need more threads than the memory limit leaves room for.
set_option Elab.async false

/-! ### A step repeated while a test holds -/

/-- An operation repeated while a test holds, at most `n` times. -/
def repeatWhile (p : State → Bool) (op : State → State) : Nat → State → State
  | 0, s => s
  | n + 1, s => if p s then repeatWhile p op n (op s) else s

section

variable {p : State → Bool} {op : State → State} {s : State} {n : Nat}

theorem repeatWhile_of_false (h : p s = false) : repeatWhile p op n s = s := by
  cases n <;> simp [repeatWhile, h]

theorem repeatWhile_succ_of_true (h : p s = true) : repeatWhile p op (n + 1) s = repeatWhile p op n (op s) := by
  simp [repeatWhile, h]

/-- The test fails in the end where a number that is not 0 while it holds falls at each repetition but the last. -/
theorem repeatWhile_ends {rank : State → Nat} (hrank : ∀ t, p t = true → 0 < rank t)
    (hfalls : ∀ t, p t = true → p (op t) = false ∨ rank (op t) < rank t) (hn : rank s ≤ n) :
    p (repeatWhile p op n s) = false := by
  induction n generalizing s with
  | zero => exact Bool.eq_false_iff.mpr fun h => absurd (hrank s h) (by simpa [repeatWhile] using hn)
  | succ n ih =>
    cases hp : p s with
    | false => rwa [repeatWhile_of_false hp]
    | true =>
      rw [repeatWhile_succ_of_true hp]
      rcases hfalls s hp with hlast | hless
      · rwa [repeatWhile_of_false hlast]
      · exact ih (by omega)

theorem repeatWhile_succ_of_ended (h : p (repeatWhile p op n s) = false) :
    repeatWhile p op (n + 1) s = repeatWhile p op n s := by
  induction n generalizing s with
  | zero => exact repeatWhile_of_false h
  | succ n ih =>
    cases hp : p s with
    | false => rw [repeatWhile_of_false hp, repeatWhile_of_false hp]
    | true =>
      rw [repeatWhile_succ_of_true hp] at h
      rw [repeatWhile_succ_of_true hp, ih h, repeatWhile_succ_of_true hp]

/-- A repetition done beforehand makes no difference. -/
theorem repeatWhile_op (hp : p s = true) (h : p (repeatWhile p op (n + 1) s) = false) :
    repeatWhile p op (n + 1) s = repeatWhile p op (n + 1) (op s) := by
  rw [repeatWhile_succ_of_true hp] at h
  rw [repeatWhile_succ_of_true hp, repeatWhile_succ_of_ended h]

end

theorem takeReady_eq (n : Nat) (s : State) : takeReady n s = repeatWhile State.commitReady takeSlot n s := by
  induction n generalizing s with
  | zero => rfl
  | succ n ih => simp only [takeReady, repeatWhile, ih]

theorem generate_eq (n : Nat) (s : State) : generate n s = repeatWhile State.canAppend appendStroke n s := by
  induction n generalizing s with
  | zero => rfl
  | succ n ih => simp only [generate, repeatWhile, ih]

/-! ### The slots PS takes (R45 to R47) -/

/-- The QUEUED slots. -/
def queuedSlots (s : State) : Finset (Fin 32) := Finset.univ.filter fun k => (s.status k).state = .queued

theorem mem_queuedSlots {k : Fin 32} {s : State} : k ∈ queuedSlots s ↔ (s.status k).state = .queued := by
  simp [queuedSlots]

theorem queued_of_takeSlot {k : Fin 32} {s : State} (h : ((takeSlot s).status k).state = .queued) :
    (s.status k).state = .queued :=
  (takeSlot_keeps (m := {}) s).slots.queued rfl k h

theorem finishCommit_not_queued (k : Fin 32) (start : Nat) (reg : Registered) (s : State) :
    ((finishCommit k start reg s).status k).state ≠ .queued := by
  intro hqueued
  have hplaced := (placed_finishCommit_keeps (m := {}) k start reg s).slots.queued rfl k hqueued
  have hcommitted : (placed k start reg s).status k = placedStatus start reg (s.status k) :=
    (congrArg Slot.status (placed_slot k)).trans (placePanel_status k start reg s)
  rw [hcommitted] at hplaced
  exact SlotState.noConfusion hplaced

theorem searchSetUp_not_ready (part : RegistrationPart) (s : State) :
    (searchSetUp s.ps.commitPointer part s).commitReady = false := by
  refine Bool.eq_false_iff.mpr fun hready => ?_
  obtain ⟨_, hreg, _⟩ := (commitReady_iff _).mp hready
  rw [searchSetUp_ps, searchSetUp_status] at hreg
  exact hreg rfl

/-- Once PS has taken a slot, it waits for a mark or one slot fewer is QUEUED. -/
theorem takeSlot_takes {s : State} (h : s.commitReady = true) :
    (takeSlot s).commitReady = false ∨ (queuedSlots (takeSlot s)).card < (queuedSlots s).card := by
  obtain ⟨hqueued, _, _⟩ := (commitReady_iff s).mp h
  have fewer (htaken : ((takeSlot s).status s.ps.commitPointer).state ≠ .queued) :
      (queuedSlots (takeSlot s)).card < (queuedSlots s).card := by
    refine Finset.card_lt_card ⟨fun k hk => ?_, fun hsub => htaken ?_⟩
    · exact mem_queuedSlots.mpr (queued_of_takeSlot (mem_queuedSlots.mp hk))
    · exact mem_queuedSlots.mp (hsub (mem_queuedSlots.mpr hqueued))
  cases hpart : (s.panelOf s.ps.commitPointer).registration with
  | none =>
    refine .inr (fewer ?_)
    simp only [takeSlot, hpart]
    exact finishCommit_not_queued _ _ _ _
  | some part =>
    have htake : takeSlot s = setUpSearch s.ps.commitPointer part s := by simp only [takeSlot, hpart]
    cases hmark : (setUpWalk s.ps.commitPointer part s).2.2 with
    | none =>
      refine .inl ?_
      rw [htake, setUpSearch_of_no_mark hmark]
      exact searchSetUp_not_ready part s
    | some mk =>
      refine .inr (fewer ?_)
      rw [htake, setUpSearch_of_mark hmark]
      exact finishCommit_not_queued _ _ _ _

theorem takeReady_takes_all (s : State) : (takeReady 32 s).commitReady = false := by
  rw [takeReady_eq]
  refine repeatWhile_ends (rank := fun t => (queuedSlots t).card) (fun t ht => ?_) (fun t ht => takeSlot_takes ht)
    (Finset.card_le_univ _)
  exact Finset.card_pos.mpr ⟨_, mem_queuedSlots.mpr ((commitReady_iff t).mp ht).1⟩

theorem takeReady_takeSlot {s : State} (h : s.commitReady = true) : takeReady 32 s = takeReady 32 (takeSlot s) := by
  have hends := takeReady_takes_all s
  rw [takeReady_eq] at hends ⊢
  rw [takeReady_eq]
  exact repeatWhile_op h hends

theorem takeReady_of_not_ready {s : State} (h : s.commitReady = false) : takeReady 32 s = s := by
  rw [takeReady_eq]
  exact repeatWhile_of_false h

/-! ### The strokes PS appends (R50 to R52) -/

theorem canAppend_iff (s : State) : s.canAppend = true ↔ s.ps.generator ≠ none ∧ s.ps.strokes.length < 64 := by
  rw [State.canAppend, Bool.and_eq_true, Option.isSome_iff_ne_none, decide_eq_true_eq, strokeCapacity]

theorem generate_fills (s : State) : (generate strokeCapacity s).canAppend = false := by
  rw [generate_eq]
  refine repeatWhile_ends (rank := fun t => 64 - t.ps.strokes.length) (fun t ht => ?_) (fun t ht => .inr ?_)
    (Nat.sub_le _ _)
  · have hroom := ((canAppend_iff t).mp ht).2
    omega
  · obtain ⟨hsome, hroom⟩ := (canAppend_iff t).mp ht
    obtain ⟨g, hg⟩ := Option.ne_none_iff_exists'.mp hsome
    simp only [appendStroke_of_room hg hroom, List.length_append, List.length_singleton]
    omega

theorem generate_appendStroke {s : State} (h : s.canAppend = true) :
    generate strokeCapacity s = generate strokeCapacity (appendStroke s) := by
  have hends := generate_fills s
  rw [generate_eq] at hends ⊢
  rw [generate_eq]
  exact repeatWhile_op h hends

theorem appendStroke_commitReady (s : State) : (appendStroke s).commitReady = s.commitReady := by
  unfold appendStroke
  repeat' split
  all_goals rfl

theorem appendStroke_queue (s : State) : (appendStroke s).committedAhead = s.committedAhead ∧
    (appendStroke s).ps.commitPointer = s.ps.commitPointer := by
  unfold appendStroke
  repeat' split
  all_goals exact ⟨rfl, rfl⟩

theorem generate_commitReady (n : Nat) (s : State) : (generate n s).commitReady = s.commitReady := by
  induction n generalizing s with
  | zero => rfl
  | succ n ih =>
    unfold generate
    split
    · rw [ih, appendStroke_commitReady]
    · rfl

/-! ### PS at rest -/

theorem settlePS_quiet (s : State) : QuietPS (settlePS s) :=
  ⟨(generate_commitReady _ _).trans (takeReady_takes_all s), generate_fills _⟩

theorem settlePS_takeSlot {s : State} (h : s.commitReady = true) : settlePS s = settlePS (takeSlot s) := by
  rw [settlePS, takeReady_takeSlot h, settlePS]

theorem settlePS_appendStroke {s : State} (hready : s.commitReady = false) (happend : s.canAppend = true) :
    settlePS s = settlePS (appendStroke s) := by
  rw [settlePS, takeReady_of_not_ready hready, generate_appendStroke happend, settlePS,
    takeReady_of_not_ready ((appendStroke_commitReady s).trans hready)]

/-- PS stays at rest while the slots, the geometry and the web position stay. -/
theorem quietPS_congr {s t : State} (hslots : t.slots = s.slots) (hps : t.ps = s.ps)
    (hweb : t.pc.webPosition = s.pc.webPosition) (hgeometry : t.geometry = s.geometry) : QuietPS t ↔ QuietPS s := by
  have hready : t.commitReady = s.commitReady := by
    simp only [State.commitReady, committedAhead_eq, State.status, State.slot, hslots, hps, hweb, hgeometry]
  have happend : t.canAppend = s.canAppend := by simp only [State.canAppend, hps]
  rw [QuietPS, hready, happend]

theorem refresh_quiet (s : State) : QuietPS (refresh s) :=
  (quietPS_congr (s := settlePS (starveTest s)) (by simp [refresh]) (by simp [refresh]) (by simp [refresh])
    (by simp [refresh])).mpr (settlePS_quiet _)

/-! ### The pattern reserve (R54, R99) -/

/-- From `s` to `t` the QUEUED slots stay, with what is planned of them, and the committed pattern ahead. -/
structure QueueKept (s t : State) : Prop where
  ahead : t.committedAhead = s.committedAhead
  pointer : t.ps.commitPointer = s.ps.commitPointer
  queued : ∀ k, (t.status k).state = .queued ↔ (s.status k).state = .queued
  planned : ∀ k, (s.status k).state = .queued → (t.status k).planned = (s.status k).planned

theorem QueueKept.reserve {s t : State} (h : QueueKept s t) : t.reserve = s.reserve := by
  have hqueued : (fun k => (t.status k).state == .queued) = fun k => (s.status k).state == .queued :=
    funext fun k => Bool.eq_iff_iff.mpr (by simpa using h.queued k)
  rw [State.reserve, State.reserve, h.ahead, h.pointer, hqueued, List.map_congr_left fun k hk =>
    h.planned k (by simpa using List.mem_takeWhile_imp hk)]

/-- STARVE is as its test would leave it. -/
def StarveFits (s : State) : Prop := s.starves = s.lg.starve

theorem starveTest_of_fits {s : State} (h : StarveFits s) : starveTest s = s := by
  rw [starveTest_eq, h, setStarve, if_neg fun henters => absurd (henters.1.symm.trans henters.2) (by decide)]

theorem starveTest_fits (s : State) : StarveFits (starveTest s) := by
  have hagain : (starveTest (starveTest s)).lg.starve = (starveTest s).lg.starve := by rw [starveTest_starveTest]
  rwa [starveTest_lg (starveTest s)] at hagain

theorem starves_congr {s t : State} (hgeometry : t.geometry = s.geometry) (hreserve : t.reserve = s.reserve)
    (hstarve : t.lg.starve = s.lg.starve) (hfreeze : t.lg.freeze = s.lg.freeze) : t.starves = s.starves := by
  simp only [State.starves, hgeometry, hreserve, hstarve, hfreeze]

theorem StarveFits.of_queueKept {s t : State} (h : StarveFits s) (hqueue : QueueKept s t)
    (hgeometry : t.geometry = s.geometry := by simp) (hstarve : t.lg.starve = s.lg.starve := by simp)
    (hfreeze : t.lg.freeze = s.lg.freeze := by simp) : StarveFits t := by
  rw [StarveFits, starves_congr hgeometry hqueue.reserve hstarve hfreeze, h, hstarve]

/-! ### What a commit leaves of the other slots that wait -/

theorem NoneQueued.spared {j : Fin 32} {s : State} (h : NoneQueued s) (hj : (s.status j).state = .queued) :
    Spared j s := by
  refine .inr fun hhead => ?_
  obtain ⟨x, hx, hslot⟩ := Option.bind_eq_some_iff.mp hhead
  exact h x (List.mem_of_mem_head? hx) j hslot hj

/-- A slot that the room made spares keeps its state and what is planned of it as another's PANEL record opens. -/
theorem openRecord_spared {j : Fin 32} {s : State} (k : Fin 32) (h : Spared j s) :
    ((openRecord k s).status j).state = (s.status j).state ∧
      ((openRecord k s).status j).planned = (s.status j).planned := by
  obtain ⟨marks, htested⟩ := openRecord_tested k s
  have hstatus : (openRecord k s).status j =
    { (makeRoom s).status j with underSet := ((openRecord k s).status j).underSet } := htested.status j
  rw [(makeRoom_slotKept h).status] at hstatus
  rw [hstatus]
  exact ⟨rfl, rfl⟩

theorem openRecord_queueKept (k : Fin 32) {s : State} (h : NoneQueued s) (hk : (s.status k).state ≠ .queued) :
    QueueKept s (openRecord k s) where
  ahead := by simp [committedAhead_eq]
  pointer := by simp
  queued j := ⟨(openRecord_keeps (m := {}) hk).slots.queued rfl j,
    fun hj => ((openRecord_spared k (h.spared hj)).1).trans hj⟩
  planned j hj := (openRecord_spared k (h.spared hj)).2

/-- A change of one status record that waits before no more than after. -/
theorem modifyStatus_queueKept (k : Fin 32) (f : SlotStatus → SlotStatus) {s : State}
    (hqueued : (f (s.status k)).state = .queued ↔ (s.status k).state = .queued)
    (hplanned : (f (s.status k)).planned = (s.status k).planned) : QueueKept s (modifyStatus k f s) where
  ahead := rfl
  pointer := rfl
  queued j := by
    by_cases hj : j = k
    · subst hj
      rwa [status_modifyStatus_same]
    · rw [status_modifyStatus_other hj]
  planned j _ := by
    by_cases hj : j = k
    · subst hj
      rwa [status_modifyStatus_same]
    · rw [status_modifyStatus_other hj]

theorem QueueKept.of_slots {s t : State} (hslots : t.slots = s.slots) (hahead : t.ps.lastEnd = s.ps.lastEnd)
    (hpointer : t.ps.commitPointer = s.ps.commitPointer) (hweb : t.pc.webPosition = s.pc.webPosition) :
    QueueKept s t where
  ahead := by rw [committedAhead_eq, committedAhead_eq, hahead, hweb]
  pointer := hpointer
  queued k := by simp only [State.status, State.slot, hslots]
  planned k _ := by simp only [State.status, State.slot, hslots]

theorem QueueKept.trans {s t u : State} (h : QueueKept s t) (k : QueueKept t u) : QueueKept s u where
  ahead := k.ahead.trans h.ahead
  pointer := k.pointer.trans h.pointer
  queued j := (k.queued j).trans (h.queued j)
  planned j hj := (k.planned j ((h.queued j).mpr hj)).trans (h.planned j hj)

theorem toActive_queueKept {k : Fin 32} {s : State} (h : NoneQueued s) (hk : (s.status k).state ≠ .queued) :
    QueueKept s (toActive k s) := by
  have hactive : QueueKept s (modifyStatus k (activeStatus s.pc.beltPosition) s) :=
    modifyStatus_queueKept k _ (by simp [activeStatus, hk]) rfl
  have hnone : NoneQueued (modifyStatus k (activeStatus s.pc.beltPosition) s) :=
    (modifyStatus_keeps (m := {}) k _ s fun _ h => SlotState.noConfusion h).slots.names rfl h
  rw [toActive_eq]
  exact hactive.trans (openRecord_queueKept k hnone (by simp [activeStatus]))

/-- STARVE and the freeze, which no recipe switch touches. -/
def State.reasons (s : State) : Bool × Option Nat := (s.lg.starve, s.lg.freeze)

theorem switchZone_reasons (z : Fin 4) (r : Fin 8) (s : State) : (switchZone z r s).reasons = s.reasons := by
  have clamped (t : State) : (clampReference t).reasons = t.reasons := by
    simp only [State.reasons, clampReference_lg]
  have tested (t : State) : (checkStopTimer t).reasons = t.reasons := by simp [State.reasons]
  have switched : (switchRecord z r s).reasons = s.reasons := by simp [State.reasons]
  unfold switchZone
  split
  · rfl
  · rw [tested, clamped, switched]

theorem forceOut_reasons (x : TrackRecord) (s : State) : (forceOut x s).reasons = s.reasons := by
  cases x with
  | panel k head tail =>
    have marked (zs : List (Fin 4)) : (zs.foldl (fun t z => aimUnderSet z k t) s).lg = s.lg :=
      foldl_keeps State.lg _ (by simp) zs s
    simp [forceOut, State.reasons, marked]
  | seam b r switched => exact foldl_keeps State.reasons _ (fun t z => switchZone_reasons z r t) _ s

theorem makeRoom_reasons (s : State) : (makeRoom s).reasons = s.reasons := by
  rcases Nat.lt_or_ge s.tu.records.length trackCapacity with hroom | hfull
  · rw [makeRoom_of_room hroom]
  · obtain ⟨oldest, rest, hrecords⟩ := exists_oldest_of_full hfull
    rw [makeRoom_of_full hrecords hfull]
    exact forceOut_reasons oldest s

theorem toActive_reasons (k : Fin 32) (s : State) : (toActive k s).reasons = s.reasons := by
  have opened (t : State) : (openRecord k t).reasons = t.reasons := by
    obtain ⟨marks, htested⟩ := openRecord_tested k t
    rw [State.reasons, htested.rest]
    exact makeRoom_reasons t
  exact opened _

theorem finishCommit_starveFits (k : Fin 32) (start : Nat) (reg : Registered) {s : State} (h : NoneQueued s) :
    StarveFits (finishCommit k start reg s) := by
  have hplaced : StarveFits (placed k start reg s) := starveTest_fits _
  have hnone : NoneQueued (placed k start reg s) := (placed_keeps (m := {}) k start reg s).slots.names rfl h
  have hstate : ((placed k start reg s).status k).state ≠ .queued := by
    have hcommitted : (placed k start reg s).status k = placedStatus start reg (s.status k) :=
      (congrArg Slot.status (placed_slot k)).trans (placePanel_status k start reg s)
    simp [hcommitted, placedStatus]
  have planned {t : State} (ht : StarveFits t) : StarveFits (evaluatePlanning t) :=
    ht.of_queueKept (.of_slots (by simp) (by simp) (by simp) (by simp))
  rw [finishCommit_eq]
  split
  · obtain ⟨hstarve, hfreeze⟩ := Prod.mk.inj (toActive_reasons k (placed k start reg s))
    exact planned (hplaced.of_queueKept (toActive_queueKept hnone hstate) (by simp [toActive]) hstarve hfreeze)
  · exact planned hplaced

theorem searchSetUp_queueKept (k : Fin 32) (part : RegistrationPart) (s : State) :
    QueueKept s (searchSetUp k part s) where
  ahead := by
    have hpc : (searchSetUp k part s).pc = s.pc := by simp [searchSetUp]
    rw [committedAhead_eq, committedAhead_eq, searchSetUp_ps, hpc]
  pointer := by rw [searchSetUp_ps]
  queued j := by
    by_cases hj : j = k
    · subst hj
      rw [searchSetUp_status]
      exact .rfl
    · simp only [State.status, searchSetUp_slot_other hj]
  planned j _ := by
    by_cases hj : j = k
    · subst hj
      rw [searchSetUp_status]
      rfl
    · simp only [State.status, searchSetUp_slot_other hj]

theorem takeSlot_starveFits {s : State} (h : NoneQueued s) (hfits : StarveFits s) : StarveFits (takeSlot s) := by
  unfold takeSlot
  split
  · exact finishCommit_starveFits _ _ _ ((checkGarment_keeps (m := {}) _ s).slots.names rfl h)
  · next part _ =>
    cases hmark : (setUpWalk s.ps.commitPointer part s).2.2 with
    | none =>
      rw [setUpSearch_of_no_mark hmark]
      exact hfits.of_queueKept (searchSetUp_queueKept _ part s) (by simp [searchSetUp]) (by simp [searchSetUp])
        (by simp [searchSetUp])
    | some mk =>
      rw [setUpSearch_of_mark hmark]
      exact finishCommit_starveFits _ _ _ ((searchSetUp_keeps (m := {}) _ part s).slots.names rfl h)

theorem takeReady_starveFits (n : Nat) {s : State} (h : NoneQueued s) (hfits : StarveFits s) :
    StarveFits (takeReady n s) := by
  induction n generalizing s with
  | zero => exact hfits
  | succ n ih =>
    unfold takeReady
    split
    · exact ih ((takeSlot_keeps (m := {}) s).slots.names rfl h) (takeSlot_starveFits h hfits)
    · exact hfits

theorem generate_queueKept (n : Nat) (s : State) : QueueKept s (generate n s) := by
  induction n generalizing s with
  | zero => exact .of_slots rfl rfl rfl rfl
  | succ n ih =>
    unfold generate
    split
    · refine QueueKept.trans ⟨(appendStroke_queue s).1, (appendStroke_queue s).2, fun k => ?_, fun k _ => ?_⟩ (ih _)
      · simp [State.status, State.slot]
      · simp [State.status, State.slot]
    · exact .of_slots rfl rfl rfl rfl

/-- PS taking and appending what is due leaves STARVE as its test would, where no PANEL record names a QUEUED slot. -/
theorem settlePS_starveFits {s : State} (h : NoneQueued s) (hfits : StarveFits s) : StarveFits (settlePS s) := by
  rw [settlePS]
  exact (takeReady_starveFits 32 h hfits).of_queueKept (generate_queueKept strokeCapacity _)

/-- The PANEL records name slots ACTIVE or SETTING (R115). -/
theorem stage_of_named {s : State} {x : TrackRecord} {k : Fin 32} (h : TrackInv s) (hx : x ∈ s.tu.records)
    (hk : x.slot? = some k) : (stage (s.status k).state).isSome = true := by
  obtain ⟨hfollow, _, _⟩ := h
  cases x with
  | seam b r switched => cases hk
  | panel j head tail =>
    obtain rfl : j = k := Option.some.inj hk
    have hmem : (j, tail.isSome) ∈ s.tu.records.filterMap followed := List.mem_filterMap.mpr ⟨_, hx, rfl⟩
    rw [hfollow] at hmem
    obtain ⟨i, hi, heq⟩ := List.mem_map.mp hmem
    obtain rfl : i = j := congrArg Prod.fst heq
    exact (List.mem_filter.mp (List.mem_of_mem_filter hi)).2

theorem noneQueued_of_trackInv {s : State} (h : TrackInv s) : NoneQueued s := by
  intro x hx k hk hqueued
  have hstage := stage_of_named h hx hk
  rw [hqueued] at hstage
  exact absurd hstage (by decide)

end Sys2Proof.Machine
end

