-- ==== Sys2Proof/Proofs/Reports.lean ====
section
/-! PROOF. What the end of a command brings up to date, and that doing so once is enough (ReportsAreBroughtUpToDate). -/

namespace Sys2Proof.Machine

open Sys2Proof.Safety

-- One proof after the other: many short ones at once need more threads than the memory limit leaves room for.
set_option Elab.async false

/-! ### The reports one by one (R104, R112, R145, R147) -/

/-- The reports made once STARVE is tested and PS is at rest. -/
def reported (s : State) : State := startGenerators (restStopTimer (clampReference (resumeTest s)))

theorem refresh_eq_reported (s : State) : refresh s = reported (settlePS (starveTest s)) := rfl

theorem resumeTest_eq (s : State) : resumeTest s = { s with
    heat := { s.heat with zones := if s.lg.lineState = .running ∧ s.otherZeroReason = false
      then s.heat.zones.map resumedZone else s.heat.zones } } := by
  unfold resumeTest
  split
  · exact foldl_modifyZone resumedZone s
  · rfl

theorem restStopTimer_eq (s : State) : restStopTimer s = { s with
    heat := { s.heat with
      stopElapsed := if s.lg.reference ≠ 0 ∨ s.allOff = true then 0 else s.heat.stopElapsed
      stopFired := if s.lg.reference ≠ 0 ∨ s.allOff = true then false else s.heat.stopFired } } := by
  unfold restStopTimer
  split <;> rfl

theorem startGenerators_eq (s : State) : startGenerators s = { s with
    lg := { s.lg with
      infeedPeriod := if s.lg.infeedPeriod = none then s.infeedStepPeriod else s.lg.infeedPeriod
      beltPeriod := if s.lg.beltPeriod = none then s.beltStepPeriod else s.lg.beltPeriod } } := by
  unfold startGenerators
  cases s.lg.infeedPeriod <;> cases s.lg.beltPeriod <;> rfl

theorem resumedZone_ne_standby (zn : Zone) : (resumedZone zn).state ≠ .standby := by
  rw [resumedZone_eq]
  split
  · simp
  · assumption

theorem resumedZone_recipe (zn : Zone) : (resumedZone zn).recipe = zn.recipe := by
  rw [resumedZone_eq]
  split <;> rfl

theorem resumedZone_off_iff (zn : Zone) : (resumedZone zn).state = .off ↔ zn.state = .off := by
  rw [resumedZone_eq]
  split
  · next h => simp [h]
  · rfl

theorem resumeTest_zone (s : State) (z : Fin 4) : (resumeTest s).zone z =
    if s.lg.lineState = .running ∧ s.otherZeroReason = false then resumedZone (s.zone z) else s.zone z := by
  rw [resumeTest_eq]
  split <;> simp [State.zone]

theorem feedingRecipe_congr {s t : State} (h : t.rolls = s.rolls) : t.feedingRecipe = s.feedingRecipe := by
  simp only [feedingRecipe_eq, h]

theorem allOff_iff (s : State) : s.allOff = true ↔ ∀ z : Fin 4, (s.zone z).state = .off := by
  simp [State.allOff, mem_allZones]

theorem resumeTest_ceiling (s : State) : (resumeTest s).ceiling = s.ceiling := by
  refine ceiling_congr (by simp) (by simp) (fun z => ?_) (by rw [resumeTest_eq]) (feedingRecipe_congr (by simp)) (by simp)
  rw [resumeTest_zone]
  split
  · exact resumedZone_recipe _
  · rfl

theorem resumeTest_allOff (s : State) : (resumeTest s).allOff = true ↔ s.allOff = true := by
  simp only [allOff_iff, resumeTest_zone]
  split
  · simp only [resumedZone_off_iff]
  · rfl

/-! ### All of them together -/

theorem reported_eq_update (s : State) : reported s = { s with lg := (reported s).lg, heat := (reported s).heat } := by
  simp only [reported, startGenerators, restStopTimer_eq]
  rw [clampReference_eq, resumeTest_eq]

theorem reported_lg (s : State) : (reported s).lg = { s.lg with
    reference := if s.lg.freeze = none ∧ s.ceiling < s.lg.reference then s.ceiling else s.lg.reference
    lineState := if (s.lg.freeze = none ∧ s.ceiling < s.lg.reference) ∧ s.ceiling = 0 ∧ s.lg.lineState = .stopping
      then .stopped else s.lg.lineState
    infeedPeriod := if s.lg.infeedPeriod = none then (reported s).infeedStepPeriod else s.lg.infeedPeriod
    beltPeriod := if s.lg.beltPeriod = none then (reported s).beltStepPeriod else s.lg.beltPeriod } := by
  have held : (restStopTimer (clampReference (resumeTest s))).lg = { s.lg with
      reference := if s.lg.freeze = none ∧ s.ceiling < s.lg.reference then s.ceiling else s.lg.reference
      lineState := if (s.lg.freeze = none ∧ s.ceiling < s.lg.reference) ∧ s.ceiling = 0 ∧ s.lg.lineState = .stopping
        then .stopped else s.lg.lineState } := by
    simp only [restStopTimer_frame, clampReference_lg, resumeTest_frame, resumeTest_ceiling]
  have infeed : (restStopTimer (clampReference (resumeTest s))).infeedStepPeriod = (reported s).infeedStepPeriod := rfl
  have belt : (restStopTimer (clampReference (resumeTest s))).beltStepPeriod = (reported s).beltStepPeriod := rfl
  conv_lhs => rw [reported, startGenerators_eq, infeed, belt]
  rw [held]

theorem reported_heat (s : State) : (reported s).heat = { s.heat with
    zones := if s.lg.lineState = .running ∧ s.otherZeroReason = false
      then s.heat.zones.map resumedZone else s.heat.zones
    stopElapsed := if (reported s).lg.reference ≠ 0 ∨ s.allOff = true then 0 else s.heat.stopElapsed
    stopFired := if (reported s).lg.reference ≠ 0 ∨ s.allOff = true then false else s.heat.stopFired } := by
  have reference : (reported s).lg.reference = (clampReference (resumeTest s)).lg.reference := by
    simp only [reported, startGenerators, restStopTimer_frame]
  have off : (clampReference (resumeTest s)).allOff = true ↔ s.allOff = true := by
    rw [← resumeTest_allOff s, clampReference_eq]
    rfl
  have heat : (clampReference (resumeTest s)).heat = (resumeTest s).heat := by rw [clampReference_eq]
  rw [reference]
  simp only [reported, startGenerators, restStopTimer_eq, off, heat]
  rw [resumeTest_eq]

theorem reported_zone (s : State) (z : Fin 4) : (reported s).zone z =
    if s.lg.lineState = .running ∧ s.otherZeroReason = false then resumedZone (s.zone z) else s.zone z := by
  rw [← resumeTest_zone, State.zone, reported_heat, State.zone, resumeTest_eq]

theorem reported_ceiling (s : State) : (reported s).ceiling = s.ceiling := by
  refine ceiling_congr (by rw [reported_eq_update]) (by rw [reported_eq_update]) (fun z => ?_) (by rw [reported_heat])
    (feedingRecipe_congr (by rw [reported_eq_update])) (by rw [reported_lg])
  rw [reported_zone]
  split
  · exact resumedZone_recipe _
  · rfl

theorem trackFull_congr {s t : State} (hslots : t.slots = s.slots) (hps : t.ps = s.ps)
    (hrecords : t.tu.records = s.tu.records) (hweb : t.pc.webPosition = s.pc.webPosition)
    (hgeometry : t.geometry = s.geometry) : t.trackFull = s.trackFull := by
  have hstart : t.oldestStart = s.oldestStart := by
    simp only [State.oldestStart, State.oldestCommitted, State.status, State.slot, hslots, hps]
  simp only [State.trackFull, hrecords, hstart, hweb, hgeometry]

theorem otherZeroReason_congr {s t : State} (hhold : t.lg.hold = s.lg.hold) (hstarve : t.lg.starve = s.lg.starve)
    (hfull : t.trackFull = s.trackFull) : t.otherZeroReason = s.otherZeroReason := by
  simp only [State.otherZeroReason, hhold, hstarve, hfull]

theorem reported_otherZeroReason (s : State) : (reported s).otherZeroReason = s.otherZeroReason := by
  refine otherZeroReason_congr (by rw [reported_lg]) (by rw [reported_lg]) ?_
  refine trackFull_congr ?_ ?_ ?_ ?_ ?_ <;> rw [reported_eq_update]

/-! ### A state with every report up to date -/

/-- What the blocks report to each other is up to date (R99, R104, R112, R145, R147). -/
structure UpToDate (s : State) : Prop where
  starve : StarveFits s
  resumed : s.lg.lineState = .running → s.otherZeroReason = false → ∀ z : Fin 4, (s.zone z).state ≠ .standby
  held : CeilingInv s
  rests : s.lg.reference ≠ 0 ∨ s.allOff = true → s.heat.stopElapsed = 0 ∧ s.heat.stopFired = false
  infeed : s.lg.infeedPeriod = none → s.infeedStepPeriod = none
  belt : s.lg.beltPeriod = none → s.beltStepPeriod = none

theorem reported_upToDate {s : State} (h : StarveFits s) : UpToDate (reported s) where
  starve := h.of_queueKept
    (.of_slots (by rw [reported_eq_update]) (by rw [reported_eq_update]) (by rw [reported_eq_update])
      (by rw [reported_eq_update]))
    (by rw [reported_eq_update]) (by rw [reported_lg]) (by rw [reported_lg])
  resumed hrunning hreason z := by
    rw [reported_otherZeroReason] at hreason
    have hline : s.lg.lineState = .running := by
      rw [reported_lg] at hrunning
      dsimp only at hrunning
      split at hrunning
      · cases hrunning
      · exact hrunning
    rw [reported_zone, if_pos ⟨hline, hreason⟩]
    exact resumedZone_ne_standby _
  held hfreeze := by
    rw [reported_ceiling]
    rw [reported_lg] at hfreeze ⊢
    dsimp only at hfreeze ⊢
    split <;> simp_all
  rests hrest := by
    have hoff : (reported s).allOff = true ↔ s.allOff = true := by
      rw [← resumeTest_allOff s, allOff_iff, allOff_iff]
      simp only [reported_zone, resumeTest_zone]
    rw [hoff] at hrest
    rw [reported_heat]
    exact ⟨if_pos hrest, if_pos hrest⟩
  infeed hidle := by
    rw [reported_lg] at hidle
    dsimp only at hidle
    split at hidle
    · exact hidle
    · contradiction
  belt hidle := by
    rw [reported_lg] at hidle
    dsimp only at hidle
    split at hidle
    · exact hidle
    · contradiction

theorem resumeTest_of_upToDate {s : State} (h : UpToDate s) : resumeTest s = s := by
  rw [resumeTest_eq]
  split
  · next hresumes =>
    have hsame : s.heat.zones.map resumedZone = s.heat.zones := vector_four_ext fun z => by
      rw [Vector.getElem_map, resumedZone_eq]
      exact if_neg (h.resumed hresumes.1 hresumes.2 z)
    rw [hsame]
  · rfl

theorem restStopTimer_of_upToDate {s : State} (h : UpToDate s) : restStopTimer s = s := by
  rw [restStopTimer_eq]
  split
  · next hrest => rw [← (h.rests hrest).1, ← (h.rests hrest).2]
  · rfl

theorem startGenerators_of_upToDate {s : State} (h : UpToDate s) : startGenerators s = s := by
  have infeed : (if s.lg.infeedPeriod = none then s.infeedStepPeriod else s.lg.infeedPeriod) = s.lg.infeedPeriod :=
    ite_eq_right_iff.mpr fun hidle => (h.infeed hidle).trans hidle.symm
  have belt : (if s.lg.beltPeriod = none then s.beltStepPeriod else s.lg.beltPeriod) = s.lg.beltPeriod :=
    ite_eq_right_iff.mpr fun hidle => (h.belt hidle).trans hidle.symm
  rw [startGenerators_eq, infeed, belt]

theorem reported_of_upToDate {s : State} (h : UpToDate s) : reported s = s := by
  have hclamp : clampReference s = s := if_neg fun hover => (h.held hover.1).not_gt hover.2
  rw [reported, resumeTest_of_upToDate h, hclamp, restStopTimer_of_upToDate h, startGenerators_of_upToDate h]

theorem starveTest_quiet {s : State} (h : QuietPS s) : QuietPS (starveTest s) :=
  (quietPS_congr (by simp) (by simp) (by simp) (by simp)).mpr h

/-- A state is settled where PS is at rest and every report is up to date. -/
theorem settled_iff (s : State) : Settled s ↔ QuietPS s ∧ UpToDate s := by
  constructor
  · intro h
    have hquiet : QuietPS s := h ▸ refresh_quiet s
    have hreported : reported (starveTest s) = s := by
      rw [← settlePS_of_quiet (starveTest_quiet hquiet)]
      exact h
    exact ⟨hquiet, hreported ▸ reported_upToDate (starveTest_fits s)⟩
  · rintro ⟨hquiet, hdate⟩
    rw [Settled, refresh_eq_reported, starveTest_of_fits hdate.starve, settlePS_of_quiet hquiet,
      reported_of_upToDate hdate]

/-- The end of a command settles the state, where no PANEL record names a QUEUED slot (R115). -/
theorem refresh_settled {s : State} (h : NoneQueued s) : Settled (refresh s) :=
  (settled_iff _).mpr ⟨refresh_quiet s,
    reported_upToDate (settlePS_starveFits ((starveTest_keeps (m := {}) s).slots.names rfl h) (starveTest_fits s))⟩

/-- The end of a command holds the reference under the ceiling, from any state (R104). -/
theorem refresh_ceilingInv (s : State) : CeilingInv (refresh s) := by
  intro hfreeze
  rw [refresh_eq_reported] at hfreeze ⊢
  rw [reported_ceiling]
  rw [reported_lg] at hfreeze ⊢
  dsimp only at hfreeze ⊢
  split <;> simp_all

theorem refresh_settlePS_starveTest {s : State} (h : NoneQueued s) :
    refresh s = refresh (settlePS (starveTest s)) := by
  have hfits := settlePS_starveFits ((starveTest_keeps (m := {}) s).slots.names rfl h) (starveTest_fits s)
  rw [refresh_eq_reported (settlePS (starveTest s)), starveTest_of_fits hfits,
    settlePS_of_quiet (settlePS_quiet _), refresh_eq_reported]

/-- Settles O46: the end of a command is `reported` after the test of STARVE, each part of it in one equation. -/
theorem reportsAreBroughtUpToDate : Obligations.ReportsAreBroughtUpToDate := by
  refine ⟨fun s hquiet => ?_, fun s => ?_⟩
  · have hrefresh : refresh s = reported (setStarve s.starves s) := by
      rw [refresh_eq_reported, settlePS_of_quiet (starveTest_quiet hquiet), starveTest_eq]
    have hlg := setStarve_lg s.starves s
    have hupdate := setStarve_eq_update s.starves s
    have hheat : (setStarve s.starves s).heat = s.heat := by rw [hupdate]
    have hceiling : (setStarve s.starves s).ceiling = s.ceiling := ceiling_setStarve s.starves s
    have hfull : (setStarve s.starves s).trackFull = s.trackFull := by
      refine trackFull_congr ?_ ?_ ?_ ?_ ?_ <;> rw [hupdate]
    have hevents : (refresh s).events = (setStarve s.starves s).events := by rw [hrefresh, reported_eq_update]
    have hstarve : (refresh s).lg.starve = s.starves := by rw [hrefresh, reported_lg, hlg]
    obtain ⟨hmask1, hmask2⟩ := setStarve_masks s.starves s
    refine ⟨hstarve, ?_, ?_, fun c => ?_, ?_, ?_, ?_⟩
    · rw [hevents, hmask1]
    · rw [hevents, hmask2]
    · rw [State.eventCount, hevents, hstarve]
      exact setStarve_eventCount s.starves s c
    · have hparts := reported_lg (setStarve s.starves s)
      rw [← hrefresh, hlg, hceiling] at hparts
      rw [hstarve]
      exact hparts
    · have hparts := reported_heat (setStarve s.starves s)
      rw [← hrefresh, hlg, hheat] at hparts
      have hreason : (setStarve s.starves s).otherZeroReason = false ↔
          s.lg.hold = false ∧ s.trackFull = false ∧ s.starves = false := by
        rw [otherZeroReason_eq_false_iff, hlg, hfull]
      have hoff : (setStarve s.starves s).allOff = true ↔ ∀ z : Fin 4, (s.zone z).state = .off := by
        simp only [allOff_iff, State.zone, hheat]
      rw [hparts, funext resumedZone_eq, hstarve]
      simp only [hreason, hoff]
    · rw [hrefresh, reported_eq_update, hupdate]
  · refine ⟨fun htrack => refresh_settlePS_starveTest (noneQueued_of_trackInv htrack), refresh_quiet s, settlePS_quiet s,
      settlePS_of_quiet, settlePS_takeSlot, settlePS_appendStroke, commitReady_iff s, canAppend_iff s, fun h => ?_,
      fun part h => ?_⟩
    · simp only [takeSlot, h]
    · simp only [takeSlot, h]

end Sys2Proof.Machine
end

