-- ==== Sys2Proof/Proofs/CommandEnds.lean ====
section
/-! PROOF. How a command ends: with the reports brought up to date, or with a change that no report is worked out from;
and so for every request. -/

namespace Sys2Proof.Machine

open Sys2Proof.Safety

-- One proof after the other: many short ones at once need more threads than the memory limit leaves room for.
set_option Elab.async false

/-! ### Changes that no report is worked out from -/

/-- The fields of LG that the reports are worked out from, but for the step periods. -/
def Governor.speeds (g : Governor) : LineState × Nat × Nat × Bool × Bool × Option Nat :=
  (g.lineState, g.hostSpeed, g.reference, g.hold, g.starve, g.freeze)

/-- From `s` to `t` nothing changes that the reports are worked out from. -/
structure Light (s t : State) : Prop where
  geometry : t.geometry = s.geometry := by simp
  limits : t.limits = s.limits := by simp
  slots : t.slots = s.slots := by simp
  ps : t.ps = s.ps := by simp
  records : t.tu.records = s.tu.records := by simp
  web : t.pc.webPosition = s.pc.webPosition := by simp
  recipes : t.heat.recipes = s.heat.recipes := by simp
  timer : t.heat.stopElapsed = s.heat.stopElapsed ∧ t.heat.stopFired = s.heat.stopFired := by simp
  zones : ∀ z, (t.zone z).state = (s.zone z).state ∧ (t.zone z).recipe = (s.zone z).recipe := by simp [State.zone]
  feeding : t.feedingRecipe = s.feedingRecipe := by exact feedingRecipe_congr (by simp)
  speeds : t.lg.speeds = s.lg.speeds := by simp
  infeed : t.lg.infeedPeriod = none → s.lg.infeedPeriod = none ∨ t.infeedStepPeriod = none := by
    exact fun h => .inl (by simpa using h)
  belt : t.lg.beltPeriod = none → s.lg.beltPeriod = none ∨ t.beltStepPeriod = none := by
    exact fun h => .inl (by simpa using h)

section

variable {s t : State}

theorem Light.lg (h : Light s t) : t.lg.lineState = s.lg.lineState ∧ t.lg.hostSpeed = s.lg.hostSpeed ∧
    t.lg.reference = s.lg.reference ∧ t.lg.hold = s.lg.hold ∧ t.lg.starve = s.lg.starve ∧
    t.lg.freeze = s.lg.freeze := by
  simpa only [Governor.speeds, Prod.mk.injEq] using h.speeds

theorem Light.quiet (h : Light s t) : QuietPS s → QuietPS t :=
  (quietPS_congr h.slots h.ps h.web h.geometry).mpr

theorem Light.ceilingInv (h : Light s t) : CeilingInv s → CeilingInv t := by
  obtain ⟨-, hhost, hreference, -, -, hfreeze⟩ := h.lg
  have hceiling : t.ceiling = s.ceiling :=
    ceiling_congr h.geometry h.limits (fun z => (h.zones z).2) h.recipes h.feeding hhost
  intro hs
  rwa [CeilingInv, hceiling, hreference, hfreeze]

theorem ratio_congr (hslots : t.slots = s.slots) (hps : t.ps = s.ps) (hweb : t.pc.webPosition = s.pc.webPosition) :
    t.ratio = s.ratio := by
  simp only [State.ratio, State.status, State.slot, hslots, hps, hweb]

theorem Light.stepPeriods (h : Light s t) :
    t.infeedStepPeriod = s.infeedStepPeriod ∧ t.beltStepPeriod = s.beltStepPeriod := by
  obtain ⟨-, -, hreference, -, -, -⟩ := h.lg
  have hspeed : t.infeedSpeed = s.infeedSpeed := by
    rw [State.infeedSpeed, State.infeedSpeed, ratio_congr h.slots h.ps h.web, hreference]
  constructor
  · rw [State.infeedStepPeriod, State.infeedStepPeriod, hspeed, h.geometry]
  · rw [State.beltStepPeriod, State.beltStepPeriod, hreference, h.geometry]

theorem Light.upToDate (h : Light s t) (hs : UpToDate s) : UpToDate t := by
  obtain ⟨hstate, -, hreference, hhold, hstarve, hfreeze⟩ := h.lg
  obtain ⟨hinfeed, hbelt⟩ := h.stepPeriods
  obtain ⟨helapsed, hfired⟩ := h.timer
  have hreason : t.otherZeroReason = s.otherZeroReason :=
    otherZeroReason_congr hhold hstarve (trackFull_congr h.slots h.ps h.records h.web h.geometry)
  have hoff : t.allOff = true ↔ s.allOff = true := by
    simp only [allOff_iff, h.zones]
  refine ⟨?_, ?_, h.ceilingInv hs.held, ?_, fun hidle => ?_, fun hidle => ?_⟩
  · exact hs.starve.of_queueKept (.of_slots h.slots (by rw [h.ps]) (by rw [h.ps]) h.web) h.geometry hstarve hfreeze
  · rw [hstate, hreason]
    exact fun hrunning hnone z => by rw [(h.zones z).1]; exact hs.resumed hrunning hnone z
  · rw [hreference, hoff, helapsed, hfired]
    exact hs.rests
  · exact (h.infeed hidle).elim (fun hs' => hinfeed.trans (hs.infeed hs')) id
  · exact (h.belt hidle).elim (fun hs' => hbelt.trans (hs.belt hs')) id

theorem Light.settled (h : Light s t) : Settled s → Settled t := by
  rw [settled_iff, settled_iff]
  exact fun ⟨hquiet, hdate⟩ => ⟨h.quiet hquiet, h.upToDate hdate⟩

end

/-! ### The end of a command -/

/-- What a command keeps, and what it leaves up to date. -/
structure Ends (m : Undoing) (s t : State) : Prop where
  keeps : Keeps m s t
  quiet : QuietPS s → QuietPS t
  ceilingInv : CeilingInv s → CeilingInv t
  settled : Settled s → TrackInv s → Settled t

section

variable {m : Undoing} {s t u : State}

theorem Ends.of_light (h : Keeps m s t) (hlight : Light s t) : Ends m s t :=
  ⟨h, hlight.quiet, hlight.ceilingInv, fun hs _ => hlight.settled hs⟩

theorem Ends.of_plain (h : Plain s t) (hlight : Light s t) : Ends m s t := .of_light h.keeps hlight

theorem Ends.refl (s : State) : Ends m s s := .of_light (.refl s) {}

theorem Ends.of_named (h : Keeps m s u) (hnone : TrackInv s → NoneQueued u) : Ends m s (refresh u) :=
  ⟨h.trans (refresh_keeps u), fun _ => refresh_quiet u, fun _ => refresh_ceilingInv u,
    fun _ htrack => refresh_settled (hnone htrack)⟩

/-- A command that brings the reports up to date, and loads no slot. -/
theorem Ends.of_refresh (h : Keeps m s u) (hm : m.loads = false := by rfl) : Ends m s (refresh u) :=
  .of_named h fun htrack => h.slots.names hm (noneQueued_of_trackInv htrack)

theorem Ends.then_light (h : Ends m s t) (hkeeps : Keeps m t u) (hlight : Light t u) : Ends m s u :=
  ⟨h.keeps.trans hkeeps, hlight.quiet ∘ h.quiet, hlight.ceilingInv ∘ h.ceilingInv,
    fun hs htrack => hlight.settled (h.settled hs htrack)⟩

/-- A command does not see a change before it that no report and no PANEL record has to do with. -/
theorem Ends.after_light (hplain : Plain s t) (hlight : Light s t) (htracked : TrackInv s → TrackInv t)
    (h : Ends m t u) : Ends m s u :=
  ⟨hplain.keeps.trans h.keeps, h.quiet ∘ hlight.quiet, h.ceilingInv ∘ hlight.ceilingInv,
    fun hs htrack => h.settled (hlight.settled hs) (htracked htrack)⟩

theorem withLink_light (l : LinkInterface) (s : State) : Light s (withLink l s) where
  feeding := rfl

theorem withLink_plain (l : LinkInterface) (s : State) : Plain s (withLink l s) := {}

theorem Ends.after_withLink {l : LinkInterface} (h : Ends m (withLink l s) t) : Ends m s t :=
  h.after_light (withLink_plain l s) (withLink_light l s) id

theorem Ends.then_withLink (l : LinkInterface) (h : Ends m s t) : Ends m s (withLink l t) :=
  h.then_light (withLink_plain l t).keeps (withLink_light l t)

end

/-! ### SET-GEOMETRY, SET-LIMITS and SET-RECIPE (R8, R12, R14, R132) -/

section

variable {m : Undoing}

theorem storeGeometry_keeps (g : GeometryFields) (s : State) : Keeps m s (storeGeometry g s) := by
  refine ⟨?_, .of_zones rfl rfl rfl rfl, .of_slots rfl rfl, fun _ => le_rfl⟩
  by_cases hstate : s.lg.lineState = .unconfigured <;>
    constructor <;>
    simp_all [storeGeometry, TripInv, FreezeInv, ConfiguredInv, RestInv, State.holdsCause]

theorem clearOldCounts_keeps (s : State) : Keeps m s (clearOldCounts s) := Plain.keeps {
  line := rfl, valid := rfl, limits := rfl, recipes := rfl, zones := rfl, on := rfl, slots := rfl, tu := rfl
  mark := rfl }

theorem restartReverseCheck_keeps (s : State) : Keeps m s (restartReverseCheck s) := by
  unfold restartReverseCheck
  split
  · exact reportCause_keeps .reverse s
  · exact .refl s

theorem serveSetGeometry_ends (g : GeometryFields) (s : State) : Ends {} s (serveSetGeometry g s).1 := by
  unfold serveSetGeometry
  split
  · exact .refl s
  · split
    · exact .refl s
    · exact .of_refresh
        (((storeGeometry_keeps g s).trans (clearOldCounts_keeps _)).trans (restartReverseCheck_keeps _))

/-- Limits set where none are set keep the heat within them (R14). -/
theorem setLimits_keeps {lim : Limits} {s : State} (hunset : s.limits.isSet = false) (hset : lim.isSet = true) :
    Keeps m s { s with limits := lim } where
  line := .of_core rfl rfl
  heat := by
    refine ⟨fun ⟨hfits, hstored, hzero⟩ => ⟨hfits, ?_, fun h => absurd (hset.symm.trans h) (by decide)⟩,
      fun _ h => absurd (hunset.symm.trans h) (by decide), fun _ h => ⟨h, fun _ hz => ⟨hz, rfl⟩⟩⟩
    rw [hzero hunset] at hstored
    exact fun r => ⟨fun z => ((hstored r).1 z).trans (Nat.zero_le _), (hstored r).2.trans (Nat.zero_le _)⟩
  slots := .of_slots rfl rfl
  mark _ := le_rfl

theorem serveSetLimits_ends (maxTemp maxSpeed minDwell : Nat) (s : State) :
    Ends {} s (serveSetLimits maxTemp maxSpeed minDwell s).1 := by
  unfold serveSetLimits
  split
  · exact .refl s
  · next hunset =>
    split
    · exact .refl s
    · exact .of_refresh (setLimits_keeps (Bool.eq_false_iff.mpr hunset) rfl)

/-- A recipe stored within the commissioning maximum temperature (R133). -/
theorem setRecipe_keeps {i : Fin 8} {r : Recipe} {s : State}
    (h : (∀ z : Fin 4, r.setpoint z ≤ s.limits.maxTemp) ∧ r.standby ≤ s.limits.maxTemp) :
    Keeps m s (setRecipe i r s) where
  line := .of_core rfl rfl
  heat := by
    refine ⟨fun ⟨hfits, hstored, hzero⟩ => ⟨hfits, fun j => ?_, hzero⟩, fun _ _ => rfl,
      fun _ hon => ⟨hon, fun _ hz => ⟨hz, rfl⟩⟩⟩
    by_cases hj : i.val = j.val
    · simpa [State.recipe, setRecipe, hj] using h
    · simpa [State.recipe, setRecipe, hj] using hstored j
  slots := .of_slots rfl rfl
  mark _ := le_rfl

theorem adjustedRecipe_le (r : RecipeFields) (lim : Limits) :
    (∀ z : Fin 4, (adjustedRecipe r lim).setpoint z ≤ lim.maxTemp) ∧ (adjustedRecipe r lim).standby ≤ lim.maxTemp := by
  refine ⟨fun z => ?_, min_le_right _ _⟩
  fin_cases z <;> exact min_le_right _ _

theorem serveSetRecipe_ends (r : RecipeFields) (s : State) : Ends {} s (serveSetRecipe r s).1 := by
  unfold serveSetRecipe
  split
  · exact .refl s
  · split
    · split
      · exact .refl s
      · split
        · exact .refl s
        · dsimp only
          split
          · exact .refl s
          · exact .of_refresh (setRecipe_keeps (adjustedRecipe_le r s.limits))
    · exact .refl s

/-! ### The slots (R23 to R28) -/

theorem freeSlot_ends (k : Fin 32) (s : State) : Ends {} s (refresh (freeSlot k s)) :=
  .of_refresh (modifyStatus_keeps k _ s fun _ h => SlotState.noConfusion h)

theorem serveCancelPanel_ends (slot : Nat) (s : State) : Ends {} s (serveCancelPanel slot s).1 := by
  unfold serveCancelPanel
  split
  · split
    · exact freeSlot_ends _ s
    · exact .refl s
  · exact .refl s

theorem serveReleasePanel_ends (slot : Nat) (s : State) : Ends {} s (serveReleasePanel slot s).1 := by
  unfold serveReleasePanel
  split
  · split
    · exact freeSlot_ends _ s
    · exact .refl s
  · exact .refl s

theorem loadSlot_keeps (k : Fin 32) (p : PanelRecord) (s : State) : Keeps { loads := true } s (loadSlot k p s) := by
  have stored : Keeps { loads := true } s (setSlot k { panel := p, status := queuedStatus p s.geometry.given.s } s) :=
    ⟨.of_core rfl rfl, .of_zones rfl rfl rfl rfl, ⟨fun h => absurd h (by decide), fun h => absurd h (by decide)⟩,
      fun _ => le_rfl⟩
  unfold loadSlot
  dsimp only
  split
  · exact stored.trans (evaluatePlanning_keeps _)
  · exact stored

/-- A slot loaded where it was FREE has no PANEL record (R23, R115). -/
theorem loadSlot_noneQueued {k : Fin 32} {p : PanelRecord} {s : State} (h : TrackInv s)
    (hfree : (s.status k).state = .free) : NoneQueued (loadSlot k p s) := by
  have stored : NoneQueued (setSlot k { panel := p, status := queuedStatus p s.geometry.given.s } s) := by
    intro x hx j hj
    by_cases hjk : j = k
    · have hstage := stage_of_named (s := s) h hx hj
      rw [hjk, hfree] at hstage
      exact absurd hstage (by decide)
    · rw [State.status, slot_setSlot_other hjk]
      exact noneQueued_of_trackInv h x hx j hj
  unfold loadSlot
  dsimp only
  split
  · exact (evaluatePlanning_keeps (m := {}) _).slots.names rfl stored
  · exact stored

theorem serveLoadPanel_ends (slot : Nat) (p : PanelFields) (s : State) :
    Ends { loads := true } s (serveLoadPanel slot p s).1 := by
  unfold serveLoadPanel
  split
  · exact .refl s
  · split
    · split
      · exact .refl s
      · next hfree =>
        split
        · exact .refl s
        · split
          · exact .refl s
          · exact .of_named (loadSlot_keeps _ _ s) fun htrack => loadSlot_noneQueued htrack (not_not.mp hfree)
    · exact .refl s

/-! ### The line (R93 to R96, R108, R109, R193) -/

theorem startLine_keeps (s : State) (hvalid : s.geometry.valid = true) (htripped : s.lg.lineState ≠ .tripped) :
    Keeps { runs := true } s (startLine s) := by
  have running : LineKept { runs := true } s { s with
      lg := { s.lg with lineState := .running, deferredStop := false } } := by
    constructor <;>
      simp_all [TripInv, FreezeInv, ConfiguredInv, RestInv, State.holdsCause]
  exact running.keeps.trans (resumeZones_keeps _)

theorem serveStart_ends (s : State) : Ends { runs := true } s (serveStart s).1 := by
  rw [serveStart_eq]
  split
  · exact .refl s
  split
  · exact .refl s
  next hgeometry =>
    split
    · exact .refl s
    next htripped =>
      have started : Ends { runs := true } s (refresh (startLine s)) :=
        .of_refresh (startLine_keeps s (Bool.not_eq_false _ ▸ fun hvalid => hgeometry (.inr hvalid)) htripped)
      repeat' split
      · exact started
      · exact .refl s
      · exact .refl s
      · exact .refl s
      · exact started

/-- A STOP deferred during a freeze (R95). -/
theorem deferStop_kept {s : State} (hrunning : s.lg.lineState = .running) (hfreeze : s.lg.freeze ≠ none) :
    LineKept m s { s with lg := { s.lg with deferredStop := true } } := by
  constructor <;>
    simp_all [TripInv, FreezeInv, ConfiguredInv, RestInv, State.holdsCause]

theorem serveStop_ends (s : State) : Ends {} s (serveStop s).1 := by
  rw [serveStop, stopEffect_eq]
  split
  · next hrunning =>
    split
    · next hfreeze => exact .of_refresh (stopLine_kept hrunning hfreeze).keeps
    · next hfreeze => exact .of_light (deferStop_kept hrunning hfreeze).keeps { speeds := rfl }
  · exact .refl s

theorem serveSetSpeed_ends (speed : Nat) (s : State) : Ends {} s (serveSetSpeed speed s).1 := by
  unfold serveSetSpeed
  split
  · exact .refl s
  · exact .of_refresh (setCore_keeps _ s rfl)

theorem clearTrip_keeps {s : State} (h : s.mayClearTrip = true) : Keeps { clears := true } s (clearTrip s) := by
  obtain ⟨htripped, hreference, -, -, -⟩ := (mayClearTrip_iff s).mp h
  have cleared : LineKept { clears := true } s { s with
      lg := { s.lg with
        primary := none, further := 0, lineState := if s.geometry.valid then .stopped else .unconfigured }
      blade := { s.blade with misses := 0 } } := by
    cases hvalid : s.geometry.valid <;>
      constructor <;>
      simp_all [TripInv, FreezeInv, ConfiguredInv, RestInv, State.holdsCause]
  exact cleared.keeps.trans (evaluatePlanning_keeps _)

theorem serveClearTrip_ends (s : State) : Ends { clears := true } s (serveClearTrip s).1 := by
  unfold serveClearTrip
  split
  · next hmay => exact .of_refresh (clearTrip_keeps hmay)
  · exact .refl s

/-- Production cleared at reference 0 (R193). -/
theorem clearProduction_keeps {s : State} (h : s.lg.reference = 0) : Keeps { rewinds := true } s (clearProduction s) where
  line := by
    constructor <;>
      simp_all [clearProduction, TripInv, FreezeInv, ConfiguredInv, RestInv, State.holdsCause]
  heat := .of_zones rfl rfl rfl rfl
  slots := .of_named (fun _ k hk => by simp [clearProduction, State.status, State.slot, clearedSlot, clearedStatus] at hk)
    fun x hx => nomatch hx
  mark h := Bool.noConfusion h

theorem clearRolls_keeps (s : State) : Keeps m s (clearRolls s) := by
  have ended : Keeps m s (endOverdueCut s) := by
    unfold endOverdueCut
    split
    · exact endCut_keeps _ s
    · exact .refl s
  exact ended.trans (setRolls_keeps _ _)

theorem serveLineReset_ends (s : State) : Ends { rewinds := true } s (serveLineReset s).1 := by
  have switched (t : State) : Keeps { rewinds := true } t (switchToFeeding t) := by
    unfold switchToFeeding
    split
    · exact switchAllZones_keeps _ t
    · exact .refl t
  unfold serveLineReset
  split
  · next hmay =>
    have hreference : s.lg.reference = 0 := by
      simp only [State.mayLineReset, Bool.and_eq_true, beq_iff_eq] at hmay
      exact hmay.1.1
    exact .of_refresh (((clearProduction_keeps hreference).trans (clearRolls_keeps _)).trans (switched _))
  · exact .refl s

/-! ### Heat (R135, R136, R142) -/

theorem modifyZone_light {z : Fin 4} {f : Zone → Zone} {s : State}
    (h : (f (s.zone z)).state = (s.zone z).state ∧ (f (s.zone z)).recipe = (s.zone z).recipe) :
    Light s (modifyZone z f s) where
  recipes := rfl
  timer := ⟨rfl, rfl⟩
  zones y := by
    by_cases hy : y = z
    · subst hy
      rwa [zone_modifyZone_same]
    · rw [zone_modifyZone_other hy]
      exact ⟨rfl, rfl⟩

theorem serveSetZoneTuning_ends (zone kp ki : Nat) (s : State) : Ends {} s (serveSetZoneTuning zone kp ki s).1 := by
  have tuned (z : Fin 4) : Ends {} s (modifyZone z (fun zn => { zn with kp := kp, ki := ki }) s) :=
    .of_light (modifyZone_keeps (.of_same rfl rfl rfl rfl rfl rfl)) (modifyZone_light ⟨rfl, rfl⟩)
  rw [serveSetZoneTuning_eq]
  repeat' split
  · exact .refl s
  · exact .refl s
  · exact .refl s
  · exact tuned _

/-- What may end a fault keeps the faults where the heat switch is off. -/
theorem Keeps.of_heatOff {s t : State} (h : Keeps { m with cools := true } s t) (hoff : s.heat.heatOn = false) :
    Keeps m s t where
  line := ⟨h.line.invs, h.line.rest, h.line.runs, h.line.trips, h.line.valid⟩
  heat := ⟨h.heat.inv, h.heat.limits, fun _ hon => absurd (hoff.symm.trans hon) (by decide)⟩
  slots := ⟨h.slots.queued, h.slots.names⟩
  mark := h.mark

theorem heatedZone_kept (used : Bool) (r : Fin 8) (zn : Zone) :
    ZoneKept { m with cools := true } zn (heatedZone used r zn) := by
  unfold heatedZone
  split
  · exact ⟨fun _ => by simp [Zone.Fits], fun h => Bool.noConfusion h⟩
  · exact .of_same rfl rfl rfl rfl rfl rfl

theorem heatOn_keeps (r : Fin 8) {s : State} (hoff : s.heat.heatOn = false) : Keeps m s (heatOn r s) := by
  have switched : Keeps { m with cools := true } s { s with heat := { s.heat with heatOn := true } } :=
    ⟨.of_core rfl rfl, ⟨id, fun _ _ => rfl, fun h => Bool.noConfusion h⟩, .of_slots rfl rfl, fun _ => le_rfl⟩
  exact (switched.trans (.foldl (fun t z => modifyZone_keeps (heatedZone_kept _ r _)) allZones _)).of_heatOff hoff

theorem serveHeatOn_ends (s : State) : Ends {} s (serveHeatOn s).1 := by
  unfold serveHeatOn
  split
  · exact .refl s
  · split
    · exact .refl s
    · split
      · exact .refl s
      · next hoff => exact .of_refresh (heatOn_keeps _ (Bool.eq_false_iff.mpr hoff))

theorem heatOff_keeps (s : State) : Keeps { cools := true } s (heatOff s) := by
  have left : Keeps { cools := true } s (allZones.foldl (fun t z => leaveIfInBand (t.zone z).state z t) s) :=
    .foldl (fun t z => leaveIfInBand_keeps _ z t) allZones s
  have cold (zn : Zone) : ZoneKept { cools := true } zn (heatlessZone zn) :=
    .of_cold (fun h => Bool.noConfusion h) rfl rfl rfl rfl
  have cooled (t : State) : Keeps { cools := true } t (allZones.foldl (fun u z => modifyZone z heatlessZone u) t) :=
    .foldl (fun u z => modifyZone_keeps (cold (u.zone z))) allZones t
  have switchedOff (t : State) : Keeps { cools := true } t
      { t with heat := { t.heat with heatOn := false, stopElapsed := 0, stopFired := false } } :=
    ⟨.of_core rfl rfl, ⟨id, fun _ _ => rfl, fun h => Bool.noConfusion h⟩, .of_slots rfl rfl, fun _ => le_rfl⟩
  exact (left.trans (cooled _)).trans (switchedOff _)

theorem serveHeatOff_ends (s : State) : Ends { cools := true } s (serveHeatOff s).1 := by
  unfold serveHeatOff
  dsimp only
  split
  · exact .of_refresh (heatOff_keeps s)
  · exact .refl s

/-! ### The other requests -/

theorem mountRoll_keeps (u : UnwindId) (diameter : Nat) (recipe : Fin 8) (threaded : Nat) (s : State) :
    Keeps m s (mountRoll u diameter recipe threaded s) := by
  unfold mountRoll
  dsimp only
  split
  · exact (modifyUnwind_keeps u _ s).trans (evaluatePlanning_keeps _)
  · exact modifyUnwind_keeps u _ s

theorem serveRollReady_ends (unwind diameter recipe threaded : Nat) (s : State) :
    Ends {} s (serveRollReady unwind diameter recipe threaded s).1 := by
  unfold serveRollReady
  split
  · exact .refl s
  · split
    · exact .refl s
    · split
      · exact .refl s
      · repeat' split
        · exact .refl s
        · exact .refl s
        · exact .of_refresh (mountRoll_keeps _ _ _ _ s)

/-- A roll that does not feed is removed without a change of the feeding recipe (R153). -/
theorem removedRoll_light {u : UnwindId} {s : State} (h : (s.unwind u).feeds = false) :
    Light s (modifyUnwind u removedRoll s) where
  feeding := by
    have hstate := mt (feeds_iff (s.unwind u)).mpr (Bool.not_eq_true _ ▸ h)
    rw [feedingRecipe_eq, feedingRecipe_eq]
    cases u
    · have hother : (modifyUnwind .A removedRoll s).rolls.b = s.rolls.b := rfl
      have hremoved : (modifyUnwind .A removedRoll s).rolls.a.state = .empty := rfl
      have hnot : ¬ (s.rolls.a.state = .running ∨ s.rolls.a.state = .low) := hstate
      simp [hother, hremoved, hnot]
    · have hother : (modifyUnwind .B removedRoll s).rolls.a = s.rolls.a := rfl
      have hremoved : (modifyUnwind .B removedRoll s).rolls.b.state = .empty := rfl
      have hnot : ¬ (s.rolls.b.state = .running ∨ s.rolls.b.state = .low) := hstate
      simp [hother, hremoved, hnot]

theorem serveRollRemoved_ends (unwind : Nat) (s : State) : Ends {} s (serveRollRemoved unwind s).1 := by
  unfold serveRollRemoved
  split
  · exact .refl s
  · split
    case h_1 h | h_2 h =>
      exact .of_light (modifyUnwind_keeps _ _ s) (removedRoll_light (by simp [Unwind.feeds, h]))
    all_goals exact .refl s

theorem serveReadLink_ends (clear : Nat) (s : State) : Ends {} s (serveReadLink clear s).1 := by
  unfold serveReadLink
  split
  · exact .refl s
  · dsimp only
    split
    · exact (Ends.refl s).then_withLink _
    · exact .refl s

theorem setRu_ends (r : Registrar) (s : State) : Ends m s { s with ru := r } :=
  .of_light (setRu_keeps r s) { feeding := rfl }

theorem setEvents_ends (e : EventUnit) (s : State) : Ends m s { s with events := e } :=
  .of_light (setEvents_keeps e s) { feeding := rfl }

theorem serveSetMarkCode_ends (entry enabled count code mask : Nat) (s : State) :
    Ends {} s (serveSetMarkCode entry enabled count code mask s).1 := by
  unfold serveSetMarkCode
  split
  · repeat' split
    · exact .refl s
    · exact .refl s
    · exact .refl s
    · exact .refl s
    · exact setRu_ends _ s
  · exact .refl s

theorem serveSetEventMask_ends (mask classes : Nat) (s : State) : Ends {} s (serveSetEventMask mask classes s).1 := by
  unfold serveSetEventMask
  split
  · exact .refl s
  · dsimp only
    split
    · exact setEvents_ends _ s
    · exact setEvents_ends _ s

theorem serveAckEvents_ends (classes : Nat) (s : State) : Ends {} s (serveAckEvents classes s).1 := by
  unfold serveAckEvents
  split
  · exact setEvents_ends _ s
  · exact .refl s

theorem serveReadPanel_ends (slot : Nat) (s : State) : Ends {} s (serveReadPanel slot s).1 := by
  unfold serveReadPanel
  split <;> exact .refl s

theorem serveReadHeat_ends (recipe : Nat) (s : State) : Ends {} s (serveReadHeat recipe s).1 := by
  unfold serveReadHeat
  split <;> exact .refl s

theorem serveReadTracking_ends (index : Nat) (s : State) : Ends {} s (serveReadTracking index s).1 := by
  unfold serveReadTracking
  repeat' split
  all_goals exact .refl s

theorem serveReadEvents_ends (index : Nat) (s : State) : Ends {} s (serveReadEvents index s).1 := by
  unfold serveReadEvents
  repeat' split
  all_goals exact .refl s

end

/-! ### Every request -/

/-- What a request may undo (R23, R93, R109, R136, R193). -/
def requestUndoes : Request → Undoing
  | .start => { runs := true }
  | .clearTrip => { clears := true }
  | .lineReset => { rewinds := true }
  | .heatOff => { cools := true }
  | .loadPanel _ _ => { loads := true }
  | _ => {}

/-- The owner of a request ends it (R181). -/
theorem serve_ends (r : Request) (s : State) : Ends (requestUndoes r) s (serve r s).1 := by
  cases r with
  | identify | readRing | readLine | readRolls => exact .refl s
  | readLink clear => exact serveReadLink_ends clear s
  | setLimits t v d => exact serveSetLimits_ends t v d s
  | setGeometry g => exact serveSetGeometry_ends g s
  | setRecipe r => exact serveSetRecipe_ends r s
  | setZoneTuning z kp ki => exact serveSetZoneTuning_ends z kp ki s
  | setMarkCode e n c k m => exact serveSetMarkCode_ends e n c k m s
  | setEventMask m c => exact serveSetEventMask_ends m c s
  | loadPanel k p => exact serveLoadPanel_ends k p s
  | cancelPanel k => exact serveCancelPanel_ends k s
  | releasePanel k => exact serveReleasePanel_ends k s
  | readPanel k => exact serveReadPanel_ends k s
  | start => exact serveStart_ends s
  | stop => exact serveStop_ends s
  | setSpeed v => exact serveSetSpeed_ends v s
  | trip => exact .of_refresh (reportCause_keeps _ s)
  | clearTrip => exact serveClearTrip_ends s
  | lineReset => exact serveLineReset_ends s
  | heatOn => exact serveHeatOn_ends s
  | heatOff => exact serveHeatOff_ends s
  | readHeat r => exact serveReadHeat_ends r s
  | rollReady u d r t => exact serveRollReady_ends u d r t s
  | rollRemoved u => exact serveRollRemoved_ends u s
  | readTracking i => exact serveReadTracking_ends i s
  | readEvents i => exact serveReadEvents_ends i s
  | ackEvents c => exact serveAckEvents_ends c s

theorem deliver_eq_withLink (src : Source) (kind : Nat) (r : State × Answer) :
    ∃ l, deliver src kind r = withLink l r.1 := by
  unfold deliver
  split <;> exact ⟨_, rfl⟩

theorem acceptRequest_ends (src : Source) (r : Request) (s : State) :
    Ends (requestUndoes r) s (acceptRequest src r (serve r) s) := by
  obtain ⟨l, hdeliver⟩ := deliver_eq_withLink src r.kind (serve r (countAccepted s))
  have served : Ends (requestUndoes r) s (serve r (countAccepted s)).1 := (serve_ends r (countAccepted s)).after_withLink
  rw [acceptRequest, hdeliver]
  exact served.then_withLink l

end Sys2Proof.Machine
end

