-- ==== Sys2Proof/Proofs/EveryStep.lean ====
section
/-! PROOF. Every command and every step keeps the line, the ceiling and the heat, and leaves the reports up to date
(StepKeepsCeilingAndHeat, StepKeepsLineState, StepKeepsSettled, OnlyNamedCommandsUndo). -/

namespace Sys2Proof.Machine

open Sys2Proof.Safety

-- One proof after the other: many short ones at once need more threads than the memory limit leaves room for.
set_option Elab.async false

/-- The next state that an outcome gives, where it gives one, ends a command. -/
def EndsIn (m : Undoing) (s : State) (o : Host.Outcome State Fault Refusal) : Prop := ∀ t, o = .next t → Ends m s t

section

variable {m : Undoing}

theorem Ends.next {s t : State} (h : Ends m s t) : EndsIn m s (.next t) := by
  rintro _ ⟨⟩
  exact h

theorem EndsIn.refl (s : State) : EndsIn m s (.next s) := (Ends.refl s).next

/-! ### Changes that no report is worked out from -/

theorem Light.trans {s t u : State} (h : Light s t) (k : Light t u) : Light s u where
  geometry := k.geometry.trans h.geometry
  limits := k.limits.trans h.limits
  slots := k.slots.trans h.slots
  ps := k.ps.trans h.ps
  records := k.records.trans h.records
  web := k.web.trans h.web
  recipes := k.recipes.trans h.recipes
  timer := ⟨k.timer.1.trans h.timer.1, k.timer.2.trans h.timer.2⟩
  zones z := ⟨(k.zones z).1.trans (h.zones z).1, (k.zones z).2.trans (h.zones z).2⟩
  feeding := k.feeding.trans h.feeding
  speeds := k.speeds.trans h.speeds
  infeed hidle := (k.infeed hidle).elim
    (fun ht => (h.infeed ht).imp_right fun hnone => k.stepPeriods.1.trans hnone) .inr
  belt hidle := (k.belt hidle).elim
    (fun ht => (h.belt ht).imp_right fun hnone => k.stepPeriods.2.trans hnone) .inr

theorem Light.foldl {α : Type} {op : State → α → State} (h : ∀ s a, Light s (op s a)) (l : List α) (s : State) :
    Light s (l.foldl op s) := by
  induction l generalizing s with
  | nil => exact {}
  | cons a l ih => exact (h s a).trans (ih (op s a))

/-- The inputs, the blade and the pending events are no part of the reports. -/
theorem setAside_ends (i : Inputs) (b : Blade) (e : EventUnit) (s : State) :
    Ends m s { s with inputs := i, blade := b, events := e } :=
  .of_plain {} { feeding := rfl }

/-- The link and the pending events changed, and nothing else. -/
def LinkOnly (s t : State) : Prop := t = { s with link := t.link, events := t.events }

theorem LinkOnly.ends {s t : State} (h : LinkOnly s t) : Ends m s t := by
  have changed (l : LinkInterface) (e : EventUnit) : Ends m s { s with link := l, events := e } :=
    .of_plain {} { feeding := rfl }
  rw [h]
  exact changed _ _

/-! ### The blade (R59 to R66) -/

theorem bladeLeaves_ends (i : Inputs) (s : State) : Ends m s (bladeLeaves { s with inputs := i }) := by
  unfold bladeLeaves
  split
  · exact setAside_ends i { s.blade with state := .away } _ s
  · exact setAside_ends i { s.blade with state := .returning } s.events s
  · exact setAside_ends i s.blade s.events s
  · exact setAside_ends i s.blade s.events s

theorem bladeReturns_ends (i : Inputs) (s : State) : Ends m s (bladeReturns { s with inputs := i }) := by
  unfold bladeReturns
  split
  · exact setAside_ends i { s.blade with state := .home } s.events s
  · exact setAside_ends i { s.blade with state := .home, inFlight := none } s.events s
  · exact setAside_ends i s.blade s.events s
  · exact setAside_ends i s.blade s.events s

theorem execBladeHomeChange_kept (active : Bool) (s : State) : EndsIn m s (execBladeHomeChange active s) := by
  unfold execBladeHomeChange
  dsimp only
  split
  · exact .refl s
  · split
    · exact (bladeReturns_ends _ s).next
    · exact (bladeLeaves_ends _ s).next

theorem execBladeSlowTime_kept (s : State) : EndsIn m s (execBladeSlowTime s) := by
  unfold execBladeSlowTime
  split
  · exact .refl s
  · split
    · exact .refl s
    · exact (setAside_ends s.inputs { s.blade with inFlight := some _ } _ s).next

theorem execBladeTimeout_kept (s : State) : EndsIn {} s (execBladeTimeout s) := by
  unfold execBladeTimeout
  split
  · exact .refl s
  · exact (Ends.of_refresh ((setBlade_keeps _ s).trans (reportCause_keeps _ _))).next

/-! ### The pattern and the marks (R45, R47, R79 to R83) -/

theorem execCommit_kept (s : State) : EndsIn {} s (execCommit s) := by
  unfold execCommit
  split
  · exact (Ends.of_refresh (commitSlot_keeps _ s)).next
  · exact .refl s
  · exact .refl s

theorem execSearchSetup_kept (s : State) : EndsIn {} s (execSearchSetup s) := by
  unfold execSearchSetup
  split
  · exact (Ends.of_refresh (setUpSearch_keeps _ _ s)).next
  · exact .refl s
  · exact .refl s

theorem execMarkEdge_kept (active : Bool) (s : State) : EndsIn {} s (execMarkEdge active s) := by
  have seen := setInputs_keeps (m := {}) { s.inputs with mark := active } s
  unfold execMarkEdge
  dsimp only
  split
  · exact .refl s
  · refine (Ends.of_refresh (seen.trans ?_)).next
    split
    · exact setBar_keeps _ _
    · split
      · exact leadingEdge_keeps _
      · exact trailingEdge_keeps _

theorem execEncoderChange_kept (e : Encoder) (p : ChannelPair) (s : State) : EndsIn {} s (execEncoderChange e p s) := by
  unfold execEncoderChange
  dsimp only
  split
  · exact .refl s
  · split
    · exact (Ends.of_refresh ((setPair_keeps e p s).trans (reportCause_keeps _ _))).next
    · exact (Ends.of_refresh ((setPair_keeps e p s).trans (countEncoder_keeps e _ _))).next

/-! ### The line (R98, R103, R105, R112) -/

theorem execEStop_kept (s : State) : EndsIn {} s (execEStop s) := by
  unfold execEStop
  split
  · exact .refl s
  · exact (Ends.of_refresh ((setInputs_keeps _ s).trans (reportCause_keeps _ _))).next

theorem execWebBreak_kept (s : State) : EndsIn {} s (execWebBreak s) := by
  unfold execWebBreak
  split
  · exact .refl s
  · exact (Ends.of_refresh ((setInputs_keeps _ s).trans (reportCause_keeps _ _))).next

theorem execTakeOffHoldChange_kept (active : Bool) (s : State) : EndsIn {} s (execTakeOffHoldChange active s) := by
  have held : Keeps {} s { s with
      inputs := { s.inputs with takeOffHold := active }, lg := { s.lg with hold := holdAfter active s.lg } } :=
    Plain.keeps { line := rfl }
  exact (Ends.of_refresh held).next

/-- A cause stands only in TRIPPED (R106). -/
theorem tripped_of_holdsCause {s : State} {c : Cause} (h : TripInv s) (hc : s.holdsCause c = true) :
    s.lg.lineState = .tripped := by
  obtain ⟨hiff, hfurther, _⟩ := h
  refine hiff.mpr fun hnone => ?_
  simp [State.holdsCause, hnone, hfurther hnone] at hc

theorem target_at_rest {s : State} (h : ¬ (s.lg.lineState = .running ∨ s.lg.lineState = .stopping)) : s.target = 0 := by
  rw [target_eq, if_neg h]

theorem moveToward_zero (step : Nat) : moveToward 0 step 0 = 0 := by simp [moveToward]

/-- The ramp leaves a reference of 0 alone in the states that demand it (R92, R103, R107). -/
theorem ramp_keeps (s : State) : Keeps m s (ramp s) := by
  refine LineKept.keeps (.of_reference (v := moveToward s.target s.rampStepNow s.lg.reference)
    (fun htrip hrest hdemand => ?_) rfl rfl) rfl rfl rfl rfl rfl
  have hstate : ¬ (s.lg.lineState = .running ∨ s.lg.lineState = .stopping) := by
    rcases hdemand with h | h | h | h | h
    · exact fun hmoves => by simp [show s.lg.lineState = .unconfigured from h] at hmoves
    · exact fun hmoves => by simp [show s.lg.lineState = .stopped from h] at hmoves
    all_goals exact fun hmoves => by simp [tripped_of_holdsCause htrip h] at hmoves
  have hzero : s.lg.reference = 0 := hrest hdemand
  rw [target_at_rest hstate, hzero]
  exact moveToward_zero s.rampStepNow

theorem execStepPeriodEnd_kept (g : StepOutput) (s : State) : EndsIn m s (execStepPeriodEnd g s) := by
  have infeed : Ends m s { s with lg := { s.lg with
      infeedSteps := s.lg.infeedSteps + 1, infeedPeriod := s.infeedStepPeriod } } :=
    .of_light (setCore_keeps _ s rfl) { feeding := rfl, speeds := rfl, infeed := .inr }
  have belt : Ends m s { s with lg := { s.lg with
      beltSteps := s.lg.beltSteps + 1, beltPeriod := s.beltStepPeriod } } :=
    .of_light (setCore_keeps _ s rfl) { feeding := rfl, speeds := rfl, belt := .inr }
  unfold execStepPeriodEnd
  split
  · split
    · exact .refl s
    · exact infeed.next
  · split
    · exact .refl s
    · exact belt.next

/-! ### Heat (R134 to R147) -/

theorem leaveInBand_keeps (z : Fin 4) (s : State) : Keeps m s (leaveInBand z s) :=
  (Keeps.of_marks fun k => markZonePanels_marksOnly k z s).trans (raise_keeps _ _)

theorem controlled_iff (zn : Zone) : zn.controlled = true ↔ zn.state ≠ .off ∧ zn.state ≠ .fault := by
  unfold Zone.controlled
  cases zn.state <;> simp

theorem faultTest_keeps (z : Fin 4) (s : State) : Keeps m s (faultTest z s) := by
  unfold faultTest
  split
  · next hcontrolled =>
    split
    · next cause _ =>
      have faulted : Keeps m s (modifyZone z (faultedZone cause) s) :=
        modifyZone_keeps (.of_cold (fun _ => ((controlled_iff _).mp hcontrolled).2) rfl rfl rfl rfl)
      unfold enterFault
      dsimp only
      split
      · exact (faulted.trans (leaveInBand_keeps z _)).trans (reportCause_keeps _ _)
      · exact (faulted.trans (raise_keeps _ _)).trans (reportCause_keeps _ _)
    · exact .refl s
  · exact .refl s

theorem settledZone_kept (limit : Nat) {zn : Zone} (h : zn.state = .warming ∨ zn.state = .outOfBand) :
    ZoneKept m zn (settledZone limit zn) := by
  have hfault : zn.state ≠ .fault := by rcases h with h | h <;> simp [h]
  unfold settledZone
  split
  · exact .of_same rfl rfl rfl rfl rfl rfl
  · split
    · exact .of_on hfault (by simp) (by simp) rfl rfl
    · exact .of_same rfl rfl rfl rfl rfl rfl

theorem bandTest_keeps (z : Fin 4) (s : State) : Keeps m s (bandTest z s) := by
  unfold bandTest
  split
  case h_1 h _ => exact modifyZone_keeps (settledZone_kept _ (.inl h))
  case h_2 h _ => exact modifyZone_keeps (settledZone_kept _ (.inr h))
  case h_3 | h_4 => exact modifyZone_keeps (.of_same rfl rfl rfl rfl rfl rfl)
  case h_5 h _ =>
    exact (modifyZone_keeps (.of_on (by simp [h]) (by simp) (by simp) rfl rfl)).trans (leaveInBand_keeps z _)
  case h_6 | h_7 | h_8 | h_9 => exact .refl s

theorem stepStopTimer_keeps (s : State) : Keeps m s (stepStopTimer s) := by
  have counted : Keeps m s { s with heat := { s.heat with stopElapsed := s.heat.stopElapsed + 100 } } := Plain.keeps {}
  unfold stepStopTimer
  split
  · dsimp only
    split
    · exact counted.trans (fireStopTimer_keeps _)
    · exact counted
  · exact .refl s

theorem execScan_kept (t1 t2 t3 t4 pressure : Fin 4096) (s : State) : EndsIn {} s (execScan t1 t2 t3 t4 pressure s) := by
  have scanned : Keeps {} s (scanChannels t1 t2 t3 t4 pressure s) := Plain.keeps {
    line := rfl, valid := rfl, limits := rfl, recipes := rfl, zones := rfl, on := rfl, slots := rfl, tu := rfl
    mark := rfl }
  have tested (t : State) : Keeps {} t (allZones.foldl testZone t) :=
    .foldl (fun u z => (faultTest_keeps z u).trans (bandTest_keeps z _)) allZones t
  exact (Ends.of_refresh ((scanned.trans (tested _)).trans (stepStopTimer_keeps _))).next

theorem settleDue_state {z : Fin 4} {s : State} (h : s.settleDue z = true) : (s.zone z).state ≠ .fault := by
  unfold State.settleDue at h
  split at h
  case h_1 hstate _ => simp [hstate]
  case h_2 hstate _ => simp [hstate]
  case h_3 => exact absurd h (by decide)

theorem execSettleComplete_kept (z : Fin 4) (s : State) : EndsIn {} s (execSettleComplete z s) := by
  unfold execSettleComplete
  split
  · next hdue =>
    exact (Ends.of_refresh (modifyZone_keeps (.of_on (settleDue_state hdue) (by simp) (by simp) rfl rfl))).next
  · exact .refl s

theorem execStopTimerFire_kept (s : State) : EndsIn {} s (execStopTimerFire s) := by
  unfold execStopTimerFire
  split
  · exact (Ends.of_refresh (fireStopTimer_keeps s)).next
  · exact .refl s

theorem perMille_le (x : Int) : perMille x ≤ 1000 := by
  unfold perMille
  omega

theorem controlledZone_kept (e : Int) {zn : Zone} (h : zn.controlled = true) : ZoneKept m zn (controlledZone e zn) := by
  obtain ⟨hoff, hfault⟩ := (controlled_iff zn).mp h
  refine ⟨fun ⟨_, _, hle⟩ => ⟨fun hstate => (hstate.elim hoff hfault).elim, perMille_le _, ?_⟩,
    fun _ hstate => absurd hstate hfault⟩
  simp only [controlledZone]
  split
  · exact perMille_le _
  · exact hle

theorem controlZone_light (s : State) (z : Fin 4) : Light s (controlZone s z) := by
  unfold controlZone
  split
  · split
    · exact modifyZone_light ⟨rfl, rfl⟩
    · exact {}
  · exact {}

theorem controlZone_keeps (s : State) (z : Fin 4) : Keeps m s (controlZone s z) := by
  unfold controlZone
  split
  · next hcontrolled =>
    split
    · exact modifyZone_keeps (controlledZone_kept _ hcontrolled)
    · exact .refl s
  · exact .refl s

theorem execControlStep_kept (s : State) : EndsIn m s (execControlStep s) :=
  (Ends.of_light (.foldl controlZone_keeps allZones s) (.foldl controlZone_light allZones s)).next

theorem boundaryZone_kept (zn : Zone) : ZoneKept m zn (boundaryZone zn) := by
  refine ⟨fun ⟨hcold, hduty, hle⟩ => ⟨fun hstate => ?_, hduty, hle⟩, fun _ hstate => ⟨hstate, rfl⟩⟩
  obtain ⟨hzero, hintegral, -, -⟩ := hcold hstate
  simp [boundaryZone, hzero, hintegral]

theorem execValveBoundary_kept (s : State) : EndsIn m s (execValveBoundary s) :=
  (Ends.of_light (.foldl (fun t z => modifyZone_keeps (boundaryZone_kept (t.zone z))) allZones s)
    (.foldl (fun _ _ => modifyZone_light ⟨rfl, rfl⟩) allZones s)).next

theorem onTimeOver_kept (zn : Zone) : ZoneKept m zn (onTimeOver zn) := by
  refine ⟨fun ⟨hcold, hduty, hle⟩ => ⟨fun hstate => ?_, hduty, hle⟩, fun _ hstate => ⟨hstate, rfl⟩⟩
  obtain ⟨hzero, hintegral, htime, hvalve⟩ := hcold hstate
  simp [onTimeOver, hzero, hintegral, htime, hvalve]

theorem execValveOnTimeEnd_kept (z : Fin 4) (s : State) : EndsIn m s (execValveOnTimeEnd z s) :=
  (Ends.of_light (modifyZone_keeps (onTimeOver_kept _)) (modifyZone_light ⟨rfl, rfl⟩)).next

/-! ### The rolls (R153 to R173) -/

theorem compareDiameter_keeps (u : UnwindId) (before estimate : Nat) (s : State) :
    Keeps m s (compareDiameter u before estimate s) := by
  unfold compareDiameter
  dsimp only
  split
  · exact (((modifyUnwind_keeps u _ s).trans (modifyUnwind_keeps _ spunDown _)).trans (setRolls_keeps _ _)).trans
      (reportCause_keeps _ _)
  · split
    · unfold forcedSplice
      repeat' split
      · exact .refl s
      · exact reportCause_keeps _ s
      · exact reportCause_keeps _ s
      · exact fireSplice_keeps _ _ s
      · exact reportCause_keeps _ s
    · exact .refl s

theorem acceptCount_keeps (u : UnwindId) (nRev : Nat) (s : State) : Keeps m s (acceptCount u nRev s) := by
  have opened (t : State) : Keeps m t (openWindow u t) :=
    (((modifyUnwind_keeps u _ t).trans (raise_keeps _ _)).trans (modifyUnwind_keeps _ _ _)).trans
      (evaluatePlanning_keeps _)
  unfold acceptCount
  dsimp only
  split
  · exact ((modifyUnwind_keeps u _ s).trans (opened _)).trans (compareDiameter_keeps _ _ _ _)
  · exact (modifyUnwind_keeps u _ s).trans (compareDiameter_keeps _ _ _ _)

theorem feedEdge_keeps (u : UnwindId) (s : State) : Keeps m s (feedEdge u s) := by
  have captured := modifyUnwind_keeps (m := m) u (fun w => { w with lastCapture := some s.pc.webPosition }) s
  unfold feedEdge
  dsimp only
  repeat' split
  · exact captured
  · exact captured
  · exact captured
  · exact captured.trans (acceptCount_keeps _ _ _)

theorem spinEdge_keeps (u : UnwindId) (s : State) : Keeps m s (spinEdge u s) := by
  have captured := modifyUnwind_keeps (m := m) u (fun w => { w with lastCapture := some s.rolls.microTimer }) s
  have judged (tRev : Nat) (t : State) : Keeps m t (judgeRevolution u tRev t) := by
    unfold judgeRevolution
    dsimp only
    split
    · exact (modifyUnwind_keeps u _ t).trans (evaluatePlanning_keeps _)
    · exact modifyUnwind_keeps u _ t
  unfold spinEdge
  dsimp only
  repeat' split
  · exact captured
  · exact .refl s
  · exact captured.trans (judged _ _)

theorem markerEdge_keeps (u : UnwindId) (s : State) : Keeps m s (markerEdge u s) := by
  unfold markerEdge
  split
  · exact .refl s
  · split
    case h_1 | h_2 => exact feedEdge_keeps u s
    case h_3 | h_4 => exact spinEdge_keeps u s
    all_goals exact .refl s

theorem execRevolutionMarkerEdge_kept (u : UnwindId) (elapsed : Nat) (s : State) :
    EndsIn {} s (execRevolutionMarkerEdge u elapsed s) :=
  (Ends.of_refresh ((setRolls_keeps _ s).trans (markerEdge_keeps u _))).next

theorem completePaste_keeps (r : SpliceRecord) (s : State) : Keeps m s (completePaste r s) :=
  (modifyUnwind_keeps _ _ s).trans (setRolls_keeps _ _)

theorem confirmCut_keeps (r : SpliceRecord) (s : State) : Keeps m s (confirmCut r s) := by
  unfold confirmCut
  split
  · exact endCut_keeps r s
  · exact ((endCut_keeps r s).trans (spliceOver_keeps _)).trans (raise_keeps _ _)

theorem setInputs_ends (i : Inputs) (s : State) : Ends m s { s with inputs := i } := setAside_ends i s.blade s.events s

theorem execPasteConfirm_kept (s : State) : EndsIn {} s (execPasteConfirm s) := by
  unfold execPasteConfirm
  dsimp only
  split
  · exact .refl s
  · split
    · exact (Ends.of_refresh ((setInputs_keeps _ s).trans (completePaste_keeps _ _))).next
    · exact (setInputs_ends _ s).next

theorem execCutConfirm_kept (s : State) : EndsIn {} s (execCutConfirm s) := by
  unfold execCutConfirm
  dsimp only
  split
  · exact .refl s
  · split
    · exact (Ends.of_refresh ((setInputs_keeps _ s).trans (confirmCut_keeps _ _))).next
    · exact (setInputs_ends _ s).next

theorem execPasteTimeout_kept (s : State) : EndsIn {} s (execPasteTimeout s) := by
  unfold execPasteTimeout
  split
  · exact (Ends.of_refresh (((failPaste_keeps _ s).trans (spliceOver_keeps _)).trans (reportCause_keeps _ _))).next
  · exact .refl s

theorem execCutTimeout_kept (s : State) : EndsIn {} s (execCutTimeout s) := by
  have overdue (r : SpliceRecord) : Keeps {} s (overdueCut r s) :=
    ((setRolls_keeps _ s).trans (raise_keeps _ _)).trans (reportCause_keeps _ _)
  unfold execCutTimeout
  split
  · split
    · exact .refl s
    · exact (Ends.of_refresh (overdue _)).next
  · exact .refl s

/-! ### The link (R174 to R185) -/

theorem setReceiver_linkOnly (r : Receiver) (s : State) : LinkOnly s (setReceiver r s) := rfl

theorem linkError_linkOnly (f : LinkCounters → LinkCounters) (s : State) : LinkOnly s (linkError f s) := rfl

theorem abandonFrame_linkOnly (r : Receiver) (f : LinkCounters → LinkCounters) (s : State) :
    LinkOnly s (setReceiver r (linkError f s)) := rfl

theorem execAddressCharacter_kept (v : Byte) (s : State) : EndsIn m s (execAddressCharacter v s) := by
  unfold execAddressCharacter
  split
  · exact (setReceiver_linkOnly _ s).ends.next
  · exact (abandonFrame_linkOnly _ _ s).ends.next
  · split
    · exact (linkError_linkOnly _ s).ends.next
    · exact .refl s

theorem execFramingError_kept (s : State) : EndsIn m s (execFramingError s) := by
  unfold execFramingError
  split
  · exact .refl s
  · exact (abandonFrame_linkOnly _ _ s).ends.next
  · exact .refl s

theorem execGapTimeout_kept (s : State) : EndsIn m s (execGapTimeout s) := by
  unfold execGapTimeout
  split
  · exact .refl s
  · exact (abandonFrame_linkOnly _ _ s).ends.next
  · exact .refl s

theorem execReplySent_kept (s : State) : EndsIn m s (execReplySent s) := by
  unfold execReplySent
  split
  · exact .refl s
  · exact .refl s
  · exact ((Ends.refl s).then_withLink _).next

/-- A data character changes the link and the events alone, or completes the frame of a request (R176 to R182). -/
theorem advanceFrame_cases (broadcast : Bool) (frame : List Byte) (s : State) :
    LinkOnly s (advanceFrame broadcast frame s) ∨
      ∃ (r : Request) (src : Source), advanceFrame broadcast frame s = acceptRequest src r (serve r) s := by
  have taken (body : List Byte) : LinkOnly s (takeFrame broadcast body s) ∨
      ∃ (r : Request) (src : Source), takeFrame broadcast body s = acceptRequest src r (serve r) s := by
    unfold takeFrame
    split
    · dsimp only
      split
      · exact .inr ⟨_, _, rfl⟩
      · obtain ⟨l, hdeliver⟩ := deliver_eq_withLink _ _ (countAccepted s, Answer.unknown)
        rw [hdeliver]
        exact .inl rfl
    · exact .inl rfl
  unfold advanceFrame
  split
  · exact .inl (abandonFrame_linkOnly _ _ s)
  · split
    · unfold checkFrame
      dsimp only
      split
      · exact taken _
      · exact .inl (abandonFrame_linkOnly _ _ s)
    · exact .inl (setReceiver_linkOnly _ s)

theorem exec_command (r : Request) (src : Source) (s : State) :
    exec (r.command src) s = .next (acceptRequest src r (serve r) s) := by
  cases r <;> rfl

theorem execDataCharacter_cases {v : Byte} {s t : State} (h : execDataCharacter v s = .next t) :
    LinkOnly s t ∨ ∃ (r : Request) (src : Source), exec (r.command src) s = .next t := by
  unfold execDataCharacter at h
  split at h
  · cases h
    exact .inl rfl
  · cases h
    exact (advanceFrame_cases _ _ s).imp_right fun ⟨r, src, heq⟩ => ⟨r, src, by rw [exec_command, heq]⟩
  · cases h
    exact .inl rfl

/-- What some request may undo, none of them the limits or the geometry. -/
def anyRequest : Undoing := { runs := true, clears := true, rewinds := true, cools := true, loads := true }

theorem Keeps.toAnyRequest {s t : State} (h : Keeps m s t) (hm : m.forgets = false) : Keeps anyRequest s t where
  line := ⟨h.line.invs, h.line.rest, fun hr => Bool.noConfusion hr, fun hc => Bool.noConfusion hc,
    fun _ => h.line.valid hm⟩
  heat := ⟨h.heat.inv, fun _ => h.heat.limits hm, fun hc => Bool.noConfusion hc⟩
  slots := ⟨fun hl => Bool.noConfusion hl, fun hl => Bool.noConfusion hl⟩
  mark hr := Bool.noConfusion hr

theorem requestUndoes_forgets (r : Request) : (requestUndoes r).forgets = false := by
  cases r <;> rfl

theorem execDataCharacter_kept (v : Byte) (s : State) : EndsIn anyRequest s (execDataCharacter v s) := by
  intro t ht
  rcases execDataCharacter_cases ht with hlink | ⟨r, src, hrequest⟩
  · exact hlink.ends
  · rw [exec_command] at hrequest
    cases hrequest
    have accepted := acceptRequest_ends src r s
    exact ⟨accepted.keeps.toAnyRequest (requestUndoes_forgets r), accepted.quiet, accepted.ceilingInv,
      accepted.settled⟩

/-! ### The power-on reset (R194) -/

/-- The line at reference 0 with no freeze. -/
def LineAtRest (s : State) : Prop := s.lg.reference = 0 ∧ s.lg.freeze = none

theorem reportCause_atRest (c : Cause) {s : State} (h : LineAtRest s) : LineAtRest (reportCause c s) := by
  obtain ⟨hreference, hfreeze⟩ := h
  have stopped (g : Governor) (hg : g.reference = 0 ∧ g.freeze = none) :
      (g.stoppedBy c).reference = 0 ∧ (g.stoppedBy c).freeze = none := by
    unfold Governor.stoppedBy
    split
    · exact ⟨rfl, hg.2⟩
    · exact hg
  cases htaken : s.takesCause c with
  | false =>
    rw [reportCause_of_not_taken htaken]
    exact ⟨hreference, hfreeze⟩
  | true =>
    by_cases htripped : s.lg.lineState = .tripped
    · rw [reportCause_of_tripped c htripped]
      exact stopped _ ⟨hreference, hfreeze⟩
    · rw [reportCause_of_trip htaken htripped]
      refine stopped _ ?_
      rw [enterTripped_lg]
      exact ⟨by simp [hreference], rfl⟩

/-- The state a power-on reset leaves before the first samples of the inputs. -/
def coldStart (p : PowerOnSamples) (s : State) : State := { coldState p with pending := s.pending, races := s.races }

theorem firstSampleTrips_atRest (p : PowerOnSamples) {s : State} (h : LineAtRest s) :
    LineAtRest (firstSampleTrips p s) := by
  unfold firstSampleTrips
  dsimp only
  repeat' split
  · exact reportCause_atRest _ (reportCause_atRest _ h)
  · exact reportCause_atRest _ h
  · exact reportCause_atRest _ h
  · exact h

theorem firstSampleTrips_keeps (p : PowerOnSamples) (s : State) : Keeps m s (firstSampleTrips p s) := by
  unfold firstSampleTrips
  dsimp only
  repeat' split
  · exact (reportCause_keeps _ s).trans (reportCause_keeps _ _)
  · exact reportCause_keeps _ s
  · exact reportCause_keeps _ s
  · exact .refl s

theorem firstSampleTrips_rest (p : PowerOnSamples) (s : State) : (firstSampleTrips p s).geometry = s.geometry ∧
    (firstSampleTrips p s).slots = s.slots ∧ (firstSampleTrips p s).ps = s.ps ∧ (firstSampleTrips p s).pc = s.pc ∧
    (firstSampleTrips p s).heat = s.heat := by
  unfold firstSampleTrips
  dsimp only
  repeat' split
  all_goals simp

/-- What a power-on reset may undo. -/
def resetUndoes : Undoing := { clears := true, forgets := true, rewinds := true, cools := true, loads := true }

theorem coldStart_keeps (p : PowerOnSamples) (s : State) : Keeps resetUndoes s (coldStart p s) where
  line :=
    { invs := fun _ => by simp [coldStart, coldState, TripInv, FreezeInv, ConfiguredInv]
      rest := fun _ => by simp [coldStart, coldState, TripInv, RestInv]
      runs := fun _ h => by simp [coldStart, coldState] at h
      trips := fun h => Bool.noConfusion h
      valid := fun h => Bool.noConfusion h }
  heat := ⟨fun _ => by
    refine ⟨fun z => ?_, fun r => ⟨fun z => ?_, ?_⟩, fun _ => rfl⟩
    · simp [coldStart, coldState, State.zone, resetZone]
    · simp [coldStart, coldState, State.recipe, zeroRecipe, Recipe.setpoint]
    · simp [coldStart, coldState, State.recipe, zeroRecipe],
    fun h => Bool.noConfusion h, fun h => Bool.noConfusion h⟩
  slots := ⟨fun h => Bool.noConfusion h, fun h => Bool.noConfusion h⟩
  mark h := Bool.noConfusion h

theorem coldStart_quiet (p : PowerOnSamples) (s : State) : QuietPS (coldStart p s) := by
  simp [coldStart, coldState, QuietPS, State.commitReady, State.canAppend, State.status, State.slot, clearedSlot,
    clearedStatus, clearedSequencer]

/-- With the line at rest, the geometry invalid and the zones OFF there is nothing to report. -/
theorem upToDate_of_cold {s : State} (hline : LineAtRest s) (hvalid : s.geometry.valid = false)
    (hoff : ∀ z : Fin 4, (s.zone z).state = .off) (htimer : s.heat.stopElapsed = 0 ∧ s.heat.stopFired = false) :
    UpToDate s where
  starve := if_pos hvalid
  resumed _ _ z := by simp [hoff z]
  held _ := by simp [hline.1]
  rests _ := htimer
  infeed _ := by simp [infeedStepPeriod_eq, hvalid]
  belt _ := by simp [beltStepPeriod_eq, hvalid]

theorem execPowerOnReset_kept (p : PowerOnSamples) (s : State) : EndsIn resetUndoes s (execPowerOnReset p s) := by
  obtain ⟨hgeometry, hslots, hps, hpc, hheat⟩ := firstSampleTrips_rest p (coldStart p s)
  have hquiet : QuietPS (firstSampleTrips p (coldStart p s)) :=
    (quietPS_congr hslots hps (by rw [hpc]) hgeometry).mpr (coldStart_quiet p s)
  have hdate : UpToDate (firstSampleTrips p (coldStart p s)) := by
    refine upToDate_of_cold (firstSampleTrips_atRest p ⟨rfl, rfl⟩) (by rw [hgeometry]; rfl) (fun z => ?_)
      (by rw [hheat]; exact ⟨rfl, rfl⟩)
    rw [State.zone, hheat]
    simp [coldStart, coldState, resetZone]
  have hkept : Keeps resetUndoes s (firstSampleTrips p (coldStart p s)) :=
    (coldStart_keeps p s).trans (firstSampleTrips_keeps p _)
  exact Ends.next ⟨hkept, fun _ => hquiet, fun _ => hdate.held, fun _ _ => (settled_iff _).mpr ⟨hquiet, hdate⟩⟩

end

/-! ### Every command -/

/-- What a command may undo. -/
def commandUndoes : Instr → Undoing
  | .start _ => { runs := true }
  | .clearTrip _ => { clears := true }
  | .lineReset _ => { rewinds := true }
  | .heatOff _ => { cools := true }
  | .loadPanel _ _ _ => { loads := true }
  | .dataCharacter _ => anyRequest
  | .powerOnReset _ => resetUndoes
  | _ => {}

theorem exec_kept (c : Instr) (s : State) : EndsIn (commandUndoes c) s (exec c s) := by
  have accepted (src : Source) (r : Request) :
      EndsIn (requestUndoes r) s (.next (acceptRequest src r (serve r) s)) := (acceptRequest_ends src r s).next
  cases c with
  | powerOnReset p => exact execPowerOnReset_kept p s
  | encoderChange e p => exact execEncoderChange_kept e p s
  | commit => exact execCommit_kept s
  | searchSetup => exact execSearchSetup_kept s
  | strokeGenerate => exact (Ends.of_refresh (appendStroke_keeps s)).next
  | markEdge active => exact execMarkEdge_kept active s
  | bladeHomeChange active => exact execBladeHomeChange_kept active s
  | bladeSlowTime => exact execBladeSlowTime_kept s
  | bladeTimeout => exact execBladeTimeout_kept s
  | eStop => exact execEStop_kept s
  | webBreak => exact execWebBreak_kept s
  | takeOffHoldChange active => exact execTakeOffHoldChange_kept active s
  | revolutionMarkerEdge u elapsed => exact execRevolutionMarkerEdge_kept u elapsed s
  | pasteConfirm => exact execPasteConfirm_kept s
  | cutConfirm => exact execCutConfirm_kept s
  | pasteTimeout => exact execPasteTimeout_kept s
  | cutTimeout => exact execCutTimeout_kept s
  | rampTimer => exact (Ends.of_refresh (ramp_keeps s)).next
  | stepPeriodEnd g => exact execStepPeriodEnd_kept g s
  | scan t1 t2 t3 t4 pressure => exact execScan_kept t1 t2 t3 t4 pressure s
  | settleComplete z => exact execSettleComplete_kept z s
  | stopTimerFire => exact execStopTimerFire_kept s
  | controlStep => exact execControlStep_kept s
  | valveBoundary => exact execValveBoundary_kept s
  | valveOnTimeEnd z => exact execValveOnTimeEnd_kept z s
  | addressCharacter v => exact execAddressCharacter_kept v s
  | dataCharacter v => exact execDataCharacter_kept v s
  | framingError => exact execFramingError_kept s
  | gapTimeout => exact execGapTimeout_kept s
  | replySent => exact execReplySent_kept s
  | eStopReleased | webBreakReleased | pasteConfirmInactive | cutConfirmInactive => exact (setInputs_ends _ s).next
  | identify src => exact accepted src .identify
  | readLink src clear => exact accepted src (.readLink clear)
  | setLimits src t v d => exact accepted src (.setLimits t v d)
  | setGeometry src g => exact accepted src (.setGeometry g)
  | setRecipe src r => exact accepted src (.setRecipe r)
  | setZoneTuning src z kp ki => exact accepted src (.setZoneTuning z kp ki)
  | setMarkCode src e n c k m => exact accepted src (.setMarkCode e n c k m)
  | setEventMask src m c => exact accepted src (.setEventMask m c)
  | loadPanel src k p => exact accepted src (.loadPanel k p)
  | cancelPanel src k => exact accepted src (.cancelPanel k)
  | releasePanel src k => exact accepted src (.releasePanel k)
  | readPanel src k => exact accepted src (.readPanel k)
  | readRing src => exact accepted src .readRing
  | start src => exact accepted src .start
  | stop src => exact accepted src .stop
  | setSpeed src v => exact accepted src (.setSpeed v)
  | trip src => exact accepted src .trip
  | clearTrip src => exact accepted src .clearTrip
  | lineReset src => exact accepted src .lineReset
  | readLine src => exact accepted src .readLine
  | heatOn src => exact accepted src .heatOn
  | heatOff src => exact accepted src .heatOff
  | readHeat src r => exact accepted src (.readHeat r)
  | rollReady src u d r t => exact accepted src (.rollReady u d r t)
  | rollRemoved src u => exact accepted src (.rollRemoved u)
  | readRolls src => exact accepted src .readRolls
  | readTracking src i => exact accepted src (.readTracking i)
  | readEvents src i => exact accepted src (.readEvents i)
  | ackEvents src c => exact accepted src (.ackEvents c)

/-! ### Every step -/

theorem tick_ends (s : State) : Ends {} s (tick s) := by
  have ticked (b : Blade) (r : Option SpliceRecord) (n : Nat) :
      Ends {} s { s with blade := b, rolls := { s.rolls with splice := r, microTimer := n } } :=
    .of_plain {} { feeding := rfl }
  exact ticked _ _ _

theorem step_kept {s t : State} (h : step s = .next t) : ∃ m, Ends m s t := by
  unfold step at h
  split at h
  · cases h
    exact ⟨_, tick_ends s⟩
  · next c rest _ =>
    have taken : Light s { s with pending := rest } := { feeding := rfl }
    exact ⟨_, (exec_kept c _ t h).after_light {} taken id⟩

/-- Settles O8: the end of a command holds the reference under the ceiling, and each operation keeps the heat. -/
theorem stepKeepsCeilingAndHeat : Obligations.StepKeepsCeilingAndHeat := by
  refine ⟨fun s t hs h => ?_, fun s t hs h => ?_⟩
  · obtain ⟨m, hends⟩ := step_kept h
    exact hends.ceilingInv hs
  · obtain ⟨m, hends⟩ := step_kept h
    exact hends.keeps.heat.inv hs

/-- Settles O11: each operation keeps the line. -/
theorem stepKeepsLineState : Obligations.StepKeepsLineState := by
  refine ⟨fun s t hs h => ?_, fun s t hs h => ?_⟩
  · obtain ⟨m, hends⟩ := step_kept h
    exact hends.keeps.line.invs hs
  · obtain ⟨m, hends⟩ := step_kept h
    exact (hends.keeps.line.rest hs).2

/-- Settles O12: a command brings the reports up to date, or changes nothing that they are worked out from. -/
theorem stepKeepsSettled : Obligations.StepKeepsSettled := by
  refine ⟨fun s t hs htrack h => ?_, fun s t hs h => ?_⟩
  · obtain ⟨m, hends⟩ := step_kept h
    exact hends.settled hs htrack
  · obtain ⟨m, hends⟩ := step_kept h
    exact hends.quiet hs

/-! ### What only the named commands undo -/

/-- The commands that may undo each thing. -/
theorem commandUndoes_only (c : Instr) :
    ((commandUndoes c).runs = true → (∃ v, c = .dataCharacter v) ∨ ∃ src, c = .start src) ∧
    ((commandUndoes c).clears = true →
      (∃ v, c = .dataCharacter v) ∨ (∃ src, c = .clearTrip src) ∨ ∃ p, c = .powerOnReset p) ∧
    ((commandUndoes c).forgets = true → ∃ p, c = .powerOnReset p) ∧
    ((commandUndoes c).rewinds = true →
      (∃ v, c = .dataCharacter v) ∨ (∃ src, c = .lineReset src) ∨ ∃ p, c = .powerOnReset p) ∧
    ((commandUndoes c).cools = true →
      (∃ v, c = .dataCharacter v) ∨ (∃ src, c = .heatOff src) ∨ ∃ p, c = .powerOnReset p) := by
  cases c <;> simp [commandUndoes, anyRequest, resetUndoes]

/-- Settles O13: `commandUndoes` says which command may undo what, and a data character is `execDataCharacter_cases`. -/
theorem onlyNamedCommandsUndo : Obligations.OnlyNamedCommandsUndo := by
  refine ⟨fun c s t h hdata => ?_, fun c s t h hreset => ?_, fun v s t h => execDataCharacter_cases h⟩
  · have hline := (exec_kept c s t h).keeps.line
    obtain ⟨hruns, hclears, -, -, -⟩ := commandUndoes_only c
    have nodata : ¬ ∃ v, c = .dataCharacter v := fun ⟨v, hv⟩ => hdata v hv
    refine ⟨fun hrunning hnot => ?_, fun htripped hleft => ?_⟩
    · refine (hruns ?_).resolve_left nodata
      exact Bool.not_eq_false _ ▸ fun hkeeps => hnot (hline.runs hkeeps hrunning)
    · refine (hclears ?_).resolve_left nodata
      exact Bool.not_eq_false _ ▸ fun hkeeps => hleft (hline.trips hkeeps htripped)
  · have hkeeps := (exec_kept c s t h).keeps
    obtain ⟨-, -, hforgets, hrewinds, hcools⟩ := commandUndoes_only c
    have noreset : ¬ ∃ p, c = .powerOnReset p := fun ⟨p, hp⟩ => hreset p hp
    have holds : (commandUndoes c).forgets = false := Bool.eq_false_iff.mpr (mt hforgets noreset)
    refine ⟨hkeeps.heat.limits holds, hkeeps.line.valid holds, fun hdata => ⟨fun hother => ?_, fun hon hother => ?_⟩⟩
    · refine hkeeps.mark (Bool.eq_false_iff.mpr fun hrewind => ?_)
      rcases hrewinds hrewind with ⟨v, hv⟩ | ⟨src, hsrc⟩ | hpower
      · exact hdata v hv
      · exact hother src hsrc
      · exact noreset hpower
    · refine (hkeeps.heat.faults (Bool.eq_false_iff.mpr fun hcool => ?_) hon).2
      rcases hcools hcool with ⟨v, hv⟩ | ⟨src, hsrc⟩ | hpower
      · exact hdata v hv
      · exact hother src hsrc
      · exact noreset hpower

end Sys2Proof.Machine
end

