-- ==== Sys2Proof/Proofs/Overlaps.lean ====
section
/-! PROOF. The distances of a tracking record and what it overlaps (DistancesAndOverlaps). -/

namespace Sys2Proof.Machine

/-- A PANEL record overlaps by both of its distances, and a SEAM record, which names no slot, not at all (R116, R115). -/
theorem overlaps_iff (belt lo hi : Nat) (x : TrackRecord) :
    overlaps belt lo hi x = true ↔
      x.slot? ≠ none ∧ (lo : Int) ≤ headDistance belt x ∧ tailDistance belt x ≤ (hi : Int) := by
  cases x with
  | panel k head tail => simp [overlaps, TrackRecord.slot?]
  | seam b r sw => simp [overlaps, TrackRecord.slot?]

theorem mem_panelSlots_iff (k : Fin 32) (p : TrackRecord → Bool) (s : State) :
    k ∈ s.panelSlots p ↔ ∃ x ∈ s.tu.records, p x = true ∧ x.slot? = some k := by
  simp [State.panelSlots]

/-- Settles O26: the distances are as defined, a zone and the chamber are two extents of `overlaps_iff`, and the slots
named are those of `mem_panelSlots_iff`. -/
theorem distancesAndOverlaps : Obligations.DistancesAndOverlaps := by
  refine ⟨fun b k head tail r sw => ⟨rfl, ?_, rfl⟩, fun s => ⟨fun x z => ⟨?_, ?_⟩, fun k z => ?_⟩⟩
  · cases tail with
    | none => rfl
    | some e => rfl
  · exact overlaps_iff _ _ _ x
  · exact overlaps_iff _ _ _ x
  · exact mem_panelSlots_iff k _ s

end Sys2Proof.Machine
end

