-- ==== Sys2Proof/Proofs/ControlLoop.lean ====
section
/-! PROOF. The four zones taken one after the other; the control step and the valves (ControlStepAndValves). -/

namespace Sys2Proof.Machine

open Sys2Proof.Safety

-- One proof after the other: many short ones at once need more threads than the memory limit leaves room for.
set_option Elab.async false

/-! ### The zones one after the other -/

/-- What an operation on each zone in turn does, from what it does on one zone after those before it. -/
theorem foldl_allZones {op : State → Fin 4 → State} {R : List (Fin 4) → State → Prop} {s : State} (hstart : R [] s)
    (hstep : ∀ acted t z, z ∉ acted → R acted t → R (acted ++ [z]) (op t z)) :
    R allZones (allZones.foldl op s) :=
  have first := hstep [] s 0 (by decide) hstart
  have second := hstep [0] _ 1 (by decide) first
  have third := hstep [0, 1] _ 2 (by decide) second
  hstep [0, 1, 2] _ 3 (by decide) third

/-- The state with zone records of its own. -/
def withZoneRecords (new : Fin 4 → Zone) (s : State) : State :=
  { s with heat := { s.heat with zones := Vector.ofFn new } }

theorem withZoneRecords_zone (new : Fin 4 → Zone) (s : State) (z : Fin 4) : (withZoneRecords new s).zone z = new z := by
  simp [withZoneRecords, State.zone]

theorem withZoneRecords_self (s : State) : withZoneRecords s.zone s = s := by
  have hzones : Vector.ofFn s.zone = s.heat.zones := vector_four_ext fun z => by simp [State.zone]
  rw [withZoneRecords, hzones]

theorem modifyZone_withZoneRecords (z : Fin 4) (f : Zone → Zone) (new : Fin 4 → Zone) (s : State) :
    modifyZone z f (withZoneRecords new s) = withZoneRecords (Function.update new z (f (new z))) s := by
  have hzones : (Vector.ofFn new).set z.val (f (new z)) z.isLt = Vector.ofFn (Function.update new z (f (new z))) := by
    refine vector_four_ext fun y => ?_
    by_cases hy : y = z
    · subst hy
      simp
    · have hval : ¬ z.val = y.val := fun h => hy (Fin.ext h.symm)
      simp [hval, Function.update_of_ne hy]
  rw [modifyZone, withZoneRecords_zone, withZoneRecords, withZoneRecords, ← hzones]

/-- An operation that replaces each zone record in turn by one worked out from the state before replaces all of them. -/
theorem foldl_allZones_replace {op : State → Fin 4 → State} {new : Fin 4 → Zone} {s : State}
    (hop : ∀ old z, old z = s.zone z →
      op (withZoneRecords old s) z = modifyZone z (fun _ => new z) (withZoneRecords old s)) :
    allZones.foldl op s = withZoneRecords new s := by
  have hfold := foldl_allZones (op := op) (s := s)
    (R := fun acted t => t = withZoneRecords (fun z => if z ∈ acted then new z else s.zone z) s)
    (by simpa using (withZoneRecords_self s).symm) fun acted t z hz ht => by
      rw [ht, hop _ z (if_neg hz), modifyZone_withZoneRecords]
      congr 1
      funext y
      by_cases hy : y = z
      · subst hy
        simp
      · simp [hy]
  simpa [mem_allZones] using hfold

/-! ### The control step (R140) -/

/-- The zone record after a control step (R140, log entry 16). -/
def steppedZone (s : State) (z : Fin 4) : Zone :=
  if (s.zone z).controlled then
    match s.temperature z with
    | some t => controlledZone (controlError (s.effectiveSetpoint z) t) (s.zone z)
    | none => s.zone z
  else s.zone z

theorem controlZone_eq (s : State) (z : Fin 4) : controlZone s z = modifyZone z (fun _ => steppedZone s z) s := by
  have same : modifyZone z (fun _ => s.zone z) s = s := by
    simp [modifyZone, State.zone]
  unfold controlZone steppedZone
  split
  · cases s.temperature z with
    | some t => rfl
    | none => exact same.symm
  · exact same.symm

theorem steppedZone_congr {old : Fin 4 → Zone} {s : State} {z : Fin 4} (h : old z = s.zone z) :
    steppedZone (withZoneRecords old s) z = steppedZone s z := by
  have hzone : (withZoneRecords old s).zone z = s.zone z := (withZoneRecords_zone old s z).trans h
  have hsetpoint : (withZoneRecords old s).effectiveSetpoint z = s.effectiveSetpoint z := by
    simp only [State.effectiveSetpoint, hzone]
    rfl
  rw [steppedZone, hzone, hsetpoint]
  rfl

theorem controlStep_eq (s : State) : allZones.foldl controlZone s = withZoneRecords (steppedZone s) s :=
  foldl_allZones_replace fun old z h => by rw [controlZone_eq, steppedZone_congr h]

theorem integrates_iff (u e : Int) :
    integrates u e = true ↔ (0 ≤ u ∧ u ≤ 1000) ∨ (1000 < u ∧ e < 0) ∨ (u < 0 ∧ 0 < e) := by
  simp [integrates, or_assoc]

theorem natCast_perMille (x : Int) : (perMille x : Int) = max 0 (min 1000 x) := by
  unfold perMille
  omega

theorem controlledZone_eq (e : Int) (zn : Zone) :
    let p := (e * zn.kp).tdiv 10
    let u := p + zn.integral
    let i : Int := if (0 ≤ u ∧ u ≤ 1000) ∨ (1000 < u ∧ e < 0) ∨ (u < 0 ∧ 0 < e) then
      max 0 (min 1000 (zn.integral + (e * zn.ki).tdiv 20)) else zn.integral
    controlledZone e zn = { zn with integral := i.toNat, duty := (max 0 (min 1000 (p + i))).toNat } := by
  intro p u i
  have hintegral : ((if integrates u e then perMille (zn.integral + (e * zn.ki).tdiv 20) else zn.integral : Nat) : Int) =
      i := by
    simp only [i, ← integrates_iff]
    split
    · exact natCast_perMille _
    · rfl
  rw [← hintegral]
  rfl

theorem effectiveSetpoint_of_recipe {s : State} {z : Fin 4} {r : Fin 8} (h : (s.zone z).recipe = some r) :
    s.effectiveSetpoint z =
      if (s.zone z).state = .standby then (s.recipe r).standby else (s.recipe r).setpoint z := by
  simp only [State.effectiveSetpoint, h]

theorem boundaryZone_eq (zn : Zone) :
    boundaryZone zn = { zn with onTime := 2 * zn.duty, valveOpen := decide (0 < zn.duty) } := by
  rw [boundaryZone, Nat.mul_comm]

theorem steppedZone_eq (s : State) (z : Fin 4) : steppedZone s z =
    if (s.zone z).state = .off ∨ (s.zone z).state = .fault then s.zone z
    else match s.temperature z with
      | none => s.zone z
      | some t => controlledZone (controlError (s.effectiveSetpoint z) t) (s.zone z) := by
  have hcontrolled : (s.zone z).controlled = true ↔ ¬ ((s.zone z).state = .off ∨ (s.zone z).state = .fault) := by
    rw [controlled_iff, not_or]
  unfold steppedZone
  by_cases h : (s.zone z).state = .off ∨ (s.zone z).state = .fault
  · rw [if_neg (mt hcontrolled.mp (not_not_intro h)), if_pos h]
  · rw [if_pos (hcontrolled.mpr h), if_neg h]
    cases s.temperature z <;> rfl

/-- Settles O49: the control step replaces each zone record by its `steppedZone`, which `controlledZone_eq` works out. -/
theorem controlStepAndValves : Obligations.ControlStepAndValves := by
  intro s average
  refine ⟨fun z => rfl, rfl, fun z h => ?_, fun z r h _ _ => effectiveSetpoint_of_recipe h, ?_, ?_, fun z => rfl⟩
  · simp only [State.effectiveSetpoint, h]
  · refine ⟨withZoneRecords (steppedZone s) s, congrArg Host.Outcome.next (controlStep_eq s), fun z => ?_, rfl⟩
    rw [withZoneRecords_zone, steppedZone_eq]
    cases s.temperature z with
    | none => rfl
    | some t =>
      dsimp only
      rw [controlledZone_eq]
      rfl
  · refine congrArg Host.Outcome.next ?_
    rw [foldl_modifyZone, funext boundaryZone_eq]

end Sys2Proof.Machine
end

