-- ==== Sys2Proof/Proofs/ZonesActed.lean ====
section
/-! PROOF. What operations on the zones one after the other leave: the zone records, the UNDER-SET marks and the count of
ZONE (for SettleAndStopTimersAct, RecipeSwitchFollowsItsTable, HeatOnAndHeatOffSwitchZones, ScanConvertsAndTestsZones). -/

namespace Sys2Proof.Machine

open Sys2Proof.Safety

-- One proof after the other: many short ones at once need more threads than the memory limit leaves room for.
set_option Elab.async false

/-! ### What does not see a quality mark (R29) -/

theorem eq_update_slots_line_rolls_heat_events {s t : State} (hpc : t.pc = s.pc := by simp)
    (hgeometry : t.geometry = s.geometry := by simp) (hlimits : t.limits = s.limits := by simp)
    (hps : t.ps = s.ps := by simp) (hblade : t.blade = s.blade := by simp) (hru : t.ru = s.ru := by simp)
    (htu : t.tu = s.tu := by simp) (hlink : t.link = s.link := by simp) (hinputs : t.inputs = s.inputs := by simp)
    (hpending : t.pending = s.pending := by simp) (hraces : t.races = s.races := by simp) :
    t = { s with slots := t.slots, lg := t.lg, rolls := t.rolls, heat := t.heat, events := t.events } := by
  cases s
  cases t
  simp_all

/-- From `s` to `t` the slots gain quality marks and nothing else, and the queues and positions stay. -/
structure OnlyMarks (s t : State) : Prop where
  slots : ∀ k, MarksOnly k s t
  ps : t.ps = s.ps := by simp
  pc : t.pc = s.pc := by simp
  geometry : t.geometry = s.geometry := by simp

namespace OnlyMarks

variable {s t u : State}

theorem of_slots (hslots : t.slots = s.slots := by rfl) (htu : t.tu = s.tu := by rfl) (hps : t.ps = s.ps := by rfl)
    (hpc : t.pc = s.pc := by rfl) (hgeometry : t.geometry = s.geometry := by rfl) : OnlyMarks s t where
  slots _ := .of_slots hslots htu
  ps := hps
  pc := hpc
  geometry := hgeometry

theorem refl (s : State) : OnlyMarks s s := of_slots

theorem tu (h : OnlyMarks s t) : t.tu = s.tu := (h.slots 0).tu

theorem panelOf (h : OnlyMarks s t) (k : Fin 32) : t.panelOf k = s.panelOf k := (h.slots k).panel

theorem state (h : OnlyMarks s t) (k : Fin 32) : (t.status k).state = (s.status k).state := by
  rw [(h.slots k).status]

theorem start (h : OnlyMarks s t) (k : Fin 32) : (t.status k).start = (s.status k).start := by
  rw [(h.slots k).status]

theorem registration (h : OnlyMarks s t) (k : Fin 32) :
    (t.status k).registration = (s.status k).registration := by
  rw [(h.slots k).status]

theorem planned (h : OnlyMarks s t) (k : Fin 32) : (t.status k).planned = (s.status k).planned := by
  rw [(h.slots k).status]
  rfl

theorem trans (h₁ : OnlyMarks s t) (h₂ : OnlyMarks t u) : OnlyMarks s u where
  slots k := (h₁.slots k).trans (h₂.slots k)
  ps := h₂.ps.trans h₁.ps
  pc := h₂.pc.trans h₁.pc
  geometry := h₂.geometry.trans h₁.geometry

theorem committedAhead (h : OnlyMarks s t) : t.committedAhead = s.committedAhead := by
  simp only [committedAhead_eq, h.ps, h.pc]

theorem queueKept (h : OnlyMarks s t) : QueueKept s t where
  ahead := h.committedAhead
  pointer := by rw [h.ps]
  queued k := by rw [h.state]
  planned k _ := h.planned k

theorem trackFull (h : OnlyMarks s t) : t.trackFull = s.trackFull := by
  have hstart : t.oldestStart = s.oldestStart := by
    simp only [State.oldestStart, State.oldestCommitted, h.state, h.start, h.ps]
  simp only [State.trackFull, hstart, h.tu, h.pc, h.geometry]

theorem ratio (h : OnlyMarks s t) : t.ratio = s.ratio := by
  simp only [State.ratio, h.start, h.ps, h.pc]

theorem quiet (h : OnlyMarks s t) (hs : QuietPS s) : QuietPS t := by
  obtain ⟨hready, happend⟩ := hs
  refine ⟨?_, ?_⟩
  · exact commitReady_false_of h.ps h.geometry (by rw [h.pc]) (fun k => (h.state k ▸ id)) h.registration hready
  · simpa only [State.canAppend, h.ps] using happend

end OnlyMarks

/-! ### Marks of one zone (R121, R138) -/

theorem aim_status (mark : SlotStatus → SlotStatus) (j k : Fin 32) (s : State) : (aim mark j s).status k =
    if (s.status k).held = true ∧ j = k then mark (s.status k) else s.status k := by
  by_cases hjk : j = k
  · subst hjk
    unfold aim SlotStatus.held
    cases hstate : (s.status j).state <;> simp
  · rw [aim_status_other (Ne.symm hjk), if_neg fun h => hjk h.2]

/-- A quality mark aimed at several slots, one after the other, is aimed at each of them once. -/
theorem foldl_aim_status {mark : SlotStatus → SlotStatus} (hagain : ∀ st, mark (mark st) = mark st)
    (hstate : ∀ st, (mark st).state = st.state) (ks : List (Fin 32)) (k : Fin 32) (s : State) :
    (ks.foldl (fun t j => aim mark j t) s).status k =
      if (s.status k).held = true ∧ k ∈ ks then mark (s.status k) else s.status k := by
  have hheld (st : SlotStatus) : (mark st).held = st.held := by rw [SlotStatus.held, SlotStatus.held, hstate]
  induction ks generalizing s with
  | nil => simp
  | cons j ks ih =>
    rw [List.foldl_cons, ih, aim_status]
    by_cases hmark : (s.status k).held = true ∧ j = k
    · obtain ⟨hk, rfl⟩ := hmark
      simp [hk, hheld, hagain]
    · rw [if_neg hmark]
      refine if_congr (and_congr_right fun hk => ?_) rfl rfl
      rw [List.mem_cons, or_iff_right fun h => hmark ⟨hk, h.symm⟩]

theorem leaveIfInBand_status (before : ZoneState) (z : Fin 4) (k : Fin 32) (s : State) :
    (leaveIfInBand before z s).status k =
      if before = .inBand ∧ (s.status k).held = true ∧ k ∈ s.panelSlots (s.overlapsZone z) then
        { s.status k with underSet := (s.status k).underSet ||| zoneBit z }
      else s.status k := by
  unfold leaveIfInBand
  by_cases hband : before = .inBand
  · rw [if_pos hband]
    simp only [hband, true_and]
    refine foldl_aim_status (mark := fun st => { st with underSet := st.underSet ||| zoneBit z }) (fun st => ?_)
      (fun _ => rfl) _ k s
    rw [BitVec.or_assoc, BitVec.or_self]
  · rw [if_neg hband, if_neg fun h => hband h.1]

theorem leaveIfInBand_zoneCount (before : ZoneState) (z : Fin 4) (s : State) :
    (leaveIfInBand before z s).eventCount .zone =
      raisedBy (s.eventCount .zone) (decide (before = .inBand)).toNat := by
  unfold leaveIfInBand
  by_cases hband : before = .inBand
  · rw [if_pos hband, decide_eq_true hband, leaveInBand, eventCount_raise_same,
      eventCount_of_events (s := s) (by simp) .zone]
    rfl
  · rw [if_neg hband, decide_eq_false hband]
    rfl

/-! ### The zones one after the other -/

/-- From `s` to `t` the zones `acted` have become `new`; those of them with `left` have left IN-BAND, which marks their
panels UNDER-SET, and those with `raised` have raised ZONE (R121, R138). -/
structure ZonesActed (acted : List (Fin 4)) (new : Fin 4 → Zone) (left raised : Fin 4 → Bool) (s t : State) : Prop where
  marks : OnlyMarks s t
  heat : t.heat = { s.heat with zones := t.heat.zones }
  limits : t.limits = s.limits
  zone : ∀ z, t.zone z = if z ∈ acted then new z else s.zone z
  dwell : ∀ k, (t.status k).overDwell = (s.status k).overDwell
  bits : ∀ k z, (t.status k).underSet.getLsbD z.val = ((s.status k).underSet.getLsbD z.val ||
    (decide (z ∈ acted) && left z && ((s.status k).held && decide (k ∈ s.panelSlots (s.overlapsZone z)))))
  count : t.eventCount .zone = raisedBy (s.eventCount .zone) (acted.filter raised).length

section

variable {acted more : List (Fin 4)} {new : Fin 4 → Zone} {left raised : Fin 4 → Bool} {s t u : State}

theorem OnlyMarks.held (h : OnlyMarks s t) (k : Fin 32) : (t.status k).held = (s.status k).held := by
  rw [SlotStatus.held, SlotStatus.held, h.state]

theorem OnlyMarks.panelSlots (h : OnlyMarks s t) (z : Fin 4) :
    t.panelSlots (t.overlapsZone z) = s.panelSlots (s.overlapsZone z) := by
  unfold State.panelSlots State.overlapsZone
  rw [h.tu, h.pc, h.geometry]

theorem ZonesActed.start (new : Fin 4 → Zone) (left raised : Fin 4 → Bool) (s : State) :
    ZonesActed [] new left raised s s where
  marks := .refl s
  heat := rfl
  limits := rfl
  zone z := by simp
  dwell k := rfl
  bits k z := by simp
  count := rfl

theorem ZonesActed.trans (h₁ : ZonesActed acted new left raised s t) (h₂ : ZonesActed more new left raised t u) :
    ZonesActed (acted ++ more) new left raised s u where
  marks := h₁.marks.trans h₂.marks
  heat := by rw [h₂.heat, h₁.heat]
  limits := h₂.limits.trans h₁.limits
  zone z := by
    rw [h₂.zone, h₁.zone]
    by_cases hmore : z ∈ more <;> by_cases hacted : z ∈ acted <;> simp [hmore, hacted]
  dwell k := (h₂.dwell k).trans (h₁.dwell k)
  bits k z := by
    rw [h₂.bits, h₁.bits, h₁.marks.held, h₁.marks.panelSlots, Bool.or_assoc]
    congr 1
    by_cases hmore : z ∈ more <;> by_cases hacted : z ∈ acted <;> simp [hmore, hacted]
  count := by rw [h₂.count, h₁.count, raisedBy_raisedBy, List.filter_append, List.length_append]

/-- A zone record changed, and the zone leaving IN-BAND where it was IN-BAND before (R138). -/
theorem ZonesActed.one {z : Fin 4} {f : Zone → Zone} {before : ZoneState} (hnew : f (s.zone z) = new z)
    (hleft : left z = decide (before = .inBand)) (hraised : raised z = decide (before = .inBand)) :
    ZonesActed [z] new left raised s (leaveIfInBand before z (modifyZone z f s)) where
  marks := { slots := fun k => (modifyZone_marksOnly k z f s).trans (leaveIfInBand_marksOnly k before z _) }
  heat := by simp [modifyZone]
  limits := by simp
  zone y := by
    have hkept : (leaveIfInBand before z (modifyZone z f s)).zone y = (modifyZone z f s).zone y := by
      simp only [State.zone, leaveIfInBand_frame]
    by_cases hy : y = z
    · subst hy
      rw [hkept, zone_modifyZone_same, if_pos (List.mem_singleton_self y), hnew]
    · rw [hkept, zone_modifyZone_other hy, if_neg fun hmem => hy (List.mem_singleton.mp hmem)]
  dwell k := by
    rw [leaveIfInBand_status]
    split <;> rfl
  bits k y := by
    have hslots : (modifyZone z f s).panelSlots ((modifyZone z f s).overlapsZone z) =
        s.panelSlots (s.overlapsZone z) := rfl
    rw [leaveIfInBand_status, hslots, modifyZone_status]
    by_cases hy : y = z
    · subst hy
      split
      · next h =>
        obtain ⟨hband, hheld, hslot⟩ := h
        rw [BitVec.getLsbD_or, zoneBit_getLsbD]
        simp [hleft, hband, hheld, hslot]
      · next h =>
        rw [not_and_or, not_and_or] at h
        rcases h with h | h | h <;> simp [hleft, h]
    · split
      · rw [BitVec.getLsbD_or, zoneBit_getLsbD]
        simp [hy]
      · simp [hy]
  count := by
    rw [leaveIfInBand_zoneCount, List.filter_singleton, hraised]
    cases decide (before = .inBand) <;> rfl

/-- A zone record changed without leaving IN-BAND. -/
theorem ZonesActed.quietly {z : Fin 4} {f : Zone → Zone} (hnew : f (s.zone z) = new z) (hleft : left z = false)
    (hraised : raised z = false) : ZonesActed [z] new left raised s (modifyZone z f s) :=
  .one (before := .off) hnew (by simp [hleft]) (by simp [hraised])

/-- A zone left alone. -/
theorem ZonesActed.none {z : Fin 4} (hnew : new z = s.zone z) (hleft : left z = false) (hraised : raised z = false) :
    ZonesActed [z] new left raised s s := by
  have hsame : modifyZone z id s = s := by simp [modifyZone, State.zone]
  have hacted := ZonesActed.quietly (f := id) hnew.symm hleft hraised
  rwa [hsame] at hacted

end

/-- An operation on each zone in turn, from what it does on a zone whose record is still as it was at first. -/
theorem foldl_allZones_acted {op : State → Fin 4 → State} {new : Fin 4 → Zone} {left raised : Fin 4 → Bool} {s : State}
    (hop : ∀ t z, t.zone z = s.zone z → t.limits = s.limits → t.heat = { s.heat with zones := t.heat.zones } →
      ZonesActed [z] new left raised t (op t z)) :
    ZonesActed allZones new left raised s (allZones.foldl op s) :=
  foldl_allZones (R := fun acted t => ZonesActed acted new left raised s t) (.start new left raised s)
    fun _ t z hz h => h.trans (hop t z (by rw [h.zone, if_neg hz]) h.limits h.heat)

section

variable {new : Fin 4 → Zone} {left raised : Fin 4 → Bool} {s t : State}
  (h : ZonesActed allZones new left raised s t)

include h

theorem ZonesActed.zone_all (z : Fin 4) : t.zone z = new z := by
  rw [h.zone, if_pos (mem_allZones z)]

theorem ZonesActed.bits_all (k : Fin 32) (z : Fin 4) : (t.status k).underSet.getLsbD z.val =
    ((s.status k).underSet.getLsbD z.val ||
      (left z && ((s.status k).held && decide (k ∈ s.panelSlots (s.overlapsZone z))))) := by
  rw [h.bits, decide_eq_true (mem_allZones z), Bool.true_and]

theorem ZonesActed.status (k : Fin 32) : t.status k = { s.status k with underSet := (t.status k).underSet } := by
  conv_lhs => rw [(h.marks.slots k).status, h.dwell]

end

end Sys2Proof.Machine
end

