-- ==== Sys2Proof/Proofs/StopTimer.lean ====
section
/-! PROOF. The settle timer and the stop timer act when they are due (SettleAndStopTimersAct). -/

namespace Sys2Proof.Machine

open Sys2Proof.Safety

-- One proof after the other: many short ones at once need more threads than the memory limit leaves room for.
set_option Elab.async false

/-! ### The zones that stand (R146) -/

/-- The zone record as the stop timer fires: STANDBY from WARMING, IN-BAND and OUT-OF-BAND (R146 step 2). -/
def stoodZone (zn : Zone) : Zone :=
  match zn.state with
  | .warming | .inBand | .outOfBand => { zn with state := .standby, settle := none }
  | .off | .standby | .fault => zn

theorem standZone_acted {s t : State} {z : Fin 4} (h : t.zone z = s.zone z) :
    ZonesActed [z] (fun z => stoodZone (s.zone z)) (fun z => decide ((s.zone z).state = .inBand))
      (fun z => decide ((s.zone z).state = .inBand)) t (standZone t z) := by
  unfold standZone
  rw [h]
  cases hstate : (s.zone z).state
  case off | standby | fault =>
    exact .none (by simp [stoodZone, hstate, h]) (by simp [hstate]) (by simp [hstate])
  case warming | inBand | outOfBand =>
    exact .one (by simp [stoodZone, hstate, h]) (by simp [hstate]) (by simp [hstate])

/-- The state as the stop timer fires, before its zones stand (R146 step 1). -/
def timerFired (s : State) : State := { s with heat := { s.heat with stopFired := true } }

theorem stood_acted (s : State) :
    ZonesActed allZones (fun z => stoodZone (s.zone z)) (fun z => decide ((s.zone z).state = .inBand))
      (fun z => decide ((s.zone z).state = .inBand)) (timerFired s) (allZones.foldl standZone (timerFired s)) :=
  foldl_allZones_acted fun _ _ h _ _ => standZone_acted h

/-! ### The stop timer fires (R146) -/

theorem markChamberPanels_status (k : Fin 32) (s : State) : (markChamberPanels s).status k =
    if (s.status k).held = true ∧ k ∈ s.panelSlots s.overlapsChamber then { s.status k with overDwell := true }
    else s.status k :=
  foldl_aim_status (mark := fun st => { st with overDwell := true }) (fun _ => rfl) (fun _ => rfl) _ k s

theorem OnlyMarks.panelSlots_chamber {s t : State} (h : OnlyMarks s t) :
    t.panelSlots t.overlapsChamber = s.panelSlots s.overlapsChamber := by
  unfold State.panelSlots State.overlapsChamber
  rw [h.tu, h.pc, h.geometry]

theorem OnlyMarks.otherZeroReason {s t : State} (h : OnlyMarks s t) (hhold : t.lg.hold = s.lg.hold)
    (hstarve : t.lg.starve = s.lg.starve) : t.otherZeroReason = s.otherZeroReason :=
  otherZeroReason_congr hhold hstarve h.trackFull

theorem fireStopTimer_onlyMarks (s : State) : OnlyMarks s (fireStopTimer s) where
  slots k := fireStopTimer_marksOnly k s

/-- The state as the stop timer has fired, before the resume test (R146 steps 1 to 4). -/
def stoodDown (s : State) : State := raise .dwell (markChamberPanels (allZones.foldl standZone (timerFired s)))

theorem fireStopTimer_eq (s : State) : fireStopTimer s = resumeTest (stoodDown s) := rfl

theorem stoodDown_heat (s : State) : (stoodDown s).heat =
    { s.heat with stopFired := true, zones := (stoodDown s).heat.zones } := by
  simp only [stoodDown, raise_heat, markChamberPanels_frame]
  exact (stood_acted s).heat

theorem stoodDown_zone (s : State) (z : Fin 4) : (stoodDown s).zone z = stoodZone (s.zone z) := by
  have hkept : (stoodDown s).zone z = (allZones.foldl standZone (timerFired s)).zone z := by
    simp only [stoodDown, State.zone, raise_heat, markChamberPanels_frame]
  rw [hkept, (stood_acted s).zone_all]

theorem raise_markChamberPanels_onlyMarks (c : EventClass) (s : State) :
    OnlyMarks s (raise c (markChamberPanels s)) where
  slots k := (markChamberPanels_marksOnly k s).trans (.of_slots rfl rfl)

theorem timerFired_onlyMarks (s : State) : OnlyMarks s (timerFired s) := .of_slots

theorem stoodDown_onlyMarks (s : State) : OnlyMarks s (stoodDown s) :=
  ((timerFired_onlyMarks s).trans (stood_acted s).marks).trans (raise_markChamberPanels_onlyMarks .dwell _)

/-- STANDBY zones become WARMING: the line RUNS with no HOLD, TRACK-FULL or STARVE (R147). -/
abbrev State.resumes (s : State) : Prop := s.lg.lineState = .running ∧ s.otherZeroReason = false

theorem OnlyMarks.resumes {s t : State} (h : OnlyMarks s t) (hlg : t.lg = s.lg) : t.resumes ↔ s.resumes := by
  unfold State.resumes
  rw [h.otherZeroReason (by rw [hlg]) (by rw [hlg]), hlg]

theorem stood_lg (s : State) : (allZones.foldl standZone (timerFired s)).lg = s.lg :=
  foldl_keeps (·.lg) standZone (fun _ _ => by simp) allZones (timerFired s)

theorem stoodDown_lg (s : State) : (stoodDown s).lg = s.lg := by
  simp only [stoodDown, raise_lg, markChamberPanels_frame, stood_lg]

theorem fireStopTimer_zone (s : State) (z : Fin 4) : (fireStopTimer s).zone z =
    if s.resumes then resumedZone (stoodZone (s.zone z)) else stoodZone (s.zone z) := by
  rw [fireStopTimer_eq, resumeTest_zone, stoodDown_zone]
  exact if_congr ((stoodDown_onlyMarks s).resumes (stoodDown_lg s)) rfl rfl

theorem fireStopTimer_heat (s : State) : (fireStopTimer s).heat =
    { s.heat with stopFired := true, zones := (fireStopTimer s).heat.zones } := by
  rw [fireStopTimer_eq, resumeTest_eq]
  dsimp only
  rw [stoodDown_heat]

theorem fireStopTimer_status (s : State) (k : Fin 32) :
    (fireStopTimer s).status k = (markChamberPanels (allZones.foldl standZone (timerFired s))).status k := by
  have hslots : (fireStopTimer s).slots = (stoodDown s).slots := by simp only [fireStopTimer_eq, resumeTest_frame]
  simp only [State.status, State.slot, hslots]
  rfl

theorem fireStopTimer_overDwell (s : State) (k : Fin 32) : ((fireStopTimer s).status k).overDwell =
    ((s.status k).overDwell || ((s.status k).held && decide (k ∈ s.panelSlots s.overlapsChamber))) := by
  have hstood := stood_acted s
  have hdwell : ((allZones.foldl standZone (timerFired s)).status k).overDwell = (s.status k).overDwell := hstood.dwell k
  have hheld : ((allZones.foldl standZone (timerFired s)).status k).held = (s.status k).held := hstood.marks.held k
  have hslots : (allZones.foldl standZone (timerFired s)).panelSlots
      (allZones.foldl standZone (timerFired s)).overlapsChamber = s.panelSlots s.overlapsChamber :=
    hstood.marks.panelSlots_chamber
  rw [fireStopTimer_status, markChamberPanels_status, hheld, hslots]
  split
  · next h => simp [h.1, h.2]
  · next h =>
    rw [not_and_or] at h
    rcases h with h | h <;> simp [h, hdwell]

theorem fireStopTimer_bits (s : State) (k : Fin 32) (z : Fin 4) :
    ((fireStopTimer s).status k).underSet.getLsbD z.val = ((s.status k).underSet.getLsbD z.val ||
      (decide ((s.zone z).state = .inBand) &&
        ((s.status k).held && decide (k ∈ s.panelSlots (s.overlapsZone z))))) := by
  have hset : ((fireStopTimer s).status k).underSet = ((allZones.foldl standZone (timerFired s)).status k).underSet := by
    rw [fireStopTimer_status, markChamberPanels_status]
    split <;> rfl
  rw [hset]
  exact (stood_acted s).bits_all k z

theorem fireStopTimer_zoneCount (s : State) : (fireStopTimer s).eventCount .zone =
    raisedBy (s.eventCount .zone) ((List.finRange 4).filter fun z => decide ((s.zone z).state = .inBand)).length := by
  have hevents : (fireStopTimer s).events = (stoodDown s).events := by simp only [fireStopTimer_eq, resumeTest_frame]
  rw [eventCount_of_events hevents, stoodDown, eventCount_raise_other (by decide),
    eventCount_of_events (s := allZones.foldl standZone (timerFired s)) (by simp), (stood_acted s).count, allZones_eq]
  rfl

theorem fireStopTimer_dwellCount (s : State) :
    (fireStopTimer s).eventCount .dwell = min 255 (s.eventCount .dwell + 1) := by
  have hevents : (fireStopTimer s).events = (stoodDown s).events := by simp only [fireStopTimer_eq, resumeTest_frame]
  have hstood : (allZones.foldl standZone (timerFired s)).eventCount .dwell = s.eventCount .dwell :=
    foldl_keeps (·.eventCount .dwell) standZone (standZone_eventCount (by decide)) allZones (timerFired s)
  rw [eventCount_of_events hevents, stoodDown, eventCount_raise_same,
    eventCount_of_events (s := allZones.foldl standZone (timerFired s)) (by simp), hstood, countUp]

theorem fireStopTimer_eq_update (s : State) : fireStopTimer s = { s with
    slots := (fireStopTimer s).slots, heat := (fireStopTimer s).heat, events := (fireStopTimer s).events } := by
  have hupdate := eq_update_slots_line_rolls_heat_events (s := s) (t := fireStopTimer s)
  have hlg : (fireStopTimer s).lg = s.lg := by simp
  have hrolls : (fireStopTimer s).rolls = s.rolls := by simp
  rw [hlg, hrolls] at hupdate
  exact hupdate

/-! ### What the fire leaves to report (R145, R146) -/

theorem stoodZone_off_iff (zn : Zone) : (stoodZone zn).state = .off ↔ zn.state = .off := by
  unfold stoodZone
  cases h : zn.state <;> simp [h]

theorem stoodZone_recipe (zn : Zone) : (stoodZone zn).recipe = zn.recipe := by
  unfold stoodZone
  cases zn.state <;> rfl

theorem fireStopTimer_allOff (s : State) : (fireStopTimer s).allOff = true ↔ s.allOff = true := by
  simp only [allOff_iff, fireStopTimer_zone]
  split <;> simp only [resumedZone_off_iff, stoodZone_off_iff]

theorem fireStopTimer_recipe (s : State) (z : Fin 4) : ((fireStopTimer s).zone z).recipe = (s.zone z).recipe := by
  rw [fireStopTimer_zone]
  split <;> simp only [resumedZone_recipe, stoodZone_recipe]

theorem fireStopTimer_ceiling (s : State) : (fireStopTimer s).ceiling = s.ceiling :=
  ceiling_congr (by simp) (by simp) (fireStopTimer_recipe s) (by rw [fireStopTimer_heat])
    (feedingRecipe_congr (by simp)) (by simp)

/-- What the blocks report is up to date after the fire where it was before and the stop timer may run (R145). -/
theorem fireStopTimer_upToDate {s : State} (h : UpToDate s) (hreference : s.lg.reference = 0) (hon : ¬ s.allOff = true) :
    UpToDate (fireStopTimer s) := by
  have hmarks := fireStopTimer_onlyMarks s
  have hlg : (fireStopTimer s).lg = s.lg := by simp
  have hspeed : (fireStopTimer s).infeedSpeed = s.infeedSpeed := by
    rw [State.infeedSpeed, State.infeedSpeed, hmarks.ratio, hlg]
  refine ⟨h.starve.of_queueKept hmarks.queueKept, fun hrunning hreason z => ?_, fun hfreeze => ?_, fun hrest => ?_,
    fun hidle => ?_, fun hidle => ?_⟩
  · rw [hmarks.otherZeroReason (by rw [hlg]) (by rw [hlg])] at hreason
    rw [hlg] at hrunning
    rw [fireStopTimer_zone, if_pos ⟨hrunning, hreason⟩]
    exact resumedZone_ne_standby _
  · rw [hlg] at hfreeze ⊢
    rw [fireStopTimer_ceiling]
    exact h.held hfreeze
  · rw [hlg, fireStopTimer_allOff] at hrest
    exact absurd hrest (not_or_intro (not_not_intro hreference) hon)
  · rw [State.infeedStepPeriod, hspeed, hmarks.geometry]
    exact h.infeed (by rwa [hlg] at hidle)
  · rw [State.beltStepPeriod, hlg, hmarks.geometry]
    exact h.belt (by rwa [hlg] at hidle)

theorem fireStopTimer_settled {s : State} (h : Settled s) (hreference : s.lg.reference = 0) (hon : ¬ s.allOff = true) :
    Settled (fireStopTimer s) := by
  obtain ⟨hquiet, hdate⟩ := (settled_iff s).mp h
  exact (settled_iff _).mpr ⟨(fireStopTimer_onlyMarks s).quiet hquiet, fireStopTimer_upToDate hdate hreference hon⟩

/-! ### The timers are due (R137, R145) -/

theorem settleDue_iff {s : State} {z : Fin 4} {r : Fin 8} (h : (s.zone z).recipe = some r) : s.settleDue z = true ↔
    ((s.zone z).state = .warming ∨ (s.zone z).state = .outOfBand) ∧
      ∃ e ∈ (s.zone z).settle, (s.recipe r).settle * 1000 ≤ e := by
  have hlimit : s.settleLimit z = (s.recipe r).settle * 1000 := by simp only [State.settleLimit, h]
  unfold State.settleDue
  rw [hlimit]
  cases (s.zone z).state <;> cases (s.zone z).settle <;> simp

theorem not_allOff_iff (s : State) : ¬ s.allOff = true ↔ ∃ z : Fin 4, (s.zone z).state ≠ .off := by
  rw [allOff_iff, not_forall]

theorem stopTimerRuns_iff (s : State) : s.stopTimerRuns = true ↔
    s.lg.reference = 0 ∧ (∃ z : Fin 4, (s.zone z).state ≠ .off) ∧ s.heat.stopFired = false := by
  rw [← not_allOff_iff]
  simp [State.stopTimerRuns, and_assoc]

theorem stopTimerDue_iff (s : State) : s.stopTimerDue = true ↔
    s.heat.stopFired = false ∧ 0 < s.stopLimit ∧ s.stopLimit * 1000 ≤ s.heat.stopElapsed := by
  simp [State.stopTimerDue, and_assoc]

theorem standing_zone_eq (s : State) (z : Fin 4) :
    (if s.resumes then resumedZone (stoodZone (s.zone z)) else stoodZone (s.zone z)) =
      if (s.zone z).state = .off ∨ (s.zone z).state = .fault then s.zone z
      else if s.resumes then { s.zone z with state := .warming, settle := none }
      else if (s.zone z).state = .standby then s.zone z
      else { s.zone z with state := .standby, settle := none } := by
  unfold stoodZone resumedZone
  cases hstate : (s.zone z).state <;> simp [hstate]

theorem held_iff (st : SlotStatus) : st.held = true ↔ st.state = .active ∨ st.state = .setting := by
  simp [SlotStatus.held]

/-- Settles O48: the settle timer is `settleDue_iff`; on a settled state the stop timer's fire, worked out part by part,
leaves nothing to report. -/
theorem settleAndStopTimersAct : Obligations.SettleAndStopTimersAct := by
  refine ⟨fun s z r hrecipe => ?_, fun s => ?_⟩ <;> intro due
  · change execSettleComplete z s = _
    unfold execSettleComplete
    by_cases hdue : due
    · rw [if_pos hdue, if_pos ((settleDue_iff hrecipe).mpr hdue)]
      rfl
    · rw [if_neg hdue, if_neg (mt (settleDue_iff hrecipe).mp hdue)]
  · have hacts : s.stopTimerRuns = true ∧ s.stopTimerDue = true ↔ due := by
      rw [stopTimerRuns_iff, stopTimerDue_iff]
      exact ⟨fun ⟨⟨hreference, hon, hclear⟩, _, hlimit⟩ => ⟨hreference, hon, hclear, hlimit⟩,
        fun ⟨hreference, hon, hclear, hlimit⟩ => ⟨⟨hreference, hon, hclear⟩, hclear, hlimit⟩⟩
    refine ⟨fun hdue => if_neg (mt hacts.mp hdue), fun hdue hsettled => ?_⟩
    have hfire : exec .stopTimerFire s = .next (fireStopTimer s) := by
      have hafter : Settled (fireStopTimer s) :=
        fireStopTimer_settled hsettled hdue.1 ((not_allOff_iff s).mpr hdue.2.1)
      exact (if_pos (hacts.mpr hdue)).trans (congrArg Host.Outcome.next hafter)
    have hresumes : s.resumes ↔
        s.lg.lineState = .running ∧ s.lg.hold = false ∧ s.trackFull = false ∧ s.lg.starve = false := by
      rw [State.resumes, otherZeroReason_eq_false_iff]
    refine ⟨_, hfire, fireStopTimer_heat s, fun z => ?_, fireStopTimer_dwellCount s, fireStopTimer_zoneCount s,
      fun c hdwell hzone => fireStopTimer_eventCount hzone hdwell s, fun k => ?_, fireStopTimer_eq_update s⟩
    · rw [fireStopTimer_zone, standing_zone_eq]
      simp only [hresumes]
    · refine ⟨(fireStopTimer_onlyMarks s).panelOf k, (fireStopTimer_marksOnly k s).status, ?_, fun z => ?_⟩
      · rw [fireStopTimer_overDwell, Bool.decide_and, decide_eq_decide.mpr (held_iff _).symm, Bool.decide_coe]
      · rw [fireStopTimer_bits, Bool.decide_and, Bool.decide_and, decide_eq_decide.mpr (held_iff _).symm,
          Bool.decide_coe]

end Sys2Proof.Machine
end

