-- ==== Sys2Proof/Proofs/RecipeSwitch.lean ====
section
/-! PROOF. A recipe switch of one zone: the record, the ceiling, and the stop timer's new limit
(RecipeSwitchFollowsItsTable). -/

namespace Sys2Proof.Machine

open Sys2Proof.Safety

-- One proof after the other: many short ones at once need more threads than the memory limit leaves room for.
set_option Elab.async false

/-! ### The stop timer against a new limit (R145) -/

/-- The stop timer fires where its limit is worked out again (R145). -/
abbrev State.fires (s : State) : Prop :=
  s.lg.reference = 0 ∧ s.heat.stopFired = false ∧ 0 < s.stopLimit ∧ s.stopLimit * 1000 ≤ s.heat.stopElapsed ∧
    ∃ z : Fin 4, (s.zone z).state ≠ .off

theorem stopLimit_congr {s t : State} (hzones : ∀ z, (t.zone z).recipe = (s.zone z).recipe)
    (hrecipes : t.heat.recipes = s.heat.recipes) : t.stopLimit = s.stopLimit := by
  simp only [State.stopLimit, State.zoneRecipes, State.recipe, hzones, hrecipes]

theorem restStopTimer_of_running {s : State} (hreference : s.lg.reference = 0) (hon : ¬ s.allOff = true) :
    restStopTimer s = s :=
  if_neg (not_or_intro (not_not_intro hreference) hon)

/-- A stop timer at rest is not due, so only one that may run fires (R145). -/
theorem checkStopTimer_eq (s : State) :
    checkStopTimer s = if s.fires then fireStopTimer s else restStopTimer s := by
  unfold checkStopTimer
  by_cases hrest : s.lg.reference ≠ 0 ∨ s.allOff = true
  · have hlimit : (restStopTimer s).stopLimit = s.stopLimit :=
      stopLimit_congr (fun z => by rw [restStopTimer_eq]; rfl) (by rw [restStopTimer_eq])
    have hdue : ¬ (restStopTimer s).stopTimerDue = true := by
      rw [stopTimerDue_iff, hlimit]
      rintro ⟨-, hpos, hle⟩
      rw [restStopTimer_eq, if_pos hrest] at hle
      dsimp only at hle
      omega
    have hfires : ¬ s.fires := fun ⟨hreference, _, _, _, hon⟩ =>
      hrest.elim (· hreference) ((not_allOff_iff s).mpr hon)
    rw [if_neg hdue, if_neg hfires]
  · obtain ⟨hreference, hon⟩ := not_or.mp hrest
    rw [not_not] at hreference
    have hdue : s.stopTimerDue = true ↔ s.fires := by
      rw [stopTimerDue_iff]
      exact ⟨fun ⟨hclear, hpos, hle⟩ => ⟨hreference, hclear, hpos, hle, (not_allOff_iff s).mp hon⟩,
        fun ⟨_, hclear, hpos, hle, _⟩ => ⟨hclear, hpos, hle⟩⟩
    rw [restStopTimer_of_running hreference hon]
    exact if_congr hdue rfl rfl

section

variable (s : State)

theorem checkStopTimer_recipe (z : Fin 4) : ((checkStopTimer s).zone z).recipe = (s.zone z).recipe := by
  rw [checkStopTimer_eq]
  split
  · exact fireStopTimer_recipe s z
  · rw [restStopTimer_eq]
    rfl

theorem checkStopTimer_recipes : (checkStopTimer s).heat.recipes = s.heat.recipes := by
  rw [checkStopTimer_eq]
  split
  · rw [fireStopTimer_heat]
  · rw [restStopTimer_eq]

theorem checkStopTimer_off_iff (z : Fin 4) : ((checkStopTimer s).zone z).state = .off ↔ (s.zone z).state = .off := by
  rw [checkStopTimer_eq]
  split
  · rw [fireStopTimer_zone]
    split <;> simp only [resumedZone_off_iff, stoodZone_off_iff]
  · rw [restStopTimer_eq]
    rfl

theorem checkStopTimer_ceiling : (checkStopTimer s).ceiling = s.ceiling :=
  ceiling_congr (by simp) (by simp) (checkStopTimer_recipe s) (checkStopTimer_recipes s)
    (feedingRecipe_congr (by simp)) (by simp)

theorem checkStopTimer_stopLimit : (checkStopTimer s).stopLimit = s.stopLimit :=
  stopLimit_congr (checkStopTimer_recipe s) (checkStopTimer_recipes s)

theorem clampReference_ceiling : (clampReference s).ceiling = s.ceiling :=
  ceiling_congr (by simp) (by simp) (fun _ => by simp [State.zone]) (by simp) (feedingRecipe_congr (by simp))
    (by rw [clampReference_lg])

end

/-! ### The record switched (R148) -/

theorem switchedZone_recipe (used : Bool) (r : Fin 8) (zn : Zone) : (switchedZone used r zn).recipe = some r := by
  unfold switchedZone
  split <;> rfl

theorem switchedZone_eq (used : Bool) (r : Fin 8) (zn : Zone) : switchedZone used r zn =
    if zn.state = .fault then { zn with recipe := some r }
    else if used = true then
      if zn.state = .off then { zn with recipe := some r, state := .warming, settle := none, integral := 0, duty := 0 }
      else if zn.state = .standby then { zn with recipe := some r }
      else if zn.state = .inBand then { zn with recipe := some r, state := .outOfBand, settle := none }
      else { zn with recipe := some r, settle := none }
    else if zn.state = .off then { zn with recipe := some r }
    else { zn with
      recipe := some r, state := .off, settle := none, integral := 0, duty := 0, onTime := 0, valveOpen := false } := by
  unfold switchedZone offZone
  cases hstate : zn.state <;> cases used <;> simp

/-- One zone's record switched, with what leaving IN-BAND does (R148, R138). -/
theorem switchRecord_acted (z : Fin 4) (r : Fin 8) (s : State) :
    ZonesActed [z] (fun _ => switchedZone (s.recipeUses r z) r (s.zone z)) (fun _ => decide ((s.zone z).state = .inBand))
      (fun _ => decide ((s.zone z).state = .inBand)) s (switchRecord z r s) :=
  .one rfl rfl rfl

theorem switchZone_eq {z : Fin 4} {r : Fin 8} {s : State} (hon : s.heat.heatOn = true)
    (hrecipe : (s.zone z).recipe ≠ some r) : switchZone z r s = checkStopTimer (clampReference (switchRecord z r s)) :=
  if_neg (not_or_intro (by simp [hon]) hrecipe)

theorem switchZone_unchanged {z : Fin 4} {r : Fin 8} {s : State}
    (h : s.heat.heatOn = false ∨ (s.zone z).recipe = some r) : switchZone z r s = s := if_pos h

theorem switchZone_eq_update (z : Fin 4) (r : Fin 8) (s : State) : switchZone z r s = { s with
    slots := (switchZone z r s).slots, lg := (switchZone z r s).lg, heat := (switchZone z r s).heat
    events := (switchZone z r s).events } := by
  have hupdate := eq_update_slots_line_rolls_heat_events (s := s) (t := switchZone z r s)
  have hrolls : (switchZone z r s).rolls = s.rolls := by simp
  rw [hrolls] at hupdate
  exact hupdate

section

variable {z : Fin 4} {r : Fin 8} {s : State} (hon : s.heat.heatOn = true) (hrecipe : (s.zone z).recipe ≠ some r)

include hon hrecipe

theorem switchZone_ceiling : (switchZone z r s).ceiling = (switchRecord z r s).ceiling := by
  rw [switchZone_eq hon hrecipe, checkStopTimer_ceiling, clampReference_ceiling]

/-- The reference held under the new ceiling (R104). -/
theorem switchZone_lg : (switchZone z r s).lg = { s.lg with
    reference := if s.lg.freeze = none ∧ (switchZone z r s).ceiling < s.lg.reference then (switchZone z r s).ceiling
      else s.lg.reference
    lineState := if (s.lg.freeze = none ∧ (switchZone z r s).ceiling < s.lg.reference) ∧
        (switchZone z r s).ceiling = 0 ∧ s.lg.lineState = .stopping then .stopped else s.lg.lineState } := by
  have hlg : (switchRecord z r s).lg = s.lg := by simp
  have hclamped := clampReference_lg (switchRecord z r s)
  rw [hlg, ← switchZone_ceiling hon hrecipe] at hclamped
  rw [← hclamped, switchZone_eq hon hrecipe]
  simp only [checkStopTimer_frame]

theorem switchZone_fires_iff : (clampReference (switchRecord z r s)).fires ↔
    (switchZone z r s).lg.reference = 0 ∧ s.heat.stopFired = false ∧ 0 < (switchZone z r s).stopLimit ∧
      (switchZone z r s).stopLimit * 1000 ≤ s.heat.stopElapsed ∧ ∃ y : Fin 4, ((switchZone z r s).zone y).state ≠ .off := by
  have hheat : (clampReference (switchRecord z r s)).heat.stopFired = s.heat.stopFired ∧
      (clampReference (switchRecord z r s)).heat.stopElapsed = s.heat.stopElapsed := by
    rw [clampReference_eq, (switchRecord_acted z r s).heat]
    exact ⟨rfl, rfl⟩
  simp only [switchZone_eq hon hrecipe, checkStopTimer_stopLimit, ne_eq, checkStopTimer_off_iff, checkStopTimer_frame,
    State.fires, hheat]

theorem switchZone_recipe : ((switchZone z r s).zone z).recipe = some r := by
  have hzone : (clampReference (switchRecord z r s)).zone z = (switchRecord z r s).zone z := by simp [State.zone]
  rw [switchZone_eq hon hrecipe, checkStopTimer_recipe, hzone, (switchRecord_acted z r s).zone,
    if_pos (List.mem_singleton_self z), switchedZone_recipe]

theorem switchZone_of_fires (h : (clampReference (switchRecord z r s)).fires) :
    switchZone z r s = fireStopTimer (clampReference (switchRecord z r s)) := by
  rw [switchZone_eq hon hrecipe, checkStopTimer_eq, if_pos h]

theorem switchZone_of_not_fires (h : ¬ (clampReference (switchRecord z r s)).fires) :
    switchZone z r s = restStopTimer (clampReference (switchRecord z r s)) := by
  rw [switchZone_eq hon hrecipe, checkStopTimer_eq, if_neg h]

theorem switchZone_fired (h : (clampReference (switchRecord z r s)).fires) :
    (switchZone z r s).heat.stopFired = true ∧
      (switchZone z r s).eventCount .dwell = min 255 (s.eventCount .dwell + 1) := by
  have hdwell : (clampReference (switchRecord z r s)).eventCount .dwell = s.eventCount .dwell := by
    rw [clampReference_eventCount, switchRecord, leaveIfInBand_eventCount (by decide), modifyZone_eventCount]
  rw [switchZone_of_fires hon hrecipe h, fireStopTimer_heat, fireStopTimer_dwellCount, hdwell]
  exact ⟨rfl, rfl⟩

/-- Without a fire the zone records, slots and events are as the switched record leaves them. -/
theorem switchZone_not_fired (h : ¬ (clampReference (switchRecord z r s)).fires) :
    (∀ y, (switchZone z r s).zone y = (switchRecord z r s).zone y) ∧
      (∀ k, (switchZone z r s).status k = (switchRecord z r s).status k) ∧
      ∀ c, (switchZone z r s).eventCount c = (switchRecord z r s).eventCount c := by
  rw [switchZone_of_not_fires hon hrecipe h]
  refine ⟨fun y => ?_, fun k => ?_, fun c => eventCount_of_events (by simp) c⟩
  · rw [restStopTimer_eq, clampReference_eq]
    rfl
  · simp only [State.status, State.slot, restStopTimer_frame, clampReference_frame]

end

/-- Settles O51: the switched record is `switchRecord_acted`, the line `switchZone_lg`, and the stop timer's fire
`switchZone_fires_iff`. -/
theorem recipeSwitchFollowsItsTable : Obligations.RecipeSwitchFollowsItsTable := by
  intro z r s t old used above reference fires
  refine ⟨switchZone_unchanged, fun hon hr => ?_, fun hon hr => switchZone_lg hon hr, switchZone_eq_update z r s⟩
  have hfires : (clampReference (switchRecord z r s)).fires ↔ fires := by
    rw [switchZone_fires_iff hon hr, switchZone_lg hon hr]
  have hacted := switchRecord_acted z r s
  refine ⟨switchZone_recipe hon hr, fun h => switchZone_fired hon hr (hfires.mpr h), fun h => ?_⟩
  obtain ⟨hzones, hslots, hcounts⟩ := switchZone_not_fired hon hr (mt hfires.mp h)
  refine ⟨?_, fun y hy => ?_, ?_, fun k => ?_⟩
  · have hused : s.recipeUses r z = true ↔ used := by simp [State.recipeUses, used]
    rw [hzones, hacted.zone, if_pos (List.mem_singleton_self z), switchedZone_eq]
    simp only [hused]
    rfl
  · rw [hzones, hacted.zone, if_neg fun hmem => hy (List.mem_singleton.mp hmem)]
  · rw [hcounts, hacted.count]
    by_cases hband : old.state = .inBand
    · rw [if_pos hband, List.filter_singleton, decide_eq_true hband]
      rfl
    · rw [if_neg hband, List.filter_singleton, decide_eq_false hband]
      rfl
  · have hstatus : t.status k = if old.state = .inBand ∧ (s.status k).held = true ∧
        k ∈ s.panelSlots (s.overlapsZone z) then
        { s.status k with underSet := (s.status k).underSet ||| zoneBit z } else s.status k :=
      (hslots k).trans (leaveIfInBand_status old.state z k _)
    simp only [held_iff] at hstatus
    rw [hstatus]
    split <;> exact ⟨rfl, rfl⟩

end Sys2Proof.Machine
end

