-- ==== Sys2Proof/Proofs/HeatRequests.lean ====
section
/-! PROOF. HEAT-ON warms the zones in use, and HEAT-OFF turns every zone off (HeatOnAndHeatOffSwitchZones). -/

namespace Sys2Proof.Machine

open Sys2Proof.Safety

-- One proof after the other: many short ones at once need more threads than the memory limit leaves room for.
set_option Elab.async false

/-! ### The causes on the channels (R139) -/

theorem faultCause_eq (s : State) (z : Fin 4) : s.faultCause z =
    if (s.channel z).openCondition = true ∨ (s.channel z).filter = none then some .openSensor
    else if s.limits.isSet = true ∧ s.limits.maxTemp ≤ (s.temperature z).getD 0 then some .overTemperature
    else none := by
  unfold State.faultCause State.temperature
  cases (s.channel z).openCondition <;> cases (s.channel z).filter <;> simp

theorem faultCause_isSome_iff (s : State) (z : Fin 4) : (s.faultCause z).isSome = true ↔
    (s.channel z).openCondition = true ∨ (s.channel z).filter = none ∨
      (s.limits.isSet = true ∧ s.limits.maxTemp ≤ (s.temperature z).getD 0) := by
  rw [faultCause_eq, ← or_assoc]
  split_ifs with hopen hover
  · simp [hopen]
  · simp [hover]
  · simp only [hopen, hover, Option.isSome_none, Bool.false_eq_true, or_false]

/-! ### HEAT-ON (R135) -/

theorem heatOn_eq (r : Fin 8) (s : State) : heatOn r s = { s with heat := { s.heat with
    heatOn := true, zones := Vector.ofFn fun z => heatedZone (s.recipeUses r z) r (s.zone z) } } :=
  foldl_allZones_replace (s := { s with heat := { s.heat with heatOn := true } }) fun old z h => by
    have hzone : (withZoneRecords old { s with heat := { s.heat with heatOn := true } }).zone z = s.zone z :=
      (withZoneRecords_zone _ _ z).trans h
    rw [modifyZone, hzone, modifyZone]
    rfl

theorem heatOn_zone (r : Fin 8) (s : State) (z : Fin 4) :
    (heatOn r s).zone z = heatedZone (s.recipeUses r z) r (s.zone z) := by
  rw [heatOn_eq]
  simp [State.zone]

theorem recipeUses_iff (s : State) (r : Fin 8) (z : Fin 4) : s.recipeUses r z = true ↔ (s.recipe r).setpoint z ≠ 0 := by
  simp [State.recipeUses]

/-- The number a set of zones travels as (R195). -/
theorem numberOfBits_zones (b : Fin 4 → Bool) :
    numberOfBits (allZones.map b) = ((List.finRange 4).map fun z => if b z = true then 2 ^ z.val else 0).sum := by
  simp only [← allZones_eq, allZones, List.map_cons, List.map_nil, numberOfBits, List.foldr_cons, List.foldr_nil,
    List.sum_cons, List.sum_nil]
  cases b 0 <;> cases b 1 <;> cases b 2 <;> cases b 3 <;> rfl

theorem numberOfBits_zones_lt (b : Fin 4 → Bool) : numberOfBits (allZones.map b) < 256 := by
  simp only [allZones, List.map_cons, List.map_nil, numberOfBits, List.foldr_cons, List.foldr_nil]
  cases b 0 <;> cases b 1 <;> cases b 2 <;> cases b 3 <;> decide

theorem heatedZone_warming_iff (used : Bool) (r : Fin 8) (zn : Zone) :
    (heatedZone used r zn).state = .warming ↔ used = true ∨ zn.state = .warming := by
  unfold heatedZone
  cases used <;> simp

theorem replyFields_two {m n : Nat} (hm : m < 256) (hn : n < 256) :
    replyFields [(1, m), (1, n)] = [BitVec.ofNat 8 m, BitVec.ofNat 8 n] := by
  rw [replyFields_of_fit (by simp [hm, hn])]
  simp [bytesOf_one]

/-- The answer to an accepted HEAT-ON: the recipe and the zones that are WARMING (R135). -/
theorem heatOn_reply (r : Fin 8) (s : State) :
    replyFields [(1, r.val), (1, numberOfBits (heatOn r s).warmingBits)] =
      [BitVec.ofNat 8 r.val, BitVec.ofNat 8 (((List.finRange 4).map fun z =>
        if (s.recipe r).setpoint z ≠ 0 ∨ (s.zone z).state = .warming then 2 ^ z.val else 0).sum)] := by
  rw [State.warmingBits, replyFields_two (by omega) (numberOfBits_zones_lt _), numberOfBits_zones]
  simp only [heatOn_zone, beq_iff_eq, heatedZone_warming_iff, recipeUses_iff]

theorem serveHeatOn_eq (s : State) : serveHeatOn s = match s.feedingRecipe with
    | none => (s, no .roll 0)
    | some r =>
      if ∃ z : Fin 4, (s.channel z).openCondition = true ∨ (s.channel z).filter = none ∨
          (s.limits.isSet = true ∧ s.limits.maxTemp ≤ (s.temperature z).getD 0) then (s, no .state 0)
      else if s.heat.heatOn = true then (s, .done [255, 0])
      else (refresh (heatOn r s), .done [BitVec.ofNat 8 r.val, BitVec.ofNat 8 (((List.finRange 4).map fun z =>
        if (s.recipe r).setpoint z ≠ 0 ∨ (s.zone z).state = .warming then 2 ^ z.val else 0).sum)]) := by
  unfold serveHeatOn
  cases s.feedingRecipe with
  | none => rfl
  | some r =>
    have hbad : (allZones.any fun z => (s.faultCause z).isSome) = true ↔ ∃ z : Fin 4, (s.faultCause z).isSome = true := by
      simp [mem_allZones]
    simp only [hbad, faultCause_isSome_iff, heatOn_reply, replyFields_two (show 255 < 256 by decide) (show 0 < 256 by decide)]
    rfl

theorem serveHeatOn_countAccepted (s : State) :
    serveHeatOn (countAccepted s) = (countAccepted (serveHeatOn s).1, (serveHeatOn s).2) := by
  have heated (r : Fin 8) : refresh (heatOn r (countAccepted s)) = countAccepted (refresh (heatOn r s)) := by
    rw [heatOn_eq, heatOn_eq, ← refresh_countAccepted]
    rfl
  have feeding : (countAccepted s).feedingRecipe = s.feedingRecipe := rfl
  have heat : (countAccepted s).heat = s.heat := rfl
  have limits : (countAccepted s).limits = s.limits := rfl
  have channel (z : Fin 4) : (countAccepted s).channel z = s.channel z := rfl
  have temperature (z : Fin 4) : (countAccepted s).temperature z = s.temperature z := rfl
  have recipe (r : Fin 8) : (countAccepted s).recipe r = s.recipe r := rfl
  have zone (z : Fin 4) : (countAccepted s).zone z = s.zone z := rfl
  simp only [serveHeatOn_eq, heated, feeding, heat, limits, channel, temperature, recipe, zone]
  cases s.feedingRecipe with
  | none => rfl
  | some r =>
    dsimp only
    split_ifs <;> rfl

/-! ### HEAT-OFF (R136) -/

/-- The zones that are IN-BAND leave it, with their records as they are (R138). -/
@[irreducible] def leaveAll (s : State) : State := allZones.foldl (fun t z => leaveIfInBand (t.zone z).state z t) s

theorem leaveAll_acted (s : State) : ZonesActed allZones s.zone (fun z => decide ((s.zone z).state = .inBand))
    (fun z => decide ((s.zone z).state = .inBand)) s (leaveAll s) := by
  unfold leaveAll
  refine foldl_allZones_acted fun t z h _ _ => ?_
  have hsame : modifyZone z id t = t := by simp [modifyZone, State.zone]
  have hleft := ZonesActed.one (s := t) (z := z) (f := id) (before := (s.zone z).state) (new := s.zone)
    (left := fun z => decide ((s.zone z).state = .inBand)) (raised := fun z => decide ((s.zone z).state = .inBand))
    h rfl rfl
  rwa [hsame, ← h] at hleft

/-- Every zone OFF with no recipe, and the heat switch off (R136). -/
def cooledDown (s : State) : State := { s with heat := { s.heat with
  zones := s.heat.zones.map heatlessZone, heatOn := false, stopElapsed := 0, stopFired := false } }

section

variable (s : State)

theorem foldl_heatlessZone :
    (let cold := allZones.foldl (fun t z => modifyZone z heatlessZone t) s
     { cold with heat := { cold.heat with heatOn := false, stopElapsed := 0, stopFired := false } }) =
    cooledDown s := by
  dsimp only
  rw [foldl_modifyZone]
  rfl

theorem cooledDown_onlyMarks : OnlyMarks s (cooledDown s) := .of_slots

theorem cooledDown_zone (z : Fin 4) : (cooledDown s).zone z = heatlessZone (s.zone z) := by
  simp [cooledDown, State.zone]

theorem cooledDown_status (k : Fin 32) : (cooledDown s).status k = s.status k := rfl

theorem cooledDown_eventCount (c : EventClass) : (cooledDown s).eventCount c = s.eventCount c := rfl

theorem cooledDown_withLink (l : LinkInterface) : cooledDown (withLink l s) = withLink l (cooledDown s) := rfl

theorem cooledDown_heat {t : State} (h : t.heat = { s.heat with zones := t.heat.zones }) :
    (cooledDown t).heat = { s.heat with
      heatOn := false, stopElapsed := 0, stopFired := false, zones := (cooledDown t).heat.zones } := by
  simp only [cooledDown]
  rw [h]

theorem cooledDown_eq_update {t : State} (h : t = { s with slots := t.slots, heat := t.heat, events := t.events }) :
    cooledDown t = { s with
      slots := (cooledDown t).slots, heat := (cooledDown t).heat, events := (cooledDown t).events } :=
  congrArg cooledDown h

end

theorem leaveAll_keeps {α : Type} (π : State → α) (h : ∀ t z, π (leaveIfInBand (t.zone z).state z t) = π t) (s : State) :
    π (leaveAll s) = π s := by
  unfold leaveAll
  exact foldl_keeps π _ h allZones s

theorem leaveAll_eq_update (s : State) : leaveAll s = { s with
    slots := (leaveAll s).slots, heat := (leaveAll s).heat, events := (leaveAll s).events } := by
  have hupdate := eq_update_slots_line_rolls_heat_events (s := s) (t := leaveAll s)
    (leaveAll_keeps (·.pc) (by simp) s) (leaveAll_keeps (·.geometry) (by simp) s)
    (leaveAll_keeps (·.limits) (by simp) s) (leaveAll_keeps (·.ps) (by simp) s)
    (leaveAll_keeps (·.blade) (by simp) s) (leaveAll_keeps (·.ru) (by simp) s)
    (leaveAll_keeps (·.tu) (by simp) s) (leaveAll_keeps (·.link) (by simp) s)
    (leaveAll_keeps (·.inputs) (by simp) s) (leaveAll_keeps (·.pending) (by simp) s)
    (leaveAll_keeps (·.races) (by simp) s)
  have hlg : (leaveAll s).lg = s.lg := leaveAll_keeps (·.lg) (by simp) s
  have hrolls : (leaveAll s).rolls = s.rolls := leaveAll_keeps (·.rolls) (by simp) s
  rw [hlg, hrolls] at hupdate
  exact hupdate

theorem leaveAll_withLink (l : LinkInterface) (s : State) : leaveAll (withLink l s) = withLink l (leaveAll s) := by
  unfold leaveAll
  exact foldl_withLink l (fun t z => leaveIfInBand_withLink l t _ z) allZones s

theorem heatOff_eq (s : State) : heatOff s = cooledDown (leaveAll s) := by
  unfold leaveAll
  exact foldl_heatlessZone _

theorem heatOff_onlyMarks (s : State) : OnlyMarks s (heatOff s) := by
  rw [heatOff_eq]
  exact (leaveAll_acted s).marks.trans (cooledDown_onlyMarks _)

theorem heatOff_zone (s : State) (z : Fin 4) : (heatOff s).zone z = heatlessZone (s.zone z) := by
  rw [heatOff_eq, cooledDown_zone, (leaveAll_acted s).zone_all]

theorem heatOff_eq_update (s : State) : heatOff s = { s with
    slots := (heatOff s).slots, heat := (heatOff s).heat, events := (heatOff s).events } := by
  rw [heatOff_eq]
  exact cooledDown_eq_update s (leaveAll_eq_update s)

theorem heatOff_heat (s : State) : (heatOff s).heat = { s.heat with
    heatOn := false, stopElapsed := 0, stopFired := false, zones := (heatOff s).heat.zones } := by
  rw [heatOff_eq]
  exact cooledDown_heat s (leaveAll_acted s).heat

theorem heatOff_withLink (l : LinkInterface) (s : State) : heatOff (withLink l s) = withLink l (heatOff s) := by
  rw [heatOff_eq, heatOff_eq, leaveAll_withLink, cooledDown_withLink]

theorem serveHeatOff_countAccepted (s : State) :
    serveHeatOff (countAccepted s) = (countAccepted (serveHeatOff s).1, (serveHeatOff s).2) := by
  have hlink : (heatOff s).link = s.link := by rw [heatOff_eq_update]
  have cooled : refresh (heatOff (countAccepted s)) = countAccepted (refresh (heatOff s)) := by
    rw [← refresh_countAccepted, countAccepted_eq, heatOff_withLink, countAccepted_eq, hlink]
  have on : (countAccepted s).heat.heatOn = s.heat.heatOn := rfl
  simp only [serveHeatOff, cooled, on]
  split <;> rfl

/-- The resume test leaves zones that are OFF alone (R147). -/
theorem heatOff_resumed (s : State) (b : Prop) [Decidable b] :
    (if b then (heatOff s).heat.zones.map fun zn =>
      if zn.state = .standby then { zn with state := .warming, settle := none } else zn else (heatOff s).heat.zones) =
      (heatOff s).heat.zones := by
  have hoff (z : Fin 4) : (heatOff s).heat.zones[z.val] = heatlessZone (s.zone z) := heatOff_zone s z
  split
  · exact vector_four_ext fun z => by simp [hoff, heatlessZone, offZone]
  · rfl

theorem refresh_heatOff_heat {s : State} (h : QuietPS s) : (refresh (heatOff s)).heat = (heatOff s).heat := by
  obtain ⟨-, -, -, -, -, hheat, -⟩ := reportsAreBroughtUpToDate.1 (heatOff s) ((heatOff_onlyMarks s).quiet h)
  have hrest : (heatOff s).heat.stopElapsed = 0 ∧ (heatOff s).heat.stopFired = false := by
    rw [heatOff_heat]
    exact ⟨rfl, rfl⟩
  rw [hheat, heatOff_resumed, hrest.1, hrest.2, ite_self, ite_self, ← hrest.1, ← hrest.2]

theorem refresh_heatOff_eventCount {s : State} (h : QuietPS s) {c : EventClass} (hlow : c ≠ .patternLow) :
    (refresh (heatOff s)).eventCount c = (leaveAll s).eventCount c := by
  obtain ⟨-, -, -, hcounts, -⟩ := reportsAreBroughtUpToDate.1 (heatOff s) ((heatOff_onlyMarks s).quiet h)
  rw [hcounts, if_neg fun hc => hlow hc.1, heatOff_eq, cooledDown_eventCount]

theorem refresh_heatOff_slots {s : State} (h : QuietPS s) (k : Fin 32) :
    (refresh (heatOff s)).panelOf k = s.panelOf k ∧ (refresh (heatOff s)).status k = (leaveAll s).status k := by
  obtain ⟨hslots, -, -⟩ := refresh_of_quiet ((heatOff_onlyMarks s).quiet h)
  have hslot : (refresh (heatOff s)).slot k = (heatOff s).slot k := by rw [State.slot, State.slot, hslots]
  have hstatus : (heatOff s).status k = (leaveAll s).status k := by rw [heatOff_eq, cooledDown_status]
  exact ⟨(congrArg Slot.panel hslot).trans ((heatOff_onlyMarks s).panelOf k), (congrArg Slot.status hslot).trans hstatus⟩

theorem eq_update_of_heat_then_line {s t u : State}
    (h₁ : t = { s with slots := t.slots, heat := t.heat, events := t.events })
    (h₂ : u = { t with lg := u.lg, heat := u.heat, events := u.events }) :
    u = { s with slots := u.slots, lg := u.lg, heat := u.heat, events := u.events } := by
  have hslots : u.slots = t.slots := by rw [h₂]
  rw [h₁] at h₂
  rw [hslots]
  exact h₂

theorem refresh_heatOff_eq_update {s : State} (h : QuietPS s) : refresh (heatOff s) = { s with
    slots := (refresh (heatOff s)).slots, lg := (refresh (heatOff s)).lg, heat := (refresh (heatOff s)).heat
    events := (refresh (heatOff s)).events } := by
  obtain ⟨-, -, -, -, -, -, hupdate⟩ := reportsAreBroughtUpToDate.1 (heatOff s) ((heatOff_onlyMarks s).quiet h)
  exact eq_update_of_heat_then_line (heatOff_eq_update s) hupdate

/-- An answer on a state that has the link as it was leaves the link as if that state had not changed. -/
theorem answered_link {src : Source} {r : Request} {a : Answer} {s t : State} (hlink : t.link = s.link) :
    (answered src r a t).link = (answered src r a s).link := by
  have hreply : replyTo src r a t = replyTo src r a s := by
    simp only [replyTo, State.station, hlink]
  simp only [answered, hreply, hlink]

theorem answered_eq_update {src : Source} {r : Request} {a : Answer} {s t : State}
    (h : t = { s with slots := t.slots, lg := t.lg, heat := t.heat, events := t.events }) :
    answered src r a t = { s with
      slots := t.slots, lg := t.lg, heat := t.heat, events := t.events, link := (answered src r a s).link } := by
  have hlink : t.link = s.link := by rw [h]
  have hanswered : answered src r a t = { t with link := (answered src r a s).link } := by
    rw [← answered_link hlink]
    rfl
  exact hanswered.trans (congrArg (fun u : State => { u with link := (answered src r a s).link }) h)

/-- Settles O50: HEAT-ON is `serveHeatOn_eq`; HEAT-OFF is `heatOff` with the reports made as ReportsAreBroughtUpToDate
says, none of which concerns a zone that is OFF. -/
theorem heatOnAndHeatOffSwitchZones : Obligations.HeatOnAndHeatOffSwitchZones := by
  refine ⟨fun src s => ?_, fun src s => ?_⟩
  · intro bad
    have hexec : exec (.heatOn src) s = .next (answered src .heatOn (serveHeatOn s).2 (serveHeatOn s).1) :=
      congrArg Host.Outcome.next (acceptRequest_of_blind (serveHeatOn_countAccepted s))
    refine ⟨fun hnone => ?_, fun r hr => ?_⟩
    · rw [hexec, serveHeatOn_eq, hnone]
    · intro used
      have hheated : heatOn r s = { s with heat := { s.heat with
          heatOn := true
          zones := Vector.ofFn fun z =>
            if used z then
              { s.zone z with recipe := some r, state := .warming, settle := none, integral := 0, duty := 0 }
            else { s.zone z with recipe := some r } } } := by
        simp only [heatOn_eq, heatedZone, recipeUses_iff]
        rfl
      rw [hexec, serveHeatOn_eq, hr, ← hheated]
      dsimp only
      split_ifs <;> rfl
  · have hexec : exec (.heatOff src) s = .next (answered src .heatOff (.done []) (serveHeatOff s).1) :=
      congrArg Host.Outcome.next (acceptRequest_of_blind (serveHeatOff_countAccepted s))
    refine ⟨fun hoff => ?_, fun hon hquiet => ?_⟩
    · rw [hexec, serveHeatOff, hoff]
      rfl
    · have hcooled : (serveHeatOff s).1 = refresh (heatOff s) := if_pos hon
      have hleft := leaveAll_acted s
      have hheat := refresh_heatOff_heat hquiet
      have hcount := @refresh_heatOff_eventCount s hquiet
      have hslots := refresh_heatOff_slots hquiet
      have hupdate := refresh_heatOff_eq_update hquiet
      rw [hexec, hcooled]
      generalize refresh (heatOff s) = t at hheat hcount hslots hupdate ⊢
      have hswitch : t.heat = { s.heat with
          heatOn := false, stopElapsed := 0, stopFired := false, zones := t.heat.zones } := by
        rw [hheat]
        exact heatOff_heat s
      refine ⟨_, rfl, hswitch, fun z => ?_, ?_, fun c hzone hlow => ?_, fun k => ?_,
        answered_eq_update hupdate⟩
      · have hzone : t.zone z = (heatOff s).zone z := by rw [State.zone, State.zone, hheat]
        exact hzone.trans (heatOff_zone s z)
      · refine (hcount (by decide)).trans (hleft.count.trans ?_)
        rw [allZones_eq]
        rfl
      · exact (hcount hlow).trans
          (leaveAll_keeps (·.eventCount c) (fun t z => leaveIfInBand_eventCount hzone _ z t) s)
      · obtain ⟨hpanel, hstatus⟩ := hslots k
        have hmarked := hleft.status k
        have hbits := hleft.bits_all k
        rw [← hstatus] at hmarked hbits
        refine ⟨hpanel, hmarked, fun z => (hbits z).trans ?_⟩
        rw [Bool.decide_and, Bool.decide_and, decide_eq_decide.mpr (held_iff _).symm, Bool.decide_coe]

end Sys2Proof.Machine
end

