-- ==== Sys2Proof/Proofs/ZoneTests.lean ====
section
/-! PROOF. The fault test and the band test of the four zones, and the HEAT they report
(for ScanConvertsAndTestsZones). -/

namespace Sys2Proof.Machine

open Sys2Proof.Safety

-- One proof after the other: many short ones at once need more threads than the memory limit leaves room for.
set_option Elab.async false

/-! ### A zone record after its tests (R137, R139) -/

/-- Zone z goes to FAULT at a scan (R139). -/
def State.faults (s : State) (z : Fin 4) : Bool := (s.zone z).controlled && (s.faultCause z).isSome

/-- Zone z leaves IN-BAND at a scan, to FAULT or out of band (R137, R139). -/
def State.leavesBand (s : State) (z : Fin 4) : Bool :=
  decide ((s.zone z).state = .inBand) && (s.faults z || !s.inBand z)

/-- Zone z raises ZONE at a scan (R138, R139). -/
def State.raisesZone (s : State) (z : Fin 4) : Bool := s.faults z || s.leavesBand z

/-- The zone record after the band test (R137). -/
def bandedZone (s : State) (z : Fin 4) : Zone :=
  match (s.zone z).state, s.inBand z with
  | .warming, true | .outOfBand, true => settledZone (s.settleLimit z) (s.zone z)
  | .warming, false | .outOfBand, false => { s.zone z with settle := none }
  | .inBand, false => { s.zone z with state := .outOfBand }
  | _, _ => s.zone z

/-- The zone record after the fault test and the band test (R130). -/
def testedZone (s : State) (z : Fin 4) : Zone :=
  if (s.zone z).controlled then
    match s.faultCause z with
    | some cause => faultedZone cause (s.zone z)
    | none => bandedZone s z
  else s.zone z

/-- What the tests of zone z read is as in `s`. -/
structure ReadsAs (z : Fin 4) (s t : State) : Prop where
  zone : t.zone z = s.zone z
  cause : t.faultCause z = s.faultCause z
  band : t.inBand z = s.inBand z
  limit : t.settleLimit z = s.settleLimit z

theorem ReadsAs.of_heat {z : Fin 4} {s t : State} (hzone : t.zone z = s.zone z) (hlimits : t.limits = s.limits)
    (hheat : t.heat = { s.heat with zones := t.heat.zones }) : ReadsAs z s t := by
  have hchannel : t.channel z = s.channel z := by
    rw [State.channel, hheat]
    rfl
  have hpressure : t.headerPressure = s.headerPressure := by
    rw [State.headerPressure, hheat]
    rfl
  have hrecipe (r : Fin 8) : t.recipe r = s.recipe r := by
    rw [State.recipe, hheat]
    rfl
  have htemperature : t.temperature z = s.temperature z := by rw [State.temperature, hchannel, State.temperature]
  refine ⟨hzone, ?_, ?_, ?_⟩
  · rw [faultCause_eq, faultCause_eq, hchannel, htemperature, hlimits]
  · simp only [State.inBand, hzone, htemperature, hpressure, hrecipe]
  · simp only [State.settleLimit, hzone, hrecipe]

/-! ### What the tests leave of the zones (R137, R138, R139) -/

section

variable {z : Fin 4} {new : Fin 4 → Zone} {left raised : Fin 4 → Bool} {s t u : State} {acted : List (Fin 4)}

/-- A change of neither the zones, the slots nor the count of ZONE. -/
theorem ZonesActed.congr (h : ZonesActed acted new left raised s t) (hslots : u.slots = t.slots) (hps : u.ps = t.ps)
    (hpc : u.pc = t.pc) (hgeometry : u.geometry = t.geometry) (htu : u.tu = t.tu) (hheat : u.heat = t.heat)
    (hlimits : u.limits = t.limits) (hcount : u.eventCount .zone = t.eventCount .zone) :
    ZonesActed acted new left raised s u where
  marks := h.marks.trans (.of_slots hslots htu hps hpc hgeometry)
  heat := by rw [hheat, ← h.heat]
  limits := hlimits.trans h.limits
  zone y := by rw [State.zone, hheat, ← State.zone, h.zone]
  dwell k := by rw [State.status, State.slot, hslots, ← State.slot, ← State.status, h.dwell]
  bits k y := by rw [State.status, State.slot, hslots, ← State.slot, ← State.status, h.bits]
  count := hcount.trans h.count

/-- A zone record changed from one that was not IN-BAND, and ZONE raised all the same (R139 step 5). -/
theorem ZonesActed.aloud {f : Zone → Zone} (hnew : f (s.zone z) = new z) (hleft : left z = false)
    (hraised : raised z = true) : ZonesActed [z] new left raised s (raise .zone (modifyZone z f s)) := by
  have hquiet : ZonesActed [z] new left (fun _ => false) s (modifyZone z f s) := .quietly hnew hleft rfl
  refine { hquiet with marks := hquiet.marks.trans .of_slots, count := ?_ }
  rw [eventCount_raise_same, List.filter_singleton, hraised]
  rfl

theorem bandTest_acted (h : ReadsAs z s t) (hnew : new z = bandedZone s z)
    (hleft : left z = (decide ((s.zone z).state = .inBand) && !s.inBand z)) (hraised : raised z = left z) :
    ZonesActed [z] new left raised t (bandTest z t) := by
  unfold bandTest
  rw [h.zone, h.band, h.limit]
  rw [bandedZone] at hnew
  cases hstate : (s.zone z).state <;> cases hband : s.inBand z <;> rw [hstate, hband] at hnew hleft
  case warming.true | outOfBand.true | warming.false | outOfBand.false =>
    exact .quietly (by rw [h.zone, hnew]) hleft (hraised.trans hleft)
  case inBand.false => exact .one (before := .inBand) (by rw [h.zone, hnew]) hleft (hraised.trans hleft)
  all_goals exact .none (hnew.trans h.zone.symm) hleft (hraised.trans hleft)

theorem reportCause_zoneCount (s : State) : (reportCause .heat s).eventCount .zone = s.eventCount .zone := by
  cases htaken : s.takesCause .heat with
  | false => rw [reportCause_of_not_taken htaken]
  | true =>
    by_cases htripped : s.lg.lineState = .tripped
    · rw [reportCause_of_tripped _ htripped]
      rfl
    · rw [reportCause_of_trip htaken htripped]
      exact (enterTripped_eventCount .heat s .zone).trans (if_neg (by simp))

theorem enterFault_acted {cause : FaultCause} (h : t.zone z = s.zone z) (hnew : new z = faultedZone cause (s.zone z))
    (hleft : left z = decide ((s.zone z).state = .inBand)) (hraised : raised z = true) :
    ZonesActed [z] new left raised t (enterFault z cause t) := by
  have hfaulted : ZonesActed [z] new left raised t (if (t.zone z).state = .inBand
      then leaveInBand z (modifyZone z (faultedZone cause) t) else raise .zone (modifyZone z (faultedZone cause) t)) := by
    rw [h]
    by_cases hband : (s.zone z).state = .inBand
    · rw [if_pos hband]
      exact .one (before := .inBand) (by rw [h, hnew]) (by simp [hleft, hband]) (by simp [hraised])
    · rw [if_neg hband]
      exact .aloud (by rw [h, hnew]) (by simp [hleft, hband]) hraised
  exact hfaulted.congr (by simp [enterFault]) (by simp [enterFault]) (by simp [enterFault]) (by simp [enterFault])
    (by simp [enterFault]) (by simp [enterFault]) (by simp [enterFault]) (reportCause_zoneCount _)

theorem bandTest_of_fault (h : (s.zone z).state = .fault) : bandTest z s = s := by
  unfold bandTest
  rw [h]

/-- The two tests of a zone whose record, channel, recipe and limits are as in `s` (R130). -/
theorem testZone_acted (h : ReadsAs z s t) :
    ZonesActed [z] (testedZone s) s.leavesBand s.raisesZone t (testZone t z) := by
  have hband (hnone : s.faults z = false) (hnew : testedZone s z = bandedZone s z) :
      ZonesActed [z] (testedZone s) s.leavesBand s.raisesZone t (bandTest z t) :=
    bandTest_acted h hnew (by simp [State.leavesBand, hnone]) (by simp [State.raisesZone, hnone])
  unfold testZone faultTest
  rw [h.zone, h.cause]
  cases hcontrolled : (s.zone z).controlled with
  | false =>
    have huncontrolled : bandedZone s z = s.zone z := by
      unfold Zone.controlled at hcontrolled
      unfold bandedZone
      cases hstate : (s.zone z).state <;> rw [hstate] at hcontrolled <;> simp_all
    exact hband (by simp [State.faults, hcontrolled]) (by simp [testedZone, hcontrolled, huncontrolled])
  | true =>
    cases hcause : s.faultCause z with
    | none => exact hband (by simp [State.faults, hcause]) (by simp [testedZone, hcontrolled, hcause])
    | some cause =>
      have hfaults : s.faults z = true := by simp [State.faults, hcontrolled, hcause]
      have hnew : testedZone s z = faultedZone cause (s.zone z) := by simp [testedZone, hcontrolled, hcause]
      have hfaulted : ZonesActed [z] (testedZone s) s.leavesBand s.raisesZone t (enterFault z cause t) :=
        enterFault_acted h.zone hnew (by simp [State.leavesBand, hfaults]) (by simp [State.raisesZone, hfaults])
      have hstate : ((enterFault z cause t).zone z).state = .fault := by
        rw [hfaulted.zone, if_pos (List.mem_singleton_self z), hnew]
        rfl
      rw [if_pos rfl, bandTest_of_fault hstate]
      exact hfaulted

end

/-! ### HEAT reported while the zones change (R105, R106, R139) -/

/-- `t` is `u` but for the zone records, the stop timer, quality marks and the counts of the classes `own`. -/
structure LineAs (own : List EventClass) (u t : State) : Prop where
  rest : t = { u with slots := t.slots, heat := t.heat, events := t.events }
  marks : OnlyMarks u t
  recipes : t.heat.recipes = u.heat.recipes
  recipe : ∀ z, (t.zone z).recipe = (u.zone z).recipe
  counts : ∀ c ∉ own, t.eventCount c = u.eventCount c
  masks : t.events.mask1 = u.events.mask1 ∧ t.events.mask2 = u.events.mask2

namespace LineAs

variable {own : List EventClass} {s t u : State}

theorem refl (own : List EventClass) (s : State) : LineAs own s s where
  rest := rfl
  marks := .refl s
  recipes := rfl
  recipe _ := rfl
  counts _ _ := rfl
  masks := ⟨rfl, rfl⟩

theorem trans (h₁ : LineAs own s t) (h₂ : LineAs own t u) : LineAs own s u where
  rest := by rw [h₂.rest, h₁.rest]
  marks := h₁.marks.trans h₂.marks
  recipes := h₂.recipes.trans h₁.recipes
  recipe z := (h₂.recipe z).trans (h₁.recipe z)
  counts c hc := (h₂.counts c hc).trans (h₁.counts c hc)
  masks := ⟨h₂.masks.1.trans h₁.masks.1, h₂.masks.2.trans h₁.masks.2⟩

theorem lg (h : LineAs own s t) : t.lg = s.lg := by rw [h.rest]

theorem rolls (h : LineAs own s t) : t.rolls = s.rolls := by rw [h.rest]

theorem inputs (h : LineAs own s t) : t.inputs = s.inputs := by rw [h.rest]

theorem ceiling (h : LineAs own s t) : t.ceiling = s.ceiling :=
  ceiling_congr h.marks.geometry (by rw [h.rest]) h.recipe h.recipes (feedingRecipe_congr h.rolls) (by rw [h.lg])

theorem modifyZone {z : Fin 4} {f : Zone → Zone} (h : (f (s.zone z)).recipe = (s.zone z).recipe) :
    LineAs own s (modifyZone z f s) where
  rest := rfl
  marks := { slots := fun k => modifyZone_marksOnly k z f s }
  recipes := rfl
  recipe y := by
    by_cases hy : y = z
    · subst hy
      rwa [zone_modifyZone_same]
    · rw [zone_modifyZone_other hy]
  counts _ _ := rfl
  masks := ⟨rfl, rfl⟩

theorem raiseZone (s : State) : LineAs [.zone] s (raise .zone s) where
  rest := rfl
  marks := .of_slots
  recipes := rfl
  recipe _ := rfl
  counts _ hc := eventCount_raise_other (fun h => hc (List.mem_singleton.mpr h)) s
  masks := ⟨rfl, rfl⟩

theorem markZonePanels (z : Fin 4) (s : State) : LineAs own s (markZonePanels z s) where
  rest := by
    have hupdate := eq_update_slots_line_rolls_heat_events (s := s) (t := Machine.markZonePanels z s)
    have hlg : (Machine.markZonePanels z s).lg = s.lg := by simp
    have hrolls : (Machine.markZonePanels z s).rolls = s.rolls := by simp
    rw [hlg, hrolls] at hupdate
    exact hupdate
  marks := { slots := fun k => markZonePanels_marksOnly k z s }
  recipes := by simp
  recipe y := by simp [State.zone]
  counts c _ := eventCount_of_events (by simp) c
  masks := by simp

theorem leaveInBand (z : Fin 4) (s : State) : LineAs [.zone] s (leaveInBand z s) :=
  (markZonePanels z s).trans (raiseZone _)

end LineAs

theorem stoppedBy_heat (g : Governor) : g.stoppedBy .heat = g := rfl

/-- A HEAT that trips the line is its primary cause (R106). -/
theorem reportHeat_of_trip {s : State} (htaken : s.takesCause .heat = true) (h : s.lg.lineState ≠ .tripped) :
    reportCause .heat s = enterTripped .heat s := reportCause_of_trip htaken h

section

variable {own : List EventClass} {u t : State} (h : LineAs own u t)

include h

theorem LineAs.pasteRecord : t.pasteRecord = u.pasteRecord := by rw [State.pasteRecord, State.pasteRecord, h.rolls]

theorem LineAs.starvesTripped : t.starvesTripped = u.starvesTripped := by
  unfold State.starvesTripped
  rw [h.lg, h.marks.queueKept.reserve, h.marks.geometry]

theorem LineAs.enterTripped_lg : (enterTripped .heat t).lg = (enterTripped .heat u).lg := by
  rw [Machine.enterTripped_lg, Machine.enterTripped_lg, h.lg, h.inputs, h.starvesTripped, h.ceiling]

theorem LineAs.enterTripped_rolls : (enterTripped .heat t).rolls = (enterTripped .heat u).rolls := by
  have hmodify (v : UnwindId) : (modifyUnwind v failedRoll t).rolls = (modifyUnwind v failedRoll u).rolls := by
    cases v <;> simp [modifyUnwind, h.rolls]
  rw [Machine.enterTripped_rolls, Machine.enterTripped_rolls, h.pasteRecord, h.rolls]
  simp only [hmodify]

theorem LineAs.enterTripped : LineAs own (enterTripped .heat u) (enterTripped .heat t) where
  rest := by
    obtain ⟨x, heat, e, rfl⟩ : ∃ x heat e, t = { u with slots := x, heat := heat, events := e } := ⟨_, _, _, h.rest⟩
    have hupdate := eq_update_slots_line_rolls_heat_events (s := Machine.enterTripped .heat u)
      (t := Machine.enterTripped .heat { u with slots := x, heat := heat, events := e })
    rw [h.enterTripped_lg, h.enterTripped_rolls] at hupdate
    exact hupdate
  marks :=
    have before : OnlyMarks (Machine.enterTripped .heat u) u :=
      .of_slots (by simp) (by simp) (by simp) (by simp) (by simp)
    have after : OnlyMarks t (Machine.enterTripped .heat t) :=
      .of_slots (by simp) (by simp) (by simp) (by simp) (by simp)
    before.trans (h.marks.trans after)
  recipes := by simp [h.recipes]
  recipe z := by
    have hzone (s : State) : (Machine.enterTripped .heat s).zone z = s.zone z := by simp [State.zone]
    rw [hzone, hzone, h.recipe]
  counts c hc := by
    rw [enterTripped_eventCount, enterTripped_eventCount, h.lg, h.starvesTripped, h.pasteRecord, h.counts c hc]
  masks := by
    rw [(enterTripped_masks .heat t).1, (enterTripped_masks .heat t).2, (enterTripped_masks .heat u).1,
      (enterTripped_masks .heat u).2]
    exact h.masks

theorem LineAs.withLine (g : Governor) : LineAs own { u with lg := g } { t with lg := g } where
  rest := congrArg (fun s : State => { s with lg := g }) h.rest
  marks := (OnlyMarks.of_slots (s := { u with lg := g }) (t := u)).trans (h.marks.trans .of_slots)
  recipes := h.recipes
  recipe := h.recipe
  counts := h.counts
  masks := h.masks

theorem LineAs.reportHeat : LineAs own (reportCause .heat u) (reportCause .heat t) := by
  have htakes : t.takesCause .heat = u.takesCause .heat := by simp only [State.takesCause, h.lg]
  cases htaken : u.takesCause .heat with
  | false =>
    rw [reportCause_of_not_taken htaken, reportCause_of_not_taken (htakes.trans htaken)]
    exact h
  | true =>
    by_cases htripped : u.lg.lineState = .tripped
    · rw [reportCause_of_tripped _ htripped, reportCause_of_tripped _ (h.lg ▸ htripped), h.lg]
      exact h.withLine _
    · rw [reportHeat_of_trip htaken htripped, reportHeat_of_trip (htakes.trans htaken) (h.lg ▸ htripped)]
      exact h.enterTripped

end

end Sys2Proof.Machine
end

