-- ==== Sys2Proof/Proofs/Scan.lean ====
section
/-! PROOF. SCAN converts the channels, tests the zones and advances the stop timer (ScanConvertsAndTestsZones). -/

namespace Sys2Proof.Machine

open Sys2Proof.Safety

-- One proof after the other: many short ones at once need more threads than the memory limit leaves room for.
set_option Elab.async false

/-! ### The four zones tested (R130, R137, R139) -/

theorem settledZone_recipe (limit : Nat) (zn : Zone) : (settledZone limit zn).recipe = zn.recipe := by
  unfold settledZone
  split
  · rfl
  · split <;> rfl

theorem bandTest_lineAs (z : Fin 4) (s : State) : LineAs [.zone] s (bandTest z s) := by
  unfold bandTest
  split
  case h_1 | h_2 => exact .modifyZone (settledZone_recipe _ _)
  case h_3 | h_4 => exact .modifyZone rfl
  case h_5 => exact (LineAs.modifyZone rfl).trans (.leaveInBand z _)
  case h_6 | h_7 | h_8 | h_9 => exact .refl _ s

theorem testZone_lineAs {u t : State} (z : Fin 4) (h : LineAs [.zone] u t) :
    LineAs [.zone] (if t.faults z = true then reportCause .heat u else u) (testZone t z) := by
  unfold testZone faultTest State.faults
  cases hcontrolled : (t.zone z).controlled with
  | false => exact h.trans (bandTest_lineAs z t)
  | true =>
    cases hcause : t.faultCause z with
    | none => exact h.trans (bandTest_lineAs z t)
    | some cause =>
      have hfaulted : LineAs [.zone] t (modifyZone z (faultedZone cause) t) := .modifyZone rfl
      refine .trans ?_ (bandTest_lineAs z _)
      rw [if_pos rfl]
      refine LineAs.reportHeat (h.trans ?_)
      split
      · exact hfaulted.trans (.leaveInBand z _)
      · exact hfaulted.trans (.raiseZone _)

/-- HEAT reported where a zone faults (R139). -/
def heatReported (s : State) : State := if ∃ z : Fin 4, s.faults z = true then reportCause .heat s else s

/-- The state once the four zones have been tested (R130). -/
@[irreducible] def testedZones (s : State) : State := allZones.foldl testZone s

theorem reportHeat_again (s : State) : reportCause .heat (reportCause .heat s) = reportCause .heat s := by
  have again {t : State} (htripped : t.lg.lineState = .tripped)
      (hheld : t.lg.primary = some .heat ∨ t.lg.further.getLsbD Cause.heat.number = true) :
      reportCause .heat t = t := by
    rw [reportCause_of_tripped _ htripped, if_pos hheld]
    rfl
  cases htaken : s.takesCause .heat with
  | false => rw [reportCause_of_not_taken htaken, reportCause_of_not_taken htaken]
  | true =>
    by_cases htripped : s.lg.lineState = .tripped
    · refine again ?_ ?_
      · rw [reportCause_of_tripped _ htripped]
        exact htripped
      · rw [reportCause_of_tripped _ htripped]
        simp only [stoppedBy_heat]
        split
        · assumption
        · exact .inr (by simp [Cause.number])
    · rw [reportHeat_of_trip htaken htripped]
      refine again ?_ (.inl ?_) <;> rw [enterTripped_lg]

/-- HEAT reported for one more zone is reported once (R106). -/
theorem reportHeat_append (acted : List (Fin 4)) (z : Fin 4) (s : State) :
    (if ∃ y ∈ acted ++ [z], s.faults y = true then reportCause .heat s else s) =
      if s.faults z = true then reportCause .heat (if ∃ y ∈ acted, s.faults y = true then reportCause .heat s else s)
      else if ∃ y ∈ acted, s.faults y = true then reportCause .heat s else s := by
  have happend : (∃ y ∈ acted ++ [z], s.faults y = true) ↔ (∃ y ∈ acted, s.faults y = true) ∨ s.faults z = true := by
    simp only [List.mem_append, List.mem_singleton, or_and_right, exists_or, exists_eq_left]
  simp only [happend]
  by_cases hbefore : ∃ y ∈ acted, s.faults y = true
  · rw [if_pos (.inl hbefore), if_pos hbefore, reportHeat_again, ite_self]
  · rw [if_neg hbefore]
    exact if_congr (or_iff_right hbefore) rfl rfl

theorem testedZones_outcome (s : State) :
    ZonesActed allZones (testedZone s) s.leavesBand s.raisesZone s (testedZones s) ∧
      LineAs [.zone] (heatReported s) (testedZones s) := by
  have hfold := foldl_allZones (op := testZone) (s := s)
    (R := fun acted t => ZonesActed acted (testedZone s) s.leavesBand s.raisesZone s t ∧
      LineAs [.zone] (if ∃ z ∈ acted, s.faults z = true then reportCause .heat s else s) t)
    ⟨.start _ _ _ s, by simpa using .refl _ s⟩ fun acted t z hz ⟨hacted, hline⟩ => by
      have hreads : ReadsAs z s t := .of_heat (by rw [hacted.zone, if_neg hz]) hacted.limits hacted.heat
      have hfaults : t.faults z = s.faults z := by rw [State.faults, State.faults, hreads.zone, hreads.cause]
      have htested := testZone_lineAs z hline
      rw [hfaults] at htested
      rw [← reportHeat_append] at htested
      exact ⟨hacted.trans (testZone_acted hreads), htested⟩
  have hany : (∃ z ∈ allZones, s.faults z = true) ↔ ∃ z : Fin 4, s.faults z = true := by simp [mem_allZones]
  simp only [hany] at hfold
  unfold testedZones
  exact hfold

/-! ### HEAT on the line (R105, R106) -/

/-- A zone faults on a line in RUNNING or STOPPING, which trips on it (R105). -/
def State.tripsOnHeat (s : State) : Bool :=
  decide ((∃ z : Fin 4, s.faults z = true) ∧ (s.lg.lineState = .running ∨ s.lg.lineState = .stopping))

theorem tripsOnHeat_iff (s : State) : s.tripsOnHeat = true ↔
    (∃ z : Fin 4, s.faults z = true) ∧ (s.lg.lineState = .running ∨ s.lg.lineState = .stopping) := decide_eq_true_iff

theorem heatReported_of_trip {s : State} (h : s.tripsOnHeat = true) : heatReported s = enterTripped .heat s := by
  obtain ⟨hfaults, hstate⟩ := (tripsOnHeat_iff s).mp h
  rw [heatReported, if_pos hfaults]
  refine reportHeat_of_trip ((takesCause_iff _ s).mpr fun _ => ?_) ?_
  · rcases hstate with hstate | hstate <;> simp [hstate]
  · rcases hstate with hstate | hstate <;> simp [hstate]

/-- Outside RUNNING and STOPPING a fault at most adds a further cause, in TRIPPED (R105, R106). -/
theorem heatReported_of_no_trip {s : State} (h : ¬ s.tripsOnHeat = true) : heatReported s = { s with lg := { s.lg with
    further := if (∃ z : Fin 4, s.faults z = true) ∧ s.lg.lineState = .tripped ∧
        ¬ (s.lg.primary = some .heat ∨ s.lg.further.getLsbD Cause.heat.number = true)
      then s.lg.further ||| BitVec.twoPow 10 Cause.heat.number else s.lg.further } } := by
  unfold heatReported
  by_cases hfaults : ∃ z : Fin 4, s.faults z = true
  · rw [if_pos hfaults]
    by_cases htripped : s.lg.lineState = .tripped
    · rw [reportCause_of_tripped _ htripped, stoppedBy_heat]
      simp only [hfaults, htripped, true_and, ite_not]
    · have hrest : s.takesCause .heat = false := by
        rw [Bool.eq_false_iff, ne_eq, takesCause_iff]
        intro htaken
        obtain ⟨hunconfigured, hstopped⟩ := htaken rfl
        rw [tripsOnHeat_iff, not_and_or] at h
        cases hstate : s.lg.lineState <;> simp_all
      rw [reportCause_of_not_taken hrest, if_neg fun hadds => htripped hadds.2.1]
  · rw [if_neg hfaults, if_neg fun hadds => hfaults hadds.1]

/-- The governor once HEAT has been reported (R102, R104 to R106). -/
theorem heatReported_lg (s : State) : (heatReported s).lg = { s.lg with
    lineState := if s.tripsOnHeat then .tripped else s.lg.lineState
    primary := if s.tripsOnHeat then some .heat else s.lg.primary
    further := if s.tripsOnHeat then 0
      else if (∃ z : Fin 4, s.faults z = true) ∧ s.lg.lineState = .tripped ∧
          ¬ (s.lg.primary = some .heat ∨ s.lg.further.getLsbD Cause.heat.number = true)
        then s.lg.further ||| BitVec.twoPow 10 Cause.heat.number else s.lg.further
    freeze := if s.tripsOnHeat then none else s.lg.freeze
    deferredStop := s.lg.deferredStop && !s.tripsOnHeat
    hold := if s.tripsOnHeat = true ∧ s.lg.freeze ≠ none then s.inputs.takeOffHold else s.lg.hold
    starve := if s.tripsOnHeat then s.starvesTripped else s.lg.starve
    reference := if s.tripsOnHeat = true ∧ s.lg.freeze ≠ none ∧ s.ceiling < s.lg.reference then s.ceiling
      else s.lg.reference } := by
  by_cases h : s.tripsOnHeat = true
  · rw [heatReported_of_trip h, enterTripped_lg]
    simp only [h, if_true, true_and, Bool.not_true, Bool.and_false]
  · rw [heatReported_of_no_trip h]
    simp only [h, if_false, false_and, Bool.not_false, Bool.and_true, Bool.false_eq_true]

theorem pasteRecord_eq_some_iff {s : State} {r : SpliceRecord} :
    s.pasteRecord = some r ↔ s.rolls.splice = some r ∧ r.phase = .paste := by
  simp [State.pasteRecord, Option.filter_eq_some_iff]

/-- An abandoned paste leaves the feeding roll, which is not the one that was PASTING (R169). -/
theorem heatReported_feedingRecipe {s : State} (h : RollInv s) :
    (heatReported s).feedingRecipe = s.feedingRecipe := by
  obtain ⟨-, -, -, -, hfits, -⟩ := h
  by_cases htrips : s.tripsOnHeat = true
  · rw [heatReported_of_trip htrips]
    cases hpaste : s.pasteRecord with
    | none =>
      rw [feedingRecipe_eq, feedingRecipe_eq, enterTripped_rolls, hpaste]
    | some r =>
      have hpasting : (s.unwind r.new).state = .pasting := (hfits r (pasteRecord_eq_some_iff.mp hpaste).1).1
      rw [feedingRecipe_eq, feedingRecipe_eq, enterTripped_rolls, hpaste]
      obtain ⟨new, _⟩ := r
      cases new with
      | A =>
        have hstate : s.rolls.a.state = .pasting := hpasting
        exact (if_neg (by simp [modifyUnwind, failedRoll])).trans (if_neg (by simp [hstate])).symm
      | B =>
        have hstate : s.rolls.b.state = .pasting := hpasting
        exact if_congr Iff.rfl rfl
          ((if_neg (by simp [modifyUnwind, failedRoll])).trans (if_neg (by simp [hstate])).symm)
  · rw [heatReported_of_no_trip htrips]
    rfl

theorem heatReported_ceiling {s : State} (h : RollInv s) : (heatReported s).ceiling = s.ceiling := by
  have hframe : (heatReported s).geometry = s.geometry ∧ (heatReported s).limits = s.limits ∧
      (heatReported s).heat = s.heat := by
    unfold heatReported
    split <;> simp
  obtain ⟨hgeometry, hlimits, hheat⟩ := hframe
  exact ceiling_congr hgeometry hlimits (fun z => by rw [State.zone, hheat, State.zone]) (by rw [hheat])
    (heatReported_feedingRecipe h) (by rw [heatReported_lg])

theorem heatReported_eventCount (s : State) (c : EventClass) : (heatReported s).eventCount c =
    if s.tripsOnHeat = true ∧ (c = .trip ∨ (c = .patternLow ∧ s.lg.starve = false ∧ s.starvesTripped = true) ∨
      (c = .spliceFail ∧ s.pasteRecord ≠ none)) then min 255 (s.eventCount c + 1) else s.eventCount c := by
  by_cases h : s.tripsOnHeat = true
  · rw [heatReported_of_trip h, enterTripped_eventCount]
    simp only [h, true_and]
  · rw [if_neg fun hc : s.tripsOnHeat = true ∧ _ => h hc.1]
    exact eventCount_of_events (by rw [heatReported_of_no_trip h]) c

theorem heatReported_masks (s : State) : (heatReported s).events.mask1 = s.events.mask1 ∧
    (heatReported s).events.mask2 = s.events.mask2 := by
  by_cases h : s.tripsOnHeat = true
  · rw [heatReported_of_trip h]
    exact enterTripped_masks .heat s
  · rw [heatReported_of_no_trip h]
    exact ⟨rfl, rfl⟩

theorem heatReported_rolls (s : State) : (heatReported s).rolls =
    if s.tripsOnHeat then match s.pasteRecord with
      | some r => { (modifyUnwind r.new failedRoll s).rolls with plan := none, splice := none }
      | none => { s.rolls with plan := none }
    else s.rolls := by
  by_cases h : s.tripsOnHeat = true
  · rw [heatReported_of_trip h, if_pos h]
    exact (enterTripped_rolls .heat s).trans (by cases s.pasteRecord <;> rfl)
  · rw [heatReported_of_no_trip h, if_neg h]

/-! ### The stop timer steps (R145) -/

/-- The stop timer advanced by 100 ms where it runs (R145). -/
def ticked (s : State) : State :=
  { s with heat := { s.heat with
      stopElapsed := if s.stopTimerRuns then s.heat.stopElapsed + 100 else s.heat.stopElapsed } }

theorem stepStopTimer_eq (s : State) :
    stepStopTimer s = if (ticked s).fires then fireStopTimer (ticked s) else ticked s := by
  unfold stepStopTimer
  by_cases hruns : s.stopTimerRuns = true
  · have hticked : ticked s = { s with heat := { s.heat with stopElapsed := s.heat.stopElapsed + 100 } } := by
      rw [ticked, if_pos hruns]
    have hdue : (ticked s).stopTimerDue = true ↔ (ticked s).fires := by
      obtain ⟨hreference, hon, -⟩ := (stopTimerRuns_iff s).mp hruns
      rw [stopTimerDue_iff]
      exact ⟨fun ⟨hclear, hpos, hle⟩ => ⟨hreference, hclear, hpos, hle, hon⟩,
        fun ⟨_, hclear, hpos, hle, _⟩ => ⟨hclear, hpos, hle⟩⟩
    rw [if_pos hruns, ← hticked]
    exact if_congr hdue rfl rfl
  · have hticked : ticked s = s := by rw [ticked, if_neg hruns]
    have hfires : ¬ s.fires := fun ⟨hreference, hclear, _, _, hon⟩ =>
      hruns ((stopTimerRuns_iff s).mpr ⟨hreference, hon, hclear⟩)
    rw [if_neg hruns, hticked, if_neg hfires]

theorem ticked_lineAs (own : List EventClass) (s : State) : LineAs own s (ticked s) where
  rest := rfl
  marks := .of_slots
  recipes := rfl
  recipe _ := rfl
  counts _ _ := rfl
  masks := ⟨rfl, rfl⟩

/-- The two masks that enable the attention outputs (R189). -/
def State.masks (s : State) : EventSet × EventSet := (s.events.mask1, s.events.mask2)

theorem standZone_masks (s : State) (z : Fin 4) : (standZone s z).masks = s.masks := by
  have hleave (before : ZoneState) (t : State) : (leaveIfInBand before z t).masks = t.masks := by
    unfold leaveIfInBand leaveInBand
    split <;> simp [State.masks]
  unfold standZone
  split
  case h_1 | h_2 | h_3 => exact hleave _ _
  case h_4 | h_5 | h_6 => rfl

theorem fireStopTimer_masks (s : State) : (fireStopTimer s).events.mask1 = s.events.mask1 ∧
    (fireStopTimer s).events.mask2 = s.events.mask2 := by
  have hstood : (allZones.foldl standZone (timerFired s)).masks = s.masks :=
    foldl_keeps State.masks standZone standZone_masks allZones (timerFired s)
  simp only [fireStopTimer_eq, resumeTest_frame, stoodDown, mask1_raise, mask2_raise, markChamberPanels_frame]
  exact Prod.mk.injEq .. ▸ hstood

theorem fireStopTimer_lineAs (s : State) : LineAs [.zone, .dwell] s (fireStopTimer s) where
  rest := fireStopTimer_eq_update s
  marks := fireStopTimer_onlyMarks s
  recipes := by rw [fireStopTimer_heat]
  recipe := fireStopTimer_recipe s
  counts c hc := by
    rw [List.mem_cons, List.mem_singleton, not_or] at hc
    exact fireStopTimer_eventCount hc.1 hc.2 s
  masks := fireStopTimer_masks s

theorem LineAs.weaken {own more : List EventClass} {u t : State} (h : LineAs own u t) (hmore : own ⊆ more) :
    LineAs more u t :=
  { h with counts := fun c hc => h.counts c fun hown => hc (hmore hown) }

theorem stepStopTimer_lineAs (s : State) : LineAs [.zone, .dwell] s (stepStopTimer s) := by
  rw [stepStopTimer_eq]
  split
  · exact (ticked_lineAs _ s).trans (fireStopTimer_lineAs _)
  · exact ticked_lineAs _ s

/-! ### The zones and the stop timer after a scan (R137, R145) -/

/-- The state once the zones are tested and the stop timer has stepped (R130, R145). -/
def scanned (s : State) : State := stepStopTimer (testedZones s)

theorem scanned_lineAs (s : State) : LineAs [.zone, .dwell] (heatReported s) (scanned s) :=
  ((testedZones_outcome s).2.weaken (by simp)).trans (stepStopTimer_lineAs _)

theorem bandedZone_recipe (s : State) (z : Fin 4) : (bandedZone s z).recipe = (s.zone z).recipe := by
  unfold bandedZone
  split
  case h_1 | h_2 => exact settledZone_recipe _ _
  case h_3 | h_4 | h_5 | h_6 => rfl

theorem testedZone_recipe (s : State) (z : Fin 4) : (testedZone s z).recipe = (s.zone z).recipe := by
  unfold testedZone
  split
  · split
    · rfl
    · exact bandedZone_recipe s z
  · rfl

theorem settledZone_not_off (limit : Nat) {zn : Zone} (h : zn.state ≠ .off) : (settledZone limit zn).state ≠ .off := by
  unfold settledZone
  split
  · exact h
  · split
    · simp
    · exact h

theorem bandedZone_not_off {s : State} {z : Fin 4} (h : (s.zone z).state ≠ .off) : (bandedZone s z).state ≠ .off := by
  unfold bandedZone
  split
  case h_1 | h_2 => exact settledZone_not_off _ h
  case h_3 | h_4 | h_6 => exact h
  case h_5 => simp

/-- A zone that is not controlled stays as it is at a scan (R137, R139). -/
theorem testedZone_of_not_controlled {s : State} {z : Fin 4} (h : ¬ (s.zone z).controlled = true) :
    testedZone s z = s.zone z := if_neg h

theorem testedZone_of_faults {s : State} {z : Fin 4} {cause : FaultCause} (hcontrolled : (s.zone z).controlled = true)
    (hcause : s.faultCause z = some cause) : testedZone s z = faultedZone cause (s.zone z) := by
  rw [testedZone, if_pos hcontrolled, hcause]

theorem testedZone_of_none {s : State} {z : Fin 4} (hcontrolled : (s.zone z).controlled = true)
    (hcause : s.faultCause z = none) : testedZone s z = bandedZone s z := by
  rw [testedZone, if_pos hcontrolled, hcause]

theorem testedZone_off_iff (s : State) (z : Fin 4) : (testedZone s z).state = .off ↔ (s.zone z).state = .off := by
  by_cases hcontrolled : (s.zone z).controlled = true
  · have hoff : ¬ (s.zone z).state = .off := ((controlled_iff _).mp hcontrolled).1
    refine iff_of_false ?_ hoff
    cases hcause : s.faultCause z with
    | none =>
      rw [testedZone_of_none hcontrolled hcause]
      exact bandedZone_not_off hoff
    | some cause =>
      rw [testedZone_of_faults hcontrolled hcause]
      simp [faultedZone]
  · rw [testedZone_of_not_controlled hcontrolled]

section

variable (s : State)

theorem testedZones_zone (z : Fin 4) : (testedZones s).zone z = testedZone s z := (testedZones_outcome s).1.zone_all z

theorem testedZones_heat : (testedZones s).heat = { s.heat with zones := (testedZones s).heat.zones } :=
  (testedZones_outcome s).1.heat

theorem testedZones_stopLimit : (testedZones s).stopLimit = s.stopLimit :=
  stopLimit_congr (fun z => by rw [testedZones_zone, testedZone_recipe]) (by rw [testedZones_heat])

theorem testedZones_runs_iff : (testedZones s).stopTimerRuns = true ↔
    (heatReported s).lg.reference = 0 ∧ (∃ z : Fin 4, (s.zone z).state ≠ .off) ∧ s.heat.stopFired = false := by
  have hfired : (testedZones s).heat.stopFired = s.heat.stopFired := by rw [testedZones_heat]
  rw [stopTimerRuns_iff, (testedZones_outcome s).2.lg, hfired]
  simp only [testedZones_zone, ne_eq, testedZone_off_iff]

theorem ticked_elapsed : (ticked (testedZones s)).heat.stopElapsed =
    if (heatReported s).lg.reference = 0 ∧ (∃ z : Fin 4, (s.zone z).state ≠ .off) ∧ s.heat.stopFired = false
    then s.heat.stopElapsed + 100 else s.heat.stopElapsed := by
  have helapsed : (testedZones s).heat.stopElapsed = s.heat.stopElapsed := by rw [testedZones_heat]
  rw [ticked]
  dsimp only
  rw [helapsed]
  exact if_congr (testedZones_runs_iff s) rfl rfl

/-- The stop timer fires at a scan (R145). -/
theorem scanned_fires_iff : (ticked (testedZones s)).fires ↔
    (heatReported s).lg.reference = 0 ∧ s.heat.stopFired = false ∧ 0 < s.stopLimit ∧
      s.stopLimit * 1000 ≤ s.heat.stopElapsed + 100 ∧ ∃ z : Fin 4, (s.zone z).state ≠ .off := by
  have hlimit : (ticked (testedZones s)).stopLimit = s.stopLimit := testedZones_stopLimit s
  have hreference : (ticked (testedZones s)).lg.reference = (heatReported s).lg.reference := by
    rw [← (testedZones_outcome s).2.lg]
    rfl
  have hfired : (ticked (testedZones s)).heat.stopFired = s.heat.stopFired := by
    rw [← show (testedZones s).heat.stopFired = s.heat.stopFired by rw [testedZones_heat]]
    rfl
  have hzone (z : Fin 4) : (ticked (testedZones s)).zone z = testedZone s z := testedZones_zone s z
  unfold State.fires
  rw [hlimit, hreference, hfired, ticked_elapsed]
  simp only [hzone, ne_eq, testedZone_off_iff]
  refine and_congr_right fun hzero => and_congr_right fun hclear => and_congr_right fun _ => ?_
  rw [and_comm, and_comm (b := ∃ _, _)]
  exact and_congr_right fun hon => by rw [if_pos ⟨hzero, hon, hclear⟩]

theorem scanned_eq : scanned s =
    if (ticked (testedZones s)).fires then fireStopTimer (ticked (testedZones s)) else ticked (testedZones s) :=
  stepStopTimer_eq _

/-- Zones in FAULT and OFF are left alone by the stop timer and the resume test (R146, R147). -/
theorem scanned_zone_of_still {z : Fin 4} (h : (testedZone s z).state = .off ∨ (testedZone s z).state = .fault) :
    (scanned s).zone z = testedZone s z := by
  have hzone : (ticked (testedZones s)).zone z = testedZone s z := testedZones_zone s z
  rw [scanned_eq]
  split
  · rw [fireStopTimer_zone, standing_zone_eq, hzone, if_pos h]
  · exact hzone

theorem scanned_dwellCount : (scanned s).eventCount .dwell =
    if (ticked (testedZones s)).fires then min 255 (s.eventCount .dwell + 1) else s.eventCount .dwell := by
  have htested : (ticked (testedZones s)).eventCount .dwell = s.eventCount .dwell := by
    have hreported : (heatReported s).eventCount .dwell = s.eventCount .dwell := by
      rw [heatReported_eventCount, if_neg (by simp)]
    exact ((testedZones_outcome s).2.counts .dwell (by simp)).trans hreported
  rw [scanned_eq]
  split
  · rw [fireStopTimer_dwellCount, htested]
  · exact htested

end

/-! ### The reports after a scan -/

theorem refresh_zone {s : State} (h : QuietPS s) (z : Fin 4) : (refresh s).zone z =
    if (refresh s).lg.lineState = .running ∧ (refresh s).lg.hold = false ∧ (refresh s).trackFull = false ∧
      (refresh s).lg.starve = false then resumedZone (s.zone z) else s.zone z := by
  obtain ⟨-, -, -, -, hlg, hheat, hupdate⟩ := reportsAreBroughtUpToDate.1 s h
  obtain ⟨hslots, -, -⟩ := refresh_of_quiet h
  have hfull : (refresh s).trackFull = s.trackFull := by
    refine trackFull_congr hslots ?_ ?_ ?_ ?_ <;> rw [hupdate]
  have hhold : (refresh s).lg.hold = s.lg.hold := by rw [hlg]
  have hline : (refresh s).lg.lineState = .running ↔ s.lg.lineState = .running := by
    rw [hlg]
    dsimp only
    split
    · next hstops => simp [hstops.2.2]
    · rfl
  rw [hfull, hhold]
  simp only [hline]
  rw [State.zone, hheat]
  dsimp only
  split
  · rw [Vector.getElem_map, ← resumedZone_eq]
    rfl
  · rfl

/-- STARVE as a test of the pattern reserve leaves it, from `starve` and with the freeze over or not (R99). -/
def State.retested (s : State) (unfrozen : Prop) [Decidable unfrozen] (starve : Bool) : Bool :=
  if s.geometry.valid = false then starve
  else if starve then decide (s.reserve < starveCounts s.geometry.given + hysteresisCounts s.geometry.given)
  else decide (s.reserve < starveCounts s.geometry.given ∧ unfrozen)

theorem retested_retested (s : State) (starve : Bool) :
    s.retested True (s.retested True starve) = s.retested True starve := by
  unfold State.retested
  by_cases hvalid : s.geometry.valid = false
  · simp [hvalid]
  · cases starve
    · by_cases hlow : s.reserve < starveCounts s.geometry.given
      · simp [hvalid, hlow]
        omega
      · simp [hvalid, hlow]
    · by_cases hrefill : s.reserve < starveCounts s.geometry.given + hysteresisCounts s.geometry.given
      · simp [hvalid, hrefill]
      · simp [hvalid, hrefill]
        omega

theorem starvesTripped_eq (s : State) :
    s.starvesTripped = if s.lg.freeze ≠ none then s.retested True s.lg.starve else s.lg.starve := by
  unfold State.starvesTripped State.retested
  by_cases hvalid : s.geometry.valid = true <;> by_cases hfreeze : s.lg.freeze = none <;> simp [hvalid, hfreeze]

theorem retested_congr {p q : Prop} [Decidable p] [Decidable q] (s : State) (h : p ↔ q) (starve : Bool) :
    s.retested p starve = s.retested q starve := by
  simp only [State.retested, h]

theorem heatReported_onlyMarks (s : State) : OnlyMarks s (heatReported s) := by
  refine .of_slots ?_ ?_ ?_ ?_ ?_ <;> unfold heatReported <;> split <;> simp

section

variable {s t : State} (hline : LineAs [.zone, .dwell] (heatReported s) t) (hquiet : QuietPS t)

include hline in
theorem scan_onlyMarks : OnlyMarks s t := (heatReported_onlyMarks s).trans hline.marks

include hquiet in
theorem refresh_freeze : (refresh t).lg.freeze = t.lg.freeze := by
  obtain ⟨-, -, -, -, hlg, -⟩ := reportsAreBroughtUpToDate.1 t hquiet
  rw [hlg]

include hline hquiet

/-- STARVE at the end of a scan is tested once, whether or not a freeze has ended in between (R99, R102). -/
theorem refresh_starve : (refresh t).lg.starve = s.retested ((refresh t).lg.freeze = none) s.lg.starve := by
  obtain ⟨hstarve, -⟩ := reportsAreBroughtUpToDate.1 t hquiet
  have hmarks := scan_onlyMarks hline
  have htested : (refresh t).lg.starve = s.retested (t.lg.freeze = none) t.lg.starve := by
    rw [hstarve, hmarks.queueKept.reserve, hmarks.geometry]
    rfl
  have hfree : s.retested ((refresh t).lg.freeze = none) s.lg.starve = s.retested (t.lg.freeze = none) s.lg.starve :=
    retested_congr s (by rw [refresh_freeze hquiet]) _
  rw [htested, hfree, hline.lg, heatReported_lg]
  by_cases htrips : s.tripsOnHeat = true
  · simp only [htrips, if_true, starvesTripped_eq]
    split
    · exact retested_retested s _
    · rfl
  · simp only [htrips, if_false, Bool.false_eq_true]

/-- Between the report of HEAT and the end of the scan STARVE changes only where no freeze has ended (R102). -/
theorem starve_before_refresh : t.lg.starve =
    if s.tripsOnHeat = true ∧ s.lg.freeze ≠ none then (refresh t).lg.starve else s.lg.starve := by
  have hover : (refresh t).lg.freeze = none ↔ (s.tripsOnHeat = true ∨ s.lg.freeze = none) := by
    rw [refresh_freeze hquiet, hline.lg, heatReported_lg]
    dsimp only
    split <;> simp_all
  rw [refresh_starve hline hquiet, hline.lg, heatReported_lg]
  dsimp only
  by_cases htrips : s.tripsOnHeat = true
  · simp only [htrips, if_true, true_and, starvesTripped_eq]
    rw [retested_congr s (hover.trans (iff_true_intro (.inl htrips)))]
  · simp only [htrips, if_false, false_and, Bool.false_eq_true]

theorem scan_eventCount {c : EventClass} (hzone : c ≠ .zone) (hdwell : c ≠ .dwell) : (refresh t).eventCount c =
    if (c = .trip ∧ s.tripsOnHeat = true) ∨
        (c = .patternLow ∧ s.lg.starve = false ∧ (refresh t).lg.starve = true) ∨
        (c = .spliceFail ∧ s.tripsOnHeat = true ∧ ∃ r ∈ s.rolls.splice, r.phase = .paste)
      then min 255 (s.eventCount c + 1) else s.eventCount c := by
  obtain ⟨-, -, -, hcounts, -⟩ := reportsAreBroughtUpToDate.1 t hquiet
  have hpaste : s.pasteRecord ≠ none ↔ ∃ r ∈ s.rolls.splice, r.phase = .paste := by
    simp only [Option.ne_none_iff_exists', pasteRecord_eq_some_iff, Option.mem_def]
  have hstarve := starve_before_refresh hline hquiet
  have hreported : t.lg.starve = if s.tripsOnHeat = true then s.starvesTripped else s.lg.starve := by
    rw [hline.lg, heatReported_lg]
  rw [hcounts, hline.counts c (by simp [hzone, hdwell]), heatReported_eventCount]
  simp only [hpaste]
  by_cases hlow : c = .patternLow
  · subst hlow
    by_cases htrips : s.tripsOnHeat = true
    · simp only [htrips, true_and, if_true] at hstarve hreported
      rw [← hreported]
      by_cases hfreeze : s.lg.freeze = none
      · simp only [hfreeze, ne_eq, not_true_eq_false, if_false] at hstarve
        cases h : s.lg.starve <;> simp [hstarve, h]
      · simp only [hfreeze, ne_eq, not_false_eq_true, if_true] at hstarve
        cases h : s.lg.starve <;> cases h' : (refresh t).lg.starve <;> simp [hstarve, htrips, h']
    · simp only [htrips] at hstarve
      simp [htrips, hstarve]
  · simp only [hlow, false_and, if_false, false_or]
    refine if_congr ?_ rfl rfl
    tauto

end

end Sys2Proof.Machine
end

