-- ==== Sys2Proof/Proofs/ScanResult.lean ====
section
/-! PROOF. The state a scan ends in, with the reports made (ScanConvertsAndTestsZones). -/

namespace Sys2Proof.Machine

open Sys2Proof.Safety

-- One proof after the other: many short ones at once need more threads than the memory limit leaves room for.
set_option Elab.async false

section

variable {s : State} (hquiet : QuietPS s)

include hquiet

theorem scanned_quiet : QuietPS (scanned s) := (scan_onlyMarks (scanned_lineAs s)).quiet hquiet

/-! ### The line and the rolls (R99, R105, R106) -/

theorem scan_reference : (refresh (scanned s)).lg.reference =
    if (scanned s).lg.freeze = none ∧ (scanned s).ceiling < (scanned s).lg.reference then (scanned s).ceiling
    else (scanned s).lg.reference := by
  obtain ⟨-, -, -, -, hlg, -⟩ := reportsAreBroughtUpToDate.1 (scanned s) (scanned_quiet hquiet)
  rw [hlg]

/-- The line at the end of a scan; what trips it and which zones fault are named by any equivalent statements. -/
theorem scan_lg (hroll : RollInv s) {trips faulty : Prop} [Decidable trips] [Decidable faulty]
    (htrips : trips ↔ s.tripsOnHeat = true) (hfaulty : faulty ↔ ∃ z : Fin 4, s.faults z = true) :
    (refresh (scanned s)).lg = { s.lg with
      lineState := if trips then .tripped
        else if ((refresh (scanned s)).lg.freeze = none ∧ s.ceiling < s.lg.reference) ∧ s.ceiling = 0 ∧
          s.lg.lineState = .stopping then .stopped else s.lg.lineState
      primary := if trips then some .heat else s.lg.primary
      further := if trips then 0
        else if faulty ∧ s.lg.lineState = .tripped ∧
            ¬ (s.lg.primary = some .heat ∨ s.lg.further.getLsbD Cause.heat.number = true) then
          s.lg.further ||| BitVec.twoPow 10 Cause.heat.number else s.lg.further
      freeze := if trips then none else s.lg.freeze
      deferredStop := s.lg.deferredStop && !decide trips
      hold := if trips ∧ s.lg.freeze ≠ none then s.inputs.takeOffHold else s.lg.hold
      starve := s.retested ((refresh (scanned s)).lg.freeze = none) s.lg.starve
      reference := if (refresh (scanned s)).lg.freeze = none ∧ s.ceiling < s.lg.reference then s.ceiling
        else s.lg.reference
      infeedPeriod := if s.lg.infeedPeriod = none then (refresh (scanned s)).infeedStepPeriod
        else s.lg.infeedPeriod
      beltPeriod := if s.lg.beltPeriod = none then (refresh (scanned s)).beltStepPeriod else s.lg.beltPeriod } := by
  have hline := scanned_lineAs s
  have hceiling : (scanned s).ceiling = s.ceiling := hline.ceiling.trans (heatReported_ceiling hroll)
  have hfreeze := refresh_freeze (scanned_quiet hquiet)
  have hstarve := refresh_starve hline (scanned_quiet hquiet)
  obtain ⟨-, -, -, -, hlg, -⟩ := reportsAreBroughtUpToDate.1 (scanned s) (scanned_quiet hquiet)
  rw [hceiling] at hlg
  generalize refresh (scanned s) = t at hlg hfreeze hstarve ⊢
  rw [← hstarve, hfreeze]
  refine hlg.trans ?_
  rw [hline.lg, heatReported_lg]
  by_cases h : s.tripsOnHeat = true
  · simp only [htrips, hfaulty, h, if_true, true_and, Bool.not_true, Bool.and_false, decide_true]
    by_cases hclamped : s.ceiling < s.lg.reference
    · by_cases hfrozen : s.lg.freeze = none <;> simp [hclamped, hfrozen]
    · simp [hclamped]
  · simp only [htrips, hfaulty, h, if_false, false_and, Bool.not_false, Bool.and_true, Bool.false_eq_true, decide_false]

/-- A fault on a line in RUNNING or STOPPING trips it on HEAT alone (R105, R106). -/
theorem scan_line_of_trip (hroll : RollInv s) (h : s.tripsOnHeat = true) :
    (refresh (scanned s)).lg.lineState = .tripped ∧ (refresh (scanned s)).lg.primary = some .heat ∧
      (refresh (scanned s)).lg.further = 0 := by
  rw [scan_lg hquiet hroll Iff.rfl Iff.rfl]
  exact ⟨if_pos h, if_pos h, if_pos h⟩

omit hquiet in
theorem not_tripsOnHeat (hrunning : s.lg.lineState ≠ .running) (hstopping : s.lg.lineState ≠ .stopping) :
    ¬ s.tripsOnHeat = true := by
  rw [tripsOnHeat_iff]
  exact fun htrips => htrips.2.elim hrunning hstopping

/-- A fault on a line in TRIPPED is recorded (R106). -/
theorem scan_line_of_tripped (hroll : RollInv s) (hany : ∃ z : Fin 4, s.faults z = true)
    (htripped : s.lg.lineState = .tripped) : (refresh (scanned s)).holdsCause .heat = true ∧
      (refresh (scanned s)).lg.lineState = .tripped ∧ (refresh (scanned s)).lg.primary = s.lg.primary := by
  have hrest : ¬ s.tripsOnHeat = true := not_tripsOnHeat (by simp [htripped]) (by simp [htripped])
  rw [holdsCause_iff, scan_lg hquiet hroll Iff.rfl Iff.rfl]
  dsimp only
  rw [if_neg hrest, if_neg hrest, if_neg hrest]
  refine ⟨?_, (if_neg fun hstops => ?_).trans htripped, rfl⟩
  swap
  · simp [htripped] at hstops
  by_cases hheld : s.lg.primary = some .heat ∨ s.lg.further.getLsbD Cause.heat.number = true
  · rw [if_neg fun hadds => hadds.2.2 hheld]
    exact hheld
  · rw [if_pos ⟨hany, htripped, hheld⟩]
    exact .inr (by simp [Cause.number])

/-- Before production HEAT is not taken (R105). -/
theorem scan_line_at_rest (hroll : RollInv s) (hstate : s.lg.lineState = .stopped ∨ s.lg.lineState = .unconfigured) :
    (refresh (scanned s)).lg.lineState = s.lg.lineState ∧ (refresh (scanned s)).lg.primary = s.lg.primary ∧
      (refresh (scanned s)).lg.further = s.lg.further := by
  have hstates : s.lg.lineState ≠ .running ∧ s.lg.lineState ≠ .stopping ∧ s.lg.lineState ≠ .tripped := by
    rcases hstate with hstate | hstate <;> simp [hstate]
  obtain ⟨hrunning, hstopping, htripped⟩ := hstates
  have hrest := not_tripsOnHeat hrunning hstopping
  rw [scan_lg hquiet hroll Iff.rfl Iff.rfl]
  dsimp only
  rw [if_neg hrest, if_neg hrest, if_neg hrest, if_neg fun hstops => hstopping hstops.2.2,
    if_neg fun hadds => htripped hadds.2.1]
  exact ⟨rfl, rfl, rfl⟩

/-- Without a fault the trip record stays. -/
theorem scan_causes_of_sound (hroll : RollInv s) (h : ¬ ∃ z : Fin 4, s.faults z = true) :
    (refresh (scanned s)).lg.primary = s.lg.primary ∧ (refresh (scanned s)).lg.further = s.lg.further := by
  have hrest : ¬ s.tripsOnHeat = true := fun htrips => h ((tripsOnHeat_iff s).mp htrips).1
  rw [scan_lg hquiet hroll Iff.rfl Iff.rfl]
  exact ⟨if_neg hrest, (if_neg hrest).trans (if_neg fun hadds => h hadds.1)⟩

theorem scan_rolls : (refresh (scanned s)).rolls = (heatReported s).rolls := by
  obtain ⟨-, -, -, -, -, -, hupdate⟩ := reportsAreBroughtUpToDate.1 (scanned s) (scanned_quiet hquiet)
  rw [hupdate]
  exact (scanned_lineAs s).rolls

theorem scan_rolls_of_no_trip (h : ¬ s.tripsOnHeat = true) : (refresh (scanned s)).rolls = s.rolls := by
  rw [scan_rolls hquiet, heatReported_rolls, if_neg h]

theorem scan_rolls_of_trip (h : s.tripsOnHeat = true) (hpaste : ∀ r ∈ s.rolls.splice, r.phase ≠ .paste) :
    (refresh (scanned s)).rolls = { s.rolls with plan := none } := by
  have hnone : s.pasteRecord = none := Option.eq_none_iff_forall_ne_some.mpr fun r hr => by
    obtain ⟨hsplice, hphase⟩ := pasteRecord_eq_some_iff.mp hr
    exact hpaste r hsplice hphase
  rw [scan_rolls hquiet, heatReported_rolls, if_pos h, hnone]

/-- A trip abandons the splice that has begun to paste (R169). -/
theorem scan_rolls_of_paste (h : s.tripsOnHeat = true) {r : SpliceRecord} (hr : r ∈ s.rolls.splice)
    (hpaste : r.phase = .paste) : (refresh (scanned s)).rolls =
      { (modifyUnwind r.new failedRoll s).rolls with plan := none, splice := none } := by
  have hsome : s.pasteRecord = some r := pasteRecord_eq_some_iff.mpr ⟨hr, hpaste⟩
  rw [scan_rolls hquiet, heatReported_rolls, if_pos h, hsome]

theorem scan_masks : (refresh (scanned s)).events.mask1 = s.events.mask1 ∧
    (refresh (scanned s)).events.mask2 = s.events.mask2 := by
  obtain ⟨-, hmask1, hmask2, -⟩ := reportsAreBroughtUpToDate.1 (scanned s) (scanned_quiet hquiet)
  obtain ⟨hscanned1, hscanned2⟩ := (scanned_lineAs s).masks
  obtain ⟨hreported1, hreported2⟩ := heatReported_masks s
  exact ⟨hmask1.trans (hscanned1.trans hreported1), hmask2.trans (hscanned2.trans hreported2)⟩

omit hquiet in
theorem heatReported_eq_update : heatReported s = { s with
    lg := (heatReported s).lg, rolls := (heatReported s).rolls, events := (heatReported s).events } := by
  unfold heatReported
  split
  · have hupdate := eq_update_slots_line_rolls_heat_events (s := s) (t := reportCause .heat s)
    have hslots : (reportCause .heat s).slots = s.slots := by simp
    have hheat : (reportCause .heat s).heat = s.heat := by simp
    rw [hslots, hheat] at hupdate
    exact hupdate
  · rfl

theorem scan_eq_update : refresh (scanned s) = { s with
    slots := (refresh (scanned s)).slots, lg := (refresh (scanned s)).lg, rolls := (refresh (scanned s)).rolls
    heat := (refresh (scanned s)).heat, events := (refresh (scanned s)).events } := by
  obtain ⟨-, -, -, -, -, -, hupdate⟩ := reportsAreBroughtUpToDate.1 (scanned s) (scanned_quiet hquiet)
  have hslots : (refresh (scanned s)).slots = (scanned s).slots := by rw [hupdate]
  have hrolls : (refresh (scanned s)).rolls = (heatReported s).rolls := scan_rolls hquiet
  have hline := (scanned_lineAs s).rest
  have hreported := heatReported_eq_update (s := s)
  rw [hslots, hrolls]
  generalize refresh (scanned s) = t at hupdate ⊢
  generalize scanned s = u at hupdate hline ⊢
  rw [hline, hreported] at hupdate
  exact hupdate

/-! ### The heat unit (R137, R139, R145) -/

omit hquiet in
theorem scanned_heat : (scanned s).heat = { s.heat with
    zones := (scanned s).heat.zones, stopElapsed := (scanned s).heat.stopElapsed
    stopFired := (scanned s).heat.stopFired } := by
  have hticked : (ticked (testedZones s)).heat =
      { s.heat with zones := (testedZones s).heat.zones, stopElapsed := (ticked (testedZones s)).heat.stopElapsed } :=
    congrArg (fun u : HeatUnit => { u with stopElapsed := (ticked (testedZones s)).heat.stopElapsed })
      (testedZones_heat s)
  rw [scanned_eq]
  split
  · rw [fireStopTimer_heat, hticked]
  · rw [hticked]

theorem scan_heat : (refresh (scanned s)).heat = { s.heat with
    zones := (refresh (scanned s)).heat.zones, stopElapsed := (refresh (scanned s)).heat.stopElapsed
    stopFired := (refresh (scanned s)).heat.stopFired } := by
  obtain ⟨-, -, -, -, -, hheat, -⟩ := reportsAreBroughtUpToDate.1 (scanned s) (scanned_quiet hquiet)
  rw [hheat, scanned_heat]

theorem scan_zone (z : Fin 4) : (refresh (scanned s)).zone z =
    if (refresh (scanned s)).lg.lineState = .running ∧ (refresh (scanned s)).lg.hold = false ∧
      (refresh (scanned s)).trackFull = false ∧ (refresh (scanned s)).lg.starve = false
    then resumedZone ((scanned s).zone z) else (scanned s).zone z := refresh_zone (scanned_quiet hquiet) z

/-- A zone OFF or in FAULT once it is tested ends the scan so (R146, R147). -/
theorem scan_zone_of_still {z : Fin 4} (h : (testedZone s z).state = .off ∨ (testedZone s z).state = .fault) :
    (refresh (scanned s)).zone z = testedZone s z := by
  have hresumed : resumedZone (testedZone s z) = testedZone s z := by
    rw [resumedZone_eq, if_neg]
    rcases h with h | h <;> simp [h]
  rw [scan_zone hquiet, scanned_zone_of_still s h, hresumed, ite_self]

theorem scan_zone_of_not_controlled {z : Fin 4} (h : ¬ (s.zone z).controlled = true) :
    (refresh (scanned s)).zone z = s.zone z := by
  have htested : testedZone s z = s.zone z := testedZone_of_not_controlled h
  rw [controlled_iff, not_and_or, not_not, not_not] at h
  rw [scan_zone_of_still hquiet (htested ▸ h), htested]

theorem scan_zone_of_faults {z : Fin 4} (h : s.faults z = true) : (refresh (scanned s)).zone z = { s.zone z with
    state := .fault, settle := none, integral := 0, duty := 0, onTime := 0, valveOpen := false
    fault := s.faultCause z } := by
  rw [State.faults, Bool.and_eq_true, Option.isSome_iff_exists] at h
  obtain ⟨hcontrolled, cause, hcause⟩ := h
  have htested : testedZone s z = faultedZone cause (s.zone z) := testedZone_of_faults hcontrolled hcause
  rw [scan_zone_of_still hquiet (.inr (by rw [htested]; rfl)), htested, hcause]
  rfl

theorem scan_off_iff (z : Fin 4) : ((refresh (scanned s)).zone z).state = .off ↔ ((scanned s).zone z).state = .off := by
  rw [scan_zone hquiet, resumedZone_eq]
  split_ifs with _ hstandby <;> simp [*]

theorem scan_stopFired : (refresh (scanned s)).heat.stopFired =
    if (refresh (scanned s)).lg.reference ≠ 0 ∨ ∀ z : Fin 4, ((refresh (scanned s)).zone z).state = .off then false
    else (scanned s).heat.stopFired := by
  obtain ⟨-, -, -, -, -, hheat, -⟩ := reportsAreBroughtUpToDate.1 (scanned s) (scanned_quiet hquiet)
  simp only [scan_off_iff hquiet]
  rw [hheat]

theorem scan_stopElapsed : (refresh (scanned s)).heat.stopElapsed =
    if (refresh (scanned s)).lg.reference ≠ 0 ∨ ∀ z : Fin 4, ((refresh (scanned s)).zone z).state = .off then 0
    else (scanned s).heat.stopElapsed := by
  obtain ⟨-, -, -, -, -, hheat, -⟩ := reportsAreBroughtUpToDate.1 (scanned s) (scanned_quiet hquiet)
  simp only [scan_off_iff hquiet]
  rw [hheat]

theorem scan_status (k : Fin 32) : (refresh (scanned s)).status k = (scanned s).status k := by
  obtain ⟨hslots, -, -⟩ := refresh_of_quiet (scanned_quiet hquiet)
  rw [State.status, State.slot, hslots]
  rfl

theorem scan_panelOf (k : Fin 32) : (refresh (scanned s)).panelOf k = s.panelOf k := by
  obtain ⟨hslots, -, -⟩ := refresh_of_quiet (scanned_quiet hquiet)
  rw [State.panelOf, State.slot, hslots]
  exact (scan_onlyMarks (scanned_lineAs s)).panelOf k

theorem scan_count {c : EventClass} (h : c ≠ .patternLow) :
    (refresh (scanned s)).eventCount c = (scanned s).eventCount c := by
  obtain ⟨-, -, -, hcounts, -⟩ := reportsAreBroughtUpToDate.1 (scanned s) (scanned_quiet hquiet)
  rw [hcounts, if_neg fun hc => h hc.1]

/-! ### With the stop timer fired (R145) -/

theorem scan_of_fires (h : (ticked (testedZones s)).fires) : (refresh (scanned s)).heat.stopFired = true ∧
    (refresh (scanned s)).eventCount .dwell = min 255 (s.eventCount .dwell + 1) := by
  have hfired : (scanned s).heat.stopFired = true := by rw [scanned_eq, if_pos h, fireStopTimer_heat]
  obtain ⟨hzero, -, -, -, z, hz⟩ := (scanned_fires_iff s).mp h
  rw [← (scanned_lineAs s).lg] at hzero
  have hreference : (refresh (scanned s)).lg.reference = 0 := by
    rw [scan_reference hquiet, hzero, if_neg fun hclamped => Nat.not_lt_zero _ hclamped.2]
  have hon : ¬ ((refresh (scanned s)).zone z).state = .off := by
    rw [scan_off_iff hquiet, scanned_eq, if_pos h, fireStopTimer_zone, standing_zone_eq]
    have hticked : ¬ ((ticked (testedZones s)).zone z).state = .off := by
      rw [show (ticked (testedZones s)).zone z = testedZone s z from testedZones_zone s z, testedZone_off_iff]
      exact hz
    split_ifs <;> simp_all
  refine ⟨?_, ?_⟩
  · rw [scan_stopFired hquiet, hfired, if_neg]
    rintro (hmoving | hoff)
    · exact hmoving hreference
    · exact hon (hoff z)
  · rw [scan_count hquiet (by decide), scanned_dwellCount, if_pos h]

/-! ### With the stop timer not fired (R121, R137, R138) -/

section

variable (h : ¬ (ticked (testedZones s)).fires)

include h

omit hquiet in
theorem scanned_of_not_fires : scanned s = ticked (testedZones s) := by rw [scanned_eq, if_neg h]

/-- A zone controlled and without a fault ends the scan as the band test and the resume test leave it (R137, R147). -/
theorem scan_zone_of_sound {z : Fin 4} (hcontrolled : (s.zone z).controlled = true) (hsound : ¬ s.faults z = true) :
    (refresh (scanned s)).zone z =
      if (s.zone z).state = .inBand then
        if s.inBand z = true then s.zone z else { s.zone z with state := .outOfBand }
      else if (s.zone z).state = .standby then
        if (refresh (scanned s)).lg.lineState = .running ∧ (refresh (scanned s)).lg.hold = false ∧
          (refresh (scanned s)).trackFull = false ∧ (refresh (scanned s)).lg.starve = false
        then { s.zone z with state := .warming, settle := none } else s.zone z
      else if s.inBand z = false then { s.zone z with settle := none }
      else settledZone (s.settleLimit z) (s.zone z) := by
  have hcause : s.faultCause z = none := by
    rwa [State.faults, hcontrolled, Bool.true_and, Bool.not_eq_true, Option.isSome_eq_false_iff,
      Option.isNone_iff_eq_none] at hsound
  have hscanned : (scanned s).zone z = bandedZone s z := by
    rw [scanned_of_not_fires h]
    exact (testedZones_zone s z).trans (testedZone_of_none hcontrolled hcause)
  have hsettled : (settledZone (s.settleLimit z) (s.zone z)).state = .standby → (s.zone z).state = .standby := by
    unfold settledZone
    split
    · exact id
    · split
      · simp
      · exact id
  rw [scan_zone hquiet, hscanned, resumedZone_eq]
  rw [controlled_iff] at hcontrolled
  unfold bandedZone
  cases hstate : (s.zone z).state <;> cases hband : s.inBand z
  all_goals simp_all

omit hquiet in
theorem scanned_status_of_not_fires (k : Fin 32) : (scanned s).status k = (testedZones s).status k := by
  rw [scanned_of_not_fires h]
  rfl

theorem scan_marks (k : Fin 32) :
    (refresh (scanned s)).status k = { s.status k with underSet := ((refresh (scanned s)).status k).underSet } ∧
    ∀ z : Fin 4, ((refresh (scanned s)).status k).underSet.getLsbD z.val = ((s.status k).underSet.getLsbD z.val ||
      (s.leavesBand z && ((s.status k).held && decide (k ∈ s.panelSlots (s.overlapsZone z))))) := by
  rw [scan_status hquiet, scanned_status_of_not_fires h]
  exact ⟨(testedZones_outcome s).1.status k, (testedZones_outcome s).1.bits_all k⟩

theorem scan_zoneCount : (refresh (scanned s)).eventCount .zone =
    raisedBy (s.eventCount .zone) ((List.finRange 4).filter s.raisesZone).length := by
  rw [scan_count hquiet (by decide), scanned_of_not_fires h, ← allZones_eq]
  exact (testedZones_outcome s).1.count

theorem scan_dwellCount : (refresh (scanned s)).eventCount .dwell = s.eventCount .dwell := by
  rw [scan_count hquiet (by decide), scanned_dwellCount, if_neg h]

theorem scan_stopFired_of_not_fires : (refresh (scanned s)).heat.stopFired =
    if (refresh (scanned s)).lg.reference ≠ 0 ∨ ∀ z : Fin 4, ((refresh (scanned s)).zone z).state = .off then false
    else s.heat.stopFired := by
  have hfired : (scanned s).heat.stopFired = s.heat.stopFired := by
    rw [scanned_of_not_fires h]
    exact (congrArg HeatUnit.stopFired (testedZones_heat s)).trans rfl
  rw [scan_stopFired hquiet, hfired]

theorem scan_stopElapsed_of_not_fires : (refresh (scanned s)).heat.stopElapsed =
    if (refresh (scanned s)).lg.reference ≠ 0 ∨ ∀ z : Fin 4, ((refresh (scanned s)).zone z).state = .off then 0
    else if (heatReported s).lg.reference = 0 ∧ s.heat.stopFired = false then s.heat.stopElapsed + 100
    else s.heat.stopElapsed := by
  have hzone (z : Fin 4) : ((refresh (scanned s)).zone z).state = .off ↔ (s.zone z).state = .off := by
    rw [scan_off_iff hquiet, scanned_of_not_fires h, ← testedZone_off_iff s z]
    exact iff_of_eq (congrArg (fun zn : Zone => zn.state = .off) (testedZones_zone s z))
  rw [scan_stopElapsed hquiet, scanned_of_not_fires h, ticked_elapsed]
  split
  · rfl
  · next hmoving =>
    obtain ⟨-, hon⟩ := not_or.mp hmoving
    rw [← scanned_of_not_fires h] at hon
    simp only [hzone] at hon
    exact if_congr (and_congr_right fun _ => and_iff_right (not_forall.mp hon)) rfl rfl

end

end

end Sys2Proof.Machine
end

