-- ==== Sys2Proof/Proofs/ScanCommand.lean ====
section
/-! PROOF. The channels converted and the command SCAN as the statement says it (ScanConvertsAndTestsZones). -/

namespace Sys2Proof.Machine

open Sys2Proof.Safety

-- One proof after the other: many short ones at once need more threads than the memory limit leaves room for.
set_option Elab.async false

/-! ### Conversions and filters (R130, R131) -/

theorem scanChannels_channel (t1 t2 t3 t4 pressure : Fin 4096) (s : State) (z : Fin 4) :
    (scanChannels t1 t2 t3 t4 pressure s).channel z =
      scanChannel (if z = 0 then t1 else if z = 1 then t2 else if z = 2 then t3 else t4) (s.channel z) := by
  fin_cases z <;> rfl

/-- The scan changes the channels and then runs the tests on what they say. -/
theorem exec_scan_eq (t1 t2 t3 t4 pressure : Fin 4096) (s : State) :
    exec (.scan t1 t2 t3 t4 pressure) s = .next (refresh (scanned (scanChannels t1 t2 t3 t4 pressure s))) := by
  unfold scanned testedZones
  rfl

/-! ### The tests as the statement writes them (R137, R139) -/

theorem inBand_eq (s : State) (z : Fin 4) : s.inBand z = match (s.zone z).recipe, s.temperature z, s.headerPressure with
    | some r, some v, some p =>
      decide ((s.recipe r).setpoint z ≤ v + (s.recipe r).band ∧ v ≤ (s.recipe r).setpoint z + (s.recipe r).band ∧
        (s.recipe r).minPressure ≤ p)
    | _, _, _ => false := by
  unfold State.inBand
  cases (s.zone z).recipe <;> cases s.temperature z <;> cases s.headerPressure
  case some.some.some r v p =>
    dsimp only
    rw [← Bool.decide_and]
    exact decide_eq_decide.mpr (by omega)
  all_goals rfl

theorem faults_iff (s : State) (z : Fin 4) : s.faults z = true ↔
    ((s.zone z).state ≠ .off ∧ (s.zone z).state ≠ .fault) ∧ (s.faultCause z).isSome = true := by
  rw [State.faults, Bool.and_eq_true, controlled_iff]

theorem leavesBand_iff (s : State) (z : Fin 4) : s.leavesBand z = true ↔
    (s.zone z).state = .inBand ∧ (s.faults z = true ∨ s.inBand z = false) := by
  rw [State.leavesBand, Bool.and_eq_true, decide_eq_true_iff, Bool.or_eq_true, Bool.not_eq_true']

theorem raisesZone_iff (s : State) (z : Fin 4) : s.raisesZone z = true ↔
    s.faults z = true ∨ s.leavesBand z = true := by
  rw [State.raisesZone, Bool.or_eq_true]

/-- `u` is `s` but for the channels and the header pressure. -/
def OnlyReadings (s u : State) : Prop :=
  ∃ temps pressure, u = { s with heat := { s.heat with temps := temps, pressure := pressure } }

namespace OnlyReadings

variable {s u : State} (h : OnlyReadings s u)

include h

theorem quiet (hquiet : QuietPS s) : QuietPS u := by
  obtain ⟨temps, pressure, rfl⟩ := h
  exact hquiet

theorem roll (hroll : RollInv s) : RollInv u := by
  obtain ⟨temps, pressure, rfl⟩ := h
  exact hroll

theorem line : u.lg = s.lg ∧ u.rolls = s.rolls ∧ u.inputs = s.inputs ∧ u.events = s.events := by
  obtain ⟨temps, pressure, rfl⟩ := h
  exact ⟨rfl, rfl, rfl, rfl⟩

theorem heat : u.heat.recipes = s.heat.recipes ∧ u.heat.heatOn = s.heat.heatOn ∧
    u.heat.stopFired = s.heat.stopFired ∧ u.heat.stopElapsed = s.heat.stopElapsed ∧ u.stopLimit = s.stopLimit := by
  obtain ⟨temps, pressure, rfl⟩ := h
  exact ⟨rfl, rfl, rfl, rfl, rfl⟩

theorem zone (z : Fin 4) : u.zone z = s.zone z := by
  obtain ⟨temps, pressure, rfl⟩ := h
  rfl

theorem recipe (r : Fin 8) : u.recipe r = s.recipe r := by
  obtain ⟨temps, pressure, rfl⟩ := h
  rfl

theorem ceiling : u.ceiling = s.ceiling := by
  obtain ⟨temps, pressure, rfl⟩ := h
  rfl

theorem retested (p : Prop) [Decidable p] (starve : Bool) : u.retested p starve = s.retested p starve := by
  obtain ⟨temps, pressure, rfl⟩ := h
  rfl

theorem eventCount (c : EventClass) : u.eventCount c = s.eventCount c := by
  obtain ⟨temps, pressure, rfl⟩ := h
  rfl

theorem status (k : Fin 32) : u.status k = s.status k := by
  obtain ⟨temps, pressure, rfl⟩ := h
  rfl

theorem panelOf (k : Fin 32) : u.panelOf k = s.panelOf k := by
  obtain ⟨temps, pressure, rfl⟩ := h
  rfl

theorem panelSlots (z : Fin 4) : u.panelSlots (u.overlapsZone z) = s.panelSlots (s.overlapsZone z) := by
  obtain ⟨temps, pressure, rfl⟩ := h
  rfl

theorem failedRolls (v : UnwindId) : (modifyUnwind v failedRoll u).rolls = (modifyUnwind v failedRoll s).rolls := by
  obtain ⟨temps, pressure, rfl⟩ := h
  cases v <;> rfl

theorem eq_update {t : State}
    (ht : t = { u with slots := t.slots, lg := t.lg, rolls := t.rolls, heat := t.heat, events := t.events }) :
    t = { s with slots := t.slots, lg := t.lg, rolls := t.rolls, heat := t.heat, events := t.events } := by
  obtain ⟨temps, pressure, rfl⟩ := h
  exact ht

end OnlyReadings

section

variable {s : State} (hquiet : QuietPS s) (z : Fin 4)

include hquiet

theorem scan_channel : (refresh (scanned s)).channel z = s.channel z := by
  rw [State.channel, scan_heat hquiet]
  rfl

theorem scan_temperature : (refresh (scanned s)).temperature z = s.temperature z := by
  rw [State.temperature, scan_channel hquiet, State.temperature]

theorem scan_headerPressure : (refresh (scanned s)).headerPressure = s.headerPressure := by
  rw [State.headerPressure, scan_heat hquiet]
  rfl

theorem scan_limits : (refresh (scanned s)).limits = s.limits := by rw [scan_eq_update hquiet]

end

/-- Settles O47: the channels are converted, the four zones tested with HEAT reported once, the stop timer steps, and
the reports are made as ReportsAreBroughtUpToDate says. -/
theorem scanConvertsAndTestsZones : Obligations.ScanConvertsAndTestsZones := by
  intro t1 t2 t3 t4 pressure s hquiet₀ hroll₀ raw enter
  have hchannel := scanChannels_channel t1 t2 t3 t4 pressure s
  have hpressure : (scanChannels t1 t2 t3 t4 pressure s).heat.pressure =
    some (enterFilter (convertPressure pressure.val) s.heat.pressure) := rfl
  have hreadings : OnlyReadings s (scanChannels t1 t2 t3 t4 pressure s) := ⟨_, _, rfl⟩
  refine ⟨_, exec_scan_eq t1 t2 t3 t4 pressure s, ?_⟩
  generalize scanChannels t1 t2 t3 t4 pressure s = u at hchannel hpressure hreadings ⊢
  have hquiet := hreadings.quiet hquiet₀
  have hroll := hreadings.roll hroll₀
  have hzone := hreadings.zone
  obtain ⟨hlg, hrolls, hinputs, hevents⟩ := hreadings.line
  obtain ⟨hrecipes, hswitch, hstopFired, hstopElapsed, hstopLimit⟩ := hreadings.heat
  have henter (v : Nat) (f : Option Filter) : enter v f = some (enterFilter v f) := by cases f <;> rfl
  intro cause holds limit runs faults leaves rises trips reference due
  have hcause (z : Fin 4) : u.faultCause z = cause z := by
    rw [faultCause_eq, ← scan_channel hquiet, ← scan_temperature hquiet, ← scan_limits hquiet]
  have hholds (z : Fin 4) : u.inBand z = holds z := by
    rw [inBand_eq, ← scan_temperature hquiet, ← scan_headerPressure hquiet, hzone]
    simp only [hreadings.recipe]
    rfl
  have hlimit (z : Fin 4) : u.settleLimit z = limit z := by
    rw [State.settleLimit, hzone]
    simp only [hreadings.recipe]
    rfl
  have hruns (z : Fin 4) : runs z ↔ (u.zone z).controlled = true := by rw [controlled_iff, hzone]
  have hfaults (z : Fin 4) : faults z ↔ u.faults z = true := by
    rw [faults_iff, hzone, hcause]
  have hleaves (z : Fin 4) : leaves z ↔ u.leavesBand z = true := by
    rw [leavesBand_iff, hzone, ← hfaults, hholds]
  have hrises (z : Fin 4) : rises z ↔ u.raisesZone z = true := by
    rw [raisesZone_iff, ← hfaults, ← hleaves]
  have hfaulty : (∃ z : Fin 4, faults z) ↔ ∃ z : Fin 4, u.faults z = true := exists_congr hfaults
  have htrips : trips ↔ u.tripsOnHeat = true := by
    rw [tripsOnHeat_iff, ← hfaulty, hlg]
  have hreference : (heatReported u).lg.reference = reference := by
    rw [heatReported_lg, hlg, hreadings.ceiling]
    exact if_congr (and_congr_left fun _ => htrips.symm) rfl rfl
  have hdue : due ↔ (ticked (testedZones u)).fires := by
    rw [scanned_fires_iff, hreference, hstopFired, hstopLimit, hstopElapsed]
    simp only [hzone]
    rfl
  refine ⟨fun z => ?_, ?_, ?_, ?_, fun z hz => ?_, fun hany hstate => ?_, fun hany hstate => ?_, fun _ hstate => ?_,
    fun hnone => ?_, ?_, fun h => ?_, fun h hpaste => ?_, fun h r hr hpaste => ?_, fun c hzoneClass hdwellClass => ?_,
    ?_, ?_, fun z hz => ?_, fun h => ?_, fun h => ?_, fun k => ?_, hreadings.eq_update (scan_eq_update hquiet)⟩
  · rw [scan_channel hquiet, hchannel, henter]
    rfl
  · rw [scan_heat hquiet, henter]
    exact hpressure
  · rw [scan_heat hquiet]
    exact hrecipes
  · rw [scan_heat hquiet]
    exact hswitch
  · rw [scan_zone_of_faults hquiet ((hfaults z).mp hz), hzone, hcause]
  · exact scan_line_of_trip hquiet hroll (htrips.mp ⟨hany, hstate⟩)
  · rw [← hlg] at hstate ⊢
    exact scan_line_of_tripped hquiet hroll (hfaulty.mp hany) hstate
  · rw [← hlg] at hstate ⊢
    exact scan_line_at_rest hquiet hroll hstate
  · rw [← hlg]
    exact scan_causes_of_sound hquiet hroll fun hany => not_exists.mpr hnone (hfaulty.mpr hany)
  · have hgovernor := scan_lg hquiet hroll htrips hfaulty
    rw [hreadings.ceiling, hlg, hinputs, hreadings.retested] at hgovernor
    exact hgovernor
  · rw [← hrolls]
    exact scan_rolls_of_no_trip hquiet (mt htrips.mpr h)
  · rw [← hrolls] at hpaste ⊢
    exact scan_rolls_of_trip hquiet (htrips.mp h) hpaste
  · rw [scan_rolls_of_paste hquiet (htrips.mp h) (hrolls ▸ hr) hpaste, hreadings.failedRolls]
    rfl
  · rw [scan_eventCount (scanned_lineAs u) (scanned_quiet hquiet) hzoneClass hdwellClass, hreadings.eventCount, hlg,
      hrolls]
    exact if_congr (by rw [htrips]) rfl rfl
  · rw [← hevents]
    exact (scan_masks hquiet).1
  · rw [← hevents]
    exact (scan_masks hquiet).2
  · rw [scan_zone_of_not_controlled hquiet (mt (hruns z).mpr hz), hzone]
  · rw [← hreadings.eventCount]
    exact scan_of_fires hquiet (hdue.mp h)
  · have hrests : ¬ (ticked (testedZones u)).fires := mt hdue.mpr h
    refine ⟨fun z hz hsound => ?_, ?_, ?_, fun k => ⟨?_, fun z => ?_⟩, ?_, ?_⟩
    · rw [scan_zone_of_sound hquiet hrests ((hruns z).mp hz) (mt (hfaults z).mpr hsound), hzone, hholds, hlimit]
      rfl
    · rw [scan_dwellCount hquiet hrests, hreadings.eventCount]
    · have hraises : u.raisesZone = fun z => decide (rises z) := funext fun z => by
        rw [Bool.eq_iff_iff, decide_eq_true_iff, hrises]
      rw [scan_zoneCount hquiet hrests, hreadings.eventCount, hraises]
      rfl
    · rw [← hreadings.status]
      exact (scan_marks hquiet hrests k).1
    · rw [(scan_marks hquiet hrests k).2 z, hreadings.status, hreadings.panelSlots]
      refine congrArg (Bool.or _) (Bool.eq_iff_iff.mpr ?_)
      rw [Bool.and_eq_true, Bool.and_eq_true, decide_eq_true_iff, decide_eq_true_iff, held_iff, hleaves]
    · rw [scan_stopFired_of_not_fires hquiet hrests, hstopFired]
    · rw [scan_stopElapsed_of_not_fires hquiet hrests, hreference, hstopFired, hstopElapsed]
  · rw [scan_panelOf hquiet, hreadings.panelOf]

end Sys2Proof.Machine
end

