-- ==== Sys2Proof/Proofs/RollsKept.lean ====
section
/-! PROOF. What the shared operations keep of the unwinds, the splice record and the plan (R152, R161, R166, R174). One
relation, `KeepsRolls`, is proved once for each of them. -/

namespace Sys2Proof.Machine

open Sys2Proof.Safety

-- One proof after the other: many short ones at once need more threads than the memory limit leaves room for.
set_option Elab.async false

/-! ### The invariant, by the splice record -/

/-- Two stands with no splice between them: neither PASTING nor CUTTING, one at most feeding, and a spinning roll only
beside a LOW one (R152). -/
def Apart (x y : UnwindState) : Prop :=
  x ≠ .pasting ∧ x ≠ .cutting ∧ y ≠ .pasting ∧ y ≠ .cutting ∧
  ¬ ((x = .running ∨ x = .low) ∧ (y = .running ∨ y = .low)) ∧
  (x = .spinning ∨ x = .matched → y = .low) ∧ (y = .spinning ∨ y = .matched → x = .low)

theorem Apart.symm {x y : UnwindState} (h : Apart x y) : Apart y x := by
  obtain ⟨hxp, hxc, hyp, hyc, hfeed, hx, hy⟩ := h
  exact ⟨hyp, hyc, hxp, hxc, fun h => hfeed h.symm, hy, hx⟩

/-- Two stands of which one is EMPTY, LOADED or SPENT and the other may be RUNNING or LOW as well. -/
theorem Apart.of_idle {x y : UnwindState} (hx : x = .empty ∨ x = .loaded ∨ x = .spent)
    (hy : y = .empty ∨ y = .loaded ∨ y = .spent ∨ y = .running ∨ y = .low) : Apart x y := by
  rcases hx with rfl | rfl | rfl <;> rcases hy with rfl | rfl | rfl | rfl | rfl <;> simp [Apart]

/-- What stands in the unwinds, as the splice record says. -/
def StandsFit (s : State) : Prop :=
  match s.rolls.splice with
  | none => Apart s.rolls.a.state s.rolls.b.state
  | some r => spliceFits s r

/-- A plan stands only with no splice, no seam in flight and no trip (R161). -/
def PlanFits (s : State) : Prop :=
  s.rolls.plan ≠ none → s.rolls.splice = none ∧ s.rolls.seam = none ∧ s.lg.lineState ≠ .tripped

/-- The unwinds of a splice record: the new roll PASTING, the old one LOW or CUTTING. -/
theorem spliceFits_states {s : State} {r : SpliceRecord} (h : spliceFits s r) : (s.unwind r.new).state = .pasting ∧
    ((s.unwind (otherStand r.new)).state = .low ∨ (s.unwind (otherStand r.new)).state = .cutting) := by
  obtain ⟨hnew, hpaste, hcut⟩ := h
  refine ⟨hnew, ?_⟩
  cases hphase : r.phase with
  | paste => exact .inl (hpaste hphase).1
  | cut => exact .inr (hcut hphase)

theorem rollInv_iff (s : State) : RollInv s ↔ StandsFit s ∧ PlanFits s := by
  unfold StandsFit
  constructor
  · rintro ⟨hweb, -, hspin, hnone, hsome, hplan⟩
    refine ⟨?_, hplan⟩
    cases hsplice : s.rolls.splice with
    | none =>
      obtain ⟨hap, hac⟩ := hnone hsplice .A
      obtain ⟨hbp, hbc⟩ := hnone hsplice .B
      exact ⟨hap, hac, hbp, hbc, fun ⟨ha, hb⟩ => hweb ⟨ha.imp_right .inl, hb.imp_right .inl⟩, hspin .A, hspin .B⟩
    | some r => exact hsome r hsplice
  · rintro ⟨hstands, hplan⟩
    cases hsplice : s.rolls.splice with
    | none =>
      rw [hsplice] at hstands
      obtain ⟨hap, hac, hbp, hbc, hfeed, ha, hb⟩ := hstands
      refine ⟨fun ⟨ha', hb'⟩ => ?_, fun ⟨ha', hb'⟩ => ?_, fun u => ?_, fun _ u => ?_,
        fun r hr => absurd (hsplice.symm.trans hr) (by simp), hplan⟩
      · exact hfeed ⟨ha'.imp_right (·.resolve_right hac), hb'.imp_right (·.resolve_right hbc)⟩
      · have hlow := ha (ha'.imp_right (·.resolve_right hap))
        rw [joining, hlow] at hb'
        simp at hb'
      · cases u
        · exact ha
        · exact hb
      · cases u
        · exact ⟨hap, hac⟩
        · exact ⟨hbp, hbc⟩
    | some r =>
      rw [hsplice] at hstands
      obtain ⟨hnew, hold⟩ := spliceFits_states hstands
      refine ⟨?_, ?_, fun u => ?_, fun hnone => absurd (hsplice.symm.trans hnone) (by simp),
        fun r' hr' => Option.some.inj (hsplice.symm.trans hr') ▸ hstands, hplan⟩
      all_goals
        cases hstand : r.new <;> rw [hstand] at hnew hold <;> simp only [otherStand, State.unwind] at hnew hold
      · rintro ⟨ha, -⟩
        simp [onWeb, hnew] at ha
      · rintro ⟨-, hb⟩
        simp [onWeb, hnew] at hb
      · rintro ⟨-, hb⟩
        rcases hold with h | h <;> simp [joining, h] at hb
      · rintro ⟨ha, -⟩
        rcases hold with h | h <;> simp [joining, h] at ha
      · cases u <;> rcases hold with h | h <;> simp [State.unwind, otherStand, hnew, h]
      · cases u <;> rcases hold with h | h <;> simp [State.unwind, otherStand, hnew, h]

/-! ### Reading the invariant -/

section

variable {s : State}

theorem stands_apart (h : RollInv s) (hsplice : s.rolls.splice = none) (u : UnwindId) :
    Apart (s.unwind u).state (s.unwind (otherStand u)).state := by
  have hstands := ((rollInv_iff s).mp h).1
  rw [StandsFit, hsplice] at hstands
  cases u
  · exact hstands
  · exact hstands.symm

theorem splice_fits (h : RollInv s) {r : SpliceRecord} (hsplice : s.rolls.splice = some r) : spliceFits s r := by
  have hstands := ((rollInv_iff s).mp h).1
  rwa [StandsFit, hsplice] at hstands

theorem plan_fits (h : RollInv s) : PlanFits s := ((rollInv_iff s).mp h).2

theorem no_plan_in_splice (h : RollInv s) {r : SpliceRecord} (hsplice : s.rolls.splice = some r) :
    s.rolls.plan = none :=
  not_not.mp fun hplan => absurd (hsplice.symm.trans (plan_fits h hplan).1) (by simp)

/-- Two stands apart and a plan that fits them. -/
theorem rollInv_of_apart (u : UnwindId) (hsplice : s.rolls.splice = none)
    (h : Apart (s.unwind u).state (s.unwind (otherStand u)).state)
    (hplan : s.rolls.plan ≠ none → s.rolls.seam = none ∧ s.lg.lineState ≠ .tripped) : RollInv s := by
  refine (rollInv_iff s).mpr ⟨?_, fun h => ⟨hsplice, hplan h⟩⟩
  rw [StandsFit, hsplice]
  cases u
  · exact h
  · exact h.symm

/-- A splice record that fits the unwinds, and no plan. -/
theorem rollInv_of_fits {r : SpliceRecord} (hsplice : s.rolls.splice = some r) (h : spliceFits s r)
    (hplan : s.rolls.plan = none) : RollInv s := by
  refine (rollInv_iff s).mpr ⟨?_, fun h => absurd hplan h⟩
  rw [StandsFit, hsplice]
  exact h

/-- A splice leaves no stand free. -/
theorem no_splice_of_idle (h : RollInv s) {u : UnwindId}
    (hidle : (s.unwind u).state = .empty ∨ (s.unwind u).state = .loaded ∨ (s.unwind u).state = .spent ∨
      (s.unwind u).state = .running ∨ (s.unwind u).state = .spinning ∨ (s.unwind u).state = .matched) :
    s.rolls.splice = none := by
  by_contra hsplice
  obtain ⟨r, hr⟩ := Option.ne_none_iff_exists'.mp hsplice
  obtain ⟨hnew, hold⟩ := spliceFits_states (splice_fits h hr)
  rcases eq_or_ne u r.new with rfl | hu
  · simp [hnew] at hidle
  · have hu : u = otherStand r.new := by
      revert hu
      cases u <;> cases r.new <;> simp [otherStand]
    rw [hu] at hidle
    rcases hold with h | h <;> simp [h] at hidle

end

/-! ### The relation -/

/-- Where the unwinds, the splice record and the plan fitted each other in `s`, they do in `t`. -/
def KeepsRolls (s t : State) : Prop := RollInv s → RollInv t

/-- From `s` to `t` UU stays as it is, and the line does not come to TRIPPED. -/
structure RollsStay (s t : State) : Prop where
  rolls : t.rolls = s.rolls := by simp
  line : t.lg.lineState = .tripped → s.lg.lineState = .tripped := by simp

theorem unwind_of_stands {s t : State} (ha : t.rolls.a = s.rolls.a) (hb : t.rolls.b = s.rolls.b) (u : UnwindId) :
    t.unwind u = s.unwind u := by
  cases u
  · exact ha
  · exact hb

/-- The stands keep their states and the splice its record; the plan is dropped, or stays with the seam in flight. -/
theorem keepsRolls_of_states {s t : State} (hstates : ∀ u, (t.unwind u).state = (s.unwind u).state)
    (hsplice : t.rolls.splice = s.rolls.splice)
    (hplan : t.rolls.plan = none ∨ t.rolls.plan = s.rolls.plan ∧ t.rolls.seam = s.rolls.seam)
    (hline : t.lg.lineState = .tripped → s.lg.lineState = .tripped) : KeepsRolls s t := by
  intro h
  refine (rollInv_iff t).mpr ⟨?_, fun hsome => ?_⟩
  · cases hnow : s.rolls.splice with
    | none =>
      have happart := stands_apart h hnow .A
      rw [StandsFit, hsplice, hnow]
      rwa [← hstates, ← hstates] at happart
    | some r =>
      rw [StandsFit, hsplice, hnow]
      obtain ⟨hnew, hpaste, hcut⟩ := splice_fits h hnow
      simp only [spliceFits, hstates]
      exact ⟨hnew, fun hphase => (hpaste hphase).imp_right fun h => ⟨h.1, mt hline h.2⟩, hcut⟩
  · obtain ⟨hsame, hseam⟩ := hplan.resolve_left hsome
    rw [hsame] at hsome
    rw [hsplice, hseam]
    exact (plan_fits h hsome).imp_right fun h => ⟨h.1, mt hline h.2⟩

theorem RollsStay.keepsRolls {s t : State} (h : RollsStay s t) : KeepsRolls s t := by
  obtain ⟨hrolls, hline⟩ := h
  refine keepsRolls_of_states (fun u => ?_) (by rw [hrolls]) (.inr ⟨by rw [hrolls], by rw [hrolls]⟩) hline
  rw [unwind_of_stands (congrArg Rolls.a hrolls) (congrArg Rolls.b hrolls)]

namespace KeepsRolls

theorem refl (s : State) : KeepsRolls s s := id

theorem trans {s t u : State} (h : KeepsRolls s t) (k : KeepsRolls t u) : KeepsRolls s u := k ∘ h

theorem foldl {α : Type} {op : State → α → State} (h : ∀ s a, KeepsRolls s (op s a)) (l : List α) (s : State) :
    KeepsRolls s (l.foldl op s) := by
  induction l generalizing s with
  | nil => exact refl s
  | cons a l ih => exact (h s a).trans (ih (op s a))

end KeepsRolls

/-! ### Updates that leave UU and the trip alone -/

theorem raise_keepsRolls (c : EventClass) (s : State) : KeepsRolls s (raise c s) := RollsStay.keepsRolls {}
theorem modifyStatus_keepsRolls (k : Fin 32) (f : SlotStatus → SlotStatus) (s : State) :
    KeepsRolls s (modifyStatus k f s) := RollsStay.keepsRolls {}
theorem setInputs_keepsRolls (i : Inputs) (s : State) : KeepsRolls s { s with inputs := i } := RollsStay.keepsRolls {}
theorem setBlade_keepsRolls (b : Blade) (s : State) : KeepsRolls s { s with blade := b } := RollsStay.keepsRolls {}
theorem setPs_keepsRolls (p : Sequencer) (s : State) : KeepsRolls s { s with ps := p } := RollsStay.keepsRolls {}
theorem setRu_keepsRolls (r : Registrar) (s : State) : KeepsRolls s { s with ru := r } := RollsStay.keepsRolls {}
theorem setPc_keepsRolls (p : PositionCounters) (s : State) : KeepsRolls s { s with pc := p } := RollsStay.keepsRolls {}
theorem setHeat_keepsRolls (h : HeatUnit) (s : State) : KeepsRolls s { s with heat := h } := RollsStay.keepsRolls {}
theorem noteRace_keepsRolls (s : State) : KeepsRolls s (noteRace s) := RollsStay.keepsRolls {}
theorem setBar_keepsRolls (b : BarState) (s : State) : KeepsRolls s (setBar b s) := RollsStay.keepsRolls {}
theorem setRecords_keepsRolls (rs : List TrackRecord) (s : State) : KeepsRolls s (setRecords rs s) :=
  RollsStay.keepsRolls {}
theorem withLink_keepsRolls (l : LinkInterface) (s : State) : KeepsRolls s (withLink l s) := RollsStay.keepsRolls {}
theorem entryTest_keepsRolls (k : Fin 32) (s : State) (z : Fin 4) : KeepsRolls s (entryTest k s z) :=
  RollsStay.keepsRolls {}
theorem retireSlot_keepsRolls (k : Fin 32) (s : State) : KeepsRolls s (retireSlot k s) := RollsStay.keepsRolls {}
theorem starveTest_keepsRolls (s : State) : KeepsRolls s (starveTest s) :=
  RollsStay.keepsRolls { line := by rw [starveTest_lg]; exact id }
theorem fireStopTimer_keepsRolls (s : State) : KeepsRolls s (fireStopTimer s) := RollsStay.keepsRolls {}
theorem checkStopTimer_keepsRolls (s : State) : KeepsRolls s (checkStopTimer s) := RollsStay.keepsRolls {}
theorem resumeTest_keepsRolls (s : State) : KeepsRolls s (resumeTest s) := RollsStay.keepsRolls {}
theorem generate_keepsRolls (n : Nat) (s : State) : KeepsRolls s (generate n s) := RollsStay.keepsRolls {}
theorem checkGarment_keepsRolls (k : Fin 32) (s : State) : KeepsRolls s (checkGarment k s) := RollsStay.keepsRolls {}
theorem toSetting_keepsRolls (k : Fin 32) (s : State) : KeepsRolls s (toSetting k s) := RollsStay.keepsRolls {}
theorem countMissed_keepsRolls (r : StrokeRecord) (s : State) : KeepsRolls s (countMissed r s) :=
  RollsStay.keepsRolls {}
theorem fireStroke_keepsRolls (r : StrokeRecord) (s : State) : KeepsRolls s (fireStroke r s) := RollsStay.keepsRolls {}
theorem countSkipped_keepsRolls (k : Fin 32) (n : Nat) (s : State) : KeepsRolls s (countSkipped k n s) :=
  RollsStay.keepsRolls {}

/-- A change of the line that does not trip it. -/
theorem setLine_keepsRolls {g : Governor} {s : State} (h : g.lineState = .tripped → s.lg.lineState = .tripped) :
    KeepsRolls s { s with lg := g } := RollsStay.keepsRolls { line := h }

theorem clampReference_keepsRolls (s : State) : KeepsRolls s (clampReference s) :=
  RollsStay.keepsRolls
    { line := by
        rw [clampReference_lg]
        dsimp only
        split
        · nofun
        · exact id }

theorem switchZone_keepsRolls (z : Fin 4) (r : Fin 8) (s : State) : KeepsRolls s (switchZone z r s) := by
  have switched : KeepsRolls s (switchRecord z r s) := RollsStay.keepsRolls {}
  unfold switchZone
  split
  · exact .refl s
  · exact (switched.trans (clampReference_keepsRolls _)).trans (checkStopTimer_keepsRolls _)

theorem switchAllZones_keepsRolls (r : Fin 8) (s : State) : KeepsRolls s (switchAllZones r s) := by
  have each (t : State) (z : Fin 4) : KeepsRolls t (if (t.zone z).recipe = some r then t else switchRecord z r t) := by
    split
    · exact .refl t
    · exact RollsStay.keepsRolls {}
  unfold switchAllZones
  split
  · exact .refl s
  · exact ((KeepsRolls.foldl each allZones s).trans (clampReference_keepsRolls _)).trans (checkStopTimer_keepsRolls _)

/-! ### The freeze (R95, R101, R102) -/

theorem stopLine_keepsRolls (s : State) : KeepsRolls s (stopLine s) :=
  setLine_keepsRolls (by split <;> nofun)

theorem takeDeferredStop_keepsRolls (s : State) : KeepsRolls s (takeDeferredStop s) := by
  unfold takeDeferredStop
  split
  · exact (setLine_keepsRolls id).trans (stopLine_keepsRolls _)
  · exact .refl s

theorem spliceOver_keepsRolls (s : State) : KeepsRolls s (spliceOver s) := by
  have unfreeze : KeepsRolls s { s with lg := { s.lg with freeze := none, hold := s.inputs.takeOffHold } } :=
    setLine_keepsRolls id
  have lifted : KeepsRolls s (liftFreeze s) := unfreeze.trans (starveTest_keepsRolls _)
  unfold spliceOver
  split
  · exact .refl s
  · exact (lifted.trans (takeDeferredStop_keepsRolls _)).trans (clampReference_keepsRolls _)

/-! ### The plan and the splice (R161 to R171) -/

theorem evaluatePlanning_eq (s : State) : evaluatePlanning s = { s with
    rolls := { s.rolls with plan := if s.mayPlan = true then s.planFor else s.rolls.plan } } := by
  unfold evaluatePlanning
  split <;> rfl

theorem mayPlan_iff (s : State) : s.mayPlan = true ↔
    s.geometry.valid = true ∧ s.lg.lineState ≠ .tripped ∧
      ((s.rolls.a.state = .low ∧ s.rolls.b.state = .matched) ∨ (s.rolls.b.state = .low ∧ s.rolls.a.state = .matched)) ∧
      s.rolls.plan = none ∧ s.rolls.splice = none ∧ s.rolls.seam = none := by
  simp only [State.mayPlan, State.splicePair, Bool.and_eq_true, Bool.or_eq_true, beq_iff_eq, bne_iff_ne,
    Option.isNone_iff_eq_none, and_assoc]

/-- A new plan, or none, on the same unwinds. -/
theorem setPlan_rollInv {s : State} {p : Option SplicePlan} (h : RollInv s)
    (hplan : p ≠ none → s.rolls.splice = none ∧ s.rolls.seam = none ∧ s.lg.lineState ≠ .tripped) :
    RollInv { s with rolls := { s.rolls with plan := p } } :=
  (rollInv_iff _).mpr ⟨((rollInv_iff s).mp h).1, hplan⟩

theorem evaluatePlanning_keepsRolls (s : State) : KeepsRolls s (evaluatePlanning s) := by
  intro h
  rw [evaluatePlanning_eq]
  refine setPlan_rollInv h fun hplan => ?_
  split at hplan
  · next hmay =>
    obtain ⟨-, hline, -, -, hsplice, hseam⟩ := (mayPlan_iff s).mp hmay
    exact ⟨hsplice, hseam, hline⟩
  · exact plan_fits h hplan

theorem dropPlan_keepsRolls (s : State) : KeepsRolls s (dropPlan s) :=
  fun h => setPlan_rollInv h fun hplan => absurd rfl hplan

/-- A splice fires: the new roll PASTING, the plan gone, the record in PASTE, and the reference frozen unless the line
is TRIPPED or a freeze stands (R166, R101). -/
theorem fireSplice_eq (kind : SpliceKind) (new : UnwindId) (s : State) :
    let y := modifyUnwind new (fun u => { u with state := .pasting, matchCount := 0 }) s
    fireSplice kind new s = { y with
      rolls := { y.rolls with
        plan := none
        splice := some { new := new, kind := kind, position := s.pc.webPosition, phase := .paste, time := 0,
                         timeout := s.geometry.given.pasteTimeout, overdue := false } }
      lg := { s.lg with
        freeze := if s.lg.lineState = .tripped ∨ s.lg.freeze ≠ none then s.lg.freeze else some s.lg.reference } } := by
  have hfreeze (t : State) : freezeSpeed t = { t with lg := { t.lg with
      freeze := if t.lg.lineState = .tripped ∨ t.lg.freeze ≠ none then t.lg.freeze else some t.lg.reference } } := by
    unfold freezeSpeed
    split
    · next htripped => rw [if_pos (.inl htripped)]
    · next hfreeze _ => rw [if_pos (.inr (by simp [hfreeze]))]
    · next hnone hline => rw [if_neg (not_or_intro hline (not_not_intro hnone))]
  simp only [fireSplice, hfreeze, modifyUnwind_lg]

theorem fireSplice_unwind (kind : SpliceKind) (new u : UnwindId) (s : State) : (fireSplice kind new s).unwind u =
    (modifyUnwind new (fun v => { v with state := .pasting, matchCount := 0 }) s).unwind u := by
  rw [fireSplice_eq]
  exact unwind_of_stands rfl rfl u

/-- A splice fires on a MATCHED roll, with no splice under way on a line that is not TRIPPED (R164, R165). -/
theorem fireSplice_rollInv {kind : SpliceKind} {new : UnwindId} {s : State} (h : RollInv s)
    (hmatched : (s.unwind new).state = .matched) (hsplice : s.rolls.splice = none)
    (hline : s.lg.lineState ≠ .tripped) : RollInv (fireSplice kind new s) := by
  obtain ⟨-, -, -, -, -, hlow, -⟩ := stands_apart h hsplice new
  have hold : (s.unwind (otherStand new)).state = .low := hlow (.inr hmatched)
  refine rollInv_of_fits (by rw [fireSplice_eq]) ⟨?_, fun _ => ⟨?_, rfl, ?_⟩, fun hcut => SplicePhase.noConfusion hcut⟩
    (by rw [fireSplice_eq])
  · rw [fireSplice_unwind, unwind_modifyUnwind_same]
  · rw [fireSplice_unwind, unwind_modifyUnwind_otherStand, hold]
  · rw [fireSplice_eq]
    exact hline

/-- The rolls once a paste is abandoned (R168, R169). -/
theorem abandoned_rollInv {s t : State} {r : SpliceRecord} (h : RollInv s) (hsplice : s.rolls.splice = some r)
    (hpaste : r.phase = .paste)
    (hrolls : t.rolls = { (modifyUnwind r.new failedRoll s).rolls with plan := none, splice := none }) : RollInv t := by
  obtain ⟨hnew, hold, -⟩ := splice_fits h hsplice
  have hlow := (hold hpaste).1
  have hunwind (u : UnwindId) : t.unwind u = (modifyUnwind r.new failedRoll s).unwind u :=
    unwind_of_stands (by rw [hrolls]) (by rw [hrolls]) u
  refine rollInv_of_apart r.new (by rw [hrolls]) ?_ fun hplan => absurd (by rw [hrolls]) hplan
  rw [hunwind, hunwind, unwind_modifyUnwind_same, unwind_modifyUnwind_otherStand, hlow]
  exact .of_idle (.inr (.inl rfl)) (.inr (.inr (.inr (.inr rfl))))

/-- A trip drops the plan; a cut outlasts it (R163, R169). -/
theorem planless_rollInv {s t : State} (h : RollInv s) (hpaste : s.pasteRecord = none)
    (hrolls : t.rolls = { s.rolls with plan := none }) : RollInv t := by
  have hunwind (u : UnwindId) : t.unwind u = s.unwind u := unwind_of_stands (by rw [hrolls]) (by rw [hrolls]) u
  refine (rollInv_iff t).mpr ⟨?_, fun hplan => absurd (by rw [hrolls]) hplan⟩
  cases hsplice : s.rolls.splice with
  | none =>
    rw [StandsFit, hrolls, hsplice]
    exact stands_apart h hsplice .A
  | some r =>
    obtain ⟨hnew, -, hcut⟩ := splice_fits h hsplice
    have hphase : r.phase ≠ .paste := fun hp =>
      absurd (hpaste.symm.trans (pasteRecord_eq_some_iff.mpr ⟨hsplice, hp⟩)) (by simp)
    rw [StandsFit, hrolls, hsplice]
    simp only [spliceFits, hunwind]
    exact ⟨hnew, fun hp => absurd hp hphase, hcut⟩

theorem reportCause_keepsRolls (c : Cause) (s : State) : KeepsRolls s (reportCause c s) := by
  cases htaken : s.takesCause c with
  | false =>
    rw [reportCause_of_not_taken htaken]
    exact .refl s
  | true =>
    by_cases htripped : s.lg.lineState = .tripped
    · rw [reportCause_of_tripped c htripped]
      exact setLine_keepsRolls fun _ => htripped
    · intro h
      have hrolls : (reportCause c s).rolls = (enterTripped c s).rolls := by rw [reportCause_of_trip htaken htripped]
      rw [enterTripped_rolls] at hrolls
      cases hpaste : s.pasteRecord with
      | none => exact planless_rollInv h hpaste (hrolls.trans (by rw [hpaste]))
      | some r =>
        obtain ⟨hsplice, hphase⟩ := pasteRecord_eq_some_iff.mp hpaste
        exact abandoned_rollInv h hsplice hphase (hrolls.trans (by rw [hpaste]))

theorem failPaste_rollInv {r : SpliceRecord} {s : State} (h : RollInv s) (hsplice : s.rolls.splice = some r)
    (hpaste : r.phase = .paste) : RollInv (failPaste r s) := by
  have hplan := no_plan_in_splice h hsplice
  refine abandoned_rollInv h hsplice hpaste ?_
  cases hnew : r.new <;> simp [failPaste, modifyUnwind, hnew, hplan]

theorem completePaste_unwind (r : SpliceRecord) (u : UnwindId) (s : State) : (completePaste r s).unwind u =
    (modifyUnwind (otherStand r.new) (fun v => { v with state := .cutting }) s).unwind u := unwind_of_stands rfl rfl u

theorem modifyUnwind_plan (u : UnwindId) (f : Unwind → Unwind) (s : State) :
    (modifyUnwind u f s).rolls.plan = s.rolls.plan := by cases u <;> rfl

/-- A paste completed puts the splice in CUT (R167). -/
theorem completePaste_rollInv {r : SpliceRecord} {s : State} (h : RollInv s) (hsplice : s.rolls.splice = some r) :
    RollInv (completePaste r s) := by
  obtain ⟨hnew, -, -⟩ := splice_fits h hsplice
  have hplan : (completePaste r s).rolls.plan = none := (modifyUnwind_plan _ _ s).trans (no_plan_in_splice h hsplice)
  refine rollInv_of_fits rfl ⟨?_, nofun, fun _ => ?_⟩ hplan
  · rw [completePaste_unwind, unwind_modifyUnwind_other (otherStand_ne r.new).symm, hnew]
  · rw [completePaste_unwind, unwind_modifyUnwind_same]

theorem endCut_unwind (r : SpliceRecord) (u : UnwindId) (s : State) : (endCut r s).unwind u =
    (modifyUnwind r.new splicedRoll
      (modifyUnwind (otherStand r.new) (fun v => { v with state := .spent }) s)).unwind u :=
  unwind_of_stands rfl rfl u

/-- A splice that ends leaves a RUNNING roll beside a SPENT one (R170, R171). -/
theorem endCut_rollInv {r : SpliceRecord} {s : State} (h : RollInv s) (hsplice : s.rolls.splice = some r) :
    RollInv (endCut r s) := by
  have hplan : (endCut r s).rolls.plan = none :=
    (modifyUnwind_plan _ _ _).trans ((modifyUnwind_plan _ _ s).trans (no_plan_in_splice h hsplice))
  refine rollInv_of_apart r.new rfl ?_ fun hne => absurd hplan hne
  rw [endCut_unwind, endCut_unwind, unwind_modifyUnwind_same, unwind_modifyUnwind_otherStand, unwind_modifyUnwind_same]
  exact Apart.symm (.of_idle (.inr (.inr rfl)) (.inr (.inr (.inr (.inl rfl)))))

end Sys2Proof.Machine
end

