-- ==== Sys2Proof/Proofs/RollOperations.lean ====
section
/-! PROOF. What the schedule, the tracking queue, the marks and the encoders keep of the unwinds, the splice record and
the plan. -/

namespace Sys2Proof.Machine

open Sys2Proof.Safety

-- One proof after the other: many short ones at once need more threads than the memory limit leaves room for.
set_option Elab.async false

/-! ### The tracking queue (R117 to R126) -/

theorem aimUnderSet_keepsRolls (z : Fin 4) (k : Fin 32) (s : State) : KeepsRolls s (aimUnderSet z k s) :=
  RollsStay.keepsRolls {}

theorem setTu_keepsRolls (t : Tracker) (s : State) : KeepsRolls s { s with tu := t } := RollsStay.keepsRolls {}

theorem switchFor_keepsRolls (x : TrackRecord) (zs : List (Fin 4)) (s : State) : KeepsRolls s (switchFor x zs s) := by
  cases x with
  | panel k head tail => exact .refl s
  | seam b r switched => exact .foldl (fun t z => switchZone_keepsRolls z r t) zs s

theorem forceOut_keepsRolls (x : TrackRecord) (s : State) : KeepsRolls s (forceOut x s) := by
  cases x with
  | panel k head tail =>
    exact (KeepsRolls.foldl (fun t z => aimUnderSet_keepsRolls z k t) _ s).trans (retireSlot_keepsRolls k _)
  | seam b r switched => exact switchFor_keepsRolls (.seam b r switched) _ s

theorem makeRoom_keepsRolls (s : State) : KeepsRolls s (makeRoom s) := by
  unfold makeRoom
  split
  · exact .refl s
  · dsimp only
    split
    · exact (forceOut_keepsRolls _ s).trans (setTu_keepsRolls _ _)
    · exact .refl s

theorem openRecord_keepsRolls (k : Fin 32) (s : State) : KeepsRolls s (openRecord k s) :=
  ((makeRoom_keepsRolls s).trans (setRecords_keepsRolls _ _)).trans (.foldl (entryTest_keepsRolls k) _ _)

theorem addSeam_keepsRolls (r : Fin 8) (s : State) : KeepsRolls s (addSeam r s) :=
  ((makeRoom_keepsRolls s).trans (setRecords_keepsRolls _ _)).trans (switchFor_keepsRolls _ _ _)

theorem entriesForward_keepsRolls (s : State) (x : TrackRecord) : KeepsRolls s (entriesForward s x) := by
  cases x with
  | panel k head tail => exact .foldl (entryTest_keepsRolls k) _ s
  | seam b r switched => exact .refl s

theorem entriesReverse_keepsRolls (s : State) (x : TrackRecord) : KeepsRolls s (entriesReverse s x) := by
  match x with
  | .panel k _ (some _) => exact .foldl (entryTest_keepsRolls k) _ s
  | .panel _ _ none => exact .refl s
  | .seam _ _ _ => exact .refl s

theorem leaveAtTakeOff_keepsRolls (s : State) (x : TrackRecord) : KeepsRolls s (leaveAtTakeOff s x) := by
  cases x with
  | panel k head tail => exact retireSlot_keepsRolls k s
  | seam b r switched => exact .refl s

theorem trackForward_keepsRolls (s : State) : KeepsRolls s (trackForward s) := by
  have entered : KeepsRolls s (s.tu.records.foldl entriesForward s) := .foldl entriesForward_keepsRolls _ s
  have switched (t : State) : KeepsRolls t (switchSeams t) :=
    (KeepsRolls.foldl (fun u x => switchFor_keepsRolls x _ u) t.tu.records t).trans (setRecords_keepsRolls _ _)
  have retired (t : State) : KeepsRolls t (retireAtTakeOff t) :=
    (KeepsRolls.foldl leaveAtTakeOff_keepsRolls _ t).trans (setRecords_keepsRolls _ _)
  exact (entered.trans (switched _)).trans (retired _)

/-! ### The blade and the panel boundaries (R59 to R68) -/

theorem toActive_keepsRolls (k : Fin 32) (s : State) : KeepsRolls s (toActive k s) :=
  (modifyStatus_keepsRolls k _ s).trans (openRecord_keepsRolls k _)

theorem dealStroke_keepsRolls (r : StrokeRecord) (s : State) : KeepsRolls s (dealStroke r s) := by
  have missed (t : State) : KeepsRolls t (missOne t) := by
    unfold missOne
    split
    · exact setBlade_keepsRolls _ t
    · exact (setBlade_keepsRolls _ t).trans (reportCause_keepsRolls _ _)
  unfold dealStroke
  split
  · exact countMissed_keepsRolls r s
  · split
    · exact fireStroke_keepsRolls r s
    · exact ((countMissed_keepsRolls r s).trans (raise_keepsRolls _ _)).trans (missed _)

theorem reachStroke_keepsRolls (s : State) : KeepsRolls s (reachStroke s) := by
  have left (r : StrokeRecord) (rest : List StrokeRecord) :=
    (setPs_keepsRolls { s.ps with strokes := rest } s).trans (dealStroke_keepsRolls r _)
  unfold reachStroke
  split
  · exact .refl s
  · split
    · unfold strokeReached
      dsimp only
      split
      · exact (left _ _).trans (toSetting_keepsRolls _ _)
      · exact left _ _
    · exact .refl s

theorem reachFlatEnd_keepsRolls (s : State) : KeepsRolls s (reachFlatEnd s) := by
  unfold reachFlatEnd
  split
  · exact toSetting_keepsRolls _ s
  · exact .refl s

theorem reachStart_keepsRolls (s : State) : KeepsRolls s (reachStart s) := by
  unfold reachStart
  repeat' split
  · exact toActive_keepsRolls _ s
  · exact .refl s
  · exact .refl s

theorem reachBoundaries_keepsRolls (s : State) : KeepsRolls s (reachBoundaries s) :=
  ((reachStroke_keepsRolls s).trans (reachFlatEnd_keepsRolls _)).trans (reachStart_keepsRolls _)

/-! ### The schedule (R45 to R52, R85 to R88) -/

theorem finishCommit_keepsRolls (k : Fin 32) (start : Nat) (reg : Registered) (s : State) :
    KeepsRolls s (finishCommit k start reg s) := by
  have set : KeepsRolls s (placed k start reg s) := by
    rw [placed, placePanel_eq]
    exact ((modifyStatus_keepsRolls k _ s).trans (setPs_keepsRolls _ _)).trans (starveTest_keepsRolls _)
  rw [finishCommit_eq]
  split
  · exact (set.trans (toActive_keepsRolls k _)).trans (evaluatePlanning_keepsRolls _)
  · exact set.trans (evaluatePlanning_keepsRolls _)

theorem commitSlot_keepsRolls (k : Fin 32) (s : State) : KeepsRolls s (commitSlot k s) :=
  (checkGarment_keepsRolls k s).trans (finishCommit_keepsRolls _ _ _ _)

theorem setUpSearch_keepsRolls (k : Fin 32) (part : RegistrationPart) (s : State) :
    KeepsRolls s (setUpSearch k part s) := by
  have searched : KeepsRolls s { s with
      ps := { s.ps with search := some (searchFor k part s) }
      ru := { s.ru with marks := (setUpWalk k part s).1 } } := RollsStay.keepsRolls {}
  have setUp : KeepsRolls s (searchSetUp k part s) :=
    ((searched.trans (checkGarment_keepsRolls k _)).trans (modifyStatus_keepsRolls k _ _)).trans
      (countSkipped_keepsRolls k _ _)
  cases hmark : (setUpWalk k part s).2.2 with
  | none =>
    rw [setUpSearch_of_no_mark hmark]
    exact setUp
  | some mk =>
    rw [setUpSearch_of_mark hmark]
    exact setUp.trans (finishCommit_keepsRolls _ _ _ _)

theorem takeSlot_keepsRolls (s : State) : KeepsRolls s (takeSlot s) := by
  unfold takeSlot
  split
  · exact commitSlot_keepsRolls _ s
  · exact setUpSearch_keepsRolls _ _ s

theorem reachLoss_keepsRolls (s : State) : KeepsRolls s (reachLoss s) := by
  unfold reachLoss
  repeat' split
  · exact (raise_keepsRolls _ s).trans (finishCommit_keepsRolls _ _ _ _)
  · exact .refl s
  · exact .refl s

theorem takeReady_keepsRolls (n : Nat) (s : State) : KeepsRolls s (takeReady n s) := by
  induction n generalizing s with
  | zero => exact .refl s
  | succ n ih =>
    unfold takeReady
    split
    · exact (takeSlot_keepsRolls s).trans (ih _)
    · exact .refl s

theorem refresh_keepsRolls (s : State) : KeepsRolls s (refresh s) :=
  have settled := ((starveTest_keepsRolls s).trans (takeReady_keepsRolls 32 _)).trans
    (generate_keepsRolls strokeCapacity _)
  have held := (settled.trans (resumeTest_keepsRolls _)).trans (clampReference_keepsRolls _)
  have rested (t : State) : KeepsRolls t (restStopTimer t) := RollsStay.keepsRolls {}
  (held.trans (rested _)).trans (setLine_keepsRolls id)

/-! ### Marks and groups (R79 to R84) -/

theorem offerMark_keepsRolls (mk : Mark) (s : State) : KeepsRolls s (offerMark mk s) := by
  have queued : KeepsRolls s (queueMark mk s) := by
    unfold queueMark
    split
    · exact raise_keepsRolls _ s
    · exact setRu_keepsRolls _ s
  have judged (r : SearchRecord) : KeepsRolls s (judgeMark r mk s) := by
    unfold judgeMark
    split
    · exact finishCommit_keepsRolls _ _ _ s
    · exact countSkipped_keepsRolls _ _ s
  unfold offerMark
  repeat' split
  · exact judged _
  · exact queued
  · exact queued

theorem screenMark_keepsRolls (mk : Mark) (s : State) : KeepsRolls s (screenMark mk s) := by
  have seen := setRu_keepsRolls { s.ru with lastMark := some mk.m } s
  by_cases hnew : ∀ l ∈ s.ru.lastMark, l < mk.m
  · rw [screenMark_of_new hnew]
    split
    · exact seen.trans (raise_keepsRolls _ _)
    · exact seen.trans (offerMark_keepsRolls mk _)
  · push Not at hnew
    obtain ⟨l, hl, hle⟩ := hnew
    rw [screenMark_of_read hl hle]
    exact .refl s

theorem judgeGroup_keepsRolls (g : Group) (s : State) : KeepsRolls s (judgeGroup g s) := by
  unfold judgeGroup
  repeat' split
  · exact raise_keepsRolls _ s
  · exact screenMark_keepsRolls _ s
  · exact .refl s

/-- The bar state moved, and a group judged with it. -/
theorem setBar_judgeGroup_keepsRolls (b : BarState) (g : Group) (s : State) :
    KeepsRolls s (judgeGroup g (setBar b s)) := (setBar_keepsRolls b s).trans (judgeGroup_keepsRolls g _)

theorem leadingEdge_keepsRolls (s : State) : KeepsRolls s (leadingEdge s) := by
  unfold leadingEdge
  dsimp only
  repeat' split
  · exact setBar_keepsRolls _ s
  · exact setBar_judgeGroup_keepsRolls _ _ s
  · exact setBar_keepsRolls _ s
  · exact .refl s
  · exact .refl s

theorem trailingEdge_keepsRolls (s : State) : KeepsRolls s (trailingEdge s) := by
  have ended (lead : Nat) (group : Option Group) : KeepsRolls s (endBar lead group s) := by
    unfold endBar
    dsimp only
    repeat' split
    · exact setBar_keepsRolls _ s
    · exact setBar_judgeGroup_keepsRolls _ _ s
    · exact setBar_keepsRolls _ s
    · exact setBar_keepsRolls _ s
  unfold trailingEdge
  split
  · exact ended _ _
  · exact setBar_keepsRolls _ s
  · exact .refl s
  · exact .refl s

theorem reachGroupEnd_keepsRolls (s : State) : KeepsRolls s (reachGroupEnd s) := by
  unfold reachGroupEnd
  repeat' split
  · exact setBar_judgeGroup_keepsRolls _ _ s
  all_goals exact .refl s

/-! ### Counts of the encoders (R3 to R6) -/

theorem inEitherOrder_keepsRolls {first second : State → State} (hfirst : ∀ s, KeepsRolls s (first s))
    (hsecond : ∀ s, KeepsRolls s (second s)) (meet : Bool) (s : State) :
    KeepsRolls s (inEitherOrder meet first second s) := by
  rcases inEitherOrder_cases meet first second s with h | h | h <;> rw [h]
  · exact ((hsecond s).trans (hfirst _)).trans (noteRace_keepsRolls _)
  · exact ((hfirst s).trans (hsecond _)).trans (noteRace_keepsRolls _)
  · exact (hfirst s).trans (hsecond _)

theorem reachExpiry_keepsRolls (s : State) : KeepsRolls s (reachExpiry s) := by
  have expired (t : State) : KeepsRolls t (expireMarks t) := setRu_keepsRolls _ t
  have ready (t : State) : KeepsRolls t (setUpReady t) := by
    unfold setUpReady
    split
    · exact takeSlot_keepsRolls t
    · exact .refl t
  unfold reachExpiry
  repeat' split
  · exact ((noteRace_keepsRolls s).trans (ready _)).trans (expired _)
  · exact (noteRace_keepsRolls s).trans (expired _)
  · exact expired s

theorem reachLastEnd_keepsRolls (rising : Bool) (s : State) : KeepsRolls s (reachLastEnd rising s) := by
  unfold reachLastEnd
  repeat' split
  · exact RollsStay.keepsRolls {}
  · exact .refl s

/-- The seam in flight is gone (R174). -/
theorem clearSeam_keepsRolls (s : State) : KeepsRolls s { s with rolls := { s.rolls with seam := none } } := by
  intro h
  refine (rollInv_iff _).mpr ⟨((rollInv_iff s).mp h).1, fun hplan => ?_⟩
  obtain ⟨hsplice, -, hline⟩ := plan_fits h hplan
  exact ⟨hsplice, rfl, hline⟩

theorem markSeamPanels_keepsRolls (s : State) : KeepsRolls s (markSeamPanels s) :=
  .foldl (fun _ _ => RollsStay.keepsRolls {}) _ s

theorem reachSeam_keepsRolls (s : State) : KeepsRolls s (reachSeam s) := by
  unfold reachSeam
  repeat' split
  · exact .refl s
  · exact (((markSeamPanels_keepsRolls s).trans (addSeam_keepsRolls _ _)).trans (clearSeam_keepsRolls _)).trans
      (evaluatePlanning_keepsRolls _)
  · exact .refl s

theorem matchedRoll_state {s : State} {u : UnwindId} (h : s.matchedRoll = some u) : (s.unwind u).state = .matched := by
  unfold State.matchedRoll at h
  split at h
  · next hmatched =>
    cases h
    exact hmatched
  · split at h
    · next hmatched =>
      cases h
      exact hmatched
    · cases h

/-- A plan fires with no splice under way and on a line that is not TRIPPED (R161, R164). -/
theorem reachFire_keepsRolls (s : State) : KeepsRolls s (reachFire s) := by
  unfold reachFire
  split
  · exact .refl s
  · next p hplan =>
    split
    · split
      · next new hnew =>
        intro h
        obtain ⟨hsplice, -, hline⟩ := plan_fits h (by simp [hplan])
        exact fireSplice_rollInv h (matchedRoll_state hnew) hsplice hline
      · exact dropPlan_keepsRolls s
    · exact .refl s

theorem reachWebPosition_keepsRolls (rising : Bool) (s : State) : KeepsRolls s (reachWebPosition rising s) := by
  unfold reachWebPosition
  exact (inEitherOrder_keepsRolls reachGroupEnd_keepsRolls
    (fun t => ((reachExpiry_keepsRolls t).trans (reachLoss_keepsRolls _)).trans
      (reachLastEnd_keepsRolls rising _)) _ s).trans
    (inEitherOrder_keepsRolls
      (fun t => inEitherOrder_keepsRolls reachBoundaries_keepsRolls reachSeam_keepsRolls _ t)
      reachFire_keepsRolls _ _)

theorem webForward_keepsRolls (s : State) : KeepsRolls s (webForward s) := by
  unfold webForward
  split
  · exact .refl s
  · exact ((setPc_keepsRolls _ s).trans (starveTest_keepsRolls _)).trans (reachWebPosition_keepsRolls _ _)

theorem webReverse_keepsRolls (s : State) : KeepsRolls s (webReverse s) := by
  have back (p : PositionCounters) : KeepsRolls s (discardGroup { s with pc := p }) := by
    rw [discardGroup_eq]
    exact (setPc_keepsRolls p s).trans (setRu_keepsRolls _ _)
  unfold webReverse
  split
  · exact .refl s
  · dsimp only
    split
    · exact (back _).trans (reportCause_keepsRolls _ _)
    · exact back _

theorem beltForward_keepsRolls (s : State) : KeepsRolls s (beltForward s) := by
  unfold beltForward
  split
  · exact .refl s
  · exact (setPc_keepsRolls _ s).trans (trackForward_keepsRolls _)

theorem beltReverse_keepsRolls (s : State) : KeepsRolls s (beltReverse s) := by
  unfold beltReverse
  split
  · exact .refl s
  · exact (setPc_keepsRolls _ s).trans (.foldl entriesReverse_keepsRolls _ _)

theorem countEncoder_keepsRolls (e : Encoder) (forward : Bool) (s : State) :
    KeepsRolls s (countEncoder e forward s) := by
  match e, forward with
  | .web, true => exact webForward_keepsRolls s
  | .web, false => exact webReverse_keepsRolls s
  | .belt, true => exact beltForward_keepsRolls s
  | .belt, false => exact beltReverse_keepsRolls s

theorem setPair_keepsRolls (e : Encoder) (p : ChannelPair) (s : State) : KeepsRolls s (setPair e p s) :=
  RollsStay.keepsRolls {}

end Sys2Proof.Machine
end

