-- ==== Sys2Proof/Proofs/RollChanges.lean ====
section
/-! PROOF. What the revolution markers, the confirms, the timeouts and the roll requests keep of the unwinds, the splice
record and the plan (R153 to R173). -/

namespace Sys2Proof.Machine

open Sys2Proof.Safety

-- One proof after the other: many short ones at once need more threads than the memory limit leaves room for.
set_option Elab.async false

/-! ### The stand beside another -/

/-- Beside a stand that is not LOW no roll spins. -/
theorem Apart.not_spinning {x y : UnwindState} (h : Apart x y) (hx : x ≠ .low) :
    y = .empty ∨ y = .loaded ∨ y = .spent ∨ y = .running ∨ y = .low := by
  obtain ⟨-, -, hyp, hyc, -, -, hspin⟩ := h
  cases y <;> simp_all

/-- Beside a feeding roll there is none. -/
theorem Apart.not_feeding {x y : UnwindState} (h : Apart x y) (hx : x = .running ∨ x = .low) :
    y = .empty ∨ y = .loaded ∨ y = .spent ∨ y = .spinning ∨ y = .matched := by
  obtain ⟨-, -, hyp, hyc, hfeed, -, -⟩ := h
  cases y <;> simp_all

/-- A stand is changed where there is no splice, and the two stand apart again. -/
theorem modifyUnwind_rollInv {u : UnwindId} {f : Unwind → Unwind} {s : State} (h : RollInv s)
    (hsplice : s.rolls.splice = none) (happart : Apart (f (s.unwind u)).state (s.unwind (otherStand u)).state) :
    RollInv (modifyUnwind u f s) := by
  refine rollInv_of_apart u ?_ ?_ fun hplan => ?_
  · cases u <;> exact hsplice
  · rwa [unwind_modifyUnwind_same, unwind_modifyUnwind_otherStand]
  · rw [modifyUnwind_plan] at hplan
    obtain ⟨-, hseam, hline⟩ := plan_fits h hplan
    rw [modifyUnwind_lg]
    exact ⟨by cases u <;> exact hseam, hline⟩

/-- A change of a stand that is not one of its state. -/
theorem modifyUnwind_keepsRolls {u : UnwindId} {f : Unwind → Unwind} (hf : ∀ w, (f w).state = w.state) (s : State) :
    KeepsRolls s (modifyUnwind u f s) := by
  refine keepsRolls_of_states (fun v => ?_) (by cases u <;> rfl) (.inr ⟨by cases u <;> rfl, by cases u <;> rfl⟩)
    (by simp)
  by_cases hv : v = u
  · rw [hv, unwind_modifyUnwind_same, hf]
  · rw [unwind_modifyUnwind_other hv]

/-! ### The feeding roll (R155 to R158, R165) -/

/-- A RUNNING roll becomes LOW, and a LOADED one beside it SPINNING. -/
theorem openWindow_rollInv {u : UnwindId} {s : State} (h : RollInv s) (hrunning : (s.unwind u).state = .running) :
    RollInv (openWindow u s) := by
  have hsplice := no_splice_of_idle h (.inr (.inr (.inr (.inl hrunning))))
  have happart := stands_apart h hsplice u
  rw [hrunning] at happart
  have hother := happart.not_feeding (.inl rfl)
  have hspin := happart.not_spinning (by simp)
  have hlow : RollInv (modifyUnwind u (fun w => { w with state := .low }) s) := by
    refine modifyUnwind_rollInv h hsplice (Apart.symm ?_)
    rcases hother with hx | hx | hx | hx | hx <;> simp [hx] at hspin <;> simp [hx, Apart]
  refine evaluatePlanning_keepsRolls _ (modifyUnwind_rollInv (raise_keepsRolls .rollLow _ hlow) ?_ ?_)
  · rw [raise_rolls]
    cases u <;> exact hsplice
  · have hunwind (v : UnwindId) (t : State) : (raise .rollLow t).unwind v = t.unwind v := by simp [State.unwind]
    simp only [hunwind, otherStand_otherStand, unwind_modifyUnwind_same, unwind_modifyUnwind_otherStand]
    rcases hother with hx | hx | hx | hx | hx <;> simp [hx] at hspin <;> simp [spunUp, hx, Apart]

/-- UU once the feeding roll on stand u has run out, before ROLL-OUT is reported (R158). -/
def ranOut (u : UnwindId) (s : State) : State :=
  dropPlan (modifyUnwind (otherStand u) spunDown (modifyUnwind u (fun w => { w with state := .spent }) s))

theorem runOut_eq (u : UnwindId) (s : State) : runOut u s = reportCause .rollOut (ranOut u s) := rfl

theorem ranOut_unwind (u : UnwindId) (s : State) : (ranOut u s).unwind u = { s.unwind u with state := .spent } ∧
    (ranOut u s).unwind (otherStand u) = spunDown (s.unwind (otherStand u)) := by cases u <;> exact ⟨rfl, rfl⟩

theorem ranOut_rest (u : UnwindId) (s : State) : (ranOut u s).rolls.splice = s.rolls.splice ∧
    (ranOut u s).rolls.plan = none ∧ (ranOut u s).rolls.seam = s.rolls.seam ∧
    (ranOut u s).rolls.microTimer = s.rolls.microTimer ∧ (ranOut u s).lg = s.lg ∧
    (ranOut u s).events = s.events := by cases u <;> exact ⟨rfl, rfl, rfl, rfl, rfl, rfl⟩

/-- A roll that runs out in a paste trips the line, which abandons the paste (R158, R169). -/
theorem trip_in_paste_rollInv {c : Cause} {s : State} {r : SpliceRecord} (htaken : s.takesCause c = true)
    (hline : s.lg.lineState ≠ .tripped) (hpaste : s.pasteRecord = some r)
    (hother : (s.unwind (otherStand r.new)).state = .spent) : RollInv (reportCause c s) := by
  have hrolls : (reportCause c s).rolls = { (modifyUnwind r.new failedRoll s).rolls with
      plan := none, splice := none } := by
    rw [reportCause_of_trip htaken hline]
    exact (enterTripped_rolls c s).trans (by rw [hpaste])
  have hunwind (u : UnwindId) : (reportCause c s).unwind u = (modifyUnwind r.new failedRoll s).unwind u :=
    unwind_of_stands (by rw [hrolls]) (by rw [hrolls]) u
  refine rollInv_of_apart r.new (by rw [hrolls]) ?_ fun hplan => absurd (by rw [hrolls]) hplan
  rw [hunwind, hunwind, unwind_modifyUnwind_same, unwind_modifyUnwind_otherStand, hother]
  exact .of_idle (.inr (.inl rfl)) (.inr (.inr (.inl rfl)))

theorem runOut_rollInv {u : UnwindId} {s : State} (h : RollInv s)
    (hfeeds : (s.unwind u).state = .running ∨ (s.unwind u).state = .low) : RollInv (runOut u s) := by
  obtain ⟨hstand, hother⟩ := ranOut_unwind u s
  have hspent : ((ranOut u s).unwind u).state = .spent := by rw [hstand]
  obtain ⟨hsplice, hplan, -, -, hlg, -⟩ := ranOut_rest u s
  rw [runOut_eq]
  cases hnow : s.rolls.splice with
  | none =>
    refine reportCause_keepsRolls _ _ (rollInv_of_apart u (hsplice.trans hnow) ?_ fun hne => absurd hplan hne)
    rw [hspent, hother]
    refine .of_idle (.inr (.inr rfl)) ?_
    rcases (stands_apart h hnow u).not_feeding hfeeds with hx | hx | hx | hx | hx <;> simp [spunDown, hx]
  | some r =>
    obtain ⟨hnew, hpaste, hcut⟩ := splice_fits h hnow
    have hu : u = otherStand r.new := by
      have hne : u ≠ r.new := by
        rintro rfl
        simp [hnew] at hfeeds
      revert hne
      cases u <;> cases r.new <;> simp [otherStand]
    have hphase : r.phase = .paste := by
      cases hphase : r.phase with
      | paste => rfl
      | cut => simp [hu, hcut hphase] at hfeeds
    exact trip_in_paste_rollInv rfl (hlg ▸ (hpaste hphase).2.2)
      (pasteRecord_eq_some_iff.mpr ⟨hsplice.trans hnow, hphase⟩) (hu ▸ hspent)

theorem compareDiameter_rollInv {u : UnwindId} {before estimate : Nat} {s : State} (h : RollInv s)
    (hfeeds : (s.unwind u).state = .running ∨ (s.unwind u).state = .low) :
    RollInv (compareDiameter u before estimate s) := by
  unfold compareDiameter
  dsimp only
  split
  · exact runOut_rollInv h hfeeds
  · split
    · unfold forcedSplice
      split
      · exact h
      next hsplice =>
      split
      · exact reportCause_keepsRolls _ s h
      next hline =>
      split
      · exact reportCause_keepsRolls _ s h
      split
      · next hmatched =>
        exact fireSplice_rollInv h hmatched (Option.not_isSome_iff_eq_none.mp hsplice) hline
      · exact reportCause_keepsRolls _ s h
    · exact h

theorem openWindow_state (u : UnwindId) (s : State) : ((openWindow u s).unwind u).state = .low := by
  unfold openWindow
  rw [evaluatePlanning_eq]
  cases u <;> simp [State.unwind, modifyUnwind, otherStand]

theorem acceptCount_rollInv {u : UnwindId} {nRev : Nat} {s : State} (h : RollInv s)
    (hfeeds : (s.unwind u).state = .running ∨ (s.unwind u).state = .low) : RollInv (acceptCount u nRev s) := by
  rw [acceptCount]
  generalize hf : (fun w : Unwind => { w with
    lastRev := some nRev, diameter := min (diameterOf nRev s.geometry.given.s) 15000 }) = f
  have hsame (w : Unwind) : (f w).state = w.state := hf ▸ rfl
  have hkept : RollInv (modifyUnwind u f s) := modifyUnwind_keepsRolls hsame s h
  have hstate : ((modifyUnwind u f s).unwind u).state = (s.unwind u).state := by
    rw [unwind_modifyUnwind_same, hsame]
  split
  · next hopen =>
    exact compareDiameter_rollInv (openWindow_rollInv hkept (hstate.trans hopen.1)) (.inr (openWindow_state u _))
  · exact compareDiameter_rollInv hkept (hstate ▸ hfeeds)

theorem feedEdge_rollInv {u : UnwindId} {s : State} (h : RollInv s)
    (hfeeds : (s.unwind u).state = .running ∨ (s.unwind u).state = .low) : RollInv (feedEdge u s) := by
  unfold feedEdge
  dsimp only
  have captured : RollInv (modifyUnwind u (fun w => { w with lastCapture := some s.pc.webPosition }) s) :=
    modifyUnwind_keepsRolls (by intro w; rfl) s h
  repeat' split
  · exact captured
  · exact captured
  · exact captured
  · exact acceptCount_rollInv captured (by rwa [unwind_modifyUnwind_same])

/-! ### The spinning roll (R159, R160) -/

theorem judgedRoll_state (pass : Bool) {w : Unwind} (h : w.state = .spinning ∨ w.state = .matched) :
    (judgedRoll pass w).state = .spinning ∨ (judgedRoll pass w).state = .matched := by
  unfold judgedRoll
  split
  · split <;> simp_all
  · exact h
  · split <;> simp_all
  · exact h
  · exact h

theorem judgeRevolution_rollInv {u : UnwindId} {tRev : Nat} {s : State} (h : RollInv s)
    (hspins : (s.unwind u).state = .spinning ∨ (s.unwind u).state = .matched) :
    RollInv (judgeRevolution u tRev s) := by
  have hsplice := no_splice_of_idle h (u := u) (by rcases hspins with h | h <;> simp [h])
  obtain ⟨-, -, -, -, -, hlow, -⟩ := stands_apart h hsplice u
  have judged (pass : Bool) : RollInv (modifyUnwind u (judgedRoll pass) s) := by
    refine modifyUnwind_rollInv h hsplice ?_
    rw [hlow hspins]
    rcases judgedRoll_state pass hspins with h | h <;> simp [h, Apart]
  unfold judgeRevolution
  dsimp only
  split
  · exact evaluatePlanning_keepsRolls _ (judged _)
  · exact judged _

theorem spinEdge_rollInv {u : UnwindId} {s : State} (h : RollInv s)
    (hspins : (s.unwind u).state = .spinning ∨ (s.unwind u).state = .matched) : RollInv (spinEdge u s) := by
  have captured : RollInv (modifyUnwind u (fun w => { w with lastCapture := some s.rolls.microTimer }) s) :=
    modifyUnwind_keepsRolls (by intro w; rfl) s h
  unfold spinEdge
  dsimp only
  repeat' split
  · exact captured
  · exact h
  · exact judgeRevolution_rollInv captured (by rwa [unwind_modifyUnwind_same])

theorem markerEdge_keepsRolls (u : UnwindId) (s : State) : KeepsRolls s (markerEdge u s) := by
  unfold markerEdge
  split
  · exact .refl s
  · split
    case h_1 hstate => exact fun h => feedEdge_rollInv h (.inl hstate)
    case h_2 hstate => exact fun h => feedEdge_rollInv h (.inr hstate)
    case h_3 hstate => exact fun h => spinEdge_rollInv h (.inl hstate)
    case h_4 hstate => exact fun h => spinEdge_rollInv h (.inr hstate)
    all_goals exact .refl s

/-! ### Paste and cut (R167 to R173) -/

theorem spliceIn_eq_some_iff {s : State} {p : SplicePhase} {r : SpliceRecord} :
    s.spliceIn p = some r ↔ s.rolls.splice = some r ∧ r.phase = p := by
  simp [State.spliceIn, Option.filter_eq_some_iff]

theorem confirmCut_rollInv {r : SpliceRecord} {s : State} (h : RollInv s) (hsplice : s.rolls.splice = some r) :
    RollInv (confirmCut r s) := by
  have ended := endCut_rollInv h hsplice
  unfold confirmCut
  split
  · exact ended
  · exact raise_keepsRolls _ _ (spliceOver_keepsRolls _ ended)

theorem overdueCut_rollInv {r : SpliceRecord} {s : State} (h : RollInv s) (hsplice : s.rolls.splice = some r)
    (hcut : r.phase = .cut) : RollInv (overdueCut r s) := by
  obtain ⟨hnew, -, hold⟩ := splice_fits h hsplice
  have hplan := no_plan_in_splice h hsplice
  refine reportCause_keepsRolls _ _ (raise_keepsRolls _ _ ?_)
  refine rollInv_of_fits rfl ⟨hnew, fun hpaste => ?_, hold⟩ hplan
  exact absurd (hcut.symm.trans hpaste) (by decide)

/-! ### ROLL-READY and ROLL-REMOVED (R153, R154) -/

/-- A roll on an EMPTY stand: RUNNING where the other stand does not feed, SPINNING beside a LOW roll, LOADED
otherwise. -/
theorem mountRoll_rollInv {u : UnwindId} {diameter threaded : Nat} {recipe : Fin 8} {s : State} (h : RollInv s)
    (hempty : (s.unwind u).state = .empty)
    (hfree : ¬ (threaded = 1 ∧ (s.unwind (otherStand u)).feeds = true)) :
    RollInv (mountRoll u diameter recipe threaded s) := by
  have hsplice := no_splice_of_idle h (.inl hempty)
  have happart := stands_apart h hsplice u
  rw [hempty] at happart
  have hother := happart.not_spinning (by simp)
  have mounted : RollInv (modifyUnwind u (fun _ =>
      { state := readyState threaded (s.unwind (otherStand u)).state, recipe := recipe, diameter := diameter,
        lastCapture := none, lastRev := none, matchCount := 0 }) s) := by
    refine modifyUnwind_rollInv h hsplice ?_
    dsimp only
    unfold readyState
    split
    · next hthreaded =>
      have hnot : ¬ ((s.unwind (otherStand u)).state = .running ∨ (s.unwind (otherStand u)).state = .low) :=
        fun hfeeds => hfree ⟨hthreaded, (feeds_iff _).mpr hfeeds⟩
      refine (Apart.of_idle ?_ (.inr (.inr (.inr (.inl rfl))))).symm
      rcases hother with hx | hx | hx | hx | hx <;> simp [hx] at hnot ⊢
    · split
      · next hlow => simp [hlow, Apart]
      · exact .of_idle (.inr (.inl rfl)) hother
  unfold mountRoll
  dsimp only
  split
  · exact evaluatePlanning_keepsRolls _ mounted
  · exact mounted

theorem removedRoll_rollInv {u : UnwindId} {s : State} (h : RollInv s)
    (hidle : (s.unwind u).state = .loaded ∨ (s.unwind u).state = .spent) :
    RollInv (modifyUnwind u removedRoll s) := by
  have hsplice := no_splice_of_idle h (u := u) (by rcases hidle with h | h <;> simp [h])
  refine modifyUnwind_rollInv h hsplice (.of_idle (.inl rfl) ?_)
  exact (stands_apart h hsplice u).not_spinning (by rcases hidle with h | h <;> simp [h])

/-! ### LINE-RESET and the power-on reset (R193, R194) -/

theorem clearRolls_keepsRolls (s : State) : KeepsRolls s (clearRolls s) := by
  have ended : KeepsRolls s (endOverdueCut s) := by
    unfold endOverdueCut
    split
    · next r hr => exact fun h => endCut_rollInv h hr
    · exact .refl s
  have huncaptured (w : Unwind) : (uncaptured w).state = w.state := by
    unfold uncaptured
    split <;> rfl
  refine ended.trans (keepsRolls_of_states (fun u => ?_) rfl (.inl rfl) id)
  cases u
  · exact huncaptured _
  · exact huncaptured _

theorem coldStart_rollInv (p : PowerOnSamples) (s : State) : RollInv (coldStart p s) :=
  rollInv_of_apart .A rfl (by simp [coldStart, coldState, State.unwind, otherStand, emptyUnwind, Apart])
    fun hplan => absurd rfl hplan

/-! ### One millisecond (R166, R171) -/

/-- The splice's time goes on; its record stays as it is otherwise. -/
theorem spliceTick_rest (r : SpliceRecord) :
    (spliceTick r).new = r.new ∧ (spliceTick r).phase = r.phase ∧ (spliceTick r).overdue = r.overdue := by
  unfold spliceTick
  split <;> exact ⟨rfl, rfl, rfl⟩

theorem tick_keepsRolls (s : State) : KeepsRolls s (tick s) := by
  intro h
  cases hsplice : s.rolls.splice with
  | none =>
    refine rollInv_of_apart .A (by simp [tick, hsplice]) (stands_apart h hsplice .A) fun hplan => ?_
    exact (plan_fits h hplan).2
  | some r =>
    obtain ⟨hnew, hphase, hoverdue⟩ := spliceTick_rest r
    have hplan := no_plan_in_splice h hsplice
    refine rollInv_of_fits (s := tick s) (r := spliceTick r) (by simp [tick, hsplice]) ?_ hplan
    rw [spliceFits, hnew, hphase, hoverdue]
    exact splice_fits h hsplice

end Sys2Proof.Machine
end

