-- ==== Sys2Proof/Proofs/RollSteps.lean ====
section
/-! PROOF. Every request, every command and every step keeps the unwinds, the splice record and the plan fitting each
other (StepKeepsRolls). -/

namespace Sys2Proof.Machine

open Sys2Proof.Safety

-- One proof after the other: many short ones at once need more threads than the memory limit leaves room for.
set_option Elab.async false

/-! ### Requests -/

/-- A change, with the reports brought up to date after it. -/
theorem KeepsRolls.refreshed {s t : State} (h : KeepsRolls s t) : KeepsRolls s (refresh t) :=
  h.trans (refresh_keepsRolls t)

theorem setEvents_keepsRolls (e : EventUnit) (s : State) : KeepsRolls s { s with events := e } :=
  RollsStay.keepsRolls {}

theorem modifyZone_keepsRolls (z : Fin 4) (f : Zone → Zone) (s : State) : KeepsRolls s (modifyZone z f s) :=
  RollsStay.keepsRolls {}

theorem serveSetGeometry_keepsRolls (g : GeometryFields) (s : State) : KeepsRolls s (serveSetGeometry g s).1 := by
  have stored : KeepsRolls s (storeGeometry g s) :=
    RollsStay.keepsRolls
      { line := by
          dsimp only [storeGeometry]
          split
          · nofun
          · exact id
        rolls := rfl }
  have cleared (t : State) : KeepsRolls t (clearOldCounts t) :=
    keepsRolls_of_states (fun u => by cases u <;> rfl) rfl (.inl rfl) id
  have checked (t : State) : KeepsRolls t (restartReverseCheck t) := by
    unfold restartReverseCheck
    split
    · exact reportCause_keepsRolls .reverse t
    · exact .refl t
  unfold serveSetGeometry
  repeat' split
  · exact .refl s
  · exact .refl s
  · exact ((stored.trans (cleared _)).trans (checked _)).refreshed

theorem serveSetLimits_keepsRolls (maxTemp maxSpeed minDwell : Nat) (s : State) :
    KeepsRolls s (serveSetLimits maxTemp maxSpeed minDwell s).1 := by
  unfold serveSetLimits
  repeat' split
  · exact .refl s
  · exact .refl s
  · exact (RollsStay.keepsRolls {}).refreshed

theorem serveSetRecipe_keepsRolls (r : RecipeFields) (s : State) : KeepsRolls s (serveSetRecipe r s).1 := by
  have stored (i : Fin 8) (x : Recipe) : KeepsRolls s (setRecipe i x s) := RollsStay.keepsRolls {}
  unfold serveSetRecipe
  dsimp only
  repeat' split
  · exact .refl s
  · exact .refl s
  · exact .refl s
  · exact .refl s
  · exact (stored _ _).refreshed
  · exact .refl s

theorem serveSetZoneTuning_keepsRolls (zone kp ki : Nat) (s : State) :
    KeepsRolls s (serveSetZoneTuning zone kp ki s).1 := by
  rw [serveSetZoneTuning_eq]
  repeat' split
  · exact .refl s
  · exact .refl s
  · exact .refl s
  · exact modifyZone_keepsRolls _ _ s

theorem serveSetMarkCode_keepsRolls (entry enabled count code mask : Nat) (s : State) :
    KeepsRolls s (serveSetMarkCode entry enabled count code mask s).1 := by
  unfold serveSetMarkCode
  repeat' split
  case isFalse => exact setRu_keepsRolls _ s
  all_goals exact .refl s

theorem serveSetEventMask_keepsRolls (mask classes : Nat) (s : State) :
    KeepsRolls s (serveSetEventMask mask classes s).1 := by
  unfold serveSetEventMask
  dsimp only
  repeat' split
  · exact .refl s
  · exact setEvents_keepsRolls _ s
  · exact setEvents_keepsRolls _ s

theorem serveLoadPanel_keepsRolls (slot : Nat) (p : PanelFields) (s : State) :
    KeepsRolls s (serveLoadPanel slot p s).1 := by
  have loaded (k : Fin 32) (r : PanelRecord) : KeepsRolls s (loadSlot k r s) := by
    have stored (x : Slot) : KeepsRolls s (setSlot k x s) := RollsStay.keepsRolls {}
    unfold loadSlot
    dsimp only
    split
    · exact (stored _).trans (evaluatePlanning_keepsRolls _)
    · exact stored _
  unfold serveLoadPanel
  repeat' split
  · exact .refl s
  · exact .refl s
  · exact .refl s
  · exact .refl s
  · exact (loaded _ _).refreshed
  · exact .refl s

theorem freeSlot_keepsRolls (k : Fin 32) (s : State) : KeepsRolls s (refresh (freeSlot k s)) :=
  (modifyStatus_keepsRolls k _ s).refreshed

theorem serveCancelPanel_keepsRolls (slot : Nat) (s : State) : KeepsRolls s (serveCancelPanel slot s).1 := by
  unfold serveCancelPanel
  repeat' split
  · exact freeSlot_keepsRolls _ s
  · exact .refl s
  · exact .refl s

theorem serveReleasePanel_keepsRolls (slot : Nat) (s : State) : KeepsRolls s (serveReleasePanel slot s).1 := by
  unfold serveReleasePanel
  repeat' split
  · exact freeSlot_keepsRolls _ s
  · exact .refl s
  · exact .refl s

theorem serveStart_keepsRolls (s : State) : KeepsRolls s (serveStart s).1 := by
  have started : KeepsRolls s (refresh (startLine s)) :=
    ((setLine_keepsRolls (by nofun)).trans (.foldl (fun t z => modifyZone_keepsRolls z _ t) allZones _)).refreshed
  rw [serveStart_eq]
  repeat' split
  case isFalse.isFalse.isFalse.isTrue | isFalse.isFalse.isFalse.isFalse.isFalse.isFalse.isFalse => exact started
  all_goals exact .refl s

theorem serveStop_keepsRolls (s : State) : KeepsRolls s (serveStop s).1 := by
  rw [serveStop, stopEffect_eq]
  repeat' split
  · exact (stopLine_keepsRolls s).refreshed
  · exact setLine_keepsRolls id
  · exact .refl s

theorem serveSetSpeed_keepsRolls (speed : Nat) (s : State) : KeepsRolls s (serveSetSpeed speed s).1 := by
  unfold serveSetSpeed
  split
  · exact .refl s
  · exact (setLine_keepsRolls (s := s) (by exact id)).refreshed

theorem serveClearTrip_keepsRolls (s : State) : KeepsRolls s (serveClearTrip s).1 := by
  unfold serveClearTrip
  split
  · next hmay =>
    obtain ⟨htripped, -, -, -, -⟩ := (mayClearTrip_iff s).mp hmay
    have left (g : Governor) (b : Blade) : KeepsRolls s { s with lg := g, blade := b } :=
      RollsStay.keepsRolls { line := fun _ => htripped }
    exact ((left _ _).trans (evaluatePlanning_keepsRolls _)).refreshed
  · exact .refl s

theorem serveLineReset_keepsRolls (s : State) : KeepsRolls s (serveLineReset s).1 := by
  have cleared : KeepsRolls s (clearProduction s) := RollsStay.keepsRolls { rolls := rfl, line := id }
  have switched (t : State) : KeepsRolls t (switchToFeeding t) := by
    unfold switchToFeeding
    split
    · exact switchAllZones_keepsRolls _ t
    · exact .refl t
  have reset : KeepsRolls s (lineReset s) := by
    rw [lineReset]
    exact (cleared.trans (clearRolls_keepsRolls _)).trans (switched _)
  unfold serveLineReset
  split
  · exact reset.refreshed
  · exact .refl s

theorem serveHeatOn_keepsRolls (s : State) : KeepsRolls s (serveHeatOn s).1 := by
  have heated (r : Fin 8) : KeepsRolls s (heatOn r s) :=
    (setHeat_keepsRolls _ s).trans (.foldl (fun t z => modifyZone_keepsRolls z _ t) allZones _)
  unfold serveHeatOn
  repeat' split
  · exact .refl s
  · exact .refl s
  · exact .refl s
  · exact (heated _).refreshed

theorem leaveIfInBand_keepsRolls (before : ZoneState) (z : Fin 4) (s : State) :
    KeepsRolls s (leaveIfInBand before z s) := RollsStay.keepsRolls {}

theorem serveHeatOff_keepsRolls (s : State) : KeepsRolls s (serveHeatOff s).1 := by
  have left : KeepsRolls s (allZones.foldl (fun t z => leaveIfInBand (t.zone z).state z t) s) :=
    .foldl (fun t z => leaveIfInBand_keepsRolls _ z t) allZones s
  have cooled (t : State) : KeepsRolls t (allZones.foldl (fun u z => modifyZone z heatlessZone u) t) :=
    .foldl (fun u z => modifyZone_keepsRolls z _ u) allZones t
  have off : KeepsRolls s (heatOff s) := (left.trans (cooled _)).trans (setHeat_keepsRolls _ _)
  unfold serveHeatOff
  dsimp only
  split
  · exact off.refreshed
  · exact .refl s

theorem serveRollReady_keepsRolls (unwind diameter recipe threaded : Nat) (s : State) :
    KeepsRolls s (serveRollReady unwind diameter recipe threaded s).1 := by
  unfold serveRollReady
  split
  · exact .refl s
  split
  · exact .refl s
  next hempty =>
  split
  · exact .refl s
  split
  · exact .refl s
  next hfree =>
  split
  · exact .refl s
  · have mounted : KeepsRolls s (mountRoll _ diameter (Fin.ofNat 8 recipe) threaded s) :=
      fun h => mountRoll_rollInv h (not_not.mp hempty) hfree
    exact mounted.refreshed

theorem serveRollRemoved_keepsRolls (unwind : Nat) (s : State) : KeepsRolls s (serveRollRemoved unwind s).1 := by
  unfold serveRollRemoved
  split
  · exact .refl s
  · split
    case h_1 hloaded => exact fun h => removedRoll_rollInv h (.inl hloaded)
    case h_2 hspent => exact fun h => removedRoll_rollInv h (.inr hspent)
    all_goals exact .refl s

theorem serveReadLink_keepsRolls (clear : Nat) (s : State) : KeepsRolls s (serveReadLink clear s).1 := by
  unfold serveReadLink
  repeat' split
  · exact .refl s
  · exact withLink_keepsRolls _ s
  · exact .refl s

theorem serveAckEvents_keepsRolls (classes : Nat) (s : State) : KeepsRolls s (serveAckEvents classes s).1 := by
  unfold serveAckEvents
  split
  · exact setEvents_keepsRolls _ s
  · exact .refl s

theorem serveReadPanel_keepsRolls (slot : Nat) (s : State) : KeepsRolls s (serveReadPanel slot s).1 := by
  unfold serveReadPanel
  split <;> exact .refl s

theorem serveReadHeat_keepsRolls (recipe : Nat) (s : State) : KeepsRolls s (serveReadHeat recipe s).1 := by
  unfold serveReadHeat
  split <;> exact .refl s

theorem serveReadTracking_keepsRolls (index : Nat) (s : State) : KeepsRolls s (serveReadTracking index s).1 := by
  unfold serveReadTracking
  repeat' split
  all_goals exact .refl s

theorem serveReadEvents_keepsRolls (index : Nat) (s : State) : KeepsRolls s (serveReadEvents index s).1 := by
  unfold serveReadEvents
  repeat' split
  all_goals exact .refl s

theorem serve_keepsRolls (r : Request) (s : State) : KeepsRolls s (serve r s).1 := by
  cases r with
  | identify | readRing | readLine | readRolls => exact .refl s
  | readLink clear => exact serveReadLink_keepsRolls clear s
  | setLimits t v d => exact serveSetLimits_keepsRolls t v d s
  | setGeometry g => exact serveSetGeometry_keepsRolls g s
  | setRecipe r => exact serveSetRecipe_keepsRolls r s
  | setZoneTuning z kp ki => exact serveSetZoneTuning_keepsRolls z kp ki s
  | setMarkCode e n c k m => exact serveSetMarkCode_keepsRolls e n c k m s
  | setEventMask m c => exact serveSetEventMask_keepsRolls m c s
  | loadPanel k p => exact serveLoadPanel_keepsRolls k p s
  | cancelPanel k => exact serveCancelPanel_keepsRolls k s
  | releasePanel k => exact serveReleasePanel_keepsRolls k s
  | readPanel k => exact serveReadPanel_keepsRolls k s
  | start => exact serveStart_keepsRolls s
  | stop => exact serveStop_keepsRolls s
  | setSpeed v => exact serveSetSpeed_keepsRolls v s
  | trip => exact (reportCause_keepsRolls _ s).refreshed
  | clearTrip => exact serveClearTrip_keepsRolls s
  | lineReset => exact serveLineReset_keepsRolls s
  | heatOn => exact serveHeatOn_keepsRolls s
  | heatOff => exact serveHeatOff_keepsRolls s
  | readHeat r => exact serveReadHeat_keepsRolls r s
  | rollReady u d r t => exact serveRollReady_keepsRolls u d r t s
  | rollRemoved u => exact serveRollRemoved_keepsRolls u s
  | readTracking i => exact serveReadTracking_keepsRolls i s
  | readEvents i => exact serveReadEvents_keepsRolls i s
  | ackEvents c => exact serveAckEvents_keepsRolls c s

theorem acceptRequest_keepsRolls (src : Source) (r : Request) (s : State) :
    KeepsRolls s (acceptRequest src r (serve r) s) := by
  obtain ⟨l, hdeliver⟩ := deliver_eq_withLink src r.kind (serve r (countAccepted s))
  rw [acceptRequest, hdeliver]
  exact ((withLink_keepsRolls _ s).trans (serve_keepsRolls r _)).trans (withLink_keepsRolls l _)

/-! ### The commands of the inputs and the timers -/

/-- Where an outcome gives a next state, the unwinds, the splice record and the plan fit each other in it. -/
def KeepsRollsIn (s : State) (o : Host.Outcome State Fault Refusal) : Prop := ∀ t, o = .next t → KeepsRolls s t

theorem KeepsRolls.next {s t : State} (h : KeepsRolls s t) : KeepsRollsIn s (.next t) := by
  rintro _ ⟨⟩
  exact h

theorem KeepsRollsIn.refl (s : State) : KeepsRollsIn s (.next s) := (KeepsRolls.refl s).next

/-- The inputs, the blade and the events are no part of UU. -/
theorem setAside_keepsRolls (i : Inputs) (b : Blade) (e : EventUnit) (s : State) :
    KeepsRolls s { s with inputs := i, blade := b, events := e } := RollsStay.keepsRolls {}

theorem LinkOnly.keepsRolls {s t : State} (h : LinkOnly s t) : KeepsRolls s t := by
  rw [h]
  exact RollsStay.keepsRolls {}

theorem execBladeHomeChange_keepsRolls (active : Bool) (s : State) : KeepsRollsIn s (execBladeHomeChange active s) := by
  have returns (i : Inputs) : KeepsRolls s (bladeReturns { s with inputs := i }) := by
    unfold bladeReturns
    split
    all_goals exact setAside_keepsRolls i _ _ s
  have leaves (i : Inputs) : KeepsRolls s (bladeLeaves { s with inputs := i }) := by
    unfold bladeLeaves
    split
    all_goals exact setAside_keepsRolls i _ _ s
  unfold execBladeHomeChange
  dsimp only
  repeat' split
  · exact .refl s
  · exact (returns _).next
  · exact (leaves _).next

theorem execBladeSlowTime_keepsRolls (s : State) : KeepsRollsIn s (execBladeSlowTime s) := by
  unfold execBladeSlowTime
  repeat' split
  · exact .refl s
  · exact .refl s
  · exact (setAside_keepsRolls s.inputs _ _ s).next

theorem execBladeTimeout_keepsRolls (s : State) : KeepsRollsIn s (execBladeTimeout s) := by
  unfold execBladeTimeout
  split
  · exact .refl s
  · exact ((setBlade_keepsRolls _ s).trans (reportCause_keepsRolls _ _)).refreshed.next

theorem execCommit_keepsRolls (s : State) : KeepsRollsIn s (execCommit s) := by
  unfold execCommit
  split
  · exact (commitSlot_keepsRolls _ s).refreshed.next
  · exact .refl s
  · exact .refl s

theorem execSearchSetup_keepsRolls (s : State) : KeepsRollsIn s (execSearchSetup s) := by
  unfold execSearchSetup
  split
  · exact (setUpSearch_keepsRolls _ _ s).refreshed.next
  · exact .refl s
  · exact .refl s

theorem execMarkEdge_keepsRolls (active : Bool) (s : State) : KeepsRollsIn s (execMarkEdge active s) := by
  have seen := setInputs_keepsRolls { s.inputs with mark := active } s
  unfold execMarkEdge
  dsimp only
  split
  · exact .refl s
  · refine (seen.trans ?_).refreshed.next
    repeat' split
    · exact setBar_keepsRolls _ _
    · exact leadingEdge_keepsRolls _
    · exact trailingEdge_keepsRolls _

theorem execEncoderChange_keepsRolls (e : Encoder) (p : ChannelPair) (s : State) :
    KeepsRollsIn s (execEncoderChange e p s) := by
  unfold execEncoderChange
  dsimp only
  repeat' split
  · exact .refl s
  · exact ((setPair_keepsRolls e p s).trans (reportCause_keepsRolls _ _)).refreshed.next
  · exact ((setPair_keepsRolls e p s).trans (countEncoder_keepsRolls e _ _)).refreshed.next

theorem execEStop_keepsRolls (s : State) : KeepsRollsIn s (execEStop s) := by
  unfold execEStop
  split
  · exact .refl s
  · exact ((setInputs_keepsRolls _ s).trans (reportCause_keepsRolls _ _)).refreshed.next

theorem execWebBreak_keepsRolls (s : State) : KeepsRollsIn s (execWebBreak s) := by
  unfold execWebBreak
  split
  · exact .refl s
  · exact ((setInputs_keepsRolls _ s).trans (reportCause_keepsRolls _ _)).refreshed.next

theorem execTakeOffHoldChange_keepsRolls (active : Bool) (s : State) :
    KeepsRollsIn s (execTakeOffHoldChange active s) := by
  have held : KeepsRolls s { s with
      inputs := { s.inputs with takeOffHold := active }, lg := { s.lg with hold := holdAfter active s.lg } } :=
    RollsStay.keepsRolls { line := id }
  exact held.refreshed.next

theorem ramp_keepsRolls (s : State) : KeepsRolls s (ramp s) :=
  setLine_keepsRolls (by dsimp only; split <;> [nofun; exact id])

theorem execStepPeriodEnd_keepsRolls (g : StepOutput) (s : State) : KeepsRollsIn s (execStepPeriodEnd g s) := by
  unfold execStepPeriodEnd
  repeat' split
  · exact .refl s
  · exact (setLine_keepsRolls (s := s) (by exact id)).next
  · exact .refl s
  · exact (setLine_keepsRolls (s := s) (by exact id)).next

theorem leaveInBand_keepsRolls (z : Fin 4) (s : State) : KeepsRolls s (leaveInBand z s) := RollsStay.keepsRolls {}

theorem testZone_keepsRolls (s : State) (z : Fin 4) : KeepsRolls s (testZone s z) := by
  have faulted : KeepsRolls s (faultTest z s) := by
    unfold faultTest enterFault
    dsimp only
    repeat' split
    · exact ((modifyZone_keepsRolls z _ s).trans (leaveInBand_keepsRolls z _)).trans (reportCause_keepsRolls _ _)
    · exact ((modifyZone_keepsRolls z _ s).trans (raise_keepsRolls _ _)).trans (reportCause_keepsRolls _ _)
    · exact .refl s
    · exact .refl s
  have banded (t : State) : KeepsRolls t (bandTest z t) := by
    unfold bandTest
    split
    case h_5 => exact (modifyZone_keepsRolls z _ t).trans (leaveInBand_keepsRolls z _)
    case h_1 | h_2 | h_3 | h_4 => exact modifyZone_keepsRolls z _ t
    all_goals exact .refl t
  exact faulted.trans (banded _)

theorem execScan_keepsRolls (t1 t2 t3 t4 pressure : Fin 4096) (s : State) :
    KeepsRollsIn s (execScan t1 t2 t3 t4 pressure s) := by
  have scanned : KeepsRolls s (scanChannels t1 t2 t3 t4 pressure s) := RollsStay.keepsRolls { rolls := rfl, line := id }
  have stepped (t : State) : KeepsRolls t (stepStopTimer t) := by
    unfold stepStopTimer
    dsimp only
    repeat' split
    · exact (setHeat_keepsRolls _ t).trans (fireStopTimer_keepsRolls _)
    · exact setHeat_keepsRolls _ t
    · exact .refl t
  exact ((scanned.trans (.foldl testZone_keepsRolls allZones _)).trans (stepped _)).refreshed.next

theorem execSettleComplete_keepsRolls (z : Fin 4) (s : State) : KeepsRollsIn s (execSettleComplete z s) := by
  unfold execSettleComplete
  split
  · exact (modifyZone_keepsRolls z _ s).refreshed.next
  · exact .refl s

theorem execStopTimerFire_keepsRolls (s : State) : KeepsRollsIn s (execStopTimerFire s) := by
  unfold execStopTimerFire
  split
  · exact (fireStopTimer_keepsRolls s).refreshed.next
  · exact .refl s

theorem controlZone_keepsRolls (s : State) (z : Fin 4) : KeepsRolls s (controlZone s z) := by
  unfold controlZone
  repeat' split
  · exact modifyZone_keepsRolls z _ s
  · exact .refl s
  · exact .refl s

theorem execPasteConfirm_keepsRolls (s : State) : KeepsRollsIn s (execPasteConfirm s) := by
  unfold execPasteConfirm
  dsimp only
  repeat' split
  · exact .refl s
  · next r hr =>
    obtain ⟨hsplice, -⟩ := spliceIn_eq_some_iff.mp hr
    have completed (t : State) (ht : t.rolls.splice = some r) : KeepsRolls t (completePaste r t) :=
      fun h => completePaste_rollInv h ht
    exact ((setInputs_keepsRolls { s.inputs with pasteConfirm := true } s).trans (completed _ hsplice)).refreshed.next
  · exact (setInputs_keepsRolls _ s).next

theorem execCutConfirm_keepsRolls (s : State) : KeepsRollsIn s (execCutConfirm s) := by
  unfold execCutConfirm
  dsimp only
  repeat' split
  · exact .refl s
  · next r hr =>
    obtain ⟨hsplice, -⟩ := spliceIn_eq_some_iff.mp hr
    have confirmed (t : State) (ht : t.rolls.splice = some r) : KeepsRolls t (confirmCut r t) :=
      fun h => confirmCut_rollInv h ht
    exact ((setInputs_keepsRolls { s.inputs with cutConfirm := true } s).trans (confirmed _ hsplice)).refreshed.next
  · exact (setInputs_keepsRolls _ s).next

theorem execPasteTimeout_keepsRolls (s : State) : KeepsRollsIn s (execPasteTimeout s) := by
  unfold execPasteTimeout
  split
  · next r hr =>
    obtain ⟨hsplice, hpaste⟩ := spliceIn_eq_some_iff.mp hr
    have failed : KeepsRolls s (failPaste r s) := fun h => failPaste_rollInv h hsplice hpaste
    exact ((failed.trans (spliceOver_keepsRolls _)).trans (reportCause_keepsRolls _ _)).refreshed.next
  · exact .refl s

theorem execCutTimeout_keepsRolls (s : State) : KeepsRollsIn s (execCutTimeout s) := by
  unfold execCutTimeout
  repeat' split
  · exact .refl s
  · next r hr _ =>
    obtain ⟨hsplice, hcut⟩ := spliceIn_eq_some_iff.mp hr
    have overdue : KeepsRolls s (overdueCut r s) := fun h => overdueCut_rollInv h hsplice hcut
    exact overdue.refreshed.next
  · exact .refl s

theorem execRevolutionMarkerEdge_keepsRolls (u : UnwindId) (elapsed : Nat) (s : State) :
    KeepsRollsIn s (execRevolutionMarkerEdge u elapsed s) := by
  have timed (n : Nat) : KeepsRolls s { s with rolls := { s.rolls with microTimer := n } } :=
    keepsRolls_of_states (fun u => by cases u <;> rfl) rfl (.inr ⟨rfl, rfl⟩) id
  exact ((timed _).trans (markerEdge_keepsRolls u _)).refreshed.next

/-! ### The link and the power-on reset -/

theorem execAddressCharacter_keepsRolls (v : Byte) (s : State) : KeepsRollsIn s (execAddressCharacter v s) := by
  unfold execAddressCharacter
  repeat' split
  · exact (setReceiver_linkOnly _ s).keepsRolls.next
  · exact (abandonFrame_linkOnly _ _ s).keepsRolls.next
  · exact (linkError_linkOnly _ s).keepsRolls.next
  · exact .refl s

theorem execFramingError_keepsRolls (s : State) : KeepsRollsIn s (execFramingError s) := by
  unfold execFramingError
  split
  · exact .refl s
  · exact (abandonFrame_linkOnly _ _ s).keepsRolls.next
  · exact .refl s

theorem execGapTimeout_keepsRolls (s : State) : KeepsRollsIn s (execGapTimeout s) := by
  unfold execGapTimeout
  split
  · exact .refl s
  · exact (abandonFrame_linkOnly _ _ s).keepsRolls.next
  · exact .refl s

theorem execReplySent_keepsRolls (s : State) : KeepsRollsIn s (execReplySent s) := by
  unfold execReplySent
  split
  · exact .refl s
  · exact .refl s
  · exact (withLink_keepsRolls _ s).next

theorem execDataCharacter_keepsRolls (v : Byte) (s : State) : KeepsRollsIn s (execDataCharacter v s) := by
  intro t ht
  rcases execDataCharacter_cases ht with hlink | ⟨r, src, hrequest⟩
  · exact hlink.keepsRolls
  · rw [exec_command] at hrequest
    cases hrequest
    exact acceptRequest_keepsRolls src r s

theorem execPowerOnReset_keepsRolls (p : PowerOnSamples) (s : State) : KeepsRollsIn s (execPowerOnReset p s) := by
  have cold : KeepsRolls s (coldStart p s) := fun _ => coldStart_rollInv p s
  have sampled (t : State) : KeepsRolls t (firstSampleTrips p t) := by
    unfold firstSampleTrips
    dsimp only
    repeat' split
    · exact (reportCause_keepsRolls _ t).trans (reportCause_keepsRolls _ _)
    · exact reportCause_keepsRolls _ t
    · exact reportCause_keepsRolls _ t
    · exact .refl t
  exact (cold.trans (sampled _)).next

/-! ### Every command and every step -/

theorem exec_keepsRolls (c : Instr) (s : State) : KeepsRollsIn s (exec c s) := by
  have accepted (src : Source) (r : Request) :
      KeepsRollsIn s (.next (acceptRequest src r (serve r) s)) := (acceptRequest_keepsRolls src r s).next
  cases c with
  | powerOnReset p => exact execPowerOnReset_keepsRolls p s
  | encoderChange e p => exact execEncoderChange_keepsRolls e p s
  | commit => exact execCommit_keepsRolls s
  | searchSetup => exact execSearchSetup_keepsRolls s
  | strokeGenerate =>
    have appended : KeepsRolls s (appendStroke s) := RollsStay.keepsRolls {}
    exact appended.refreshed.next
  | markEdge active => exact execMarkEdge_keepsRolls active s
  | bladeHomeChange active => exact execBladeHomeChange_keepsRolls active s
  | bladeSlowTime => exact execBladeSlowTime_keepsRolls s
  | bladeTimeout => exact execBladeTimeout_keepsRolls s
  | eStop => exact execEStop_keepsRolls s
  | webBreak => exact execWebBreak_keepsRolls s
  | takeOffHoldChange active => exact execTakeOffHoldChange_keepsRolls active s
  | revolutionMarkerEdge u elapsed => exact execRevolutionMarkerEdge_keepsRolls u elapsed s
  | pasteConfirm => exact execPasteConfirm_keepsRolls s
  | cutConfirm => exact execCutConfirm_keepsRolls s
  | pasteTimeout => exact execPasteTimeout_keepsRolls s
  | cutTimeout => exact execCutTimeout_keepsRolls s
  | rampTimer => exact (ramp_keepsRolls s).refreshed.next
  | stepPeriodEnd g => exact execStepPeriodEnd_keepsRolls g s
  | scan t1 t2 t3 t4 pressure => exact execScan_keepsRolls t1 t2 t3 t4 pressure s
  | settleComplete z => exact execSettleComplete_keepsRolls z s
  | stopTimerFire => exact execStopTimerFire_keepsRolls s
  | controlStep => exact (KeepsRolls.foldl controlZone_keepsRolls allZones s).next
  | valveBoundary => exact (KeepsRolls.foldl (fun t z => modifyZone_keepsRolls z _ t) allZones s).next
  | valveOnTimeEnd z => exact (modifyZone_keepsRolls z _ s).next
  | addressCharacter v => exact execAddressCharacter_keepsRolls v s
  | dataCharacter v => exact execDataCharacter_keepsRolls v s
  | framingError => exact execFramingError_keepsRolls s
  | gapTimeout => exact execGapTimeout_keepsRolls s
  | replySent => exact execReplySent_keepsRolls s
  | eStopReleased | webBreakReleased | pasteConfirmInactive | cutConfirmInactive =>
    exact (setInputs_keepsRolls _ s).next
  | identify src => exact accepted src .identify
  | readLink src clear => exact accepted src (.readLink clear)
  | setLimits src t v d => exact accepted src (.setLimits t v d)
  | setGeometry src g => exact accepted src (.setGeometry g)
  | setRecipe src r => exact accepted src (.setRecipe r)
  | setZoneTuning src z kp ki => exact accepted src (.setZoneTuning z kp ki)
  | setMarkCode src e n c k m => exact accepted src (.setMarkCode e n c k m)
  | setEventMask src m c => exact accepted src (.setEventMask m c)
  | loadPanel src k p => exact accepted src (.loadPanel k p)
  | cancelPanel src k => exact accepted src (.cancelPanel k)
  | releasePanel src k => exact accepted src (.releasePanel k)
  | readPanel src k => exact accepted src (.readPanel k)
  | readRing src => exact accepted src .readRing
  | start src => exact accepted src .start
  | stop src => exact accepted src .stop
  | setSpeed src v => exact accepted src (.setSpeed v)
  | trip src => exact accepted src .trip
  | clearTrip src => exact accepted src .clearTrip
  | lineReset src => exact accepted src .lineReset
  | readLine src => exact accepted src .readLine
  | heatOn src => exact accepted src .heatOn
  | heatOff src => exact accepted src .heatOff
  | readHeat src r => exact accepted src (.readHeat r)
  | rollReady src u d r t => exact accepted src (.rollReady u d r t)
  | rollRemoved src u => exact accepted src (.rollRemoved u)
  | readRolls src => exact accepted src .readRolls
  | readTracking src i => exact accepted src (.readTracking i)
  | readEvents src i => exact accepted src (.readEvents i)
  | ackEvents src c => exact accepted src (.ackEvents c)

/-- Settles O9: `exec_keepsRolls` and `tick_keepsRolls`. -/
theorem stepKeepsRolls : Obligations.StepKeepsRolls := by
  intro s t h hstep
  unfold step at hstep
  split at hstep
  · cases hstep
    exact tick_keepsRolls s h
  · next c rest _ =>
    have taken : KeepsRolls s { s with pending := rest } := RollsStay.keepsRolls {}
    exact exec_keepsRolls c _ t hstep (taken h)

end Sys2Proof.Machine
end

