-- ==== Sys2Proof/Proofs/Planning.lean ====
section
/-! PROOF. Planning evaluated (PlanningMakesOnePlan). -/

namespace Sys2Proof.Machine

open Sys2Proof.Safety

-- One proof after the other: many short ones at once need more threads than the memory limit leaves room for.
set_option Elab.async false

theorem evaluatePlanning_of_may {s : State} (h : s.mayPlan = true) :
    evaluatePlanning s = { s with rolls := { s.rolls with plan := s.planFor } } := if_pos h

theorem evaluatePlanning_of_not_may {s : State} (h : ¬ s.mayPlan = true) : evaluatePlanning s = s := if_neg h

/-- Where no plan stands, one that is not made leaves the state as it is. -/
theorem setPlan_none {s : State} (h : s.rolls.plan = none) : { s with rolls := { s.rolls with plan := none } } = s := by
  rw [← h]

theorem planFor_of_end {s : State} {e : Nat} (h : s.ps.lastEnd = some e) :
    let after := s.ps.commitPointer
    let gap := (s.status after).gapCounts
    let target := e + gap / 2
    let g := s.geometry.given
    s.planFor = if s.pc.webPosition < e ∧ (s.status after).state = .queued ∧ 2 * seamMarginCounts g ≤ gap ∧
        s.pc.webPosition + armLeadCounts g + hCounts g ≤ target then
      some { slot := after - 1, slotAfter := after, target := target, fire := target - hCounts g }
    else none := by
  have hdistance (w a h t : Nat) : h ≤ t ∧ w + a ≤ t - h ↔ w + a + h ≤ t := by omega
  simp only [State.planFor, h, hdistance]

/-- Settles O58, by `mayPlan_iff` and `planFor_of_end`. -/
theorem planningMakesOnePlan : Obligations.PlanningMakesOnePlan := by
  intro s g mm may gap
  have hmay : s.mayPlan = true ↔ may := mayPlan_iff s
  constructor
  · intro hnot
    by_cases hnow : may
    · obtain ⟨-, -, -, hplan, -, -⟩ := id hnow
      have hnone : s.planFor = none := by
        rw [State.planFor, hnot.resolve_left (not_not_intro hnow)]
      rw [evaluatePlanning_of_may (hmay.mpr hnow), hnone, setPlan_none hplan]
    · exact evaluatePlanning_of_not_may (mt hmay.mp hnow)
  · intro e hend hnow target
    obtain ⟨-, -, -, hplan, -, -⟩ := id hnow
    rw [evaluatePlanning_of_may (hmay.mpr hnow), planFor_of_end hend]
    dsimp only
    by_cases hfits : s.pc.webPosition < e ∧ (s.status s.ps.commitPointer).state = .queued ∧
        2 * seamMarginCounts g ≤ gap ∧ s.pc.webPosition + armLeadCounts g + hCounts g ≤ target
    · rw [if_pos hfits]
      exact (if_pos hfits).symm
    · rw [if_neg hfits, setPlan_none hplan]
      exact (if_neg hfits).symm

end Sys2Proof.Machine
end

