-- ==== Sys2Proof/Proofs/RollRequests.lean ====
section
/-! PROOF. ROLL-READY and ROLL-REMOVED (RollRequestsChangeStand). -/

namespace Sys2Proof.Machine

open Sys2Proof.Safety

-- One proof after the other: many short ones at once need more threads than the memory limit leaves room for.
set_option Elab.async false

/-! ### The unwind a request names -/

theorem unwindOfNumber_eq {n : Nat} {u : UnwindId} (hu : u = if n = 0 then .A else .B) :
    unwindOfNumber n = if 1 < n then none else some u := by
  subst hu
  match n with
  | 0 | 1 => rfl
  | n + 2 => simp [unwindOfNumber]

theorem modifyUnwind_countAccepted (u : UnwindId) (f : Unwind → Unwind) (s : State) :
    modifyUnwind u f (countAccepted s) = countAccepted (modifyUnwind u f s) := by cases u <;> rfl

theorem unwind_countAccepted (u : UnwindId) (s : State) : (countAccepted s).unwind u = s.unwind u := by
  cases u <;> rfl

/-! ### ROLL-READY (R153) -/

theorem mountRoll_countAccepted (u : UnwindId) (diameter threaded : Nat) (recipe : Fin 8) (s : State) :
    mountRoll u diameter recipe threaded (countAccepted s) =
      countAccepted (mountRoll u diameter recipe threaded s) := by
  simp only [mountRoll, unwind_countAccepted, modifyUnwind_countAccepted, evaluatePlanning_countAccepted]
  split <;> rfl

/-- The checks of ROLL-READY in the order of R153. -/
theorem serveRollReady_eq {unwind : Nat} {u : UnwindId} (hu : u = if unwind = 0 then .A else .B)
    (diameter recipe threaded : Nat) (s : State) :
    let other := (s.unwind (otherStand u)).state
    serveRollReady unwind diameter recipe threaded s =
      if 1 < unwind then (s, no .range 1)
      else if (s.unwind u).state ≠ .empty then (s, no .roll 0)
      else if ¬ (500 ≤ diameter ∧ diameter ≤ 15000) then (s, no .range 2)
      else if 7 < recipe then (s, no .range 3)
      else if 1 < threaded then (s, no .range 4)
      else if threaded = 1 ∧ (other = .running ∨ other = .low) then (s, no .roll 0)
      else if threaded = 1 ∧ s.lg.lineState = .running then (s, no .state 0)
      else (refresh (mountRoll u diameter (Fin.ofNat 8 recipe) threaded s),
        .done (replyFields [(1, (readyState threaded other).number)])) := by
  intro other
  have hrecipe : (0 ≤ recipe ∧ recipe ≤ 7) ↔ ¬ 7 < recipe := by omega
  have hthreaded : (0 ≤ threaded ∧ threaded ≤ 1) ↔ ¬ 1 < threaded := by omega
  have hfeeds : (s.unwind (otherStand u)).feeds = true ↔ other = .running ∨ other = .low := feeds_iff _
  by_cases hunwind : 1 < unwind
  · simp [serveRollReady, unwindOfNumber_eq hu, hunwind, refuse]
  rw [serveRollReady, unwindOfNumber_eq hu, if_neg hunwind, if_neg hunwind]
  simp only [firstFailing, within_eq, decide_eq_true_eq, hrecipe, hthreaded, ← hfeeds, refuse]
  by_cases hdiameter : 500 ≤ diameter ∧ diameter ≤ 15000
  · by_cases hhigh : 7 < recipe
    · simp [hdiameter, hhigh]
    · by_cases hthread : 1 < threaded
      · simp [hdiameter, hhigh, hthread]
      · simp [hdiameter, hhigh, hthread, other]
  · simp [hdiameter]

theorem readyReply (threaded : Nat) (other : UnwindState) :
    replyFields [(1, (readyState threaded other).number)] =
      [if readyState threaded other = .running then 5 else if readyState threaded other = .spinning then 2 else 1] := by
  unfold readyState
  split
  · rfl
  · split <;> rfl

theorem serveRollReady_countAccepted (unwind diameter recipe threaded : Nat) (s : State) :
    serveRollReady unwind diameter recipe threaded (countAccepted s) =
      (countAccepted (serveRollReady unwind diameter recipe threaded s).1,
        (serveRollReady unwind diameter recipe threaded s).2) := by
  have lg : (countAccepted s).lg = s.lg := rfl
  simp only [serveRollReady_eq (u := if unwind = 0 then .A else .B) rfl, unwind_countAccepted,
    mountRoll_countAccepted, refresh_countAccepted, lg]
  repeat' split
  all_goals rfl

/-! ### ROLL-REMOVED (R154) -/

theorem serveRollRemoved_eq {unwind : Nat} {u : UnwindId} (hu : u = if unwind = 0 then .A else .B) (s : State) :
    serveRollRemoved unwind s =
      if 1 < unwind then (s, no .range 1)
      else if (s.unwind u).state ≠ .loaded ∧ (s.unwind u).state ≠ .spent then (s, no .roll 0)
      else (modifyUnwind u removedRoll s, .done []) := by
  rw [serveRollRemoved, unwindOfNumber_eq hu]
  by_cases hunwind : 1 < unwind
  · rw [if_pos hunwind, if_pos hunwind]
    rfl
  · rw [if_neg hunwind, if_neg hunwind]
    dsimp only
    generalize (s.unwind u).state = x
    cases x <;> rfl

theorem serveRollRemoved_countAccepted (unwind : Nat) (s : State) :
    serveRollRemoved unwind (countAccepted s) =
      (countAccepted (serveRollRemoved unwind s).1, (serveRollRemoved unwind s).2) := by
  simp only [serveRollRemoved_eq (u := if unwind = 0 then .A else .B) rfl, unwind_countAccepted,
    modifyUnwind_countAccepted]
  repeat' split
  all_goals rfl

/-- Settles O59, by `serveRollReady_eq` and `serveRollRemoved_eq`. -/
theorem rollRequestsChangeStand : Obligations.RollRequestsChangeStand := by
  constructor
  · intro src unwind diameter recipe threaded s say u other state y
    change Host.Outcome.next (acceptRequest src (.rollReady unwind diameter recipe threaded)
      (serveRollReady unwind diameter recipe threaded) s) = _
    have hmounted : (if threaded = 1 then evaluatePlanning y else y) =
        mountRoll u diameter (Fin.ofNat 8 recipe) threaded s := rfl
    have hstate : readyState threaded (s.unwind (otherStand u)).state = state := rfl
    rw [acceptRequest_of_blind (serveRollReady_countAccepted unwind diameter recipe threaded s),
      serveRollReady_eq (u := u) rfl, readyReply, hstate, hmounted]
    generalize Answer.done _ = a
    repeat' split
    all_goals rfl
  · intro src unwind s say u
    change Host.Outcome.next (acceptRequest src (.rollRemoved unwind) (serveRollRemoved unwind) s) = _
    rw [acceptRequest_of_blind (serveRollRemoved_countAccepted unwind s),
      serveRollRemoved_eq (u := u) rfl]
    repeat' split
    all_goals rfl

end Sys2Proof.Machine
end

