-- ==== Sys2Proof/Proofs/RollMarkers.lean ====
section
/-! PROOF. What a revolution marker edge does by the state of the stand, and the judging of the spinning roll
(SpinningMarkerJudgesRevolution). -/

namespace Sys2Proof.Machine

open Sys2Proof.Safety

-- One proof after the other: many short ones at once need more threads than the memory limit leaves room for.
set_option Elab.async false

/-! ### Changes of one stand -/

theorem modifyUnwind_modifyUnwind (u : UnwindId) (f g : Unwind → Unwind) (s : State) :
    modifyUnwind u g (modifyUnwind u f s) = modifyUnwind u (fun w => g (f w)) s := by cases u <;> rfl

/-- A change of a stand is what it makes of the roll there. -/
theorem modifyUnwind_of_eq {u : UnwindId} {f : Unwind → Unwind} {w : Unwind} {s : State} (h : f (s.unwind u) = w) :
    modifyUnwind u f s = modifyUnwind u (fun _ => w) s := by
  subst h
  cases u <;> rfl

theorem infeedSpeed_modifyUnwind (u : UnwindId) (f : Unwind → Unwind) (s : State) :
    (modifyUnwind u f s).infeedSpeed = s.infeedSpeed := by cases u <;> rfl

/-! ### The edge, by the state of the stand (R155, R159) -/

section

variable {u : UnwindId} {s : State}

theorem markerEdge_of_none (h : s.geometry.valid = false ∨
    ((s.unwind u).state ≠ .running ∧ (s.unwind u).state ≠ .low ∧ (s.unwind u).state ≠ .spinning ∧
      (s.unwind u).state ≠ .matched)) : markerEdge u s = s := by
  unfold markerEdge
  split
  · rfl
  · next hvalid =>
    obtain ⟨hrunning, hlow, hspinning, hmatched⟩ := h.resolve_left hvalid
    split
    · exact absurd ‹_› hrunning
    · exact absurd ‹_› hlow
    · exact absurd ‹_› hspinning
    · exact absurd ‹_› hmatched
    all_goals rfl

theorem markerEdge_of_feeding (hvalid : s.geometry.valid = true)
    (h : (s.unwind u).state = .running ∨ (s.unwind u).state = .low) : markerEdge u s = feedEdge u s := by
  rw [markerEdge, if_neg (by simp [hvalid])]
  rcases h with h | h <;> rw [h]

theorem markerEdge_of_spinning (hvalid : s.geometry.valid = true)
    (h : (s.unwind u).state = .spinning ∨ (s.unwind u).state = .matched) : markerEdge u s = spinEdge u s := by
  rw [markerEdge, if_neg (by simp [hvalid])]
  rcases h with h | h <;> rw [h]

/-! ### The spinning roll (R159, R160) -/

theorem spinEdge_of_first (h : (s.unwind u).lastCapture = none) :
    spinEdge u s = modifyUnwind u (fun w => { w with lastCapture := some s.rolls.microTimer }) s := by
  rw [spinEdge, h]

theorem spinEdge_of_same (h : (s.unwind u).lastCapture = some s.rolls.microTimer) : spinEdge u s = s := by
  rw [spinEdge, h]
  exact if_pos le_rfl

theorem spinEdge_of_later {c : Nat} (h : (s.unwind u).lastCapture = some c) (hc : c < s.rolls.microTimer) :
    spinEdge u s = judgeRevolution u (s.rolls.microTimer - c)
      (modifyUnwind u (fun w => { w with lastCapture := some s.rolls.microTimer }) s) := by
  rw [spinEdge, h]
  exact if_neg (by omega)

theorem surfaceSpeed_eq (d t : Nat) : surfaceSpeed d t = (d * 355000000 + 113 * t / 2) / (113 * t) := by
  rw [surfaceSpeed, roundHalfUp, Nat.mul_assoc]

theorem revolutionPasses_iff (speed infeed : Nat) : revolutionPasses speed infeed = true ↔
    infeed ≠ 0 ∧ 100 * speed ≤ 101 * infeed ∧ 99 * infeed ≤ 100 * speed := by
  have hwithin : ((speed : Int) - infeed).natAbs * 100 ≤ infeed ↔
      100 * speed ≤ 101 * infeed ∧ 99 * infeed ≤ 100 * speed := by omega
  simp only [revolutionPasses, Bool.and_eq_true, decide_eq_true_eq, hwithin]

/-- The record of a spinning roll after a judged revolution: three of a kind in a row change its state. -/
theorem judgedRoll_eq {pass : Bool} {w : Unwind} (h : w.state = .spinning ∨ w.state = .matched) :
    judgedRoll pass w = { w with
      state := if w.state = .spinning ∧ pass = true ∧ w.matchCount = 2 then .matched
        else if w.state = .matched ∧ ¬ pass = true ∧ w.matchCount = 2 then .spinning else w.state
      matchCount := if w.state = .spinning ↔ pass = true then (if w.matchCount = 2 then 0 else w.matchCount + 1)
        else 0 } := by
  have hthird : w.matchCount + 1 = 3 ↔ w.matchCount = 2 := by omega
  by_cases hthree : w.matchCount = 2 <;> rcases h with h | h <;> cases pass <;>
    simp [judgedRoll, h, hthird, hthree]

theorem judgeRevolution_eq {t : Nat} {pass : Bool}
    (hpass : revolutionPasses (surfaceSpeed (s.unwind u).diameter t) s.infeedSpeed = pass) :
    judgeRevolution u t s =
      let z := modifyUnwind u (judgedRoll pass) s
      if (s.unwind u).state = .spinning ∧ pass = true ∧ (s.unwind u).matchCount = 2 then evaluatePlanning z else z := by
  have hmatches : (s.unwind u).state = .spinning ∧ (judgedRoll pass (s.unwind u)).state = .matched ↔
      (s.unwind u).state = .spinning ∧ pass = true ∧ (s.unwind u).matchCount = 2 := by
    refine and_congr_right fun h => ?_
    rw [judgedRoll_eq (.inl h)]
    simp [h]
  simp only [judgeRevolution, hpass, unwind_modifyUnwind_same, hmatches]

end

/-- Settles O56: the edge by the state of the stand, and a later one by `judgeRevolution_eq` and `judgedRoll_eq`. -/
theorem spinningMarkerJudgesRevolution : Obligations.SpinningMarkerJudgesRevolution := by
  intro u elapsed s old now y spinning stays
  have hexec : exec (.revolutionMarkerEdge u elapsed) s = .next (refresh (markerEdge u y)) := rfl
  have hold : y.unwind u = old := unwind_of_stands rfl rfl u
  have hedge (h : spinning) : markerEdge u y = spinEdge u y :=
    markerEdge_of_spinning (s := y) h.1 (by rw [hold]; exact h.2)
  rw [hexec]
  refine ⟨fun hstays => ?_, fun hspins hnone => ?_, fun c hc hspins hnow => ?_, fun c hc hspins hlater => ?_⟩
  · rw [markerEdge_of_none (by rwa [hold])]
  · rw [hedge hspins, spinEdge_of_first (by rwa [hold])]
  · rw [hedge hspins, spinEdge_of_same (by rw [hold, hc, hnow])]
  · intro tRev speed infeed pass third judged z
    generalize hpassed : revolutionPasses (surfaceSpeed old.diameter tRev) s.infeedSpeed = passed
    have hpass : pass ↔ passed = true := by
      rw [← hpassed, surfaceSpeed_eq, revolutionPasses_iff]
    have hjudged : judgedRoll passed { old with lastCapture := some now } = judged := by
      refine (judgedRoll_eq (w := { old with lastCapture := some now }) hspins.2).trans ?_
      simp only [← hpass]
      rfl
    rw [hedge hspins, spinEdge_of_later (by rwa [hold]) hlater,
      judgeRevolution_eq (pass := passed)
        (by rwa [unwind_modifyUnwind_same, hold, infeedSpeed_modifyUnwind]),
      modifyUnwind_modifyUnwind, modifyUnwind_of_eq (w := judged) (by rw [hold]; exact hjudged),
      unwind_modifyUnwind_same, hold]
    simp only [← hpass]
    rfl

end Sys2Proof.Machine
end

