-- ==== Sys2Proof/Proofs/ReportsAfter.lean ====
section
/-! PROOF. What the reports of a command leave alone: the end of a command with nothing due in PS, the end of a freeze,
and a cause that is not one of a paste (R102 to R106). -/

namespace Sys2Proof.Machine

open Sys2Proof.Safety

-- One proof after the other: many short ones at once need more threads than the memory limit leaves room for.
set_option Elab.async false

/-! ### Reports (R99, R104, R112, R147) -/

/-- A line that has been stopped: STOPPED at reference 0, STOPPING above it (R95). -/
def Governor.IsStopped (g : Governor) : Prop := g.lineState = if g.reference = 0 then .stopped else .stopping

/-- From `s` to `t` the blocks have reported to each other, and no more. -/
structure Reported (s t : State) : Prop where
  update : t = { s with lg := t.lg, heat := t.heat, events := t.events }
  count : ∀ c : EventClass, c ≠ .patternLow → t.eventCount c = s.eventCount c
  freeze : t.lg.freeze = s.lg.freeze
  deferredStop : t.lg.deferredStop = s.lg.deferredStop
  hold : t.lg.hold = s.lg.hold
  primary : t.lg.primary = s.lg.primary
  further : t.lg.further = s.lg.further
  lineState : s.lg.lineState ≠ .stopping → t.lg.lineState = s.lg.lineState
  stopped : s.lg.IsStopped → t.lg.IsStopped
  trips : t.lg.lineState = .tripped → s.lg.lineState = .tripped

namespace Reported

variable {s t u : State}

theorem rolls (h : Reported s t) : t.rolls = s.rolls := by rw [h.update]

theorem unwind (h : Reported s t) (u : UnwindId) : t.unwind u = s.unwind u :=
  unwind_of_stands (by rw [h.rolls]) (by rw [h.rolls]) u

theorem inputs (h : Reported s t) : t.inputs = s.inputs := by rw [h.update]

theorem holdsCause (h : Reported s t) (c : Cause) : t.holdsCause c = s.holdsCause c := by
  rw [State.holdsCause, State.holdsCause, h.primary, h.further]

theorem tripped (h : Reported s t) (hs : s.lg.lineState = .tripped) : t.lg.lineState = .tripped :=
  (h.lineState (by simp [hs])).trans hs

end Reported

/-- The ceiling acts on the reference and on STOPPING alone (R104). -/
theorem isStopped_of_clamp {g h : Governor} {ceiling : Nat} {above : Prop} [Decidable above] (hg : g.IsStopped)
    (habove : above → ceiling < g.reference) (hreference : h.reference = if above then ceiling else g.reference)
    (hstate : h.lineState = if above ∧ ceiling = 0 ∧ g.lineState = .stopping then .stopped else g.lineState) :
    h.IsStopped := by
  rw [Governor.IsStopped] at hg ⊢
  rw [hreference, hstate]
  by_cases h : above
  · have hstopping : g.lineState = .stopping := by rw [hg, if_neg (Nat.ne_zero_of_lt (habove h))]
    by_cases hzero : ceiling = 0 <;> simp [h, hzero, hstopping]
  · simp only [h, false_and, if_false]
    exact hg

theorem tripped_of_clamp {stops : Prop} [Decidable stops] {x : LineState}
    (h : (if stops then .stopped else x) = LineState.tripped) : x = .tripped := by
  split at h
  · exact LineState.noConfusion h
  · exact h

theorem clampReference_reported (s : State) : Reported s (clampReference s) := by
  have hlg := clampReference_lg s
  refine ⟨?_, ?_, ?_, ?_, ?_, ?_, ?_, fun hstate => ?_, fun hstopped => ?_, fun htripped => ?_⟩
  · rw [clampReference_eq s]
  · intro c _
    rw [clampReference_eq s]
    rfl
  iterate 5 rw [hlg]
  · rw [hlg]
    exact if_neg fun h => hstate h.2.2
  · exact isStopped_of_clamp hstopped (fun h : _ ∧ _ => h.2) (by rw [hlg]) (by rw [hlg])
  · rw [hlg] at htripped
    exact tripped_of_clamp htripped

/-- The end of a command where PS has nothing due. -/
theorem refresh_reported {s : State} (h : QuietPS s) : Reported s (refresh s) := by
  obtain ⟨-, -, -, hcount, hlg, -, hupdate⟩ := reportsAreBroughtUpToDate.1 s h
  refine ⟨hupdate, fun c hc => ?_, ?_, ?_, ?_, ?_, ?_, fun hstate => ?_, fun hstopped => ?_, fun htripped => ?_⟩
  · rw [hcount, if_neg fun hlow => hc hlow.1]
  iterate 5 rw [hlg]
  · rw [hlg]
    exact if_neg fun h => hstate h.2.2
  · exact isStopped_of_clamp hstopped (fun h : _ ∧ _ => h.2) (by rw [hlg]) (by rw [hlg])
  · rw [hlg] at htripped
    exact tripped_of_clamp htripped

/-! ### The freeze ends (R102) -/

/-- LG with the freeze removed, and a deferred STOP taken in RUNNING. -/
def liftedLine (hold starve : Bool) (g : Governor) : Governor :=
  { g with
    freeze := none, hold := hold, starve := starve
    deferredStop := if g.deferredStop = true ∧ g.lineState = .running then false else g.deferredStop
    lineState := if g.deferredStop = true ∧ g.lineState = .running then
      (if g.reference = 0 then .stopped else .stopping) else g.lineState }

theorem takeDeferredStop_lg (s : State) : (takeDeferredStop s).lg = { s.lg with
    deferredStop := if s.lg.deferredStop = true ∧ s.lg.lineState = .running then false else s.lg.deferredStop
    lineState := if s.lg.deferredStop = true ∧ s.lg.lineState = .running then
      (if s.lg.reference = 0 then .stopped else .stopping) else s.lg.lineState } := by
  unfold takeDeferredStop
  split
  · simp [stopLine]
  · rfl

theorem takeDeferredStop_events (s : State) : (takeDeferredStop s).events = s.events := by
  unfold takeDeferredStop
  split <;> rfl

theorem spliceOver_of_none {s : State} (h : s.lg.freeze = none) : spliceOver s = s := by
  unfold spliceOver
  rw [h]

/-- A splice over during a freeze: the freeze is lifted, and what follows from it is reported. -/
theorem spliceOver_of_some {s : State} (h : s.lg.freeze ≠ none) : ∃ (b : Bool) (t : State),
    Reported t (spliceOver s) ∧ t.lg = liftedLine s.inputs.takeOffHold b s.lg ∧
      ∀ c : EventClass, c ≠ .patternLow → t.eventCount c = s.eventCount c := by
  obtain ⟨v, hv⟩ := Option.ne_none_iff_exists'.mp h
  have hover : spliceOver s = clampReference (takeDeferredStop (liftFreeze s)) := by
    unfold spliceOver
    rw [hv]
  have hlift : liftFreeze s = starveTest { s with
      lg := { s.lg with freeze := none, hold := s.inputs.takeOffHold } } := rfl
  have hlg : (takeDeferredStop (liftFreeze s)).lg = liftedLine s.inputs.takeOffHold
      { s with lg := { s.lg with freeze := none, hold := s.inputs.takeOffHold } }.starves s.lg := by
    rw [takeDeferredStop_lg, hlift, starveTest_lg]
    rfl
  refine ⟨_, takeDeferredStop (liftFreeze s), hover ▸ clampReference_reported _, hlg, fun c hc => ?_⟩
  · rw [State.eventCount, takeDeferredStop_events, hlift, starveTest_eq]
    exact (setStarve_eventCount _ _ c).trans (if_neg fun hlow => hc hlow.1)

section

variable (s : State)

theorem spliceOver_freeze : (spliceOver s).lg.freeze = none := by
  by_cases h : s.lg.freeze = none
  · rw [spliceOver_of_none h, h]
  · obtain ⟨b, t, hreported, hlg, -⟩ := spliceOver_of_some h
    rw [hreported.freeze, hlg]
    rfl

theorem spliceOver_hold : (spliceOver s).lg.hold = if s.lg.freeze = none then s.lg.hold else s.inputs.takeOffHold := by
  by_cases h : s.lg.freeze = none
  · rw [spliceOver_of_none h, if_pos h]
  · obtain ⟨b, t, hreported, hlg, -⟩ := spliceOver_of_some h
    rw [hreported.hold, hlg, if_neg h]
    rfl

theorem spliceOver_eventCount {c : EventClass} (hc : c ≠ .patternLow) :
    (spliceOver s).eventCount c = s.eventCount c := by
  by_cases h : s.lg.freeze = none
  · rw [spliceOver_of_none h]
  · obtain ⟨b, t, hreported, -, hcount⟩ := spliceOver_of_some h
    rw [hreported.count c hc, hcount c hc]

/-- Without a deferred STOP in RUNNING the line stays in its state, but for one in STOPPING (R102, R104). -/
theorem spliceOver_lineState {s : State} (hstop : ¬ (s.lg.deferredStop = true ∧ s.lg.lineState = .running))
    (hstate : s.lg.lineState ≠ .stopping) : (spliceOver s).lg.lineState = s.lg.lineState := by
  by_cases h : s.lg.freeze = none
  · rw [spliceOver_of_none h]
  · obtain ⟨b, t, hreported, hlg, -⟩ := spliceOver_of_some h
    have hsame : t.lg.lineState = s.lg.lineState := by
      rw [hlg]
      exact if_neg hstop
    rw [hreported.lineState (by rwa [hsame]), hsame]

/-- A deferred STOP acts in RUNNING as the freeze ends (R102). -/
theorem spliceOver_stops {s : State} (h : s.lg.freeze ≠ none)
    (hstop : s.lg.deferredStop = true ∧ s.lg.lineState = .running) :
    (spliceOver s).lg.deferredStop = false ∧ (spliceOver s).lg.IsStopped := by
  obtain ⟨b, t, hreported, hlg, -⟩ := spliceOver_of_some h
  refine ⟨?_, hreported.stopped ?_⟩
  · rw [hreported.deferredStop, hlg]
    exact if_pos hstop
  · rw [hlg]
    exact if_pos hstop

/-- The end of a freeze does not trip the line. -/
theorem spliceOver_not_tripped {s : State} (h : s.lg.lineState ≠ .tripped) :
    (spliceOver s).lg.lineState ≠ .tripped := by
  by_cases hfreeze : s.lg.freeze = none
  · rwa [spliceOver_of_none hfreeze]
  · obtain ⟨b, t, hreported, hlg, -⟩ := spliceOver_of_some hfreeze
    refine mt hreported.trips ?_
    rw [hlg]
    dsimp only [liftedLine]
    split
    · split <;> nofun
    · exact h

end

/-! ### A cause that abandons no paste (R105, R106) -/

section

variable {c : Cause} {s : State}

/-- An immediate cause stops the line at once; the trip record, the freeze and the line state stay (R107). -/
theorem stoppedBy_rest (c : Cause) (g : Governor) : (g.stoppedBy c).lineState = g.lineState ∧
    (g.stoppedBy c).primary = g.primary ∧ (g.stoppedBy c).further = g.further ∧ (g.stoppedBy c).freeze = g.freeze := by
  unfold Governor.stoppedBy
  split <;> exact ⟨rfl, rfl, rfl, rfl⟩

theorem reportCause_line (hheat : c ≠ .heat) :
    (reportCause c s).lg.lineState = .tripped ∧ (reportCause c s).holdsCause c = true := by
  rw [holdsCause_iff]
  by_cases htripped : s.lg.lineState = .tripped
  · rw [reportCause_of_tripped c htripped]
    simp only [stoppedBy_rest]
    refine ⟨htripped, ?_⟩
    by_cases hheld : s.lg.primary = some c ∨ s.lg.further.getLsbD c.number = true
    · rwa [if_pos hheld]
    · rw [if_neg hheld]
      refine .inr ?_
      cases c <;> simp [Cause.number]
  · have htaken : s.takesCause c = true := (takesCause_iff c s).mpr fun h => absurd h hheat
    rw [reportCause_of_trip htaken htripped]
    simp only [stoppedBy_rest, enterTripped_lg]
    exact ⟨trivial, .inl trivial⟩

/-- A cause that is not reported in a paste changes no more of UU than the plan. -/
theorem reportCause_rolls_of_no_paste (hpaste : s.pasteRecord = none) :
    (reportCause c s).rolls = { s.rolls with plan := (reportCause c s).rolls.plan } := by
  cases htaken : s.takesCause c with
  | false => rw [reportCause_of_not_taken htaken]
  | true =>
    by_cases htripped : s.lg.lineState = .tripped
    · rw [reportCause_of_tripped c htripped]
    · rw [reportCause_of_trip htaken htripped]
      simp only [enterTripped_rolls, hpaste]

theorem reportCause_eventCount_of_no_paste (hpaste : s.pasteRecord = none) {k : EventClass} (htrip : k ≠ .trip)
    (hlow : k ≠ .patternLow) : (reportCause c s).eventCount k = s.eventCount k := by
  cases htaken : s.takesCause c with
  | false => rw [reportCause_of_not_taken htaken]
  | true =>
    by_cases htripped : s.lg.lineState = .tripped
    · rw [reportCause_of_tripped c htripped]
      rfl
    · rw [reportCause_of_trip htaken htripped]
      refine (enterTripped_eventCount c s k).trans (if_neg ?_)
      rintro (h | ⟨h, -⟩ | ⟨-, h⟩)
      · exact htrip h
      · exact hlow h
      · exact h hpaste

/-- A cause that trips the line is its primary cause, and ends the freeze and the plan (R102, R106, R163). -/
theorem reportCause_trips (hheat : c ≠ .heat) (h : s.lg.lineState ≠ .tripped) :
    (reportCause c s).lg.primary = some c ∧ (reportCause c s).lg.further = 0 ∧
      (reportCause c s).lg.freeze = none ∧ (reportCause c s).rolls.plan = none ∧
      (reportCause c s).eventCount .trip = min 255 (s.eventCount .trip + 1) := by
  have htaken : s.takesCause c = true := (takesCause_iff c s).mpr fun h => absurd h hheat
  rw [reportCause_of_trip htaken h]
  obtain ⟨-, hprimary, hfurther, hfreeze⟩ := stoppedBy_rest c (enterTripped c s).lg
  rw [enterTripped_lg] at hprimary hfurther hfreeze
  refine ⟨?_, ?_, ?_, ?_, ?_⟩
  · rw [enterTripped_lg, hprimary]
  · rw [enterTripped_lg, hfurther]
  · rw [enterTripped_lg, hfreeze]
  · simp only [enterTripped_rolls]
    split <;> rfl
  · exact (enterTripped_eventCount c s .trip).trans (if_pos (.inl rfl))

end

end Sys2Proof.Machine
end

