-- ==== Sys2Proof/Proofs/SpliceEnds.lean ====
section
/-! PROOF. The confirms and the timeouts of a splice (SpliceConfirmsAndTimeouts). -/

namespace Sys2Proof.Machine

open Sys2Proof.Safety

-- One proof after the other: many short ones at once need more threads than the memory limit leaves room for.
set_option Elab.async false

/-! ### The commands by the splice record (R167 to R173) -/

section

variable {s : State} {r : SpliceRecord}

theorem spliceIn_eq_none {p : SplicePhase} (h : ∀ r ∈ s.rolls.splice, r.phase ≠ p) : s.spliceIn p = none := by
  rw [State.spliceIn, Option.filter_eq_none_iff]
  exact fun r hr hphase => h r hr (by simpa using hphase)

theorem execPasteConfirm_of_active (h : s.inputs.pasteConfirm = true) : execPasteConfirm s = .next s := if_pos h

theorem execCutConfirm_of_active (h : s.inputs.cutConfirm = true) : execCutConfirm s = .next s := if_pos h

theorem execPasteConfirm_of_no_paste (h : s.inputs.pasteConfirm = false) (hsplice : s.spliceIn .paste = none) :
    execPasteConfirm s = .next { s with inputs := { s.inputs with pasteConfirm := true } } := by
  rw [execPasteConfirm, if_neg (by simp [h]), hsplice]

theorem execCutConfirm_of_no_cut (h : s.inputs.cutConfirm = false) (hsplice : s.spliceIn .cut = none) :
    execCutConfirm s = .next { s with inputs := { s.inputs with cutConfirm := true } } := by
  rw [execCutConfirm, if_neg (by simp [h]), hsplice]

theorem execPasteConfirm_of_paste (h : s.inputs.pasteConfirm = false) (hsplice : s.spliceIn .paste = some r) :
    execPasteConfirm s =
      .next (refresh (completePaste r { s with inputs := { s.inputs with pasteConfirm := true } })) := by
  rw [execPasteConfirm, if_neg (by simp [h]), hsplice]

theorem execCutConfirm_of_cut (h : s.inputs.cutConfirm = false) (hsplice : s.spliceIn .cut = some r) :
    execCutConfirm s = .next (refresh (confirmCut r { s with inputs := { s.inputs with cutConfirm := true } })) := by
  rw [execCutConfirm, if_neg (by simp [h]), hsplice]

theorem execPasteTimeout_of_paste (hsplice : s.spliceIn .paste = some r) :
    execPasteTimeout s = .next (refresh (reportCause .spliceFail (spliceOver (failPaste r s)))) := by
  rw [execPasteTimeout, hsplice]

theorem execPasteTimeout_of_no_paste (hsplice : s.spliceIn .paste = none) : execPasteTimeout s = .next s := by
  rw [execPasteTimeout, hsplice]

theorem execCutTimeout_of_cut (hsplice : s.spliceIn .cut = some r) (h : r.overdue = false) :
    execCutTimeout s = .next (refresh (overdueCut r s)) := by
  rw [execCutTimeout, hsplice]
  exact if_neg (by simp [h])

theorem execCutTimeout_of_none (h : ∀ r ∈ s.rolls.splice, r.phase = .paste ∨ r.overdue = true) :
    execCutTimeout s = .next s := by
  unfold execCutTimeout
  split
  · next r hr =>
    obtain ⟨hsplice, hcut⟩ := spliceIn_eq_some_iff.mp hr
    exact if_pos ((h r hsplice).resolve_left (by simp [hcut]))
  · rfl

end

/-- A command that changes UU, LG, the events and the inputs, and brings the reports up to date. -/
theorem Reported.update_of {s x t : State} (h : Reported x t)
    (hx : x = { s with rolls := x.rolls, lg := x.lg, events := x.events, inputs := x.inputs }) :
    t = { s with rolls := t.rolls, lg := t.lg, heat := t.heat, events := t.events, inputs := t.inputs } := by
  have hchanged := congrArg (fun y : State => { y with lg := t.lg, heat := t.heat, events := t.events }) hx
  rw [h.rolls, h.inputs]
  exact h.update.trans hchanged

theorem eq_update_rolls_line_events_inputs {s t : State} (hpc : t.pc = s.pc := by simp)
    (hgeometry : t.geometry = s.geometry := by simp) (hlimits : t.limits = s.limits := by simp)
    (hslots : t.slots = s.slots := by simp) (hps : t.ps = s.ps := by simp) (hblade : t.blade = s.blade := by simp)
    (hru : t.ru = s.ru := by simp) (htu : t.tu = s.tu := by simp) (hheat : t.heat = s.heat := by simp)
    (hlink : t.link = s.link := by simp) (hpending : t.pending = s.pending := by simp)
    (hraces : t.races = s.races := by simp) :
    t = { s with rolls := t.rolls, lg := t.lg, events := t.events, inputs := t.inputs } := by
  cases s
  cases t
  simp_all

/-! ### A cut confirmed (R170, R171) -/

/-- UU once a cut is confirmed: the new roll RUNNING, the old one SPENT, and the splice record gone. -/
theorem endCut_rolls (r : SpliceRecord) (s : State) : (endCut r s).rolls.splice = none ∧
    (endCut r s).rolls.seam = s.rolls.seam ∧ (endCut r s).rolls.plan = s.rolls.plan ∧
    (endCut r s).unwind r.new = splicedRoll (s.unwind r.new) ∧
    (endCut r s).unwind (otherStand r.new) = { s.unwind (otherStand r.new) with state := .spent } := by
  refine ⟨rfl, ?_, ?_, ?_, ?_⟩
  · cases hnew : r.new <;> simp [endCut, modifyUnwind, otherStand, hnew]
  · cases hnew : r.new <;> simp [endCut, modifyUnwind, otherStand, hnew]
  · rw [endCut_unwind, unwind_modifyUnwind_same, unwind_modifyUnwind_other (otherStand_ne r.new).symm]
  · rw [endCut_unwind, unwind_modifyUnwind_otherStand, unwind_modifyUnwind_same]

theorem endCut_eventCount (r : SpliceRecord) (s : State) (c : EventClass) :
    (endCut r s).eventCount c = s.eventCount c := by simp [State.eventCount]

section

variable {r : SpliceRecord} {s : State}

theorem confirmCut_of_overdue (h : r.overdue = true) : confirmCut r s = endCut r s := if_pos h

theorem confirmCut_of_timely (h : r.overdue = false) :
    confirmCut r s = raise .spliceDone (spliceOver (endCut r s)) := if_neg (by simp [h])

theorem confirmCut_update : confirmCut r s = { s with
    rolls := (confirmCut r s).rolls, lg := (confirmCut r s).lg, events := (confirmCut r s).events
    inputs := (confirmCut r s).inputs } := by
  cases h : r.overdue with
  | true =>
    rw [confirmCut_of_overdue h]
    exact eq_update_rolls_line_events_inputs
  | false =>
    rw [confirmCut_of_timely h]
    exact eq_update_rolls_line_events_inputs

theorem confirmCut_rolls : (confirmCut r s).rolls = (endCut r s).rolls ∧ (confirmCut r s).inputs = s.inputs := by
  cases h : r.overdue with
  | true =>
    rw [confirmCut_of_overdue h]
    simp
  | false =>
    rw [confirmCut_of_timely h]
    simp

theorem confirmCut_quiet (h : QuietPS s) : QuietPS (confirmCut r s) := by
  rw [confirmCut_update]
  exact (quietPS_congr rfl rfl rfl rfl).mpr h

/-- An overdue cut confirmed leaves the line and the events alone (R171). -/
theorem confirmCut_overdue_line (h : r.overdue = true) : (confirmCut r s).lg = s.lg ∧
    (confirmCut r s).eventCount .spliceDone = s.eventCount .spliceDone := by
  rw [confirmCut_of_overdue h, endCut_eventCount]
  simp

end

/-- LG once a cut is confirmed in time: SPLICE-DONE is raised, and the freeze ended (R102, R170). -/
theorem confirmCut_timely_line {r : SpliceRecord} {s t : State} (h : r.overdue = false)
    (ht : Reported (confirmCut r s) t) : t.eventCount .spliceDone = min 255 (s.eventCount .spliceDone + 1) ∧
    t.lg.freeze = none ∧ t.lg.hold = (if s.lg.freeze = none then s.lg.hold else s.inputs.takeOffHold) ∧
    (s.lg.freeze ≠ none → s.lg.deferredStop = true → s.lg.lineState = .running →
      t.lg.deferredStop = false ∧ t.lg.lineState = if t.lg.reference = 0 then .stopped else .stopping) ∧
    (s.lg.deferredStop = false → s.lg.lineState ≠ .stopping → t.lg.lineState = s.lg.lineState) := by
  rw [confirmCut_of_timely h] at ht
  have hlg : (raise .spliceDone (spliceOver (endCut r s))).lg = (spliceOver (endCut r s)).lg := raise_lg _ _
  have hended : (endCut r s).lg = s.lg := by simp
  have hinputs : (endCut r s).inputs = s.inputs := by simp
  refine ⟨?_, ?_, ?_, fun hfreeze hstop hrunning => ?_, fun hstop hstate => ?_⟩
  · rw [ht.count _ (by decide), eventCount_raise_same, spliceOver_eventCount _ (by decide), endCut_eventCount]
    rfl
  · rw [ht.freeze, hlg, spliceOver_freeze]
  · rw [ht.hold, hlg, spliceOver_hold, hended, hinputs]
  · obtain ⟨hdeferred, hstopped⟩ :=
      spliceOver_stops (s := endCut r s) (by rwa [hended]) (by rw [hended]; exact ⟨hstop, hrunning⟩)
    exact ⟨by rw [ht.deferredStop, hlg, hdeferred], ht.stopped (by rwa [hlg])⟩
  · have hsame : (spliceOver (endCut r s)).lg.lineState = s.lg.lineState := by
      rw [spliceOver_lineState (by simp [hstop]) (by rwa [hended]), hended]
    rw [ht.lineState (by rwa [hlg, hsame]), hlg, hsame]

/-! ### SPLICE-FAIL (R168, R171) -/

/-- SPLICE-FAIL is taken into the trip record once the splice is no longer in PASTE. -/
theorem spliceFail_reported {s t : State} (hpaste : s.pasteRecord = none)
    (ht : Reported (reportCause .spliceFail s) t) :
    t.rolls = { s.rolls with plan := t.rolls.plan } ∧ t.eventCount .spliceFail = s.eventCount .spliceFail ∧
    t.lg.lineState = .tripped ∧ t.holdsCause .spliceFail = true ∧
    (s.lg.lineState ≠ .tripped → t.lg.primary = some .spliceFail ∧ t.lg.further = 0 ∧ t.rolls.plan = none ∧
      t.lg.freeze = none ∧ t.eventCount .trip = min 255 (s.eventCount .trip + 1)) := by
  obtain ⟨hline, hholds⟩ := reportCause_line (c := .spliceFail) (s := s) (by decide)
  refine ⟨?_, ?_, ht.tripped hline, by rw [ht.holdsCause, hholds], fun hnot => ?_⟩
  · rw [ht.rolls]
    exact reportCause_rolls_of_no_paste hpaste
  · rw [ht.count _ (by decide), reportCause_eventCount_of_no_paste hpaste (by decide) (by decide)]
  · obtain ⟨hprimary, hfurther, hfreeze, hplan, htrip⟩ := reportCause_trips (c := .spliceFail) (by decide) hnot
    exact ⟨ht.primary.trans hprimary, ht.further.trans hfurther, (by rw [ht.rolls, hplan]), ht.freeze.trans hfreeze,
      (ht.count _ (by decide)).trans htrip⟩

/-- A freeze stays ended when a cause is reported (R106). -/
theorem reportCause_freeze {c : Cause} {s : State} (hheat : c ≠ .heat) (h : s.lg.freeze = none) :
    (reportCause c s).lg.freeze = none := by
  by_cases htripped : s.lg.lineState = .tripped
  · obtain ⟨-, -, -, hstopped⟩ := stoppedBy_rest c { s.lg with
      further := if s.lg.primary = some c ∨ s.lg.further.getLsbD c.number = true then s.lg.further
        else s.lg.further ||| BitVec.twoPow 10 c.number }
    rw [reportCause_of_tripped c htripped]
    exact hstopped.trans h
  · obtain ⟨-, -, hfreeze, -, -⟩ := reportCause_trips hheat htripped
    exact hfreeze

/-- UU once a paste has failed (R168). -/
theorem failPaste_rolls (r : SpliceRecord) (s : State) :
    (∃ a b, (failPaste r s).rolls = { s.rolls with a := a, b := b, splice := none }) ∧
    (failPaste r s).unwind r.new = failedRoll (s.unwind r.new) ∧
    (failPaste r s).unwind (otherStand r.new) = s.unwind (otherStand r.new) := by
  have hunwind (u : UnwindId) : (failPaste r s).unwind u = (modifyUnwind r.new failedRoll s).unwind u :=
    unwind_of_stands rfl rfl u
  rw [hunwind, hunwind, unwind_modifyUnwind_same, unwind_modifyUnwind_otherStand]
  refine ⟨?_, rfl, rfl⟩
  cases hnew : r.new <;> simp [failPaste, modifyUnwind, hnew]

/-- The reports after SPLICE-FAIL come with a change of UU, LG and the events alone. -/
theorem spliceFail_update {s x t : State} (ht : Reported (reportCause .spliceFail x) t)
    (hx : x = { s with rolls := x.rolls, lg := x.lg, events := x.events }) :
    t = { s with rolls := t.rolls, lg := t.lg, heat := t.heat, events := t.events } := by
  have hinputs : t.inputs = s.inputs := by
    rw [ht.inputs, hx]
    simp
  have hupdate := ht.update_of (s := s) (by
    rw [hx]
    exact eq_update_rolls_line_events_inputs)
  rwa [hinputs] at hupdate

/-- A paste abandoned at its timeout (R168). -/
theorem pasteTimeout_reported {s t : State} {r : SpliceRecord}
    (ht : Reported (reportCause .spliceFail (spliceOver (failPaste r s))) t) :
    t.rolls = { s.rolls with a := t.rolls.a, b := t.rolls.b, splice := none, plan := t.rolls.plan } ∧
    t.unwind r.new = { s.unwind r.new with state := .loaded, lastCapture := none, matchCount := 0 } ∧
    t.unwind (otherStand r.new) = s.unwind (otherStand r.new) ∧
    t.eventCount .spliceFail = min 255 (s.eventCount .spliceFail + 1) ∧
    t.lg.freeze = none ∧ t.lg.lineState = .tripped ∧ t.holdsCause .spliceFail = true ∧
    (s.lg.lineState ≠ .tripped → t.lg.primary = some .spliceFail ∧ t.lg.further = 0 ∧ t.rolls.plan = none ∧
      t.eventCount .trip = min 255 (s.eventCount .trip + 1)) := by
  have hrolls : (spliceOver (failPaste r s)).rolls = (failPaste r s).rolls := by simp
  have hpaste : (spliceOver (failPaste r s)).pasteRecord = none := by
    rw [State.pasteRecord, hrolls]
    rfl
  have hline : (failPaste r s).lg = s.lg := by simp
  obtain ⟨⟨a, b, hfailed⟩, hnew, hold⟩ := failPaste_rolls r s
  obtain ⟨hplan, hfail, htripped, hholds, htrips⟩ := spliceFail_reported hpaste ht
  rw [hrolls] at hplan
  have hunwind (u : UnwindId) : t.unwind u = (failPaste r s).unwind u :=
    unwind_of_stands (by rw [hplan]) (by rw [hplan]) u
  refine ⟨?_, (hunwind _).trans hnew, (hunwind _).trans hold, ?_, ?_, htripped, hholds, fun hnot => ?_⟩
  · generalize t.rolls.plan = p at hplan
    rw [hplan, hfailed]
  · rw [hfail, spliceOver_eventCount _ (by decide), failPaste_eventCount, if_pos rfl]
  · rw [ht.freeze, reportCause_freeze (by decide) (spliceOver_freeze _)]
  · obtain ⟨hprimary, hfurther, hnone, -, htrip⟩ := htrips (spliceOver_not_tripped (by rwa [hline]))
    refine ⟨hprimary, hfurther, hnone, ?_⟩
    rw [htrip, spliceOver_eventCount _ (by decide), failPaste_eventCount, if_neg (by decide)]

/-- A cut overdue at its timeout (R171). -/
theorem cutTimeout_reported {s t : State} {r : SpliceRecord} (hcut : r.phase = .cut)
    (ht : Reported (overdueCut r s) t) :
    t.rolls = { s.rolls with splice := some { r with overdue := true, time := r.timeout }, plan := t.rolls.plan } ∧
    t.eventCount .spliceFail = min 255 (s.eventCount .spliceFail + 1) ∧
    t.lg.lineState = .tripped ∧ t.holdsCause .spliceFail = true ∧
    (s.lg.lineState ≠ .tripped → t.lg.primary = some .spliceFail ∧ t.lg.further = 0 ∧ t.rolls.plan = none ∧
      t.lg.freeze = none ∧ t.eventCount .trip = min 255 (s.eventCount .trip + 1)) := by
  rw [overdueCut] at ht
  have hpaste : (raise .spliceFail { s with rolls := { s.rolls with
      splice := some { r with overdue := true, time := r.timeout } } }).pasteRecord = none := by
    rw [State.pasteRecord, raise_rolls]
    simp [Option.filter, hcut]
  obtain ⟨hplan, hfail, htripped, hholds, htrips⟩ := spliceFail_reported hpaste ht
  refine ⟨hplan, ?_, htripped, hholds, fun hnot => ?_⟩
  · rw [hfail, eventCount_raise_same]
    rfl
  · obtain ⟨hprimary, hfurther, hnone, hfreeze, htrip⟩ := htrips (by rwa [raise_lg])
    refine ⟨hprimary, hfurther, hnone, hfreeze, ?_⟩
    rw [htrip, eventCount_raise_other (by decide)]
    rfl

/-- Settles O57: each command by the splice record, and the reports after it by `Reported`. -/
theorem spliceConfirmsAndTimeouts : Obligations.SpliceConfirmsAndTimeouts := by
  constructor
  · intro s pasted cut
    refine ⟨execPasteConfirm_of_active, execCutConfirm_of_active, fun hinput hcut => ?_, fun hinput hpaste => ?_,
      fun r hr => ⟨fun hinput hpaste => ?_, fun hinput hcut hquiet => ?_⟩⟩
    · exact execPasteConfirm_of_no_paste hinput (spliceIn_eq_none fun r hr => by simp [hcut r hr])
    · exact execCutConfirm_of_no_cut hinput (spliceIn_eq_none fun r hr => by simp [hpaste r hr])
    · exact execPasteConfirm_of_paste hinput (spliceIn_eq_some_iff.mpr ⟨hr, hpaste⟩)
    · have ht : Reported (confirmCut r cut) (refresh (confirmCut r cut)) :=
        refresh_reported (confirmCut_quiet ((quietPS_congr rfl rfl rfl rfl).mpr hquiet))
      refine ⟨_, execCutConfirm_of_cut hinput (spliceIn_eq_some_iff.mpr ⟨hr, hcut⟩), ?_⟩
      generalize refresh (confirmCut r cut) = t at ht
      obtain ⟨hrolls, hinputs⟩ := confirmCut_rolls (r := r) (s := cut)
      obtain ⟨hsplice, hseam, hplan, hnew, hold⟩ := endCut_rolls r cut
      have hunwind (u : UnwindId) : t.unwind u = (endCut r cut).unwind u :=
        unwind_of_stands (by rw [ht.rolls, hrolls]) (by rw [ht.rolls, hrolls]) u
      refine ⟨?_, ?_, ?_, (hunwind _).trans hnew, (hunwind _).trans hold, ht.inputs.trans hinputs,
        fun hoverdue => ?_, fun htimely => confirmCut_timely_line (s := cut) htimely ht, ?_⟩
      · rw [ht.rolls, hrolls, hsplice]
      · rw [ht.rolls, hrolls, hseam]
      · rw [ht.rolls, hrolls, hplan]
      · obtain ⟨hlg, hdone⟩ := confirmCut_overdue_line (s := cut) hoverdue
        refine ⟨(ht.count _ (by decide)).trans hdone, ?_, ?_, ?_⟩
        · rw [ht.freeze, hlg]
        · rw [ht.hold, hlg]
        · rw [ht.deferredStop, hlg]
      · exact ht.update_of (s := s) confirmCut_update
  · intro s
    refine ⟨fun hcut => ?_, execCutTimeout_of_none,
      fun r hr => ⟨fun hpaste hquiet => ?_, fun hcut htimely hquiet => ?_⟩⟩
    · exact execPasteTimeout_of_no_paste (spliceIn_eq_none fun r hr => by simp [hcut r hr])
    · have ht := refresh_reported (s := reportCause .spliceFail (spliceOver (failPaste r s)))
        ((quietPS_congr (by simp) (by simp) (by simp) (by simp)).mpr hquiet)
      refine ⟨_, execPasteTimeout_of_paste (spliceIn_eq_some_iff.mpr ⟨hr, hpaste⟩), ?_⟩
      obtain ⟨hrolls, hnew, hold, hfail, hfreeze, hline, hholds, htrips⟩ := pasteTimeout_reported ht
      exact ⟨hrolls, hnew, hold, hfail, hfreeze, hline, hholds, htrips,
        spliceFail_update ht (eq_update_line_rolls_events (by simp) (by simp) (by simp) (by simp) (by simp) (by simp)
          (by simp) (by simp) (by simp) (by simp) (by simp) (by simp) (by simp))⟩
    · have ht := refresh_reported (s := overdueCut r s)
        ((quietPS_congr (by simp [overdueCut]) (by simp [overdueCut]) (by simp [overdueCut])
          (by simp [overdueCut])).mpr hquiet)
      refine ⟨_, execCutTimeout_of_cut (spliceIn_eq_some_iff.mpr ⟨hr, hcut⟩) htimely, ?_⟩
      obtain ⟨hrolls, hfail, hline, hholds, htrips⟩ := cutTimeout_reported hcut ht
      exact ⟨hrolls, hfail, hline, hholds, htrips, spliceFail_update ht rfl⟩

end Sys2Proof.Machine
end

