-- ==== Sys2Proof/Proofs/FireAndSeam.lean ====
section
/-! PROOF. The fire position of a plan and the seam in flight reached (FireAndSeamPositionsAct). -/

namespace Sys2Proof.Machine

open Sys2Proof.Safety

-- One proof after the other: many short ones at once need more threads than the memory limit leaves room for.
set_option Elab.async false

/-! ### The fire position (R164, R166) -/

section

variable {s : State} {p : SplicePlan}

theorem reachFire_of_short (hplan : s.rolls.plan = some p) (h : s.pc.webPosition < p.fire) : reachFire s = s := by
  rw [reachFire, hplan]
  exact if_neg h.not_ge

theorem reachFire_of_reached (hplan : s.rolls.plan = some p) (h : p.fire ≤ s.pc.webPosition) : reachFire s =
    match s.matchedRoll with
    | some new => fireSplice .planned new s
    | none => dropPlan s := by
  rw [reachFire, hplan]
  exact if_pos h

theorem matchedRoll_eq_none (ha : s.rolls.a.state ≠ .matched) (hb : s.rolls.b.state ≠ .matched) :
    s.matchedRoll = none := by
  rw [State.matchedRoll, if_neg ha, if_neg hb]

theorem matchedRoll_eq_some {u : UnwindId} (h : (s.unwind u).state = .matched)
    (hother : (s.unwind (otherStand u)).state ≠ .matched) : s.matchedRoll = some u := by
  rw [State.matchedRoll]
  cases u
  · exact if_pos h
  · exact (if_neg hother).trans (if_pos h)

end

/-! ### SPLICE marked on the ACTIVE slots (R174, R29) -/

/-- A slot as a seam at the blade line leaves it. -/
def seamMarked (x : Slot) : Slot :=
  if x.status.state = .active then { x with status := { x.status with splice := true } } else x

theorem seamMarked_panel (x : Slot) : (seamMarked x).panel = x.panel := by
  unfold seamMarked
  split <;> rfl

theorem seamMarked_status (x : Slot) : (seamMarked x).status =
    if x.status.state = .active then { x.status with splice := true } else x.status := by
  unfold seamMarked
  split <;> rfl

theorem marked_panelOf (k : Fin 32) (s : State) :
    { s with slots := s.slots.map seamMarked }.panelOf k = s.panelOf k := by
  simp [State.panelOf, State.slot, seamMarked_panel]

theorem marked_status (k : Fin 32) (s : State) : { s with slots := s.slots.map seamMarked }.status k =
    if (s.status k).state = .active then { s.status k with splice := true } else s.status k := by
  rw [State.status, State.slot, Vector.getElem_map, seamMarked_status]
  rfl

/-- Slots are alike where their panel and status records are. -/
theorem slots_ext {s t : State} (hpanel : ∀ k, t.panelOf k = s.panelOf k) (hstatus : ∀ k, t.status k = s.status k) :
    t.slots = s.slots := by
  refine Vector.ext fun i hi => ?_
  have hp : t.slots[i].panel = s.slots[i].panel := hpanel ⟨i, hi⟩
  have hs : t.slots[i].status = s.slots[i].status := hstatus ⟨i, hi⟩
  generalize t.slots[i] = x at hp hs ⊢
  generalize s.slots[i] = y at hp hs ⊢
  cases x
  cases y
  simp_all

theorem foldl_aim_panelOf (mark : SlotStatus → SlotStatus) (ks : List (Fin 32)) (k : Fin 32) (s : State) :
    (ks.foldl (fun t j => aim mark j t) s).panelOf k = s.panelOf k := by
  induction ks generalizing s with
  | nil => rfl
  | cons j ks ih => rw [List.foldl_cons, ih, aim_panelOf]

theorem foldl_aim_rest (mark : SlotStatus → SlotStatus) (ks : List (Fin 32)) (s : State) :
    ks.foldl (fun t j => aim mark j t) s = { s with slots := (ks.foldl (fun t j => aim mark j t) s).slots } := by
  have haim (t : State) (j : Fin 32) : aim mark j t = { t with slots := (aim mark j t).slots } := by
    unfold aim
    split <;> rfl
  induction ks generalizing s with
  | nil => rfl
  | cons j ks ih =>
    rw [List.foldl_cons, ih, haim]

theorem markSeamPanels_status (k : Fin 32) (s : State) : (markSeamPanels s).status k =
    if (s.status k).state = .active then { s.status k with splice := true } else s.status k := by
  refine (foldl_aim_status (mark := fun st => { st with splice := true }) (fun _ => rfl) (fun _ => rfl) _ k s).trans ?_
  have hactive : (s.status k).held = true ∧ k ∈ (List.finRange 32).filter (fun j => (s.status j).state == .active) ↔
      (s.status k).state = .active := by
    simp +contextual [SlotStatus.held]
  rw [if_congr hactive rfl rfl]

theorem markSeamPanels_eq (s : State) : markSeamPanels s = { s with slots := s.slots.map seamMarked } := by
  have hslots : (markSeamPanels s).slots = s.slots.map seamMarked := by
    refine slots_ext (t := markSeamPanels s) (s := { s with slots := s.slots.map seamMarked }) (fun k => ?_) fun k => ?_
    · rw [marked_panelOf]
      exact foldl_aim_panelOf _ _ k s
    · rw [marked_status, markSeamPanels_status]
  rw [← hslots]
  exact foldl_aim_rest _ _ s

/-! ### The seam at the blade line (R174, R123) -/

section

variable {s : State} {m : SeamInFlight}

theorem reachSeam_of_short (hseam : s.rolls.seam = some m) (h : s.pc.webPosition < m.position) : reachSeam s = s := by
  rw [reachSeam, hseam]
  exact if_neg h.not_ge

theorem reachSeam_of_reached (hseam : s.rolls.seam = some m) (h : m.position ≤ s.pc.webPosition) :
    reachSeam s = evaluatePlanning { addSeam m.recipe { s with slots := s.slots.map seamMarked } with
      rolls := { s.rolls with seam := none } } := by
  have hrolls : (addSeam m.recipe (markSeamPanels s)).rolls = s.rolls := by
    rw [markSeamPanels_eq]
    simp
  rw [reachSeam, hseam]
  refine (if_pos h).trans ?_
  dsimp only
  rw [hrolls, markSeamPanels_eq]

end

/-- A seam added with room in the tracking queue: its record joins, and the zones it has reached switch (R123). -/
theorem addSeam_of_room {r : Fin 8} {s : State} (hroom : s.tu.records.length < trackCapacity) :
    let b := max s.pc.beltPosition (queueFloor s.tu.records)
    let due := allZones.filter fun z =>
      decide ((zsCounts s.geometry.given z + zeCounts s.geometry.given z) / 2 + b ≤ s.pc.beltPosition)
    addSeam r s = due.foldl (fun u z => switchZone z r u)
      (setRecords (s.tu.records ++ [.seam b r (withZones due 0)]) s) := by
  have hadded := addSeam_eq r s
  rwa [makeRoom_of_room hroom] at hadded

/-- Zones switched one after the other: the slots gain quality marks alone, and UU, the positions and the queue stay. -/
theorem foldl_switchZone_rest (r : Fin 8) (zs : List (Fin 4)) (s : State) :
    let t := zs.foldl (fun u z => switchZone z r u) s
    t = { s with slots := t.slots, lg := t.lg, heat := t.heat, events := t.events } ∧ ∀ k, MarksOnly k s t := by
  induction zs generalizing s with
  | nil => exact ⟨rfl, fun k => .refl k s⟩
  | cons z zs ih =>
    obtain ⟨hrest, hmarks⟩ := ih (switchZone z r s)
    refine ⟨?_, fun k => (switchZone_marksOnly k z r s).trans (hmarks k)⟩
    rw [List.foldl_cons]
    generalize zs.foldl (fun u z => switchZone z r u) (switchZone z r s) = t at hrest ⊢
    rw [hrest, switchZone_eq_update]

/-- Settles O28: the fire position by `fireSplice_eq`, the seam by `reachSeam_of_reached` and `addSeam_of_room`. -/
theorem fireAndSeamPositionsAct : Obligations.FireAndSeamPositionsAct := by
  refine ⟨fun s p hplan => ⟨reachFire_of_short hplan, fun hreached => ⟨fun ha hb => ?_, fun u hu hother => ?_⟩⟩,
    fun s m hseam => ⟨reachSeam_of_short hseam, reachSeam_of_reached hseam, fun hreached hroom => ?_⟩⟩
  · rw [reachFire_of_reached hplan hreached, matchedRoll_eq_none ha hb]
    rfl
  · rw [reachFire_of_reached hplan hreached, matchedRoll_eq_some hu hother]
    exact fireSplice_eq .planned u s
  · intro t b due
    let marked : State := { s with slots := s.slots.map seamMarked }
    let joined := setRecords (s.tu.records ++ [.seam b m.recipe (withZones due 0)]) marked
    let switched := due.foldl (fun u z => switchZone z m.recipe u) joined
    have hadded : addSeam m.recipe marked = switched := addSeam_of_room (s := marked) hroom
    have ht : t = evaluatePlanning { switched with rolls := { s.rolls with seam := none } } := by
      rw [← hadded]
      exact reachSeam_of_reached hseam hreached
    obtain ⟨hrest, hmarks⟩ := foldl_switchZone_rest m.recipe due joined
    obtain ⟨plan, hplan⟩ : ∃ plan, t = { switched with rolls := { s.rolls with seam := none, plan := plan } } :=
      ⟨_, ht.trans (evaluatePlanning_eq _)⟩
    have htu : t.tu = { s.tu with records := s.tu.records ++ [.seam b m.recipe (withZones due 0)] } := by
      rw [hplan]
      exact (hmarks 0).tu
    refine ⟨by rw [hplan], by rw [hplan], by rw [hplan], by rw [hplan], htu, fun k => ?_, fun hnone => ?_, ?_, ?_⟩
    · have hstatus : t.status k = switched.status k := by rw [hplan]; rfl
      have hmarked : joined.status k = if (s.status k).state = .active then { s.status k with splice := true }
          else s.status k := marked_status k s
      rw [hstatus, (hmarks k).status, hmarked]
      by_cases hactive : (s.status k).state = .active <;> simp [hactive]
    · have hsame : switched = joined := by
        show due.foldl _ joined = joined
        rw [hnone]
        rfl
      rw [hplan, hsame]
      exact ⟨rfl, rfl, rfl⟩
    · rw [htu]
      exact ht
    · have hjoined : switched.tu = joined.tu := (hmarks 0).tu
      rw [hplan, hjoined]
      exact congrArg (fun y : State => { y with
        tu := joined.tu, rolls := { s.rolls with seam := none, plan := plan } }) hrest

end Sys2Proof.Machine
end

