-- ==== Sys2Proof/Proofs/FeedingRoll.lean ====
section
/-! PROOF. A revolution marker edge of the feeding roll (FeedingMarkerEstimatesDiameter). -/

namespace Sys2Proof.Machine

open Sys2Proof.Safety

-- One proof after the other: many short ones at once need more threads than the memory limit leaves room for.
set_option Elab.async false

/-! ### The revolution count (R155, R156) -/

section

variable {u : UnwindId} {s : State}

theorem rejectsCount_iff (last : Option Nat) (n : Nat) : rejectsCount last n = true ↔ ∃ l ∈ last, l * 33 < n * 32 := by
  cases last <;> simp [rejectsCount]

theorem feedEdge_of_first (h : (s.unwind u).lastCapture = none) :
    feedEdge u s = modifyUnwind u (fun v => { v with lastCapture := some s.pc.webPosition }) s := by
  rw [feedEdge, h]

theorem feedEdge_of_unused {c : Nat} (h : (s.unwind u).lastCapture = some c)
    (hc : s.pc.webPosition ≤ c ∨ ∃ l ∈ (s.unwind u).lastRev, l * 33 < (s.pc.webPosition - c) * 32) :
    feedEdge u s = modifyUnwind u (fun v => { v with lastCapture := some s.pc.webPosition }) s := by
  rw [← rejectsCount_iff] at hc
  rw [feedEdge, h]
  dsimp only
  by_cases hback : s.pc.webPosition ≤ c
  · exact if_pos hback
  · exact (if_neg hback).trans (if_pos (hc.resolve_left hback))

theorem feedEdge_of_counted {c : Nat} (h : (s.unwind u).lastCapture = some c) (hc : c < s.pc.webPosition)
    (hlast : ∀ l ∈ (s.unwind u).lastRev, (s.pc.webPosition - c) * 32 ≤ l * 33) :
    feedEdge u s = acceptCount u (s.pc.webPosition - c)
      (modifyUnwind u (fun v => { v with lastCapture := some s.pc.webPosition }) s) := by
  have hnot : ¬ rejectsCount (s.unwind u).lastRev (s.pc.webPosition - c) = true := by
    rw [rejectsCount_iff]
    rintro ⟨l, hl, hlt⟩
    exact absurd (hlast l hl) hlt.not_ge
  rw [feedEdge, h]
  dsimp only
  exact (if_neg hc.not_ge).trans (if_neg hnot)

end

/-! ### The estimate taken (R156, R157) -/

/-- UU once an estimate of the roll on stand u has become its diameter, with the splice window opened where it is the
first at D_arm or below, and before the comparison with D_core and D_last. -/
structure Measured (u : UnwindId) (n est now : Nat) (s x : State) : Prop where
  pc : x.pc = s.pc
  geometry : x.geometry = s.geometry
  slots : x.slots = s.slots
  ps : x.ps = s.ps
  lg : x.lg = s.lg
  splice : x.rolls.splice = s.rolls.splice
  seam : x.rolls.seam = s.rolls.seam
  time : x.rolls.microTimer = now
  stand : x.unwind u = { s.unwind u with
    lastCapture := some s.pc.webPosition, lastRev := some n, diameter := min est 15000
    state := if (s.unwind u).state = .low ∨ est ≤ s.geometry.given.dArm then .low else .running }
  other : x.unwind (otherStand u) =
    if (s.unwind u).state = .running ∧ est ≤ s.geometry.given.dArm ∧ (s.unwind (otherStand u)).state = .loaded then
      { s.unwind (otherStand u) with state := .spinning, lastCapture := none, matchCount := 0 }
    else s.unwind (otherStand u)
  count : x.eventCount .rollLow =
    if (s.unwind u).state = .running ∧ est ≤ s.geometry.given.dArm then min 255 (s.eventCount .rollLow + 1)
    else s.eventCount .rollLow

/-- A stand changed and no more of UU. -/
theorem modifyUnwind_rolls_rest (u : UnwindId) (f : Unwind → Unwind) (s : State) :
    (modifyUnwind u f s).rolls.splice = s.rolls.splice ∧ (modifyUnwind u f s).rolls.seam = s.rolls.seam ∧
      (modifyUnwind u f s).rolls.microTimer = s.rolls.microTimer := by
  cases u <;> exact ⟨rfl, rfl, rfl⟩

/-- The splice window opens: the roll is LOW, a LOADED one beside it SPINNING, and ROLL-LOW raised (R157). -/
theorem openWindow_rolls (u : UnwindId) (s : State) :
    (openWindow u s).rolls.splice = s.rolls.splice ∧ (openWindow u s).rolls.seam = s.rolls.seam ∧
    (openWindow u s).rolls.microTimer = s.rolls.microTimer ∧
    (openWindow u s).unwind u = { s.unwind u with state := .low } ∧
    (openWindow u s).unwind (otherStand u) = spunUp (s.unwind (otherStand u)) ∧
    (openWindow u s).eventCount .rollLow = min 255 (s.eventCount .rollLow + 1) := by
  have hwindow := evaluatePlanning_eq (modifyUnwind (otherStand u) spunUp
    (raise .rollLow (modifyUnwind u (fun w => { w with state := .low }) s)))
  have hunwind (v : UnwindId) : (openWindow u s).unwind v = (modifyUnwind (otherStand u) spunUp
      (modifyUnwind u (fun w => { w with state := .low }) s)).unwind v := by
    rw [openWindow, hwindow]
    cases u <;> cases v <;> simp [State.unwind, modifyUnwind, otherStand]
  refine ⟨?_, ?_, ?_, ?_, ?_, ?_⟩
  · rw [openWindow, hwindow]
    cases u <;> simp [modifyUnwind, otherStand]
  · rw [openWindow, hwindow]
    cases u <;> simp [modifyUnwind, otherStand]
  · rw [openWindow, hwindow]
    cases u <;> simp [modifyUnwind, otherStand]
  · rw [hunwind, unwind_modifyUnwind_other (otherStand_ne u).symm, unwind_modifyUnwind_same]
  · rw [hunwind, unwind_modifyUnwind_same, unwind_modifyUnwind_otherStand]
  · have hcount : (openWindow u s).eventCount .rollLow =
        (raise .rollLow (modifyUnwind u (fun w => { w with state := .low }) s)).eventCount .rollLow := by
      rw [openWindow, hwindow]
      exact modifyUnwind_eventCount _ _ _ _
    rw [hcount, eventCount_raise_same, modifyUnwind_eventCount]
    rfl

theorem openWindow_frame (u : UnwindId) (s : State) : (openWindow u s).pc = s.pc ∧
    (openWindow u s).geometry = s.geometry ∧ (openWindow u s).slots = s.slots ∧ (openWindow u s).ps = s.ps ∧
    (openWindow u s).lg = s.lg := by simp [openWindow]

/-- The record of a feeding roll with a new estimate. -/
def measuredRoll (w n est : Nat) (v : Unwind) : Unwind :=
  { v with lastCapture := some w, lastRev := some n, diameter := min est 15000 }

theorem measured_of_feeding {u : UnwindId} {n est : Nat} {s y : State} {now : Nat}
    (hy : y = { s with rolls := { s.rolls with microTimer := now } })
    (hfeeds : (s.unwind u).state = .running ∨ (s.unwind u).state = .low) :
    let z := modifyUnwind u (measuredRoll s.pc.webPosition n est) y
    Measured u n est now s
      (if (s.unwind u).state = .running ∧ est ≤ s.geometry.given.dArm then openWindow u z else z) := by
  intro z
  have hunwind (v : UnwindId) : y.unwind v = s.unwind v := unwind_of_stands (by rw [hy]) (by rw [hy]) v
  have hstand : z.unwind u = measuredRoll s.pc.webPosition n est (s.unwind u) := by
    rw [unwind_modifyUnwind_same, hunwind]
  have hother : z.unwind (otherStand u) = s.unwind (otherStand u) := by
    rw [unwind_modifyUnwind_otherStand, hunwind]
  obtain ⟨hsplice, hseam, htime⟩ := modifyUnwind_rolls_rest u (measuredRoll s.pc.webPosition n est) y
  have hcount : z.eventCount .rollLow = s.eventCount .rollLow := by
    rw [modifyUnwind_eventCount, hy]
    rfl
  have hrest : z.pc = s.pc ∧ z.geometry = s.geometry ∧ z.slots = s.slots ∧ z.ps = s.ps ∧ z.lg = s.lg := by
    simp [z, hy]
  obtain ⟨hpc, hgeometry, hslots, hps, hlg⟩ := hrest
  by_cases hopens : (s.unwind u).state = .running ∧ est ≤ s.geometry.given.dArm
  · rw [if_pos hopens]
    obtain ⟨hpc', hgeometry', hslots', hps', hlg'⟩ := openWindow_frame u z
    obtain ⟨hsplice', hseam', htime', hlow, hspun, hraised⟩ := openWindow_rolls u z
    refine ⟨hpc'.trans hpc, hgeometry'.trans hgeometry, hslots'.trans hslots, hps'.trans hps, hlg'.trans hlg,
      ?_, ?_, ?_, ?_, ?_, ?_⟩
    · rw [hsplice', hsplice, hy]
    · rw [hseam', hseam, hy]
    · rw [htime', htime, hy]
    · rw [hlow, hstand, if_pos (.inr hopens.2)]
      rfl
    · rw [hspun, hother, spunUp]
      simp [hopens]
    · rw [hraised, hcount, if_pos hopens]
  · rw [if_neg hopens]
    refine ⟨hpc, hgeometry, hslots, hps, hlg, ?_, ?_, ?_, ?_, ?_, ?_⟩
    · rw [hsplice, hy]
    · rw [hseam, hy]
    · rw [htime, hy]
    · have hsame : (if (s.unwind u).state = .low ∨ est ≤ s.geometry.given.dArm then UnwindState.low else .running) =
          (s.unwind u).state := by
        rcases hfeeds with h | h
        · rw [h, if_neg]
          rintro (hlow | hle)
          · exact UnwindState.noConfusion hlow
          · exact hopens ⟨h, hle⟩
        · rw [h, if_pos (.inl rfl)]
      rw [hstand, hsame]
      rfl
    · rw [hother, if_neg fun h => hopens ⟨h.1, h.2.1⟩]
    · rw [hcount, if_neg hopens]

/-- A count accepted: the diameter measured, the window opened where it is due, and the comparison made (R156). -/
theorem acceptCount_captured (u : UnwindId) (w n : Nat) (s : State) :
    let est := diameterOf n s.geometry.given.s
    let z := modifyUnwind u (measuredRoll w n est) s
    acceptCount u n (modifyUnwind u (fun v => { v with lastCapture := some w }) s) =
      compareDiameter u (s.unwind u).diameter est
        (if (s.unwind u).state = .running ∧ est ≤ s.geometry.given.dArm then openWindow u z else z) := by
  intro est z
  simp only [acceptCount, modifyUnwind_modifyUnwind, unwind_modifyUnwind_same, modifyUnwind_geometry]
  rfl

/-! ### A cause reported beside a paste (R106, R169) -/

section

variable {c : Cause} {s : State}

/-- A cause reported leaves each stand alone but the new roll of a paste, and the seam and the timer alone. -/
theorem reportCause_stands : (∀ u : UnwindId, (∀ r ∈ s.rolls.splice, r.phase = .paste → r.new ≠ u) →
      (reportCause c s).unwind u = s.unwind u) ∧
    (reportCause c s).rolls.seam = s.rolls.seam ∧ (reportCause c s).rolls.microTimer = s.rolls.microTimer := by
  cases hpaste : s.pasteRecord with
  | none =>
    have hrolls := reportCause_rolls_of_no_paste (c := c) hpaste
    exact ⟨fun u _ => unwind_of_stands (by rw [hrolls]) (by rw [hrolls]) u, by rw [hrolls], by rw [hrolls]⟩
  | some r =>
    have hsame (t : State) (ht : t.rolls = s.rolls) : (∀ u : UnwindId, (∀ r ∈ s.rolls.splice, r.phase = .paste →
        r.new ≠ u) → t.unwind u = s.unwind u) ∧ t.rolls.seam = s.rolls.seam ∧
        t.rolls.microTimer = s.rolls.microTimer :=
      ⟨fun u _ => unwind_of_stands (by rw [ht]) (by rw [ht]) u, by rw [ht], by rw [ht]⟩
    cases htaken : s.takesCause c with
    | false => exact hsame _ (by rw [reportCause_of_not_taken htaken])
    | true =>
      by_cases htripped : s.lg.lineState = .tripped
      · exact hsame _ (by rw [reportCause_of_tripped c htripped])
      · have hrolls : (reportCause c s).rolls = { (modifyUnwind r.new failedRoll s).rolls with
            plan := none, splice := none } := by
          rw [reportCause_of_trip htaken htripped]
          exact (enterTripped_rolls c s).trans (by rw [hpaste])
        obtain ⟨-, hseam, htime⟩ := modifyUnwind_rolls_rest r.new failedRoll s
        refine ⟨fun u hu => ?_, by rw [hrolls, hseam], by rw [hrolls, htime]⟩
        obtain ⟨hsplice, hphase⟩ := pasteRecord_eq_some_iff.mp hpaste
        have hunwind : (reportCause c s).unwind u = (modifyUnwind r.new failedRoll s).unwind u :=
          unwind_of_stands (by rw [hrolls]) (by rw [hrolls]) u
        rw [hunwind, unwind_modifyUnwind_other (hu r hsplice hphase).symm]

theorem reportCause_rollLow : (reportCause c s).eventCount .rollLow = s.eventCount .rollLow := by
  cases htaken : s.takesCause c with
  | false => rw [reportCause_of_not_taken htaken]
  | true =>
    by_cases htripped : s.lg.lineState = .tripped
    · rw [reportCause_of_tripped c htripped]
      rfl
    · rw [reportCause_of_trip htaken htripped]
      exact (enterTripped_eventCount c s .rollLow).trans (if_neg (by simp))

end

/-! ### The comparison with D_core and D_last (R158, R165) -/

/-- What is asked for a forced splice: an estimate above D_core that falls to D_last on a LOW roll, with no splice. -/
def CallsForSplice (u : UnwindId) (est : Nat) (s : State) : Prop :=
  let g := s.geometry.given
  g.dCore < est ∧ ((s.unwind u).state = .low ∨ est ≤ g.dArm) ∧ g.dLast < (s.unwind u).diameter ∧ est ≤ g.dLast ∧
    s.rolls.splice = none

/-- What a forced splice needs to fire (R165). -/
def SpliceFires (u : UnwindId) (s : State) : Prop :=
  s.lg.lineState ≠ .tripped ∧ s.rolls.seam = none ∧ (s.unwind (otherStand u)).state = .matched

section

variable {u : UnwindId} {n est now : Nat} {s x : State}

theorem Measured.low_iff (h : Measured u n est now s x) :
    (x.unwind u).state = .low ↔ (s.unwind u).state = .low ∨ est ≤ s.geometry.given.dArm := by
  rw [h.stand]
  by_cases hlow : (s.unwind u).state = .low ∨ est ≤ s.geometry.given.dArm <;> simp [hlow]

theorem Measured.other_of_matched (h : Measured u n est now s x)
    (hstate : (s.unwind (otherStand u)).state = .spinning ∨ (s.unwind (otherStand u)).state = .matched) :
    x.unwind (otherStand u) = s.unwind (otherStand u) := by
  rw [h.other, if_neg]
  rintro ⟨-, -, hloaded⟩
  rcases hstate with h | h <;> simp [hloaded] at h

theorem Measured.matched_iff (h : Measured u n est now s x) :
    (x.unwind (otherStand u)).state = .matched ↔ (s.unwind (otherStand u)).state = .matched := by
  rw [h.other]
  split
  · next hspun => simp [hspun]
  · rfl

theorem compareDiameter_of_core (h : Measured u n est now s x) (hcore : est ≤ s.geometry.given.dCore) :
    compareDiameter u (s.unwind u).diameter est x = runOut u x := by
  rw [compareDiameter, h.geometry]
  exact if_pos hcore

theorem compareDiameter_of_above (h : Measured u n est now s x) (hcore : s.geometry.given.dCore < est) :
    compareDiameter u (s.unwind u).diameter est x =
      if ((s.unwind u).state = .low ∨ est ≤ s.geometry.given.dArm) ∧
          s.geometry.given.dLast < (s.unwind u).diameter ∧ est ≤ s.geometry.given.dLast then forcedSplice u x
      else x := by
  simp only [compareDiameter, h.geometry, h.low_iff]
  exact if_neg hcore.not_ge

theorem compareDiameter_of_no_call (h : Measured u n est now s x) (hcore : s.geometry.given.dCore < est)
    (hcalls : ¬ CallsForSplice u est s) : compareDiameter u (s.unwind u).diameter est x = x := by
  rw [compareDiameter_of_above h hcore]
  split
  · next hfalls =>
    obtain ⟨hlow, hbefore, hlast⟩ := hfalls
    refine if_pos (Option.isSome_iff_ne_none.mpr fun hnone => hcalls ?_)
    exact ⟨hcore, hlow, hbefore, hlast, h.splice ▸ hnone⟩
  · rfl

theorem compareDiameter_of_call (h : Measured u n est now s x) (hcalls : CallsForSplice u est s) :
    compareDiameter u (s.unwind u).diameter est x = forcedSplice u x := by
  obtain ⟨hcore, hlow, hbefore, hlast, -⟩ := hcalls
  rw [compareDiameter_of_above h hcore, if_pos ⟨hlow, hbefore, hlast⟩]

theorem forcedSplice_of_fires (h : Measured u n est now s x) (hcalls : CallsForSplice u est s)
    (hfires : SpliceFires u s) : forcedSplice u x = fireSplice .forced (otherStand u) x := by
  obtain ⟨-, -, -, -, hsplice⟩ := hcalls
  obtain ⟨hline, hseam, hmatched⟩ := hfires
  rw [forcedSplice, h.splice, h.seam, h.lg, if_neg (by simp [hsplice]), if_neg hline, if_neg (by simp [hseam]),
    if_pos (h.matched_iff.mpr hmatched)]

theorem forcedSplice_of_not_fires (h : Measured u n est now s x) (hcalls : CallsForSplice u est s)
    (hfires : ¬ SpliceFires u s) : forcedSplice u x = reportCause .rollOut x := by
  obtain ⟨-, -, -, -, hsplice⟩ := hcalls
  rw [forcedSplice, h.splice, h.seam, h.lg, if_neg (by simp [hsplice])]
  split
  · rfl
  next hline =>
  split
  · rfl
  next hseam =>
  exact if_neg fun hmatched => hfires ⟨hline, Option.not_isSome_iff_eq_none.mp hseam, h.matched_iff.mp hmatched⟩

/-! ### What the edge leaves of the stands -/

theorem Measured.quiet (h : Measured u n est now s x) {v : State} (hslots : v.slots = x.slots) (hps : v.ps = x.ps)
    (hpc : v.pc = x.pc) (hgeometry : v.geometry = x.geometry) (hquiet : QuietPS s) : QuietPS v :=
  (quietPS_congr (hslots.trans h.slots) (hps.trans h.ps) (by rw [hpc, h.pc]) (hgeometry.trans h.geometry)).mpr hquiet

/-- A feeding roll that has run out is SPENT, with ROLL-OUT in the trip record and a roll that spun LOADED (R158). -/
theorem runOut_outcome (h : Measured u n est now s x) (hinv : RollInv s)
    (hfeeds : (s.unwind u).state = .running ∨ (s.unwind u).state = .low) :
    (runOut u x).unwind u = { x.unwind u with state := .spent } ∧ (runOut u x).rolls.microTimer = now ∧
    (runOut u x).rolls.seam = s.rolls.seam ∧ (runOut u x).eventCount .rollLow = x.eventCount .rollLow ∧
    ((s.unwind (otherStand u)).state = .spinning ∨ (s.unwind (otherStand u)).state = .matched →
      (runOut u x).unwind (otherStand u) = { s.unwind (otherStand u) with state := .loaded, matchCount := 0 }) := by
  obtain ⟨hstand, hother⟩ := ranOut_unwind u x
  obtain ⟨hsplice, -, hseam, htime, -, hevents⟩ := ranOut_rest u x
  rw [runOut_eq]
  obtain ⟨hstands, hseam', htime'⟩ := reportCause_stands (c := .rollOut) (s := ranOut u x)
  refine ⟨?_, ?_, ?_, ?_, fun hspins => ?_⟩
  · refine (hstands u fun r hr _ => ?_).trans hstand
    obtain ⟨hnew, -, -⟩ := splice_fits hinv ((hsplice.trans h.splice).symm.trans hr)
    rintro rfl
    simp [hnew] at hfeeds
  · rw [htime', htime, h.time]
  · rw [hseam', hseam, h.seam]
  · rw [reportCause_rollLow, eventCount_of_events hevents]
  · have hnone : s.rolls.splice = none :=
      no_splice_of_idle hinv (u := otherStand u) (by rcases hspins with h | h <;> simp [h])
    refine (hstands _ fun r hr _ => ?_).trans ?_
    · exact absurd ((hsplice.trans h.splice).symm.trans hr) (by simp [hnone])
    · rw [hother, h.other_of_matched hspins]
      rcases hspins with hstate | hstate <;> simp [spunDown, hstate]

/-- A forced splice leaves the feeding roll LOW, and the other one PASTING in its record (R165, R166). -/
theorem forced_outcome (h : Measured u n est now s x) (hmatched : (s.unwind (otherStand u)).state = .matched)
    (hline : s.lg.lineState ≠ .tripped) :
    let v := fireSplice .forced (otherStand u) x
    v.unwind u = x.unwind u ∧ v.rolls.microTimer = now ∧ v.rolls.seam = s.rolls.seam ∧
    v.eventCount .rollLow = x.eventCount .rollLow ∧
    v.rolls.splice = some { new := otherStand u, kind := .forced, position := s.pc.webPosition, phase := .paste,
                            time := 0, timeout := s.geometry.given.pasteTimeout, overdue := false } ∧
    v.rolls.plan = none ∧
    v.unwind (otherStand u) = { s.unwind (otherStand u) with state := .pasting, matchCount := 0 } ∧
    v.lg.freeze = some (s.lg.freeze.getD s.lg.reference) := by
  intro v
  have hfired := fireSplice_eq .forced (otherStand u) x
  obtain ⟨-, hseam, htime⟩ := modifyUnwind_rolls_rest (otherStand u)
    (fun u => { u with state := .pasting, matchCount := 0 }) x
  dsimp only at hfired
  refine ⟨?_, ?_, ?_, ?_, ?_, ?_, ?_, ?_⟩
  · rw [fireSplice_unwind, unwind_modifyUnwind_other (otherStand_ne u).symm]
  · exact (congrArg (fun t : State => t.rolls.microTimer) hfired).trans (htime.trans h.time)
  · exact (congrArg (fun t : State => t.rolls.seam) hfired).trans (hseam.trans h.seam)
  · simp [v, State.eventCount]
  · rw [← h.pc, ← h.geometry]
    exact congrArg (fun t : State => t.rolls.splice) hfired
  · exact congrArg (fun t : State => t.rolls.plan) hfired
  · rw [fireSplice_unwind, unwind_modifyUnwind_same, h.other_of_matched (.inr hmatched)]
  · refine (congrArg (fun t : State => t.lg.freeze) hfired).trans ?_
    dsimp only
    rw [h.lg]
    cases hfreeze : s.lg.freeze <;> simp [hline]

end

/-- Settles O55: the edge by the count, and the comparison of its estimate case by case. -/
theorem feedingMarkerEstimatesDiameter : Obligations.FeedingMarkerEstimatesDiameter := by
  intro u elapsed s hquiet hinv hvalid hfeeds g old other w captured
  let y : State := { s with rolls := { s.rolls with microTimer := s.rolls.microTimer + elapsed } }
  have hy (v : UnwindId) : y.unwind v = s.unwind v := unwind_of_stands rfl rfl v
  have hexec : exec (.revolutionMarkerEdge u elapsed) s = .next (refresh (feedEdge u y)) :=
    congrArg (fun t => Host.Outcome.next (refresh t)) (markerEdge_of_feeding (s := y) hvalid (by rwa [hy]))
  rw [hexec]
  refine ⟨fun hnone => ?_, fun c hc => ?_⟩
  · rw [feedEdge_of_first (by rwa [hy])]
  intro n est low calls fires
  refine ⟨fun hunused => ?_, fun hlater hlast => ?_⟩
  · rw [feedEdge_of_unused (c := c) (by rwa [hy]) (by rwa [hy])]
  have hmeasured := measured_of_feeding (n := n) (est := est) (s := s) (y := y) rfl hfeeds
  have hcounted : feedEdge u y = compareDiameter u old.diameter est
      (if old.state = .running ∧ est ≤ g.dArm then openWindow u (modifyUnwind u (measuredRoll w n est) y)
        else modifyUnwind u (measuredRoll w n est) y) := by
    rw [feedEdge_of_counted (s := y) (c := c) (by rwa [hy]) hlater (by rwa [hy]), acceptCount_captured, hy]
    rfl
  dsimp only at hmeasured
  rw [hcounted]
  generalize (if old.state = .running ∧ est ≤ g.dArm then openWindow u (modifyUnwind u (measuredRoll w n est) y)
    else modifyUnwind u (measuredRoll w n est) y) = x at hmeasured ⊢
  refine ⟨_, rfl, ?_⟩
  by_cases hcore : est ≤ g.dCore
  · have ht := refresh_reported (hmeasured.quiet (v := runOut u x) (by simp [runOut]) (by simp [runOut])
      (by simp [runOut]) (by simp [runOut]) hquiet)
    obtain ⟨hstand, htime, hseam, hcount, hspun⟩ := runOut_outcome hmeasured hinv hfeeds
    have hline : (runOut u x).lg.lineState = .tripped ∧ (runOut u x).holdsCause .rollOut = true :=
      reportCause_line (by decide)
    rw [compareDiameter_of_core hmeasured hcore]
    generalize refresh (runOut u x) = t at ht ⊢
    refine ⟨(ht.unwind u).trans ?_, by rw [ht.rolls, htime], by rw [ht.rolls, hseam],
      (ht.count _ (by decide)).trans (hcount.trans hmeasured.count), fun _ => ⟨ht.tripped hline.1, ?_⟩,
      fun hcalls => absurd hcore hcalls.1.not_ge, fun habove => absurd hcore habove.not_ge,
      fun _ hspins => (ht.unwind _).trans (hspun hspins), fun habove => absurd hcore habove.not_ge⟩
    · rw [hstand, hmeasured.stand, if_pos hcore]
    · rw [ht.holdsCause, hline.2]
  have habove : g.dCore < est := Nat.lt_of_not_ge hcore
  by_cases hcalls : calls
  · rw [compareDiameter_of_call hmeasured hcalls]
    by_cases hfires : fires
    · rw [forcedSplice_of_fires hmeasured hcalls hfires]
      obtain ⟨hline, hseamless, hmatched⟩ := id hfires
      have ht := refresh_reported (hmeasured.quiet (v := fireSplice .forced (otherStand u) x) (by simp) (by simp)
        (by simp) (by simp) hquiet)
      obtain ⟨hstand, htime, hseam, hcount, hsplice, hplan, hother, hfreeze⟩ :=
        forced_outcome hmeasured hmatched hline
      generalize refresh (fireSplice .forced (otherStand u) x) = t at ht ⊢
      refine ⟨(ht.unwind u).trans ?_, by rw [ht.rolls, htime], by rw [ht.rolls, hseam],
        (ht.count _ (by decide)).trans (hcount.trans hmeasured.count), fun hout => ?_, fun _ _ =>
          ⟨by rw [ht.rolls, hsplice], by rw [ht.rolls, hplan], (ht.unwind _).trans hother, ht.freeze.trans hfreeze⟩,
        fun _ hnot => absurd hcalls hnot, fun hle => absurd hle hcore, fun _ hnot => absurd ⟨hcalls, hfires⟩ hnot⟩
      · rw [hstand, hmeasured.stand, if_neg hcore]
      · exact (hout.elim hcore fun hnot => hnot.2 hfires).elim
    · rw [forcedSplice_of_not_fires hmeasured hcalls hfires]
      have ht := refresh_reported (hmeasured.quiet (v := reportCause .rollOut x) (by simp) (by simp) (by simp)
        (by simp) hquiet)
      obtain ⟨hline, hholds⟩ := reportCause_line (c := .rollOut) (s := x) (by decide)
      obtain ⟨hstands, hseam, htime⟩ := reportCause_stands (c := .rollOut) (s := x)
      obtain ⟨-, -, -, -, hfree⟩ := id hcalls
      have hnone : x.rolls.splice = none := hmeasured.splice.trans hfree
      have hunwind (v : UnwindId) : (reportCause .rollOut x).unwind v = x.unwind v :=
        hstands v fun r hr => absurd hr (by simp [hnone])
      generalize refresh (reportCause .rollOut x) = t at ht ⊢
      refine ⟨(ht.unwind u).trans ((hunwind u).trans ?_), by rw [ht.rolls, htime, hmeasured.time],
        by rw [ht.rolls, hseam, hmeasured.seam],
        (ht.count _ (by decide)).trans (reportCause_rollLow.trans hmeasured.count),
        fun _ => ⟨ht.tripped hline, by rw [ht.holdsCause, hholds]⟩, fun _ hfires' => absurd hfires' hfires,
        fun _ hnot => absurd hcalls hnot, fun hle => absurd hle hcore,
        fun _ _ => (ht.unwind _).trans ((hunwind _).trans hmeasured.other)⟩
      rw [hmeasured.stand, if_neg hcore]
  · rw [compareDiameter_of_no_call hmeasured habove hcalls]
    have ht := refresh_reported (hmeasured.quiet rfl rfl rfl rfl hquiet)
    generalize refresh x = t at ht ⊢
    refine ⟨(ht.unwind u).trans ?_, by rw [ht.rolls, hmeasured.time], by rw [ht.rolls, hmeasured.seam],
      (ht.count _ (by decide)).trans hmeasured.count, fun hout => ?_, fun hcalls' => absurd hcalls' hcalls,
      fun _ _ => ⟨by rw [ht.rolls, hmeasured.splice], by rw [ht.primary, hmeasured.lg]⟩,
      fun hle => absurd hle hcore, fun _ _ => (ht.unwind _).trans hmeasured.other⟩
    · rw [hmeasured.stand, if_neg hcore]
    · exact (hout.elim hcore fun hnot => hcalls hnot.1).elim

end Sys2Proof.Machine
end
